-- ==== Sys2Proof/Word.lean ====
section
/-! DEFINITION. The number types of the SQ32: the fields of a 48-bit frame, the small numbered
names (tags, programs, blocks, stock classes) and fixed tables indexed by them. -/

namespace Sys2Proof

/-- The 20 data bits of a reply and of a job record word (section 11.2, section 4.1). -/
abbrev Data := BitVec 20

/-- The 6-bit tag field of a frame (section 11.2). -/
abbrev TagField := BitVec 6

/-- A packed program step (section 11.4). -/
abbrev PackedStep := BitVec 32

/-- A pile tag. The manual's tag number is `tagNum t`, 1..32; tag number 0, "no pile", is `none`
of `Option Tag`. -/
abbrev Tag := Fin 32

/-- A program. The manual's program number is `progNum p`, 1..48; program number 0, "unset", is
`none` of `Option ProgNo`. -/
abbrev ProgNo := Fin 48

/-- A block of the block region, 0..63 (R134). -/
abbrev BlockNo := Fin 64

/-- A stock class, 0..15. -/
abbrev ClassNo := Fin 16

/-- The tag number of a tag, 1..32. -/
def tagNum (t : Tag) : Nat := t.val + 1

/-- The program number of a program, 1..48. -/
def progNum (p : ProgNo) : Nat := p.val + 1

/-- Division that rounds any remainder up ("ceil" of the manual's Conventions). -/
def ceilDiv (a b : Nat) : Nat := (a + b - 1) / b

/-- The entry of a fixed table at an index. -/
def look {α : Type} {n : Nat} (v : Vector α n) (i : Fin n) : α := v[i.val]

/-- The table with the entry at one index replaced. -/
def put {α : Type} {n : Nat} (v : Vector α n) (i : Fin n) (x : α) : Vector α n := v.set i.val x

@[simp] theorem look_put_same {α : Type} {n : Nat} (v : Vector α n) (i : Fin n) (x : α) :
    look (put v i x) i = x := by simp [look, put]

theorem look_put_other {α : Type} {n : Nat} (v : Vector α n) {i j : Fin n} (x : α) (h : i ≠ j) :
    look (put v i x) j = look v j := by
  have h' : i.val ≠ j.val := fun e => h (Fin.ext e)
  simp [look, put, h']

theorem look_put {α : Type} {n : Nat} (v : Vector α n) (i j : Fin n) (x : α) :
    look (put v i x) j = if i = j then x else look v j := by
  by_cases h : i = j
  · subst h; simp
  · simp [look_put_other v x h, h]

@[simp] theorem look_replicate {α : Type} {n : Nat} (x : α) (i : Fin n) :
    look (Vector.replicate n x) i = x := by simp [look]

end Sys2Proof
end

