-- ==== Sys2Proof/Syntax.lean ====
section
/-! DEFINITION. The commands of the SQ32: one constructor for every row of spec/opcode_table.json,
with the fields of the request frame that its rule reads (section 11.4, Argument packings). -/

namespace Sys2Proof

/-- The five ports (section 11.1). -/
inductive Port where
  | lift | jog | knife | turn | plan
  deriving DecidableEq, Repr

/-- The four stations; each owns the port of its name. -/
inductive Station where
  | lift | jog | knife | turn
  deriving DecidableEq, Repr

/-- The two ports that admit BLADE_CHANGED (R124). -/
inductive BladePort where
  | knife | plan
  deriving DecidableEq, Repr

/-- Why a Port Unit discards a frame (R161). -/
inductive DiscardCause where
  /-- The number of rising SCK edges was not 48. -/
  | wrongCount
  /-- The check field differs from the check computed over bits 47..8. -/
  | badCheck
  /-- The frame began less than 5 µs after the end of the port's previous frame. -/
  | shortGap
  deriving DecidableEq, Repr

/-- One command: an accepted request of a port, a discarded frame, or an event of the device.
`tag` is the request's tag field as received, kept because a reply echoes it where its rule gives no
tag (R165). Fields of a frame that a command does not use are not operands (R164). -/
inductive Instr where
  | nop (p : Port)
  | status (p : Port)
  | snapshot (p : Port) (tag : TagField)
  | snapRead (p : Port) (tag : TagField) (word : BitVec 5)
  | pileRead (p : Port) (tag : TagField) (word : BitVec 4)
  | next (st : Station)
  | done (st : Station) (tag : TagField) (outcome : BitVec 2) (value : Data)
  | abort (st : Station) (tag : TagField)
  | extend (st : Station) (tag : TagField)
  | jobRead (st : Station) (tag : TagField) (word : BitVec 4)
  | bladeChanged (p : BladePort) (tag : TagField)
  | lineStart (tag : TagField)
  | lineStop (tag : TagField)
  | lineReset (tag : TagField)
  | configWrite (table : TagField) (index : BitVec 4) (setting : BitVec 4) (value : Data)
  | configRead (table : TagField) (index : BitVec 4) (setting : BitVec 4)
  | palletField (tag : TagField) (field : BitVec 4) (value : Data)
  | palletQueue (tag : TagField)
  | palletCancel (tag : TagField) (seq : BitVec 8)
  | palletRead (tag : TagField) (source : BitVec 4) (word : BitVec 4)
  | loadBegin (program : TagField) (count : BitVec 8)
  /-- `top` is frame bits 41..40, which LOAD_STEP does not use and an echoed tag field shows. -/
  | loadStep (top : BitVec 2) (step : PackedStep)
  | loadEnd (tag : TagField) (mode : BitVec 4) (check : BitVec 16)
  | loadAbort (tag : TagField)
  | progErase (program : TagField)
  | progRead (program : TagField) (half : BitVec 4) (index : BitVec 8)
  | progInfo (program : TagField) (item : BitVec 4)
  | release (tag : TagField) (action : BitVec 4)
  | eventRead (tag : TagField)
  /-- An accepted request whose code is unassigned or not admitted on its port (R164). -/
  | badCommand (p : Port) (code : BitVec 6) (tag : TagField)
  | frameDiscarded (p : Port) (cause : DiscardCause)
  | haltAsserted
  | haltReleased
  /-- `haltInput` is the level of the HALT input at the start of the start-up scan (R156). -/
  | hardwareReset (haltInput : Bool)
  | scanEnd
  | timebaseTick
  | responseTimerExpiry (st : Station)
  /-- `matched`: the block read back equals what was written (R142). -/
  | blockWriteDone (matched : Bool)
  /-- `matched`: the directory copy read back equals what was written (R135). -/
  | directoryWriteDone (matched : Bool)
  | drainComplete
  deriving DecidableEq, Repr

/-- The port of a station. -/
def Station.port : Station → Port
  | .lift => .lift
  | .jog => .jog
  | .knife => .knife
  | .turn => .turn

/-- The port a BLADE_CHANGED came on. -/
def BladePort.port : BladePort → Port
  | .knife => .knife
  | .plan => .plan

/-- The place of a station in a table of four, which is also its code in hold records and HELD events
(section 11.4: LIFT 0, JOG 1, KNIFE 2, TURN 3). -/
def Station.ix : Station → Fin 4
  | .lift => 0
  | .jog => 1
  | .knife => 2
  | .turn => 3

/-- The port number of section 11.1. -/
def Port.ix : Port → Fin 5
  | .lift => 0
  | .jog => 1
  | .knife => 2
  | .turn => 3
  | .plan => 4

end Sys2Proof
end

