-- ==== Sys2Proof/Decode.lean ====
section
/-! DEFINITION. The request frame: its check, its fields, the command a frame spells on a port and the
frame that spells a command (R161, R164, section 11.2 and section 11.4). The rows of
spec/opcode_table.json give no bits, so the host's table decoder spells none. -/

namespace Sys2Proof

/-- One bit of the check of R161: generator x^8 + x^5 + x^3 + x^2 + x + 1. -/
def crc8Bit (c : BitVec 8) (b : Bool) : BitVec 8 :=
  if c.msb != b then (c <<< 1) ^^^ 0x2F#8 else c <<< 1

/-- The check of R161 over bits 47..8 of a frame: initial value C3h, most significant bit first, no final
inversion. -/
def crc8 (body : BitVec 40) : BitVec 8 :=
  (List.range 40).foldl (fun c i => crc8Bit c (body.getMsbD i)) 0xC3#8

/-- A frame from its bits 47..8, the check added. -/
def withCheck (body : BitVec 40) : BitVec 48 := body ++ crc8 body

/-- Bits 47..8 of a frame. -/
def frameBody (f : BitVec 48) : BitVec 40 := f.extractLsb' 8 40

/-- Whether a frame's check field agrees with its bits 47..8. -/
def checkMatches (f : BitVec 48) : Bool := f.extractLsb' 0 8 == crc8 (frameBody f)

/-- A request frame from its command code, tag field and argument. -/
def requestFrame (code : BitVec 6) (tag : TagField) (arg : BitVec 28) : BitVec 48 :=
  withCheck (code ++ tag ++ arg)

def requestCode (f : BitVec 48) : BitVec 6 := f.extractLsb' 42 6
def requestTag (f : BitVec 48) : TagField := f.extractLsb' 36 6
/-- Argument bit n stands at frame bit n + 8. -/
def requestArg (f : BitVec 48) : BitVec 28 := f.extractLsb' 8 28

/-- The station whose port this is. -/
def stationOf : Port → Option Station
  | .lift => some .lift
  | .jog => some .jog
  | .knife => some .knife
  | .turn => some .turn
  | .plan => none

/-- The command table of R164: which codes a port admits. -/
def admits (p : Port) (code : BitVec 6) : Bool :=
  let c := code.toNat
  c ≤ 4
    || (p != .plan && 8 ≤ c && c ≤ 12)
    || ((p == .knife || p == .plan) && c == 13)
    || (p == .plan && 16 ≤ c && c ≤ 33)

/-- The command that an accepted request frame spells on a port (R164 and the argument packings of
section 11.4). -/
def decodeRequest (p : Port) (f : BitVec 48) : Instr :=
  let code := requestCode f
  let tag := requestTag f
  let arg := requestArg f
  if admits p code then
    match code.toNat, stationOf p with
    | 0, _ => .nop p
    | 1, _ => .status p
    | 2, _ => .snapshot p tag
    | 3, _ => .snapRead p tag (arg.extractLsb' 0 5)
    | 4, _ => .pileRead p tag (arg.extractLsb' 0 4)
    | 8, some st => .next st
    | 9, some st => .done st tag (arg.extractLsb' 26 2) (arg.extractLsb' 0 20)
    | 10, some st => .abort st tag
    | 11, some st => .extend st tag
    | 12, some st => .jobRead st tag (arg.extractLsb' 0 4)
    | 13, some _ => .bladeChanged .knife tag
    | 13, none => .bladeChanged .plan tag
    | 16, _ => .lineStart tag
    | 17, _ => .lineStop tag
    | 18, _ => .lineReset tag
    | 19, _ => .configWrite tag (arg.extractLsb' 24 4) (arg.extractLsb' 20 4) (arg.extractLsb' 0 20)
    | 20, _ => .configRead tag (arg.extractLsb' 24 4) (arg.extractLsb' 20 4)
    | 21, _ => .palletField tag (arg.extractLsb' 24 4) (arg.extractLsb' 0 20)
    | 22, _ => .palletQueue tag
    | 23, _ => .palletCancel tag (arg.extractLsb' 0 8)
    | 24, _ => .palletRead tag (arg.extractLsb' 24 4) (arg.extractLsb' 0 4)
    | 25, _ => .loadBegin tag (arg.extractLsb' 0 8)
    | 26, _ => .loadStep (tag.extractLsb' 4 2) (tag.extractLsb' 0 4 ++ arg)
    | 27, _ => .loadEnd tag (arg.extractLsb' 24 4) (arg.extractLsb' 0 16)
    | 28, _ => .loadAbort tag
    | 29, _ => .progErase tag
    | 30, _ => .progRead tag (arg.extractLsb' 8 4) (arg.extractLsb' 0 8)
    | 31, _ => .progInfo tag (arg.extractLsb' 0 4)
    | 32, _ => .release tag (arg.extractLsb' 0 4)
    | 33, _ => .eventRead tag
    | _, _ => .badCommand p code tag
  else .badCommand p code tag

/-- The command that a frame on a port comes to: `gapOk` when it began 5 µs or more after the port's
previous frame, `edges` the number of rising SCK edges (R161). A short gap is named first, since only it
takes the reply slot from the frame itself (R162). -/
def decodeFrame (p : Port) (gapOk : Bool) (edges : Nat) (f : BitVec 48) : Instr :=
  if !gapOk then .frameDiscarded p .shortGap
  else if edges ≠ 48 then .frameDiscarded p .wrongCount
  else if !checkMatches f then .frameDiscarded p .badCheck
  else decodeRequest p f

/-- The request that spells a command: its port and frame, the fields it does not use zero. None for the
rows that are no request: a discarded frame and the events of the device. -/
def encodeRequest : Instr → Option (Port × BitVec 48)
  | .nop p => some (p, requestFrame 0 0 0)
  | .status p => some (p, requestFrame 1 0 0)
  | .snapshot p tag => some (p, requestFrame 2 tag 0)
  | .snapRead p tag word => some (p, requestFrame 3 tag (0#23 ++ word))
  | .pileRead p tag word => some (p, requestFrame 4 tag (0#24 ++ word))
  | .next st => some (st.port, requestFrame 8 0 0)
  | .done st tag outcome value => some (st.port, requestFrame 9 tag (outcome ++ 0#6 ++ value))
  | .abort st tag => some (st.port, requestFrame 10 tag 0)
  | .extend st tag => some (st.port, requestFrame 11 tag 0)
  | .jobRead st tag word => some (st.port, requestFrame 12 tag (0#24 ++ word))
  | .bladeChanged p tag => some (p.port, requestFrame 13 tag 0)
  | .lineStart tag => some (.plan, requestFrame 16 tag 0)
  | .lineStop tag => some (.plan, requestFrame 17 tag 0)
  | .lineReset tag => some (.plan, requestFrame 18 tag 0)
  | .configWrite table index setting value =>
      some (.plan, requestFrame 19 table (index ++ setting ++ value))
  | .configRead table index setting => some (.plan, requestFrame 20 table (index ++ setting ++ 0#20))
  | .palletField tag field value => some (.plan, requestFrame 21 tag (field ++ 0#4 ++ value))
  | .palletQueue tag => some (.plan, requestFrame 22 tag 0)
  | .palletCancel tag seq => some (.plan, requestFrame 23 tag (0#20 ++ seq))
  | .palletRead tag source word => some (.plan, requestFrame 24 tag (source ++ 0#20 ++ word))
  | .loadBegin program count => some (.plan, requestFrame 25 program (0#20 ++ count))
  | .loadStep top step =>
      some (.plan, requestFrame 26 (top ++ step.extractLsb' 28 4) (step.extractLsb' 0 28))
  | .loadEnd tag mode check => some (.plan, requestFrame 27 tag (mode ++ 0#8 ++ check))
  | .loadAbort tag => some (.plan, requestFrame 28 tag 0)
  | .progErase program => some (.plan, requestFrame 29 program 0)
  | .progRead program half index => some (.plan, requestFrame 30 program (0#16 ++ half ++ index))
  | .progInfo program item => some (.plan, requestFrame 31 program (0#24 ++ item))
  | .release tag action => some (.plan, requestFrame 32 tag (0#24 ++ action))
  | .eventRead tag => some (.plan, requestFrame 33 tag 0)
  | .badCommand p code tag => some (p, requestFrame code tag 0)
  | .frameDiscarded _ _ => none
  | .haltAsserted => none
  | .haltReleased => none
  | .hardwareReset _ => none
  | .scanEnd => none
  | .timebaseTick => none
  | .responseTimerExpiry _ => none
  | .blockWriteDone _ => none
  | .directoryWriteDone _ => none
  | .drainComplete => none

/-- The command that a word spells by the bits of spec/opcode_table.json: no row of that table gives
bits, so no word spells a command there. The frames of the ports are read by `decodeFrame`. -/
def decodeTableWord (_nbits _w : Nat) : Option Instr := none

end Sys2Proof
end

