-- ==== Sys2Proof/Config.lean ====
section
/-! DEFINITION. The free values of the model: what the manual leaves open. None has a body, so
nothing can be proved of the value it takes. -/

namespace Sys2Proof

/-- The header (owner program number and position) of a block whose write was not completed, or was
read back with a difference: R142, R143 and R146 say nothing of what such a block holds. Log entry 4. -/
opaque Config.openHeader : Nat → Option (Nat × Nat)

/-- The step places of such a block: free choice number, then place 0..47. Log entry 4. -/
opaque Config.openStep : Nat → Nat → PackedStep

/-- What reading a step place returns that no completed write has filled (block number, place):
"Step places after the last step of the program hold nothing that is read" (R134). Log entry 5. -/
opaque Config.unwrittenStep : Nat → Nat → PackedStep

/-- What PROG_READ shows of a step (program number, step index) of a DAMAGED program whose block list
is too short to hold that step. R148 gives no value. Log entry 5. -/
opaque Config.unlistedStep : Nat → Nat → PackedStep

/-- Whether LINE_STOPPED joins the Event Queue before the other events of the command that completes
the drain: "Events raised by different blocks at the same moment join in either order" (R167).
Log entry 6. -/
opaque Config.lineStoppedFirst : Nat → Bool

end Sys2Proof
end

