-- ==== Sys2Proof/Machine/State.lean ====
section
/-! DEFINITION. The state of the SQ32 as plain data: every record, list, table, counter, flag and output
line the manual gives it, the queue of waiting commands, and the state after reset. INVENTORY.md lists
each field with its rule and its reset value. -/

namespace Sys2Proof.Machine

/-! ### Names -/

/-- The edges of a sheet, coded N 0, E 1, S 2, W 3 (section 11.4). -/
inductive Edge where
  | n | e | s | w
  deriving DecidableEq, Repr

/-- The face of a pile: UP when the printed side is uppermost. -/
inductive Face where
  | up | down
  deriving DecidableEq, Repr

/-- The turns of R48 and R29. "none" is `none` of `Option Turn`. -/
inductive Turn where
  | cw | ccw | half | flip
  deriving DecidableEq, Repr

/-- Where a pile is and what is happening to it (section 1.4). -/
inductive Residency where
  | lifting | jogWait | jogging | knifeWait | returnWait | stacked | atKnife | knifeJob
  | turnWait | turning | held
  deriving DecidableEq, Repr

/-- The hold reasons of section 1.7. -/
inductive HoldReason where
  | timeout | machine | overheight | jogReject | jogRetries | cutBeyond | noRoom
  deriving DecidableEq, Repr

/-- The hold field of a pile record: the reason and the station where the hold was taken (R17). -/
structure Hold where
  reason : HoldReason
  station : Station
  deriving DecidableEq, Repr

/-- The line states of section 10.1. -/
inductive LineState where
  | starting | config | run | draining | stopped
  deriving DecidableEq, Repr

/-- The result codes of section 11.2. -/
inductive Result where
  | ok | job | wait | retry | late | unknownTag | notYours | badCommand
  | badArg | notReady | notRunning | lineRunning | busy | inUse | full | invalid
  deriving DecidableEq, Repr

/-! ### Records -/

/-- A pile record in use (section 1.1). Its tag is its place in the Pile Table. -/
structure Pile where
  residency : Residency
  /-- Sequence number of the pallet the sheets came from. -/
  pallet : Nat
  liftNumber : Nat
  parent : Option Tag
  program : ProgNo
  cursor : Nat
  cls : ClassNo
  sheets : Nat
  height : Nat
  depth : Nat
  width : Nat
  gauge : Edge
  face : Face
  started : Bool
  attempt : Nat
  pendingTurn : Option Turn
  caliperDev : Bool
  limitedSeen : Bool
  hold : Option Hold
  deriving DecidableEq, Repr

/-- The Pallet Draft (R76). -/
structure Draft where
  program : Option ProgNo
  cls : ClassNo
  sheets : Nat
  caliper : Nat
  extentNS : Nat
  extentEW : Nat
  gauge : Edge
  face : Face
  deriving DecidableEq, Repr

/-- A pallet record (section 5.3). -/
structure Pallet where
  seq : Nat
  program : ProgNo
  cls : ClassNo
  caliper : Nat
  extentNS : Nat
  extentEW : Nat
  gauge : Edge
  face : Face
  declared : Nat
  remaining : Nat
  lifted : Nat
  cancelled : Nat
  live : Nat
  liftsIssued : Nat
  delivered : Nat
  scrapped : Nat
  deriving DecidableEq, Repr

/-- The four kinds of knife job (R112). -/
inductive KnifeKind where
  | cut
  | transferTurn (turn : Turn)
  | transferJog
  | deliver
  deriving DecidableEq, Repr

/-- The knife's job record by its named contents (R112). -/
structure KnifeJob where
  kind : KnifeKind
  keep : Bool
  limited : Bool
  capped : Bool
  overdue : Bool
  target : Nat
  force : Nat
  step : Nat
  program : ProgNo
  deriving DecidableEq, Repr

/-- The job record of a station by its named contents; `jobWord` lays out its words w0..w3. -/
inductive Job where
  /-- No job issued since reset: every word is 0 (R59). -/
  | none
  /-- R88. -/
  | lift (sheets expected seq liftNumber : Nat) (cls : ClassNo)
  /-- R95. -/
  | jog (duration amplitude air sheets height attempt : Nat)
  /-- R112. -/
  | knife (j : KnifeJob)
  /-- R127. -/
  | turn (turn : Option Turn) (depth width height : Nat)
  deriving DecidableEq, Repr

/-- A station context (section 4.1). -/
structure Context where
  busy : Bool
  tag : Option Tag
  job : Job
  recordTag : Option Tag
  /-- The job-read pointer. -/
  pointer : Fin 4
  running : Bool
  remaining : Nat
  lastExpired : Option Tag
  deriving DecidableEq, Repr

/-- The Blade Monitor (section 7.9). -/
structure Blade where
  counter : Nat
  warnLatch : Bool
  overdueLatch : Bool
  deriving DecidableEq, Repr

/-! ### The Program Store -/

/-- The state of a directory entry (R134). -/
inductive EntryState where
  | empty | valid | damaged
  deriving DecidableEq, Repr

/-- A directory entry (R134). -/
structure Entry where
  state : EntryState
  count : Nat
  check : BitVec 16
  blocks : List BlockNo
  deriving DecidableEq, Repr

/-- A block's state in the block allocation table (R134). -/
inductive BlockState where
  | free | used | bad
  deriving DecidableEq, Repr

/-- The contents of one directory copy but for its generation and check (R134). -/
structure Directory where
  entries : Vector Entry 48
  blocks : Vector BlockState 64
  savedBlade : Nat
  deriving DecidableEq, Repr

/-- The two copies of the directory region. -/
inductive CopyId where
  | a | b
  deriving DecidableEq, Repr

/-- A directory copy. `checkOk`: its check matches its contents (R134); while it does not, nothing reads
the rest. -/
structure DirCopy where
  checkOk : Bool
  generation : Nat
  dir : Directory
  deriving DecidableEq, Repr

/-- A block of the block region: its header (owner program number, position; none where none has been
written) and its step places from place 0 (R134). -/
structure Block where
  header : Option (Nat × Nat)
  steps : List PackedStep
  deriving DecidableEq, Repr

/-- The nonvolatile memory (R134). -/
structure NvMemory where
  copyA : DirCopy
  copyB : DirCopy
  blocks : Vector Block 64
  deriving DecidableEq, Repr

/-- The load session (R138). -/
structure Session where
  program : ProgNo
  count : Nat
  buffer : List PackedStep
  pointer : Nat
  deriving DecidableEq, Repr

/-- What a program operation does (R142, R144). -/
inductive OpKind where
  | commit (steps : List PackedStep) (check : BitVec 16)
  | erase
  deriving DecidableEq, Repr

/-- How far a program operation has come (R142, R143, R144). -/
inductive OpStage where
  | pending
  /-- Stage 1: the blocks chosen, and the position being written. -/
  | blockWrites (blocks : List BlockNo) (position : Nat)
  /-- Stage 2. -/
  | commitPoint
  /-- Stage 3, with the old version's block list. -/
  | releaseOld (old : List BlockNo)
  /-- The directory write that marks a block BAD (R143). -/
  | markBad
  | eraseWrite
  deriving DecidableEq, Repr

/-- The Store Controller's program operation (R145). -/
structure ProgOp where
  program : ProgNo
  kind : OpKind
  stage : OpStage
  deriving DecidableEq, Repr

/-- What a directory write serves. -/
inductive DirPurpose where
  | scan | bladeSave | operation
  deriving DecidableEq, Repr

/-- The nonvolatile write in progress (R145). Its constructors are the Store Controller's states IDLE,
BLOCK_WRITE and DIRECTORY_WRITE. -/
inductive NvWrite where
  | idle
  | block (b : BlockNo)
  /-- `second`: the write is being made a second time (R135). -/
  | directory (target : CopyId) (generation : Nat) (image : Directory) (purpose : DirPurpose)
      (second : Bool)
  deriving DecidableEq, Repr

/-- The start-up scan (R147): not running; its directory write in progress; ready to make step 5. -/
inductive ScanPhase where
  | off | writing | ending
  deriving DecidableEq, Repr

/-! ### Settings, ports and reports -/

/-- The settings of one stock class (R157). -/
structure StockClass where
  kd : Nat
  force : Nat
  jogBase : Nat
  amplitude : Nat
  air : Nat
  thr : Nat
  lim : Nat
  tol : Nat
  deriving DecidableEq, Repr

/-- The settings tables (R157). `knots` holds F1..F7; `presets` is indexed by `Station.ix`. -/
structure Settings where
  classes : Vector StockClass 16
  knots : Vector Nat 7
  hmax : Nat
  ocode : Nat
  presets : Vector Nat 4
  infeed : Nat
  childReserve : Nat
  warn : Nat
  limit : Nat
  deriving DecidableEq, Repr

/-- A reply by its fields (section 11.2). -/
structure Reply where
  code : BitVec 6
  tag : TagField
  result : Result
  restarted : Bool
  noisy : Bool
  ready : Bool
  halt : Bool
  data : Data
  deriving DecidableEq, Repr

/-- A Port Unit. `slot` is the reply waiting for the port's next frame, none for NO_REPLY (R162); `sdo`
is what the port's latest frame shifted out, none before the first frame since hardware reset. -/
structure PortUnit where
  slot : Option Reply
  sdo : Option (BitVec 48)
  level : Nat
  noisy : Bool
  restarted : Bool
  snapPtr : Fin 20
  deriving DecidableEq, Repr

/-- An event record (R167). -/
inductive Event where
  | held (t : Tag) (reason : HoldReason) (st : Station)
  | palletDone (seq : Nat)
  | caliperDev (t : Tag) (difference : Int)
  | targetLimited (t : Tag) (step : Nat)
  | bladeWarn
  | bladeOverdue
  | portNoisy (p : Port)
  | storeDone (p : ProgNo) (erase : Bool)
  /-- none: a blade save. -/
  | storeFailed (p : Option ProgNo)
  | storeFormatted
  | programDamaged (p : ProgNo)
  | lineStopped
  | haltOn
  | haltOff
  deriving DecidableEq, Repr

/-- The plain output lines: RDY of each station, by `Station.ix`, and ATTN (sections 4.2.1, 11.6). -/
structure Pins where
  rdy : Vector Bool 4
  attn : Bool
  deriving DecidableEq, Repr

/-- The state of the SQ32. -/
structure State where
  -- Pile Table (chapter 1)
  piles : Vector (Option Pile) 32
  allocPtr : Option Tag
  jogQueue : List Tag
  knifeQueue : List Tag
  returnLane : List Tag
  turnQueue : List Tag
  /-- Top first. -/
  returnStack : List Tag
  reservedRecords : Nat
  reservedSlots : Nat
  -- Knife logic and Blade Monitor (chapter 7)
  knifePile : Option Tag
  blade : Blade
  -- Pallet Table (chapter 5)
  draft : Draft
  pallets : List Pallet
  lastReport : Option Pallet
  seqCounter : Nat
  -- Station contexts (chapter 4), by `Station.ix`
  contexts : Vector Context 4
  -- Program Store and Store Controller (chapter 9)
  nv : NvMemory
  work : Directory
  latest : Option CopyId
  useCounts : Vector Nat 48
  session : Option Session
  storeWrite : NvWrite
  progOp : Option ProgOp
  bladeSave : Bool
  scan : ScanPhase
  -- Line Control (chapter 10)
  line : LineState
  halt : Bool
  settings : Settings
  -- Port Units (by `Port.ix`), Event Queue, Snapshot Buffer, output lines (chapter 11)
  ports : Vector PortUnit 5
  events : List Event
  dropped : Bool
  snapWords : Vector Data 20
  snapSeq : Nat
  pins : Pins
  /-- The commands that wait, first in, first out. The model's own. -/
  pending : List Instr
  /-- The number of free choices made. The model's own: `Config`'s free values are applied to it. -/
  freeCtr : Nat
  deriving DecidableEq, Repr

/-- Why the machine stops. Every constructor is SAFE: the manual's own laws exclude the state it is
raised in, and the model stops where the manual gives no effect. Log entry 3. -/
inductive Fault where
  /-- Raised by NEXT and DONE: a tag that a queue, the Return Stack, the knife pile or a job in flight
  names has no record in use, which R11 and R59 exclude. Safe. -/
  | recordAbsent
  /-- Raised by the knife's NEXT and by its DONE for a CUT job: the step at the cursor is of no known
  kind, or is no CUT, which R33, R35 and R59 exclude. Safe. -/
  | stepUnknown
  /-- Raised by the knife's DONE COMPLETE for a KEEP cut: no tag is free for the child, which R8 and
  R15 exclude. Safe. -/
  | noFreeRecord
  deriving DecidableEq, Repr

/-- Why a command has no meaning. -/
inductive Refusal where
  /-- Raised by exec's arms only, for a command not modelled; no arm of this model does. Safe. -/
  | notModelled (mnemonic : String)
  deriving DecidableEq, Repr

/-! ### Reset values -/

/-- The Pallet Draft after reset (R76). -/
def Draft.reset : Draft :=
  { program := none, cls := 0, sheets := 0, caliper := 100, extentNS := 0, extentEW := 0,
    gauge := .n, face := .up }

/-- A station context after reset (R59). -/
def Context.reset : Context :=
  { busy := false, tag := none, job := .none, recordTag := none, pointer := 0, running := false,
    remaining := 0, lastExpired := none }

/-- A stock class at its defaults (R157). -/
def StockClass.reset : StockClass :=
  { kd := 64, force := 128, jogBase := 20, amplitude := 3, air := 1, thr := 10, lim := 80, tol := 8 }

/-- The settings tables at their defaults (R157). -/
def Settings.reset : Settings :=
  { classes := Vector.replicate 16 StockClass.reset
    knots := #v[160, 240, 320, 400, 520, 640, 800]
    hmax := 12000, ocode := 128
    presets := #v[600, 300, 1200, 300]
    infeed := 8, childReserve := 8, warn := 40000, limit := 50000 }

/-- A Port Unit after hardware reset (R162, R163, R165, R169). -/
def PortUnit.reset : PortUnit :=
  { slot := none, sdo := none, level := 0, noisy := false, restarted := true, snapPtr := 0 }

/-- An EMPTY directory entry (R134). -/
def Entry.empty : Entry := { state := .empty, count := 0, check := 0, blocks := [] }

/-- The directory that formatting writes: 48 EMPTY entries, 64 FREE blocks, blade count 0 (R147). -/
def Directory.formatted : Directory :=
  { entries := Vector.replicate 48 Entry.empty, blocks := Vector.replicate 64 .free, savedBlade := 0 }

/-- The nonvolatile memory of a part that has been formatted and never loaded (log entry 2). -/
def NvMemory.formatted : NvMemory :=
  { copyA := { checkOk := true, generation := 1, dir := Directory.formatted }
    copyB := { checkOk := false, generation := 0, dir := Directory.formatted }
    blocks := Vector.replicate 64 { header := none, steps := [] } }

/-- Every volatile item at its hardware reset value, the line in STARTING, before the start-up scan has
set the working copy (R10, R59, R76, R79, R81, R84, R104, R125, R137, R138, R145, R150, R156, R157,
R162, R163, R165, R167, R169). The nonvolatile memory, the waiting commands and the count of free
choices are kept. -/
def State.volatileReset (nv : NvMemory) (pending : List Instr) (freeCtr : Nat) : State :=
  { piles := Vector.replicate 32 none
    allocPtr := none
    jogQueue := [], knifeQueue := [], returnLane := [], turnQueue := [], returnStack := []
    reservedRecords := 0, reservedSlots := 0
    knifePile := none
    blade := { counter := 0, warnLatch := false, overdueLatch := false }
    draft := Draft.reset
    pallets := [], lastReport := none, seqCounter := 0
    contexts := Vector.replicate 4 Context.reset
    nv := nv
    work := Directory.formatted
    latest := none
    useCounts := Vector.replicate 48 0
    session := none
    storeWrite := .idle, progOp := none, bladeSave := false
    scan := .ending
    line := .starting, halt := false
    settings := Settings.reset
    ports := Vector.replicate 5 PortUnit.reset
    events := [], dropped := false
    snapWords := Vector.replicate 20 0, snapSeq := 0
    pins := { rdy := Vector.replicate 4 false, attn := false }
    pending := pending
    freeCtr := freeCtr }

/-- The machine right after reset: a part that has been formatted, the HALT input released, the start-up
scan having found copy A good and nothing to write, so that its end is next (R147; log entry 2). -/
def State.reset : State :=
  { State.volatileReset NvMemory.formatted [] 0 with latest := some .a }

end Sys2Proof.Machine
end

