-- ==== Sys2Proof/Machine/Operands.lean ====
section
/-! DEFINITION. What the fields of a request name: tags, programs, edges, actions, Draft fields,
settings, packed steps, and the words that JOB_READ and SNAP_READ ask for (section 11.4). -/

namespace Sys2Proof.Machine

/-- The tag a tag number names; none for numbers outside 1..32. -/
def tagOfNum (n : Nat) : Option Tag :=
  if h : 1 ≤ n ∧ n ≤ 32 then some ⟨n - 1, by omega⟩ else none

/-- The program a program number names; none for numbers outside 1..48. -/
def progOfNum (n : Nat) : Option ProgNo :=
  if h : 1 ≤ n ∧ n ≤ 48 then some ⟨n - 1, by omega⟩ else none

/-- The tag number of a tag that may be absent, 0 for none. -/
def tagNumOf : Option Tag → Nat
  | none => 0
  | some t => tagNum t

/-- A tag in a frame's tag field. -/
def tagField (t : Tag) : TagField := BitVec.ofNat 6 (tagNum t)

/-- A tag that may be absent in a frame's tag field. -/
def tagFieldOf (t : Option Tag) : TagField := BitVec.ofNat 6 (tagNumOf t)

/-- A program in a frame's tag field. -/
def progField (p : ProgNo) : TagField := BitVec.ofNat 6 (progNum p)

/-- A number in the 20 data bits. -/
def dataOf (n : Nat) : Data := BitVec.ofNat 20 n

/-- Edges are coded N 0, E 1, S 2, W 3. -/
def edgeOfNum : Nat → Option Edge
  | 0 => some .n
  | 1 => some .e
  | 2 => some .s
  | 3 => some .w
  | _ => none

/-- Faces are coded UP 0, DOWN 1. -/
def faceOfNum : Nat → Option Face
  | 0 => some .up
  | 1 => some .down
  | _ => none

/-! ### Reports and releases -/

/-- The outcomes of DONE. -/
inductive DoneOutcome where
  | complete | failed
  deriving DecidableEq, Repr

/-- DONE's outcome codes: 1 COMPLETE, 2 FAILED. -/
def doneOutcome (code : BitVec 2) : Option DoneOutcome :=
  match code.toNat with
  | 1 => some .complete
  | 2 => some .failed
  | _ => none

/-- The four actions of RELEASE (section 1.8). -/
inductive ReleaseAction where
  | retry | skip | returnLift | scrap
  deriving DecidableEq, Repr

/-- RELEASE's action codes: 1 RETRY, 2 SKIP, 3 RETURN, 4 SCRAP. -/
def releaseAction (code : BitVec 4) : Option ReleaseAction :=
  match code.toNat with
  | 1 => some .retry
  | 2 => some .skip
  | 3 => some .returnLift
  | 4 => some .scrap
  | _ => none

/-- The table of R19: whether an action is allowed for the station a pile is held at. -/
def releaseAllowed : Station → ReleaseAction → Bool
  | .lift, .retry => false
  | .lift, .skip => false
  | .lift, .returnLift => true
  | .lift, .scrap => true
  | .jog, .retry => true
  | .jog, .skip => false
  | .jog, .returnLift => false
  | .jog, .scrap => true
  | .knife, .retry => true
  | .knife, .skip => true
  | .knife, .returnLift => false
  | .knife, .scrap => true
  | .turn, .retry => true
  | .turn, .skip => false
  | .turn, .returnLift => false
  | .turn, .scrap => true

/-! ### Word numbers -/

/-- The word a JOB_READ names: 0..3, or 15 for the word at the pointer (R69). -/
def jobReadWord (pointer : Fin 4) (word : BitVec 4) : Option (Fin 4) :=
  if word.toNat = 15 then some pointer
  else if h : word.toNat < 4 then some ⟨word.toNat, h⟩ else none

/-- The word a SNAP_READ names: 0..19, or 31 for the word at the pointer (R170). -/
def snapReadWord (pointer : Fin 20) (word : BitVec 5) : Option (Fin 20) :=
  if word.toNat = 31 then some pointer
  else if h : word.toNat < 20 then some ⟨word.toNat, h⟩ else none

/-! ### The packed step -/

/-- The fields of a packed step (section 11.4). -/
def stepKind (w : PackedStep) : Nat := (w.extractLsb' 29 3).toNat
def stepEdge (w : PackedStep) : Edge :=
  match (w.extractLsb' 27 2).toNat with
  | 0 => .n
  | 1 => .e
  | 2 => .s
  | _ => .w
def stepKeep (w : PackedStep) : Bool := (w.extractLsb' 26 1) == 1#1
def stepDistance (w : PackedStep) : Nat := (w.extractLsb' 8 18).toNat
def stepEntry (w : PackedStep) : Nat := (w.extractLsb' 0 8).toNat

/-- A program step (section 2.1). -/
inductive Step where
  | cut (edge : Edge) (distance : Nat) (keep : Bool) (entry : Nat)
  | flip
  | jog
  | fin
  deriving DecidableEq, Repr

/-- The step a packed word holds; none for an unknown kind code. -/
def decodeStep (w : PackedStep) : Option Step :=
  match stepKind w with
  | 1 => some (.cut (stepEdge w) (stepDistance w) (stepKeep w) (stepEntry w))
  | 2 => some .flip
  | 3 => some .jog
  | 4 => some .fin
  | _ => none

/-- The conditions of R33 on the step at index i of a program of c steps. -/
def stepValid (c i : Nat) (w : PackedStep) : Bool :=
  let kindOk := 1 ≤ stepKind w && stepKind w ≤ 4
  let fieldsOk :=
    if stepKind w = 1 then
      2000 ≤ stepDistance w && stepDistance w ≤ 132000 &&
        (if stepKeep w then i < stepEntry w && stepEntry w < c else stepEntry w = 0)
    else w.extractLsb' 0 29 == 0#29
  let lastOk := i + 1 != c || stepKind w = 4
  kindOk && fieldsOk && lastOk

/-- The index of the first step that fails R33, steps taken in index order from i (R34). -/
def firstInvalidFrom (c i : Nat) : List PackedStep → Option Nat
  | [] => none
  | w :: ws => if stepValid c i w then firstInvalidFrom c (i + 1) ws else some i

/-- The index that LOAD_END reports for a program, none when the program is valid (R33, R34). -/
def firstInvalid (steps : List PackedStep) : Option Nat := firstInvalidFrom steps.length 0 steps

/-! ### Pallet Draft fields -/

/-- Field codes of PALLET_FIELD: 0 program, 1 stock class, 2 sheet count, 3 caliper, 4 N–S, 5 E–W,
6 gauge edge, 7 face. The Draft with the field written, or none for a code that names no field or a value
outside the range of R76 (R77). -/
def draftWrite (d : Draft) (field value : Nat) : Option Draft :=
  match field with
  | 0 => if value = 0 then some { d with program := none }
         else (progOfNum value).map fun p => { d with program := some p }
  | 1 => if h : value < 16 then some { d with cls := ⟨value, h⟩ } else none
  | 2 => if 1 ≤ value ∧ value ≤ 65535 then some { d with sheets := value } else none
  | 3 => if 30 ≤ value ∧ value ≤ 600 then some { d with caliper := value } else none
  | 4 => if 5000 ≤ value ∧ value ≤ 145000 then some { d with extentNS := value } else none
  | 5 => if 5000 ≤ value ∧ value ≤ 145000 then some { d with extentEW := value } else none
  | 6 => (edgeOfNum value).map fun edge => { d with gauge := edge }
  | 7 => (faceOfNum value).map fun f => { d with face := f }
  | _ => none

/-- Every numeric field of the Draft lies in the range of R76 (check 2 of R78). -/
def draftInRange (d : Draft) : Bool :=
  1 ≤ d.sheets && d.sheets ≤ 65535 && 30 ≤ d.caliper && d.caliper ≤ 600 &&
    5000 ≤ d.extentNS && d.extentNS ≤ 145000 && 5000 ≤ d.extentEW && d.extentEW ≤ 145000

/-! ### Settings -/

/-- The settings of a stock class, in the order of their codes. -/
inductive ClassSetting where
  | kd | force | jogBase | amplitude | air | thr | lim | tol
  deriving DecidableEq, Repr

/-- What a table, index and setting of CONFIG_WRITE and CONFIG_READ name. -/
inductive SettingRef where
  | stock (c : ClassNo) (k : ClassSetting)
  /-- F0..F8; F0 and F8 can be read only. -/
  | knot (k : Fin 9)
  | hmax | ocode
  | preset (st : Station)
  | infeed | childReserve
  | warn | limit
  deriving DecidableEq, Repr

def classSettingOf : Nat → Option ClassSetting
  | 0 => some .kd
  | 1 => some .force
  | 2 => some .jogBase
  | 3 => some .amplitude
  | 4 => some .air
  | 5 => some .thr
  | 6 => some .lim
  | 7 => some .tol
  | _ => none

/-- The settings codes of section 11.4. None where the table, index or setting names none. -/
def settingRef (table : TagField) (index setting : BitVec 4) : Option SettingRef :=
  match table.toNat, index.toNat, setting.toNat with
  | 1, _, k => (classSettingOf k).map fun x => .stock ⟨index.toNat, index.isLt⟩ x
  | 2, i, 0 => if h : i < 9 then some (.knot ⟨i, h⟩) else none
  | 3, 0, 0 => some .hmax
  | 3, 0, 1 => some .ocode
  | 4, 0, 0 => some (.preset .lift)
  | 4, 1, 0 => some (.preset .jog)
  | 4, 2, 0 => some (.preset .knife)
  | 4, 3, 0 => some (.preset .turn)
  | 5, 0, 0 => some .infeed
  | 5, 0, 1 => some .childReserve
  | 6, 0, 0 => some .warn
  | 6, 0, 1 => some .limit
  | _, _, _ => none

/-- Knots F0 and F8 cannot be written (R158 check 2). -/
def settingWritable : SettingRef → Bool
  | .knot k => 1 ≤ k.val && k.val ≤ 7
  | _ => true

/-- The blade table is written in every state but STARTING (R158 check 3). -/
def settingOfBlade : SettingRef → Bool
  | .warn => true
  | .limit => true
  | _ => false

/-- Knot Fk of the clamp curve: F0 is 80 and F8 is 1000 (R54). -/
def knotValue (cfg : Settings) (k : Nat) : Nat :=
  if k = 0 then 80
  else if h : k - 1 < 7 then look cfg.knots ⟨k - 1, h⟩
  else 1000

def classValue (c : StockClass) : ClassSetting → Nat
  | .kd => c.kd
  | .force => c.force
  | .jogBase => c.jogBase
  | .amplitude => c.amplitude
  | .air => c.air
  | .thr => c.thr
  | .lim => c.lim
  | .tol => c.tol

/-- The present value of a setting (R160). -/
def settingValue (cfg : Settings) : SettingRef → Nat
  | .stock c k => classValue (look cfg.classes c) k
  | .knot k => knotValue cfg k.val
  | .hmax => cfg.hmax
  | .ocode => cfg.ocode
  | .preset st => look cfg.presets st.ix
  | .infeed => cfg.infeed
  | .childReserve => cfg.childReserve
  | .warn => cfg.warn
  | .limit => cfg.limit

def classRange : ClassSetting → Nat × Nat
  | .kd => (0, 255)
  | .force => (0, 255)
  | .jogBase => (1, 255)
  | .amplitude => (0, 7)
  | .air => (0, 1)
  | .thr => (0, 4095)
  | .lim => (0, 4095)
  | .tol => (0, 255)

/-- The range of each setting (the table of R157). -/
def settingRange : SettingRef → Nat × Nat
  | .stock _ k => classRange k
  | .knot _ => (80, 1000)
  | .hmax => (1000, 16500)
  | .ocode => (0, 255)
  | .preset _ => (1, 4095)
  | .infeed => (1, 16)
  | .childReserve => (0, 24)
  | .warn => (1, 999999)
  | .limit => (1, 999999)

/-- The constraints of R159 on a value against the settings that stand beside it. -/
def settingFits (cfg : Settings) (r : SettingRef) (v : Nat) : Bool :=
  match r with
  | .stock c .thr => v ≤ (look cfg.classes c).lim
  | .stock c .lim => (look cfg.classes c).thr ≤ v
  | .knot k => knotValue cfg (k.val - 1) ≤ v && v ≤ knotValue cfg (k.val + 1)
  | .warn => v ≤ cfg.limit
  | .limit => cfg.warn ≤ v
  | _ => true

def classWrite (c : StockClass) (k : ClassSetting) (v : Nat) : StockClass :=
  match k with
  | .kd => { c with kd := v }
  | .force => { c with force := v }
  | .jogBase => { c with jogBase := v }
  | .amplitude => { c with amplitude := v }
  | .air => { c with air := v }
  | .thr => { c with thr := v }
  | .lim => { c with lim := v }
  | .tol => { c with tol := v }

/-- The settings with one written. Knots F0 and F8 are no settings and discard the write. -/
def settingWrite (cfg : Settings) (r : SettingRef) (v : Nat) : Settings :=
  match r with
  | .stock c k => { cfg with classes := put cfg.classes c (classWrite (look cfg.classes c) k v) }
  | .knot k =>
      if h : 1 ≤ k.val ∧ k.val ≤ 7 then
        { cfg with knots := put cfg.knots ⟨k.val - 1, by omega⟩ v }
      else cfg
  | .hmax => { cfg with hmax := v }
  | .ocode => { cfg with ocode := v }
  | .preset st => { cfg with presets := put cfg.presets st.ix v }
  | .infeed => { cfg with infeed := v }
  | .childReserve => { cfg with childReserve := v }
  | .warn => { cfg with warn := v }
  | .limit => { cfg with limit := v }

end Sys2Proof.Machine
end

