-- ==== Sys2Proof/Machine/Layout.lean ====
section
/-! DEFINITION. The layouts of chapter 11: result codes, reply frames, job record words, pile and pallet
words, event records, and the program check of R136. -/

namespace Sys2Proof.Machine

/-! ### Codes -/

/-- Result codes (section 11.2). -/
def resultCode : Result → BitVec 4
  | .ok => 0
  | .job => 1
  | .wait => 2
  | .retry => 3
  | .late => 4
  | .unknownTag => 5
  | .notYours => 6
  | .badCommand => 7
  | .badArg => 8
  | .notReady => 9
  | .notRunning => 10
  | .lineRunning => 11
  | .busy => 12
  | .inUse => 13
  | .full => 14
  | .invalid => 15

def edgeCode : Edge → Nat
  | .n => 0
  | .e => 1
  | .s => 2
  | .w => 3

def faceCode : Face → Nat
  | .up => 0
  | .down => 1

/-- Turn kinds are coded 0 none, 1 CW, 2 CCW, 3 HALF, 4 FLIP. -/
def turnCode : Option Turn → Nat
  | none => 0
  | some .cw => 1
  | some .ccw => 2
  | some .half => 3
  | some .flip => 4

def residencyCode : Residency → Nat
  | .lifting => 1
  | .jogWait => 2
  | .jogging => 3
  | .knifeWait => 4
  | .returnWait => 5
  | .stacked => 6
  | .atKnife => 7
  | .knifeJob => 8
  | .turnWait => 9
  | .turning => 10
  | .held => 11

/-- Hold reasons are coded from 1; 0 is no hold. -/
def reasonCode : HoldReason → Nat
  | .timeout => 1
  | .machine => 2
  | .overheight => 3
  | .jogReject => 4
  | .jogRetries => 5
  | .cutBeyond => 6
  | .noRoom => 7

def lineCode : LineState → Nat
  | .starting => 0
  | .config => 1
  | .run => 2
  | .draining => 3
  | .stopped => 4

def entryStateCode : EntryState → Nat
  | .empty => 0
  | .valid => 1
  | .damaged => 2

/-- Store Controller states are coded 0 IDLE, 1 BLOCK_WRITE, 2 DIRECTORY_WRITE (R166). -/
def storeStateCode : NvWrite → Nat
  | .idle => 0
  | .block _ => 1
  | .directory _ _ _ _ _ => 2

/-! ### Reply frames -/

/-- The 48 bits of a reply with its check (section 11.2). -/
def replyFrame (r : Reply) : BitVec 48 :=
  withCheck (r.code ++ r.tag ++ resultCode r.result ++
    (BitVec.ofBool r.restarted ++ BitVec.ofBool r.noisy ++ BitVec.ofBool r.ready ++
      BitVec.ofBool r.halt) ++ r.data)

/-- The NO_REPLY pattern: all 48 bits one (R162). -/
def noReply : BitVec 48 := BitVec.allOnes 48

/-- What a reply slot shifts out. -/
def slotFrame : Option Reply → BitVec 48
  | none => noReply
  | some r => replyFrame r

/-! ### Job record words -/

def knifeKindCode : KnifeKind → Nat
  | .cut => 1
  | .transferTurn _ => 2
  | .transferJog => 3
  | .deliver => 4

def knifeTurn : KnifeKind → Option Turn
  | .transferTurn t => some t
  | .cut => none
  | .transferJog => none
  | .deliver => none

/-- A jogger job's w0: 7..0 duration, 10..8 amplitude, 11 air. -/
def jogW0 (duration amplitude air : Nat) : Data :=
  dataOf (duration + amplitude * 2 ^ 8 + air * 2 ^ 11)

/-- A word of a station's job record (section 11.4, Job record words). -/
def jobWord (j : Job) (i : Fin 4) : Data :=
  match j, i.val with
  | .none, _ => 0
  | .lift sheets _ _ _ _, 0 => dataOf sheets
  | .lift _ expected _ _ _, 1 => dataOf expected
  | .lift _ _ seq liftNumber _, 2 => dataOf (liftNumber + seq * 2 ^ 12)
  | .lift _ _ _ _ cls, _ => dataOf cls.val
  | .jog duration amplitude air _ _ _, 0 => jogW0 duration amplitude air
  | .jog _ _ _ sheets _ _, 1 => dataOf sheets
  | .jog _ _ _ _ height _, 2 => dataOf height
  | .jog _ _ _ _ _ attempt, _ => dataOf attempt
  | .knife k, 0 =>
      dataOf (knifeKindCode k.kind + turnCode (knifeTurn k.kind) * 2 ^ 3 + k.keep.toNat * 2 ^ 8 +
        k.limited.toNat * 2 ^ 9 + k.capped.toNat * 2 ^ 10 + k.overdue.toNat * 2 ^ 11)
  | .knife k, 1 => dataOf k.target
  | .knife k, 2 => dataOf k.force
  | .knife k, _ => dataOf (k.step + progNum k.program * 2 ^ 8)
  | .turn turn _ _ _, 0 => dataOf (turnCode turn)
  | .turn _ depth _ _, 1 => dataOf depth
  | .turn _ _ width _, 2 => dataOf width
  | .turn _ _ _ height, _ => dataOf height

/-! ### Read words -/

def holdReasonCode : Option Hold → Nat
  | none => 0
  | some h => reasonCode h.reason

def holdStationCode : Option Hold → Nat
  | none => 0
  | some h => h.station.ix.val

/-- A word of a pile record (R21 and section 11.4). -/
def pileWord (p : Pile) (w : Nat) : Data :=
  match w with
  | 0 => dataOf (residencyCode p.residency + edgeCode p.gauge * 2 ^ 4 + faceCode p.face * 2 ^ 6 +
      holdReasonCode p.hold * 2 ^ 7 + holdStationCode p.hold * 2 ^ 10)
  | 1 => dataOf (p.liftNumber + p.pallet * 2 ^ 12)
  | 2 => dataOf (tagNumOf p.parent + progNum p.program * 2 ^ 6 + p.cls.val * 2 ^ 12)
  | 3 => dataOf (p.cursor + p.started.toNat * 2 ^ 8 + p.caliperDev.toNat * 2 ^ 9 +
      p.limitedSeen.toNat * 2 ^ 10 + p.attempt * 2 ^ 11 + turnCode p.pendingTurn * 2 ^ 13)
  | 4 => dataOf p.sheets
  | 5 => dataOf p.height
  | 6 => dataOf p.depth
  | _ => dataOf p.width

/-- A word of a pallet record or of the Last Pallet Report (R85 and section 11.4). -/
def palletWord (p : Pallet) (w : Nat) : Data :=
  match w with
  | 0 => dataOf (p.seq + progNum p.program * 2 ^ 8 + p.cls.val * 2 ^ 14)
  | 1 => dataOf p.declared
  | 2 => dataOf p.remaining
  | 3 => dataOf p.lifted
  | 4 => dataOf p.cancelled
  | 5 => dataOf (p.live + p.liftsIssued * 2 ^ 6)
  | 6 => dataOf p.delivered
  | 7 => dataOf p.scrapped
  | 8 => dataOf p.caliper
  | 9 => dataOf p.extentNS
  | 10 => dataOf p.extentEW
  | _ => dataOf (edgeCode p.gauge + faceCode p.face * 2 ^ 2)

def progNumOf : Option ProgNo → Nat
  | none => 0
  | some p => progNum p

/-- A word of the Pallet Draft (R85): sequence number 0, and words 2 to 7 read 0. -/
def draftWord (d : Draft) (w : Nat) : Data :=
  match w with
  | 0 => dataOf (progNumOf d.program * 2 ^ 8 + d.cls.val * 2 ^ 14)
  | 1 => dataOf d.sheets
  | 8 => dataOf d.caliper
  | 9 => dataOf d.extentNS
  | 10 => dataOf d.extentEW
  | 11 => dataOf (edgeCode d.gauge + faceCode d.face * 2 ^ 2)
  | _ => 0

/-- A word of a place that may hold no pallet record: an empty one reads 0 (R81, R84, R85). -/
def palletWordOf (p : Option Pallet) (w : Nat) : Data :=
  match p with
  | none => 0
  | some p => palletWord p w

/-! ### Event records -/

/-- The kind code of an event (R167). -/
def eventKind : Event → Nat
  | .held _ _ _ => 1
  | .palletDone _ => 2
  | .caliperDev _ _ => 3
  | .targetLimited _ _ => 4
  | .bladeWarn => 5
  | .bladeOverdue => 6
  | .portNoisy _ => 7
  | .storeDone _ _ => 8
  | .storeFailed _ => 9
  | .storeFormatted => 10
  | .programDamaged _ => 11
  | .lineStopped => 12
  | .haltOn => 13
  | .haltOff => 14

/-- The tag field of an event record: the pile, or 0 (R167). -/
def eventTag : Event → TagField
  | .held t _ _ => tagField t
  | .caliperDev t _ => tagField t
  | .targetLimited t _ => tagField t
  | _ => 0

/-- The 14-bit detail of an event record (R167). -/
def eventDetail : Event → BitVec 14
  | .held _ r st => BitVec.ofNat 14 (st.ix.val + reasonCode r * 2 ^ 2)
  | .palletDone seq => BitVec.ofNat 14 seq
  | .caliperDev _ d => BitVec.ofInt 14 d
  | .targetLimited _ i => BitVec.ofNat 14 i
  | .portNoisy p => BitVec.ofNat 14 p.ix.val
  | .storeDone p erase => BitVec.ofNat 14 (progNum p + erase.toNat * 2 ^ 6)
  | .storeFailed p => BitVec.ofNat 14 (progNumOf p)
  | .programDamaged p => BitVec.ofNat 14 (progNum p)
  | .bladeWarn => 0
  | .bladeOverdue => 0
  | .storeFormatted => 0
  | .lineStopped => 0
  | .haltOn => 0
  | .haltOff => 0

/-- The data field in which EVENT_READ returns an event: kind in 19..14, detail in 13..0 (R168). -/
def eventData (e : Event) : Data := BitVec.ofNat 6 (eventKind e) ++ eventDetail e

/-! ### The program check -/

/-- One bit of the program check: generator x^16 + x^12 + x^5 + 1 (R136). -/
def crc16Bit (c : BitVec 16) (b : Bool) : BitVec 16 :=
  if c.msb != b then (c <<< 1) ^^^ 0x1021#16 else c <<< 1

/-- The check carried over one packed step, most significant bit first. -/
def crc16Step (c : BitVec 16) (w : PackedStep) : BitVec 16 :=
  (List.range 32).foldl (fun c i => crc16Bit c (w.getMsbD i)) c

/-- The program check of R136 over steps in index order: initial value FFFFh, no inversion. -/
def programCheck (steps : List PackedStep) : BitVec 16 := steps.foldl crc16Step 0xFFFF#16

end Sys2Proof.Machine
end

