-- ==== Sys2Proof/Machine/Setpoints.lean ====
section
/-! DEFINITION. The computations of chapter 3, exact on integers (R37), and the edge and turn tables of
R7, R48 and R49. -/

namespace Sys2Proof.Machine

/-! ### Lift -/

/-- Nmax of R38. -/
def nMax (hmax caliper : Nat) : Nat := max 16 (hmax * 10 / caliper)

/-- The lift size n of R39, from the remaining sheets R. -/
def liftSize (remaining nmax : Nat) : Nat := ceilDiv remaining (ceilDiv remaining nmax)

/-- The expected height He of R41. -/
def expectedHeight (n caliper : Nat) : Nat := (n * caliper + 5) / 10

/-- The caliper check of R42. -/
def caliperDeviates (measured expected tol : Nat) : Bool :=
  tol * expected < ((measured : Int) - (expected : Int)).natAbs * 256

/-- The signed detail of CALIPER_DEV, clipped to −8191..+8191 (R43). -/
def caliperDetail (measured expected : Nat) : Int :=
  max (-8191) (min 8191 ((measured : Int) - (expected : Int)))

/-! ### Jog -/

/-- The jog duration of R44. -/
def jogDuration (base attempt : Nat) : Nat := min 255 (base * (2 + attempt) / 2)

/-- The classes of R46. -/
inductive SkewClass where
  | aligned | rejog | tooMany | rejected
  deriving DecidableEq, Repr

/-- The skew classification of R46. -/
def classifySkew (thr lim attempt skew : Nat) : SkewClass :=
  if skew ≤ thr then .aligned
  else if skew ≤ lim then (if attempt < 3 then .rejog else .tooMany)
  else .rejected

/-! ### Edges and turns -/

/-- The edge before an edge in the clockwise order N, E, S, W. -/
def edgeBefore : Edge → Edge
  | .n => .w
  | .e => .n
  | .s => .e
  | .w => .s

/-- The edge after an edge in the clockwise order. -/
def edgeAfter : Edge → Edge
  | .n => .e
  | .e => .s
  | .s => .w
  | .w => .n

/-- The opposite edge. -/
def edgeOpposite : Edge → Edge
  | .n => .s
  | .e => .w
  | .s => .n
  | .w => .e

/-- The lay edge of an orientation (R7). -/
def layEdge (gauge : Edge) : Face → Edge
  | .up => edgeBefore gauge
  | .down => edgeAfter gauge

/-- The right edge of an orientation (R7). -/
def rightEdge (gauge : Edge) : Face → Edge
  | .up => edgeAfter gauge
  | .down => edgeBefore gauge

/-- The front edge, opposite the gauge edge whatever the face (R7). -/
def frontEdge (gauge : Edge) : Edge := edgeOpposite gauge

/-- The turn that brings an edge to the gauge, none when it is there (R48). -/
def turnFor (gauge : Edge) (face : Face) (edge : Edge) : Option Turn :=
  if edge = gauge then none
  else if edge = layEdge gauge face then some .cw
  else if edge = rightEdge gauge face then some .ccw
  else some .half

/-- The gauge edge after a turn (R49). -/
def turnedGauge (t : Turn) (gauge : Edge) (face : Face) : Edge :=
  match t with
  | .cw => layEdge gauge face
  | .ccw => rightEdge gauge face
  | .half => frontEdge gauge
  | .flip => gauge

/-- The face after a turn (R49). -/
def turnedFace (t : Turn) (face : Face) : Face :=
  match t, face with
  | .flip, .up => .down
  | .flip, .down => .up
  | _, f => f

/-- Whether a turn exchanges D and W (R49). -/
def turnExchanges : Turn → Bool
  | .cw => true
  | .ccw => true
  | .half => false
  | .flip => false

/-! ### Cut -/

/-- The blade offset O of R51. -/
def bladeOffset (ocode : Nat) : Int := ((ocode : Int) - 128) * 2

/-- The draw compensation of R52. -/
def drawComp (height kd : Nat) : Nat := (height * kd + 8192) / 16384

/-- T of R53 before it is limited. -/
def rawTarget (p : Nat) (ocode height kd : Nat) : Int :=
  (p : Int) + bladeOffset ocode + (drawComp height kd : Int)

/-- The backgauge target of R53. -/
def limitTarget (t : Int) : Nat := (max 2000 (min 132000 t)).toNat

/-- Whether the target was replaced (R53). -/
def targetLimited (t : Int) : Bool := t < 2000 || 132000 < t

/-- The unscaled clamp force F of R54 over the knots F0..F8. -/
def clampForce (knot : Nat → Nat) (height : Nat) : Nat :=
  if height < 16000 then
    let k := height / 2000
    knot k + (knot (k + 1) - knot k) * (height - 2000 * k) / 2000
  else knot 8

/-- The scaled force Fs of R55. -/
def scaledForce (f s : Nat) : Nat := (f * s + 64) / 128

/-- The clamp force code of R56. -/
def limitForce (fs : Nat) : Nat := max 40 (min 1023 fs)

/-- FORCE_CAPPED of R56. -/
def forceCapped (fs : Nat) : Bool := 1023 < fs

end Sys2Proof.Machine
end

