-- ==== Sys2Proof/Machine/Ops.lean ====
section
/-! DEFINITION. The named operations over the state that the commands share: the Pile Table and its
queues, station contexts, holds, pallet accounts, the Event Queue, the Blade Monitor, the Store
Controller, the port units, and the drain test. -/

namespace Sys2Proof.Machine

/-! ### Pile records, contexts, ports and events -/

/-- The record under a tag, none when the tag is not in use. -/
def State.pile (s : State) (t : Tag) : Option Pile := look s.piles t

/-- Write or free the record under a tag. -/
def State.putPile (s : State) (t : Tag) (p : Option Pile) : State :=
  { s with piles := put s.piles t p }

/-- Change the record under a tag, if the tag is in use. -/
def State.modifyPile (s : State) (t : Tag) (f : Pile → Pile) : State :=
  s.putPile t ((s.pile t).map f)

def State.ctx (s : State) (st : Station) : Context := look s.contexts st.ix

def State.putCtx (s : State) (st : Station) (c : Context) : State :=
  { s with contexts := put s.contexts st.ix c }

def State.port (s : State) (p : Port) : PortUnit := look s.ports p.ix

def State.putPort (s : State) (p : Port) (u : PortUnit) : State :=
  { s with ports := put s.ports p.ix u }

/-- Raise an event: it joins at the tail, or is discarded with DROPPED set when the queue holds 32 (R167). -/
def State.raise (s : State) (ev : Event) : State :=
  if s.events.length < 32 then { s with events := s.events ++ [ev] } else { s with dropped := true }

/-- The response timer preset of a station (R71). -/
def State.preset (s : State) (st : Station) : Nat := look s.settings.presets st.ix

/-- The settings of a stock class. -/
def State.stock (s : State) (c : ClassNo) : StockClass := look s.settings.classes c

/-! ### The Pile Table -/

def allTags : List Tag := List.finRange 32

/-- The tags in use. -/
def State.tagsInUse (s : State) : List Tag := allTags.filter fun t => (s.pile t).isSome

/-- The number of records in use (section 1.3). -/
def State.inUse (s : State) : Nat := s.tagsInUse.length

/-- Whether a tag names a record in a residency. -/
def State.resides (s : State) (t : Tag) (r : Residency) : Bool :=
  match s.pile t with
  | none => false
  | some p => p.residency = r

/-- The held set: the tags in residency HELD, by tag (R14). -/
def State.heldSet (s : State) : List Tag := allTags.filter fun t => s.resides t .held

/-- Free records of R16. -/
def State.freeRecords (s : State) : Nat := 32 - s.inUse - s.reservedRecords

/-- Free stack slots of R16. -/
def State.freeSlots (s : State) : Nat := 12 - s.returnStack.length - s.reservedSlots

/-- A fresh pile of R86. -/
def pileFresh (p : Pile) : Bool :=
  !p.started && (match p.residency with
    | .lifting => true
    | .jogWait => true
    | .jogging => true
    | .knifeWait => true
    | _ => false)

/-- The fresh-pile count of R86. -/
def State.freshCount (s : State) : Nat :=
  (allTags.filter fun t => match s.pile t with
    | none => false
    | some p => pileFresh p).length

/-- The tags in the order of R8: from the one after the allocation pointer to 32, then from 1. -/
def tagOrder (ptr : Option Tag) : List Tag :=
  let start := match ptr with
    | none => 0
    | some t => t.val + 1
  (List.range 32).map fun k => ⟨(start + k) % 32, Nat.mod_lt _ (by decide)⟩

/-- The tag that R8 allocates next, none when no tag is free. -/
def State.nextTag (s : State) : Option Tag :=
  (tagOrder s.allocPtr).find? fun t => (s.pile t).isNone

/-- Allocate a record under a tag: the tag is in use and the allocation pointer holds it (R8). -/
def State.allocate (s : State) (t : Tag) (p : Pile) : State :=
  { s.putPile t (some p) with allocPtr := some t }

/-! ### Program use counts (R137) -/

def State.useCount (s : State) (p : ProgNo) : Nat := look s.useCounts p

def State.addUse (s : State) (p : ProgNo) : State :=
  { s with useCounts := put s.useCounts p (s.useCount p + 1) }

def State.dropUse (s : State) (p : ProgNo) : State :=
  { s with useCounts := put s.useCounts p (s.useCount p - 1) }

/-! ### Pallet accounts -/

/-- The largest value of delivered pieces and scrapped sheets (R80). -/
def pieceCap : Nat := 1048575

/-- An addition that stays at the cap once it would pass it (R80). -/
def addCapped (a b : Nat) : Nat := min pieceCap (a + b)

/-- The pallet record of a sequence number. -/
def State.palletOf (s : State) (seq : Nat) : Option Pallet := s.pallets.find? fun p => p.seq = seq

/-- Change the pallet record of a sequence number. -/
def State.modifyPallet (s : State) (seq : Nat) (f : Pallet → Pallet) : State :=
  { s with pallets := s.pallets.map fun p => if p.seq = seq then f p else p }

/-- A pallet whose remaining and live piles are both 0 (R83). -/
def palletFinished (p : Pallet) : Bool := p.remaining = 0 && p.live = 0

/-- The finish test of R83 for the pallet of a sequence number. -/
def State.finishTest (s : State) (seq : Nat) : State :=
  match s.palletOf seq with
  | none => s
  | some p =>
    if palletFinished p then
      ({ s with pallets := s.pallets.filter (fun q => q.seq ≠ seq), lastReport := some p }.raise
        (.palletDone seq)).dropUse p.program
    else s

/-- Free a record (R9): the tag out of use, the program's use count down, the pallet's live count down
with the accounting of the cause, then the finish test. -/
def State.freeRecord (s : State) (t : Tag) (account : Nat → Pallet → Pallet) : State :=
  match s.pile t with
  | none => s
  | some p =>
    (((s.putPile t none).dropUse p.program).modifyPallet p.pallet fun q =>
      account p.sheets { q with live := q.live - 1 }).finishTest p.pallet

/-- The accounting of a delivery, of a lift undone and of a scrap (R9, R80). -/
def accountDelivered (n : Nat) (q : Pallet) : Pallet := { q with delivered := addCapped q.delivered n }
def accountReturned (n : Nat) (q : Pallet) : Pallet :=
  { q with lifted := q.lifted - n, remaining := q.remaining + n }
def accountScrapped (n : Nat) (q : Pallet) : Pallet := { q with scrapped := addCapped q.scrapped n }

/-- The next sequence number counted on from one given, which passes from 255 to 1 (R79). -/
def seqAfter (n : Nat) : Nat := if 255 ≤ n then 1 else n + 1

/-- The first number counting on from n that no listed record carries, looking at `fuel` numbers. -/
def freeSeqFrom (taken : List Nat) : Nat → Nat → Nat
  | 0, n => seqAfter n
  | fuel + 1, n =>
    if taken.contains (seqAfter n) then freeSeqFrom taken fuel (seqAfter n) else seqAfter n

/-- The next sequence number of R79. -/
def State.nextSeq (s : State) : Nat := freeSeqFrom (s.pallets.map Pallet.seq) 255 s.seqCounter

/-! ### Holds (R17) -/

/-- Take a hold on a pile: residency HELD, the hold field written, a HELD event raised. -/
def State.holdPile (s : State) (t : Tag) (r : HoldReason) (st : Station) : State :=
  (s.modifyPile t fun p =>
    { p with residency := .held, hold := some { reason := r, station := st } }).raise (.held t r st)

/-! ### Jobs (R61, R65) -/

/-- Load a station's response timer with its preset and start it (R71). -/
def State.loadTimer (s : State) (st : Station) : State :=
  s.putCtx st { s.ctx st with running := true, remaining := s.preset st }

/-- Issue a job at a station (R61); the pile's own changes are its selection's. -/
def State.issue (s : State) (st : Station) (t : Tag) (j : Job) : State :=
  s.putCtx st { s.ctx st with
    busy := true, tag := some t, job := j, recordTag := some t, pointer := 1,
    running := true, remaining := s.preset st }

/-- End the job of a station: timer stopped with remaining 0, current tag 0, context IDLE (R65). -/
def State.endJob (s : State) (st : Station) : State :=
  s.putCtx st { s.ctx st with busy := false, tag := none, running := false, remaining := 0 }

/-- Both reservation counts 0 (R15). -/
def State.dropReservation (s : State) : State := { s with reservedRecords := 0, reservedSlots := 0 }

/-- The kind of the knife's job record, none when it holds no knife job. -/
def State.knifeJob (s : State) : Option KnifeJob :=
  match (s.ctx .knife).job with
  | .knife j => some j
  | _ => none

/-- A TRANSFER_TURN job that ends without completion puts its pile's pending turn back to none (R6). -/
def State.dropKnifeTurn (s : State) (t : Tag) : State :=
  match s.knifeJob with
  | some { kind := .transferTurn _, .. } => s.modifyPile t fun p => { p with pendingTurn := none }
  | _ => s

/-- End the job of a station with its pile held (R66, R72, R117, R130): the knife also clears its knife
pile, releases any reservation and drops a TRANSFER_TURN job's pending turn. -/
def State.failJob (s : State) (st : Station) (t : Tag) (r : HoldReason) : State :=
  match st with
  | .knife =>
    { ((s.dropKnifeTurn t).holdPile t r .knife).dropReservation.endJob .knife with knifePile := none }
  | .lift => (s.holdPile t r .lift).endJob .lift
  | .jog => (s.holdPile t r .jog).endJob .jog
  | .turn => (s.holdPile t r .turn).endJob .turn

/-! ### Programs as the working copy names them (R32, R135) -/

def State.entry (s : State) (p : ProgNo) : Entry := look s.work.entries p

/-- A step place of a block. -/
def blockStep (nv : NvMemory) (b : BlockNo) (place : Nat) : PackedStep :=
  ((look nv.blocks b).steps[place]?).getD (Config.unwrittenStep b.val place)

/-- The packed step at an index of a program whose entry is given (R134). -/
def entryStep (nv : NvMemory) (p : ProgNo) (e : Entry) (i : Nat) : PackedStep :=
  match e.blocks[i / 48]? with
  | none => Config.unlistedStep (progNum p) i
  | some b => blockStep nv b (i % 48)

/-- The packed step at an index of a program (R32, R148). -/
def State.packedStep (s : State) (p : ProgNo) (i : Nat) : PackedStep :=
  entryStep s.nv p (s.entry p) i

/-- The step at a pile's cursor (R32). -/
def State.stepAt (s : State) (p : Pile) : Option Step := decodeStep (s.packedStep p.program p.cursor)

/-- The cursor one step on; an advance past the program's last step is not made (R4). -/
def State.advanced (s : State) (p : Pile) : Nat :=
  if p.cursor + 1 < (s.entry p.program).count then p.cursor + 1 else p.cursor

/-! ### Blade latches (R122) -/

/-- Set each clear latch whose threshold the counter reaches, raising its event, BLADE_WARN first. -/
def State.bladeTest (s : State) : State :=
  let s := if s.settings.warn ≤ s.blade.counter && !s.blade.warnLatch then
      { s with blade := { s.blade with warnLatch := true } }.raise .bladeWarn
    else s
  if s.settings.limit ≤ s.blade.counter && !s.blade.overdueLatch then
    { s with blade := { s.blade with overdueLatch := true } }.raise .bladeOverdue
  else s

/-- The re-test of R122 after a write of warn or limit: a latch whose threshold exceeds the counter is
cleared without an event, then the clear latches are tested. -/
def State.bladeRetest (s : State) : State :=
  { s with blade := { s.blade with
      warnLatch := s.blade.warnLatch && s.settings.warn ≤ s.blade.counter,
      overdueLatch := s.blade.overdueLatch && s.settings.limit ≤ s.blade.counter } }.bladeTest

/-! ### The Store Controller (R135, R142 to R145) -/

def State.blockState (s : State) (b : BlockNo) : BlockState := look s.work.blocks b

def allBlocks : List BlockNo := List.finRange 64

def allPrograms : List ProgNo := List.finRange 48

/-- The FREE blocks of a directory, lowest number first. -/
def freeBlocks (d : Directory) : List BlockNo := allBlocks.filter fun b => look d.blocks b = .free

/-- The BAD blocks of a directory. -/
def badBlocks (d : Directory) : List BlockNo := allBlocks.filter fun b => look d.blocks b = .bad

/-- The number of blocks that c steps occupy (R134). -/
def blocksFor (c : Nat) : Nat := ceilDiv c 48

def nvCopy (nv : NvMemory) : CopyId → DirCopy
  | .a => nv.copyA
  | .b => nv.copyB

def nvPutCopy (nv : NvMemory) (i : CopyId) (c : DirCopy) : NvMemory :=
  match i with
  | .a => { nv with copyA := c }
  | .b => { nv with copyB := c }

/-- The copy a directory write goes to: the one that does not hold the latest generation, and copy A while
neither is valid (R135, R147). -/
def writeTarget : Option CopyId → CopyId
  | some .a => .b
  | some .b => .a
  | none => .a

/-- The generation a directory write carries: the next after the latest, passing from 65535 to 1; 1 while
neither copy is valid (R135, R147). -/
def writeGeneration (nv : NvMemory) : Option CopyId → Nat
  | none => 1
  | some i => if 65535 ≤ (nvCopy nv i).generation then 1 else (nvCopy nv i).generation + 1

/-- Start a directory write of an image. From its start the copy being written does not match its check,
so that a reset during the write finds it invalid (R134, R135). Blade save pending is cleared (R145). -/
def State.startDirWrite (s : State) (image : Directory) (purpose : DirPurpose) : State :=
  let target := writeTarget s.latest
  { s with
    nv := nvPutCopy s.nv target { nvCopy s.nv target with checkOk := false }
    storeWrite := .directory target (writeGeneration s.nv s.latest) image purpose false
    bladeSave := false }

/-- An image of the working copy with a change of its entries and blocks, carrying the blade counter as it
stands at the start of the write (R135). -/
def State.bladeImage (s : State) (d : Directory) : Directory := { d with savedBlade := s.blade.counter }

/-- Start the block write of a position of a commit. Until it is read back with no difference the block
holds an open value (log entry 4). -/
def State.startBlockWrite (s : State) (op : ProgOp) (blocks : List BlockNo) (position : Nat) : State :=
  match blocks[position]? with
  | none => s
  | some b =>
    let opened : Block :=
      { header := Config.openHeader s.freeCtr
        steps := (List.range 48).map (Config.openStep s.freeCtr) }
    { s with
      nv := { s.nv with blocks := put s.nv.blocks b opened }
      freeCtr := s.freeCtr + 1
      storeWrite := .block b
      progOp := some { op with stage := .blockWrites blocks position } }

/-- Whether an entry of a directory other than one given lists a block. -/
def listedByOther (d : Directory) (p : ProgNo) (b : BlockNo) : Bool :=
  allPrograms.any fun q => q != p && (look d.entries q).blocks.contains b

/-- Whether any entry of a directory lists a block. -/
def listedByAny (d : Directory) (b : BlockNo) : Bool :=
  allPrograms.any fun q => (look d.entries q).blocks.contains b

/-- Mark a list of blocks in a block allocation table. -/
def markBlocks (v : Vector BlockState 64) (bs : List BlockNo) (st : BlockState) : Vector BlockState 64 :=
  bs.foldl (fun v b => put v b st) v

/-- The image of the commit point (R142 stage 2). -/
def commitImage (d : Directory) (p : ProgNo) (steps : List PackedStep) (check : BitVec 16)
    (blocks : List BlockNo) : Directory :=
  { d with
    entries := put d.entries p
      { state := .valid, count := steps.length, check := check, blocks := blocks }
    blocks := markBlocks d.blocks blocks .used }

/-- The image that releases the old version's blocks: those that are USED and that no entry lists now
(R142 stage 3). -/
def releaseImage (d : Directory) (old : List BlockNo) : Directory :=
  let dead := old.filter fun b => look d.blocks b = .used && !listedByAny d b
  { d with blocks := markBlocks d.blocks dead .free }

/-- The image of an erase (R144). -/
def eraseImage (d : Directory) (p : ProgNo) : Directory :=
  let dead := (look d.entries p).blocks.filter fun b => look d.blocks b = .used && !listedByOther d p b
  { d with
    entries := put d.entries p Entry.empty
    blocks := markBlocks d.blocks dead .free }

/-- Start a pending program operation (R142, R144). A commit that cannot choose its blocks would stay
pending; check 5 of R138 and the refusal of a second operation exclude that. -/
def State.startOp (s : State) (op : ProgOp) : State :=
  match op.kind with
  | .erase =>
    { s with progOp := some { op with stage := .eraseWrite } }.startDirWrite
      (s.bladeImage (eraseImage s.work op.program)) .operation
  | .commit steps _ =>
    let blocks := (freeBlocks s.work).take (blocksFor steps.length)
    if blocks.length < blocksFor steps.length then s else s.startBlockWrite op blocks 0

/-- Start the Store Controller's next write, when it is IDLE and the start-up scan is over (R145): a
pending blade save first, then a pending program operation. The next stage of an operation in progress is
started where the stage before it ends. -/
def State.startNext (s : State) : State :=
  if s.storeWrite = .idle && s.scan = .off then
    match s.progOp with
    | some op =>
      if op.stage = .pending then
        if s.bladeSave then s.startDirWrite (s.bladeImage s.work) .bladeSave else s.startOp op
      else s
    | none => if s.bladeSave then s.startDirWrite (s.bladeImage s.work) .bladeSave else s
  else s

/-- A blade save request (R123, R145). -/
def State.requestBladeSave (s : State) : State := { s with bladeSave := true }.startNext

/-- The blade counter's rise at a completed cut (R121). -/
def State.bladeRise (s : State) : State :=
  if 999999 ≤ s.blade.counter then s
  else
    let s := { s with blade := { s.blade with counter := s.blade.counter + 1 } }
    (if s.blade.counter % 256 = 0 then s.requestBladeSave else s).bladeTest

/-! ### The drain (R153) -/

/-- The drain is complete. -/
def State.drained (s : State) : Bool :=
  s.line = .draining && !(s.ctx .lift).busy && !(s.ctx .jog).busy && !(s.ctx .knife).busy &&
    !(s.ctx .turn).busy && s.knifePile.isNone && s.jogQueue.isEmpty && s.knifeQueue.isEmpty &&
    s.returnLane.isEmpty && s.turnQueue.isEmpty && s.returnStack.isEmpty

/-- The effect of a command followed, in the same event, by the drain test of R153. LINE_STOPPED is
raised by Line Control at the same moment as the effect's own events, so its place before or after them is
a free value (R167, log entry 6): the first case is the effect taken with LINE_STOPPED already queued. -/
def withDrain {α : Type} (effect : State → Except Fault (State × α)) (s : State) :
    Except Fault (State × α) :=
  match effect s with
  | .error f => .error f
  | .ok (t, a) =>
    if t.drained then
      let late := t.raise .lineStopped
      let early := match effect (s.raise .lineStopped) with
        | .error _ => late
        | .ok (u, _) => u
      .ok ({ t with
        line := .stopped
        events := if Config.lineStoppedFirst s.freeCtr then early.events else late.events
        dropped := if Config.lineStoppedFirst s.freeCtr then early.dropped else late.dropped
        freeCtr := t.freeCtr + 1 }, a)
    else .ok (t, a)

/-! ### Port units (R162, R163) -/

/-- NOISY after a change of the level (R163): set at 64 or more, cleared at 16 or less, else kept. -/
def noisyAfter (level : Nat) (noisy : Bool) : Bool :=
  if 64 ≤ level then true else if level ≤ 16 then false else noisy

/-- The start of an accepted frame: the reply slot is shifted out and is gone, and the link error level
falls by 1 before the request is taken. -/
def State.acceptFrame (s : State) (p : Port) : State :=
  let u := s.port p
  s.putPort p { u with
    slot := none, sdo := some (slotFrame u.slot), level := u.level - 1,
    noisy := noisyAfter (u.level - 1) u.noisy }

/-- A discarded frame: its reply slot carries NO_REPLY, a frame that began too soon shifts NO_REPLY out
itself, the level rises by 8 up to 255, and PORT_NOISY is raised when NOISY becomes set. -/
def State.discardFrame (s : State) (p : Port) (cause : DiscardCause) : State :=
  let u := s.port p
  let level := min 255 (u.level + 8)
  let s := s.putPort p { u with
    slot := none
    sdo := some (if cause = .shortGap then noReply else slotFrame u.slot)
    level := level
    noisy := noisyAfter level u.noisy }
  if 64 ≤ level && !u.noisy then s.raise (.portNoisy p) else s

end Sys2Proof.Machine
end

