-- ==== Sys2Proof/Machine/Selection.lean ====
section
/-! DEFINITION. Each station's selection: what a NEXT that passes the common checks of R60 finds, with the
selection's own effects (R86 and R87, R94, R105 to R111, R126). -/

namespace Sys2Proof.Machine

/-! ### The lift (R86, R87) -/

/-- The source pallet: the oldest with remaining sheets (R86). -/
def State.liftSource (s : State) : Option Pallet := s.pallets.find? fun p => 0 < p.remaining

/-- Conditions 2 and 3 of R86. -/
def State.liftAdmits (s : State) : Bool :=
  s.settings.childReserve < s.freeRecords && s.freshCount < s.settings.infeed

/-- The lift number after one given: from 4095 it passes to 1 (R80). -/
def liftAfter (n : Nat) : Nat := if 4095 ≤ n then 1 else n + 1

/-- The pile record that R1 gives a lift of n sheets from a pallet. -/
def liftedPile (q : Pallet) (n : Nat) : Pile :=
  let across := q.gauge = .n || q.gauge = .s
  { residency := .lifting
    pallet := q.seq
    liftNumber := liftAfter q.liftsIssued
    parent := none
    program := q.program
    cursor := 0
    cls := q.cls
    sheets := n
    height := 0
    depth := if across then q.extentNS else q.extentEW
    width := if across then q.extentEW else q.extentNS
    gauge := q.gauge
    face := q.face
    started := false
    attempt := 0
    pendingTurn := none
    caliperDev := false
    limitedSeen := false
    hold := none }

/-- The source pallet's accounts at a lift of n sheets (R80). -/
def accountLifted (n : Nat) (q : Pallet) : Pallet :=
  { q with
    remaining := q.remaining - n, lifted := q.lifted + n, live := q.live + 1,
    liftsIssued := liftAfter q.liftsIssued }

/-- The lift's selection (R86) and, when it finds a job, its effects but for the issue (R87). The tag of
R8 is always found, since R86 requires a free record. -/
def State.selectLift (s : State) : State × Option (Tag × Job) :=
  match s.liftSource, s.nextTag with
  | some q, some t =>
    if s.liftAdmits then
      let n := liftSize q.remaining (nMax s.settings.hmax q.caliper)
      (((s.modifyPallet q.seq (accountLifted n)).allocate t (liftedPile q n)).addUse q.program,
        some (t, .lift n (expectedHeight n q.caliper) q.seq (liftAfter q.liftsIssued) q.cls))
    else (s, none)
  | _, _ => (s, none)

/-! ### The jogger (R94, R95) -/

/-- The jog job of a pile (R95). -/
def State.jogJobOf (s : State) (p : Pile) : Job :=
  let c := s.stock p.cls
  .jog (jogDuration c.jogBase p.attempt) c.amplitude c.air p.sheets p.height p.attempt

/-- The jogger's selection (R94). -/
def State.selectJog (s : State) : Except Fault (State × Option (Tag × Job)) :=
  match s.jogQueue with
  | [] => .ok (s, none)
  | t :: rest =>
    match s.pile t with
    | none => .error .recordAbsent
    | some p =>
      .ok ({ s with jogQueue := rest }.putPile t (some { p with residency := .jogging }),
        some (t, s.jogJobOf p))

/-! ### The turner (R126, R127) -/

/-- The turn job of a pile (R127). -/
def turnJobOf (p : Pile) : Job := .turn p.pendingTurn p.depth p.width p.height

/-- The turner's selection (R126). -/
def State.selectTurn (s : State) : Except Fault (State × Option (Tag × Job)) :=
  match s.turnQueue with
  | [] => .ok (s, none)
  | t :: rest =>
    match s.pile t with
    | none => .error .recordAbsent
    | some p =>
      .ok ({ s with turnQueue := rest }.putPile t (some { p with residency := .turning }),
        some (t, turnJobOf p))

/-! ### The knife (R105 to R112) -/

/-- Make a pile the knife pile: AT_KNIFE, started set (R105). -/
def State.placeAtKnife (s : State) (t : Tag) : State :=
  { s.modifyPile t (fun p => { p with residency := .atKnife, started := true }) with
    knifePile := some t }

/-- The arbiter of R105: the head of the Return Lane, else the top of the Return Stack, else the head of the
Knife Queue. None when all three are empty. -/
def State.arbiter (s : State) : Option (Tag × State) :=
  match s.returnLane with
  | t :: rest => some (t, { s with returnLane := rest }.placeAtKnife t)
  | [] =>
    match s.returnStack with
    | t :: rest => some (t, { s with returnStack := rest }.placeAtKnife t)
    | [] =>
      match s.knifeQueue with
      | t :: rest => some (t, { s with knifeQueue := rest }.placeAtKnife t)
      | [] => none

/-- A hold taken during dispatch: the knife pile is cleared (R108). -/
def State.dispatchHold (s : State) (t : Tag) (r : HoldReason) : State :=
  { s.holdPile t r .knife with knifePile := none }

/-- A knife job that is no cut: w1 and w2 are 0 and no flag is set (R112). -/
def plainKnifeJob (kind : KnifeKind) (p : Pile) : Job :=
  .knife
    { kind := kind, keep := false, limited := false, capped := false, overdue := false,
      target := 0, force := 0, step := p.cursor, program := p.program }

/-- The setpoints and flags of a CUT job (R53 to R57, R112). -/
def State.cutJobOf (s : State) (p : Pile) (distance : Nat) (keep : Bool) : KnifeJob :=
  let c := s.stock p.cls
  let t := rawTarget distance s.settings.ocode p.height c.kd
  let fs := scaledForce (clampForce (knotValue s.settings) p.height) c.force
  { kind := .cut
    keep := keep
    limited := targetLimited t
    capped := forceCapped fs
    overdue := s.blade.overdueLatch
    target := limitTarget t
    force := limitForce fs
    step := p.cursor
    program := p.program }

/-- The issue of a CUT job but for the context (R108): KNIFE_JOB, the reservation of a KEEP cut (R15), and
LIMITED_SEEN with its event when the target was limited (R53). -/
def State.cutIssue (s : State) (t : Tag) (p : Pile) (j : KnifeJob) : State :=
  let s := s.putPile t (some { p with
    residency := .knifeJob, limitedSeen := p.limitedSeen || j.limited })
  let s := if j.keep then { s with reservedRecords := 1, reservedSlots := 1 } else s
  if j.limited then s.raise (.targetLimited t p.cursor) else s

/-- What dispatch comes to: a job issued, or the pile held. -/
inductive Dispatched where
  | job (s : State) (t : Tag) (j : Job)
  | held (s : State)

/-- Dispatch of the knife pile (R107 to R111): `p` is its record. -/
def State.dispatch (s : State) (t : Tag) (p : Pile) : Except Fault Dispatched :=
  match s.stepAt p with
  | none => .error .stepUnknown
  | some (.cut edge distance keep _) =>
    match turnFor p.gauge p.face edge with
    | some turn =>
      .ok (.job (s.putPile t (some { p with residency := .knifeJob, pendingTurn := some turn })) t
        (plainKnifeJob (.transferTurn turn) p))
    | none =>
      if ¬ distance < p.depth then .ok (.held (s.dispatchHold t .cutBeyond))
      else if keep && (s.freeRecords < 1 || s.freeSlots < 1) then
        .ok (.held (s.dispatchHold t .noRoom))
      else
        let j := s.cutJobOf p distance keep
        .ok (.job (s.cutIssue t p j) t (.knife j))
  | some .flip =>
    .ok (.job (s.putPile t (some { p with residency := .knifeJob, pendingTurn := some .flip })) t
      (plainKnifeJob (.transferTurn .flip) p))
  | some .jog =>
    .ok (.job (s.putPile t (some { p with residency := .knifeJob })) t (plainKnifeJob .transferJog p))
  | some .fin =>
    .ok (.job (s.putPile t (some { p with residency := .knifeJob })) t (plainKnifeJob .deliver p))

/-- Choice and dispatch, repeated after each hold, at most `fuel` dispatches (R108). -/
def State.knifeSearch : Nat → State → Except Fault (State × Option (Tag × Job))
  | 0, s => .ok (s, none)
  | fuel + 1, s =>
    let chosen := match s.knifePile with
      | some t => some (t, s)
      | none => s.arbiter
    match chosen with
    | none => .ok (s, none)
    | some (t, s1) =>
      match s1.pile t with
      | none => .error .recordAbsent
      | some p =>
        match s1.dispatch t p with
        | .error f => .error f
        | .ok (.job s2 t2 j) => .ok (s2, some (t2, j))
        | .ok (.held s2) => State.knifeSearch fuel s2

/-- The number of piles among the knife's sources and the knife pile, the most holds one NEXT can take
(R108). -/
def State.knifeReach (s : State) : Nat :=
  s.knifePile.toList.length + s.returnLane.length + s.returnStack.length + s.knifeQueue.length

/-- The knife's selection (R105 to R111). The search ends by itself within its fuel. -/
def State.selectKnife (s : State) : Except Fault (State × Option (Tag × Job)) :=
  State.knifeSearch (s.knifeReach + 1) s

/-! ### All stations -/

/-- A station's selection, with its effects. -/
def State.select (s : State) : Station → Except Fault (State × Option (Tag × Job))
  | .lift => .ok s.selectLift
  | .jog => s.selectJog
  | .knife => s.selectKnife
  | .turn => s.selectTurn

end Sys2Proof.Machine
end

