-- ==== Sys2Proof/Machine/Flags.lean ====
section
/-! DEFINITION. The ready condition of each station, the output lines, the reply flags, and how a request
is taken and answered (R63, R162, R164, R165, R167). -/

namespace Sys2Proof.Machine

/-- The line state admits a job for a station: RUN for the lift, RUN or DRAINING for the others (R60). -/
def State.lineAdmits (s : State) : Station → Bool
  | .lift => s.line = .run
  | .jog => s.line = .run || s.line = .draining
  | .knife => s.line = .run || s.line = .draining
  | .turn => s.line = .run || s.line = .draining

/-- The station's selection, evaluated without effect, finds a job (R63). -/
def State.finds (s : State) (st : Station) : Bool :=
  match s.select st with
  | .ok (_, some _) => true
  | .ok (_, none) => false
  | .error _ => false

/-- The ready condition of a station (R63). -/
def State.ready (s : State) (st : Station) : Bool :=
  !(s.ctx st).busy && s.lineAdmits st && !s.halt && s.finds st

/-- The condition of ATTN, which is also READY on the PLAN port (R165, R167). -/
def State.attention (s : State) : Bool := !s.events.isEmpty && s.line != .starting

/-- READY of a reply on a port (R165). -/
def State.portReady (s : State) (p : Port) : Bool :=
  match stationOf p with
  | some st => s.ready st
  | none => s.attention

/-- The output lines follow their conditions as each event is taken (R63, R167). -/
def State.settle (s : State) : State :=
  { s with pins :=
      { rdy := #v[s.ready .lift, s.ready .jog, s.ready .knife, s.ready .turn]
        attn := s.attention } }

/-- What a request is answered: result, tag field and data field. -/
structure Answer where
  result : Result
  tag : TagField
  data : Data
  deriving DecidableEq, Repr

/-- The command field of a reply: the code answered, but 62 for code 63 (R164). -/
def replyCode (code : BitVec 6) : BitVec 6 := if code = 63#6 then 62#6 else code

/-- The reply to a request as it stands once the request has had its effect, with the RESTARTED flag given
(R165). -/
def State.replyOf (s : State) (p : Port) (code : BitVec 6) (restarted : Bool) (a : Answer) : Reply :=
  { code := replyCode code
    tag := a.tag
    result := a.result
    restarted := restarted
    noisy := (s.port p).noisy
    ready := s.portReady p
    halt := s.halt
    data := a.data }

/-- The reply waits in the port's reply slot for the port's next frame (R162), and the output lines follow. -/
def State.respond (s : State) (p : Port) (code : BitVec 6) (restarted : Bool) (a : Answer) : State :=
  (s.putPort p { s.port p with slot := some (s.replyOf p code restarted a) }).settle

/-- The end of a request whose reply shows RESTARTED as it stands. -/
def State.reply (s : State) (p : Port) (code : BitVec 6) (a : Answer) : State :=
  s.respond p code (s.port p).restarted a

/-- An accepted request: the frame is accepted, in STARTING the answer is NOT_READY with `notReadyTag`
(R164), and otherwise the action is carried out; then the reply is formed. -/
def request (p : Port) (code : BitVec 6) (notReadyTag : TagField)
    (action : State → Except Fault (State × Answer)) (s : State) :
    Host.Outcome State Fault Refusal :=
  let s1 := s.acceptFrame p
  if s1.line = .starting then
    .next (s1.reply p code { result := .notReady, tag := notReadyTag, data := 0 })
  else
    match action s1 with
    | .error f => .fault f
    | .ok (t, a) => .next (t.reply p code a)

/-- A request whose action cannot stop. -/
def plainRequest (p : Port) (code : BitVec 6) (notReadyTag : TagField)
    (action : State → State × Answer) (s : State) : Host.Outcome State Fault Refusal :=
  request p code notReadyTag (fun s => .ok (action s)) s

/-- A request answered without a change of the blocks. -/
def readRequest (p : Port) (code : BitVec 6) (notReadyTag : TagField)
    (answer : State → Answer) (s : State) : Host.Outcome State Fault Refusal :=
  plainRequest p code notReadyTag (fun s => (s, answer s)) s

/-- The result of an event that is no request: the output lines follow. -/
def event (r : Except Fault (State × Unit)) : Host.Outcome State Fault Refusal :=
  match r with
  | .error f => .fault f
  | .ok (t, _) => .next t.settle

end Sys2Proof.Machine
end

