-- ==== Sys2Proof/Machine/Holds.lean ====
section
/-! DEFINITION. RELEASE (section 1.8; R93, R103, R119, R133) and BLADE_CHANGED (R124). -/

namespace Sys2Proof.Machine

/-- The effect of an admitted RELEASE on the pile `p` under `t`, held at `st` (R19). -/
def State.releasePile (s : State) (t : Tag) (p : Pile) (st : Station) (a : ReleaseAction) : State :=
  let free := { p with hold := none }
  match a with
  | .scrap => s.freeRecord t accountScrapped
  | .returnLift => s.freeRecord t accountReturned
  | .skip =>
    { s.putPile t (some { free with cursor := s.advanced p, residency := .returnWait }) with
      returnLane := s.returnLane ++ [t] }
  | .retry =>
    match st with
    | .jog =>
      { s.putPile t (some { free with attempt := 0, residency := .jogWait }) with
        jogQueue := s.jogQueue ++ [t] }
    | .turn =>
      { s.putPile t (some { free with residency := .turnWait }) with
        turnQueue := s.turnQueue ++ [t] }
    | .knife =>
      { s.putPile t (some { free with residency := .returnWait }) with
        returnLane := s.returnLane ++ [t] }
    | .lift => s

/-- Checks 2 to 6 of R18, in order: the result that refuses a RELEASE, or the pile, its station and the
action. -/
def State.releaseCheck (s : State) (tag : TagField) (action : BitVec 4) :
    Except Result (Tag × Pile × Station × ReleaseAction) :=
  match tagOfNum tag.toNat with
  | none => .error .badArg
  | some t =>
    match s.pile t with
    | none => .error .badArg
    | some p =>
      match p.residency, p.hold, releaseAction action with
      | .held, some h, some a =>
        if !releaseAllowed h.station a then .error .badArg
        else if a = .skip && s.stepAt p = some .fin then .error .badArg
        else if (a = .retry || a = .skip) && (s.line = .config || s.line = .stopped) then
          .error .notRunning
        else .ok (t, p, h.station, a)
      | _, _, _ => .error .badArg

/-- RELEASE after NOT_READY (R18, R19). -/
def releaseRequest (tag : TagField) (action : BitVec 4) (s : State) : State × Answer :=
  match s.releaseCheck tag action with
  | .error r => (s, { result := r, tag := tag, data := 0 })
  | .ok (t, p, st, a) => (s.releasePile t p st a, { result := .ok, tag := tag, data := 0 })

def execRelease (tag : TagField) (action : BitVec 4) (s : State) : Host.Outcome State Fault Refusal :=
  plainRequest .plan 32 tag (releaseRequest tag action) s

/-- A new blade (R124): the counter 0, both latches clear, a blade save requested. -/
def State.changeBlade (s : State) : State :=
  { s with blade := { counter := 0, warnLatch := false, overdueLatch := false } }.requestBladeSave

def execBladeChanged (p : BladePort) (tag : TagField) (s : State) : Host.Outcome State Fault Refusal :=
  plainRequest p.port 13 tag
    (fun s => (s.changeBlade, { result := .ok, tag := 0, data := dataOf s.blade.counter })) s

end Sys2Proof.Machine
end

