-- ==== Sys2Proof/Machine/Jobs.lean ====
section
/-! DEFINITION. The station job protocol: NEXT, DONE, ABORT, EXTEND and JOB_READ (chapter 4), with what each
station's DONE and ABORT do to its pile (chapters 5 to 8), and the response timers (R71 to R74). -/

namespace Sys2Proof.Machine

/-! ### NEXT -/

/-- The station's selection and, when it finds a job, the issue (R60, R61). -/
def serve (st : Station) (s : State) : Except Fault (State × Answer) :=
  match s.select st with
  | .error f => .error f
  | .ok (t, none) => .ok (t, { result := .wait, tag := 0, data := 0 })
  | .ok (t, some (tag, j)) =>
    .ok (t.issue st tag j, { result := .job, tag := tagField tag, data := jobWord j 0 })

/-- The answers of R60 after NOT_READY, in order. -/
def nextAction (st : Station) (s : State) : Except Fault (State × Answer) :=
  let c := s.ctx st
  if c.busy then .ok (s, { result := .busy, tag := tagFieldOf c.tag, data := jobWord c.job 0 })
  else if !s.lineAdmits st then .ok (s, { result := .notRunning, tag := 0, data := 0 })
  else if s.halt then .ok (s, { result := .wait, tag := 0, data := 0 })
  else withDrain (serve st) s

def execNext (st : Station) (s : State) : Host.Outcome State Fault Refusal :=
  request st.port 8 0 (nextAction st) s

/-! ### The tag checks of R64 -/

/-- What R64 makes of a report after NOT_READY: the job in flight, or the result that answers it. -/
inductive Verdict where
  | current (t : Tag)
  | answered (r : Result)

/-- Checks 2 to 6 of R64. `wellFormed` is false for a DONE with an unknown outcome code. -/
def State.reportVerdict (s : State) (st : Station) (tag : TagField) (wellFormed : Bool) : Verdict :=
  match tagOfNum tag.toNat with
  | none => .answered .badArg
  | some t =>
    if !wellFormed then .answered .badArg
    else if (s.ctx st).busy && (s.ctx st).tag = some t then .current t
    else if (s.ctx st).lastExpired = some t then .answered .late
    else if (s.pile t).isNone then .answered .unknownTag
    else .answered .notYours

/-! ### DONE COMPLETE -/

/-- The expected height of the lift's job record (R41). -/
def State.liftExpected (s : State) : Nat :=
  match (s.ctx .lift).job with
  | .lift _ expected _ _ _ => expected
  | _ => 0

/-- The lift's completion with a measured height (R89, R90). -/
def State.completeLift (s : State) (t : Tag) (p : Pile) (measured : Nat) : State :=
  if 16500 < measured then (s.holdPile t .overheight .lift).endJob .lift
  else
    let expected := s.liftExpected
    let deviates := caliperDeviates measured expected (s.stock p.cls).tol
    let s1 := s.putPile t (some { p with
      height := measured, attempt := 0, residency := .jogWait,
      caliperDev := p.caliperDev || deviates })
    let s2 := { s1 with jogQueue := s1.jogQueue ++ [t] }
    let s3 := if deviates then s2.raise (.caliperDev t (caliperDetail measured expected)) else s2
    s3.endJob .lift

/-- A re-jog (R97): the attempt raised, w0 and w3 rewritten, pointer 1, timer reloaded. -/
def State.rejog (s : State) (t : Tag) (p : Pile) : State × Data :=
  let p1 := { p with attempt := p.attempt + 1 }
  let j := s.jogJobOf p1
  ((s.putPile t (some p1)).issue .jog t j, jobWord j 0)

/-- An aligned pile (R96). -/
def State.jogAligned (s : State) (t : Tag) (p : Pile) : State :=
  let s1 :=
    if p.started then
      { s.putPile t (some { p with residency := .returnWait }) with
        returnLane := s.returnLane ++ [t] }
    else
      { s.putPile t (some { p with residency := .knifeWait }) with
        knifeQueue := s.knifeQueue ++ [t] }
  s1.endJob .jog

/-- The jogger's completion with a measured skew (R46, R96, R97, R98). -/
def State.completeJog (s : State) (t : Tag) (p : Pile) (tag : TagField) (skew : Nat) :
    State × Answer :=
  let c := s.stock p.cls
  let ok : Answer := { result := .ok, tag := tag, data := 0 }
  match classifySkew c.thr c.lim p.attempt skew with
  | .aligned => (s.jogAligned t p, ok)
  | .rejog => let r := s.rejog t p; (r.1, { result := .retry, tag := tag, data := r.2 })
  | .tooMany => ((s.holdPile t .jogRetries .jog).endJob .jog, ok)
  | .rejected => ((s.holdPile t .jogReject .jog).endJob .jog, ok)

/-- The record of a kept offcut (R2): `d` is the cutting pile's depth before the cut. -/
def childPile (t : Tag) (p : Pile) (distance entry : Nat) : Pile :=
  { p with
    residency := .stacked, parent := some t, cursor := entry, depth := p.depth - distance,
    started := false, attempt := 0, pendingTurn := none, limitedSeen := false, hold := none }

/-- The kept offcut made from the reservation: allocated, on top of the Return Stack, one more use of the
program and one more live pile of the pallet, both reservation counts 0 (R2, R15). -/
def State.makeChild (s : State) (t : Tag) (p : Pile) (distance entry : Nat) : Except Fault State :=
  match s.nextTag with
  | none => .error .noFreeRecord
  | some child =>
    let s1 := s.allocate child (childPile t p distance entry)
    let s2 := { s1 with returnStack := child :: s1.returnStack }
    let s3 := (s2.addUse p.program).modifyPallet p.pallet fun q => { q with live := q.live + 1 }
    .ok s3.dropReservation

/-- The completion of a CUT job (R113). -/
def State.completeCut (s : State) (t : Tag) (p : Pile) (keep : Bool) : Except Fault State :=
  match s.stepAt p with
  | some (.cut _ distance _ entry) =>
    let cutPile := { p with depth := distance, cursor := s.advanced p, residency := .atKnife }
    match (if keep then s.makeChild t p distance entry else .ok s) with
    | .error f => .error f
    | .ok s1 => .ok ((s1.putPile t (some cutPile)).bladeRise.endJob .knife)
  | _ => .error .stepUnknown

/-- The completion of a knife job by its kind (R113 to R116). -/
def State.completeKnife (s : State) (t : Tag) (p : Pile) : Except Fault State :=
  match s.knifeJob with
  | none => .error .stepUnknown
  | some j =>
    match j.kind with
    | .cut => s.completeCut t p j.keep
    | .transferTurn _ =>
      .ok ({ s.putPile t (some { p with residency := .turnWait }) with
        turnQueue := s.turnQueue ++ [t], knifePile := none }.endJob .knife)
    | .transferJog =>
      .ok ({ s.putPile t (some { p with
          cursor := s.advanced p, attempt := 0, residency := .jogWait }) with
        jogQueue := s.jogQueue ++ [t], knifePile := none }.endJob .knife)
    | .deliver => .ok ({ s.freeRecord t accountDelivered with knifePile := none }.endJob .knife)

/-- A pile with its pending turn applied (R49, R50, R128); the cursor advances for a FLIP (R129). -/
def State.turned (s : State) (p : Pile) : Pile :=
  match p.pendingTurn with
  | none => p
  | some turn =>
    { p with
      gauge := turnedGauge turn p.gauge p.face
      face := turnedFace turn p.face
      depth := if turnExchanges turn then p.width else p.depth
      width := if turnExchanges turn then p.depth else p.width
      cursor := if turn = .flip then s.advanced p else p.cursor
      pendingTurn := none }

/-- The turner's completion (R128). -/
def State.completeTurn (s : State) (t : Tag) (p : Pile) : State :=
  { s.putPile t (some { s.turned p with residency := .returnWait }) with
    returnLane := s.returnLane ++ [t] }.endJob .turn

/-- DONE COMPLETE for the current job (R65): the answer is OK with the tag echoed, but for a re-jog. -/
def complete (st : Station) (t : Tag) (tag : TagField) (value : Nat) (s : State) :
    Except Fault (State × Answer) :=
  let ok : Answer := { result := .ok, tag := tag, data := 0 }
  match s.pile t with
  | none => .error .recordAbsent
  | some p =>
    match st with
    | .lift => .ok (s.completeLift t p value, ok)
    | .jog => .ok (s.completeJog t p tag value)
    | .knife =>
      match s.completeKnife t p with
      | .error f => .error f
      | .ok s1 => .ok (s1, ok)
    | .turn => .ok (s.completeTurn t p, ok)

/-- DONE FAILED for the current job (R66). -/
def failed (st : Station) (t : Tag) (tag : TagField) (s : State) : Except Fault (State × Answer) :=
  .ok (s.failJob st t .machine, { result := .ok, tag := tag, data := 0 })

/-- DONE after NOT_READY (R64 to R66). -/
def doneAction (st : Station) (tag : TagField) (outcome : BitVec 2) (value : Data) (s : State) :
    Except Fault (State × Answer) :=
  match s.reportVerdict st tag (doneOutcome outcome).isSome with
  | .answered r => .ok (s, { result := r, tag := tag, data := 0 })
  | .current t =>
    match doneOutcome outcome with
    | some .complete => withDrain (complete st t tag value.toNat) s
    | some .failed => withDrain (failed st t tag) s
    | none => .ok (s, { result := .badArg, tag := tag, data := 0 })

def execDone (st : Station) (tag : TagField) (outcome : BitVec 2) (value : Data) (s : State) :
    Host.Outcome State Fault Refusal :=
  request st.port 9 tag (doneAction st tag outcome value) s

/-! ### ABORT -/

/-- The undo of a job by station (R67, R92, R100, R118, R131). -/
def State.abortJob (s : State) (st : Station) (t : Tag) : State :=
  match st with
  | .lift => (s.freeRecord t accountReturned).endJob .lift
  | .jog =>
    { s.modifyPile t (fun p => { p with residency := .jogWait }) with
      jogQueue := t :: s.jogQueue }.endJob .jog
  | .knife =>
    ((s.dropKnifeTurn t).modifyPile t fun p =>
      { p with residency := .atKnife }).dropReservation.endJob .knife
  | .turn =>
    { s.modifyPile t (fun p => { p with residency := .turnWait }) with
      turnQueue := t :: s.turnQueue }.endJob .turn

/-- ABORT after NOT_READY (R64, R67). -/
def abortAction (st : Station) (tag : TagField) (s : State) : Except Fault (State × Answer) :=
  match s.reportVerdict st tag true with
  | .answered r => .ok (s, { result := r, tag := tag, data := 0 })
  | .current t =>
    withDrain (fun s => .ok (s.abortJob st t, { result := .ok, tag := tag, data := 0 })) s

def execAbort (st : Station) (tag : TagField) (s : State) : Host.Outcome State Fault Refusal :=
  request st.port 10 tag (abortAction st tag) s

/-! ### EXTEND and JOB_READ -/

/-- EXTEND after NOT_READY (R64, R68). -/
def extendAction (st : Station) (tag : TagField) (s : State) : State × Answer :=
  match s.reportVerdict st tag true with
  | .answered r => (s, { result := r, tag := tag, data := 0 })
  | .current _ => (s.loadTimer st, { result := .ok, tag := tag, data := dataOf (s.preset st) })

def execExtend (st : Station) (tag : TagField) (s : State) : Host.Outcome State Fault Refusal :=
  plainRequest st.port 11 tag (extendAction st tag) s

/-- JOB_READ after NOT_READY (R69): the index that follows 3 is 0. -/
def jobReadAction (st : Station) (tag : TagField) (word : BitVec 4) (s : State) : State × Answer :=
  let c := s.ctx st
  match jobReadWord c.pointer word with
  | none => (s, { result := .badArg, tag := tag, data := 0 })
  | some i =>
    (s.putCtx st { c with pointer := i + 1 },
      { result := .ok, tag := tagFieldOf c.recordTag, data := jobWord c.job i })

def execJobRead (st : Station) (tag : TagField) (word : BitVec 4) (s : State) :
    Host.Outcome State Fault Refusal :=
  plainRequest st.port 12 tag (jobReadAction st tag word) s

/-! ### The response timers -/

/-- A running timer's expiry ends its job, the pile held with TIMEOUT and its tag the station's last
expired tag (R72). -/
def State.expireJob (s : State) (st : Station) : State :=
  match (s.ctx st).tag with
  | none => s.endJob st
  | some t =>
    let s1 := s.failJob st t .timeout
    s1.putCtx st { s1.ctx st with lastExpired := some t }

/-- The expiry with the drain test of R153. -/
def expire (st : Station) (s : State) : Except Fault (State × Unit) :=
  withDrain (fun s => .ok (s.expireJob st, ())) s

/-- One station's share of a 0.1 s tick: a running timer falls by 1, and at 0 it expires in the same event
(R71, R72). While HALT is asserted it stands (R74). -/
def tickStation (st : Station) (s : State) : Except Fault (State × Unit) :=
  let c := s.ctx st
  if c.running && !s.halt then
    if c.remaining ≤ 1 then expire st s
    else .ok (s.putCtx st { c with remaining := c.remaining - 1 }, ())
  else .ok (s, ())

/-- Several stations' shares, one after another. -/
def tickStations : List Station → State → Except Fault (State × Unit)
  | [], s => .ok (s, ())
  | st :: rest, s =>
    match tickStation st s with
    | .error f => .error f
    | .ok (t, _) => tickStations rest t

/-- Timers that reach 0 at one tick expire in station order; another order is reached by the sender's
RESPONSE_TIMER_EXPIRY for the earlier ones (log entry 7). -/
def execTimebaseTick (s : State) : Host.Outcome State Fault Refusal :=
  event (tickStations [.lift, .jog, .knife, .turn] s)

/-- One station's timer reaches 0 and its expiry is taken by itself (R72, R73). It can only be taken of a
timer that runs, is at its last count and is not standing for HALT; of any other it is no event, and
nothing changes (log entry 7). -/
def execResponseTimerExpiry (st : Station) (s : State) : Host.Outcome State Fault Refusal :=
  let c := s.ctx st
  event (if c.running && !s.halt && c.remaining ≤ 1 then expire st s else .ok (s, ()))

end Sys2Proof.Machine
end

