-- ==== Sys2Proof/Machine/Reports.lean ====
section
/-! DEFINITION. The commands of every port and the reports: NOP, STATUS, SNAPSHOT, SNAP_READ, PILE_READ,
EVENT_READ, BAD_COMMAND and the discarded frame (chapter 11; R21, R70). -/

namespace Sys2Proof.Machine

/-- Taken in every line state, STARTING included (R162, R164). -/
def execNop (p : Port) (s : State) : Host.Outcome State Fault Refusal :=
  .next ((s.acceptFrame p).reply p 0 { result := .ok, tag := 0, data := 0 })

/-! ### STATUS -/

/-- The answer of STATUS on a station port (R70). -/
def State.stationStatus (s : State) (st : Station) : Answer :=
  let c := s.ctx st
  { result := .ok, tag := tagFieldOf c.tag, data := dataOf (c.remaining + c.busy.toNat * 2 ^ 12) }

/-- The answer of STATUS on the PLAN port (R166). -/
def State.planStatus (s : State) : Answer :=
  { result := .ok
    tag := 0
    data := dataOf (lineCode s.line + s.dropped.toNat * 2 ^ 3 + s.events.length * 2 ^ 4 +
      storeStateCode s.storeWrite * 2 ^ 10) }

def State.statusAnswer (s : State) (p : Port) : Answer :=
  match stationOf p with
  | some st => s.stationStatus st
  | none => s.planStatus

/-- What STATUS clears: the port's RESTARTED flag and, on PLAN, DROPPED (R70, R166). -/
def State.statusClear (s : State) (p : Port) : State :=
  let s := s.putPort p { s.port p with restarted := false }
  if p = .plan then { s with dropped := false } else s

/-- Taken in every line state; the reply shows RESTARTED and DROPPED as they stood (R70, R166). -/
def execStatus (p : Port) (s : State) : Host.Outcome State Fault Refusal :=
  let s1 := s.acceptFrame p
  .next ((s1.statusClear p).respond p 1 (s1.port p).restarted (s1.statusAnswer p))

/-! ### The Snapshot Buffer -/

/-- The word of a station's context: current tag and BUSY (R169). -/
def State.contextWord (s : State) (st : Station) : Data :=
  let c := s.ctx st
  dataOf (tagNumOf c.tag + c.busy.toNat * 2 ^ 6)

/-- The knife's word: in IDLE its tag is the knife pile (R169). -/
def State.knifeWord (s : State) : Data :=
  if (s.ctx .knife).busy then s.contextWord .knife else dataOf (tagNumOf s.knifePile)

/-- The remaining sheets of a place of the Pallet Table, 0 where it has no record (R81). -/
def State.placeRemaining (s : State) (i : Nat) : Data :=
  match s.pallets[i]? with
  | none => 0
  | some p => dataOf p.remaining

/-- Word 18: the Store Controller (R169). -/
def State.storeWord (s : State) : Data :=
  let op := match s.progOp with
    | none => 0
    | some op => progNum op.program * 2 ^ 2 + (if op.stage = .pending then 0 else 2 ^ 8)
  dataOf (storeStateCode s.storeWrite + op + s.bladeSave.toNat * 2 ^ 9)

/-- The 20 status words of R169. -/
def State.statusWords (s : State) : Vector Data 20 :=
  #v[dataOf (lineCode s.line + s.halt.toNat * 2 ^ 3 + s.blade.warnLatch.toNat * 2 ^ 4 +
        s.blade.overdueLatch.toNat * 2 ^ 5),
    s.contextWord .lift, s.contextWord .jog, s.knifeWord, s.contextWord .turn,
    dataOf s.jogQueue.length, dataOf s.knifeQueue.length, dataOf s.returnLane.length,
    dataOf s.turnQueue.length,
    dataOf s.returnStack.length,
    dataOf (s.inUse + s.reservedRecords * 2 ^ 6 + s.reservedSlots * 2 ^ 7),
    dataOf s.heldSet.length,
    dataOf s.blade.counter,
    s.placeRemaining 0, s.placeRemaining 1, s.placeRemaining 2, s.placeRemaining 3,
    dataOf (s.events.length + s.dropped.toNat * 2 ^ 6),
    s.storeWord,
    dataOf (s.freshCount + s.freeRecords * 2 ^ 6 + s.freeSlots * 2 ^ 12)]

/-- The sequence number after one given, passing from 63 to 0 (R169). -/
def snapAfter (n : Nat) : Nat := if 63 ≤ n then 0 else n + 1

/-- The effect of SNAPSHOT (R169). -/
def State.snapshot (s : State) (p : Port) : State :=
  { s.putPort p { s.port p with snapPtr := 0 } with
    snapWords := s.statusWords, snapSeq := snapAfter s.snapSeq }

def execSnapshot (p : Port) (tag : TagField) (s : State) : Host.Outcome State Fault Refusal :=
  plainRequest p 2 tag (fun s =>
    (s.snapshot p, { result := .ok, tag := BitVec.ofNat 6 (snapAfter s.snapSeq), data := 0 })) s

/-- R170. -/
def snapReadAction (p : Port) (tag : TagField) (word : BitVec 5) (s : State) : State × Answer :=
  match snapReadWord (s.port p).snapPtr word with
  | none => (s, { result := .badArg, tag := tag, data := 0 })
  | some i =>
    (s.putPort p { s.port p with snapPtr := i + 1 },
      { result := .ok, tag := BitVec.ofNat 6 s.snapSeq, data := look s.snapWords i })

def execSnapRead (p : Port) (tag : TagField) (word : BitVec 5) (s : State) :
    Host.Outcome State Fault Refusal :=
  plainRequest p 3 tag (snapReadAction p tag word) s

/-! ### PILE_READ -/

/-- R21, checks 2 and 3 and the answer. -/
def State.pileReadAnswer (s : State) (tag : TagField) (word : BitVec 4) : Answer :=
  match tagOfNum tag.toNat with
  | none => { result := .badArg, tag := tag, data := 0 }
  | some t =>
    if 7 < word.toNat then { result := .badArg, tag := tag, data := 0 }
    else
      match s.pile t with
      | none => { result := .unknownTag, tag := tag, data := 0 }
      | some p => { result := .ok, tag := tag, data := pileWord p word.toNat }

def execPileRead (p : Port) (tag : TagField) (word : BitVec 4) (s : State) :
    Host.Outcome State Fault Refusal :=
  readRequest p 4 tag (fun s => s.pileReadAnswer tag word) s

/-! ### EVENT_READ -/

/-- R168. -/
def eventReadAction (s : State) : State × Answer :=
  match s.events with
  | [] => (s, { result := .wait, tag := 0, data := 0 })
  | ev :: rest => ({ s with events := rest }, { result := .ok, tag := eventTag ev, data := eventData ev })

def execEventRead (tag : TagField) (s : State) : Host.Outcome State Fault Refusal :=
  plainRequest .plan 33 tag eventReadAction s

/-! ### Requests not admitted, and discarded frames -/

/-- The port check comes before NOT_READY, so BAD_COMMAND is answered in STARTING too (R164). -/
def execBadCommand (p : Port) (code : BitVec 6) (tag : TagField) (s : State) :
    Host.Outcome State Fault Refusal :=
  .next ((s.acceptFrame p).reply p code { result := .badCommand, tag := tag, data := 0 })

/-- A discarded frame has no effect on any block but its port unit, and PORT_NOISY (R161, R163). -/
def execFrameDiscarded (p : Port) (cause : DiscardCause) (s : State) :
    Host.Outcome State Fault Refusal :=
  .next (s.discardFrame p cause).settle

end Sys2Proof.Machine
end

