-- ==== Sys2Proof/Machine/Line.lean ====
section
/-! DEFINITION. Line Control: LINE_START, LINE_STOP, LINE_RESET, CONFIG_WRITE, CONFIG_READ, the HALT input and
the drain's completion (chapter 10). -/

namespace Sys2Proof.Machine

/-! ### Line states -/

/-- LINE_START after NOT_READY: RUN from every other state (R151). -/
def lineStartAction (tag : TagField) (s : State) : State × Answer :=
  ({ s with line := .run }, { result := .ok, tag := tag, data := dataOf (lineCode .run) })

def execLineStart (tag : TagField) (s : State) : Host.Outcome State Fault Refusal :=
  plainRequest .plan 16 tag (lineStartAction tag) s

/-- RUN becomes DRAINING, and the drain test is made in the same event (R152). -/
def State.drainBegin (s : State) : Except Fault (State × Unit) :=
  withDrain (fun s => .ok ({ s with line := .draining }, ())) s

/-- LINE_STOP after NOT_READY (R152): the answer carries the line state after the request. -/
def lineStopAction (tag : TagField) (s : State) : Except Fault (State × Answer) :=
  if s.line = .run then
    match s.drainBegin with
    | .error f => .error f
    | .ok (t, _) => .ok (t, { result := .ok, tag := tag, data := dataOf (lineCode t.line) })
  else .ok (s, { result := .notRunning, tag := tag, data := 0 })

def execLineStop (tag : TagField) (s : State) : Host.Outcome State Fault Refusal :=
  request .plan 17 tag (lineStopAction tag) s

/-- The drain found complete (R153). Every command that can complete the drain makes the test in its own
event, so that this command, taken by itself, finds something to do only in a state that no run reaches
(log entry 8). -/
def execDrainComplete (s : State) : Host.Outcome State Fault Refusal :=
  event (withDrain (fun s => .ok (s, ())) s)

/-- The clearing of R154; R155 lists what it keeps. -/
def State.lineReset (s : State) : State :=
  { s with
    piles := Vector.replicate 32 none
    allocPtr := none
    jogQueue := [], knifeQueue := [], returnLane := [], turnQueue := [], returnStack := []
    reservedRecords := 0, reservedSlots := 0
    knifePile := none
    contexts := Vector.replicate 4 Context.reset
    draft := Draft.reset, pallets := [], lastReport := none, seqCounter := 0
    useCounts := Vector.replicate 48 0
    session := none
    events := [], dropped := false
    snapWords := Vector.replicate 20 0, snapSeq := 0
    ports := s.ports.map fun u => { u with snapPtr := 0, restarted := true }
    line := .config }

def execLineReset (tag : TagField) (s : State) : Host.Outcome State Fault Refusal :=
  plainRequest .plan 18 tag
    (fun s => (s.lineReset, { result := .ok, tag := 0, data := 0 })) s

/-! ### Settings -/

/-- CONFIG_WRITE after NOT_READY: checks 2 to 5 of R158, the write, and the re-test of the blade latches
after a write of warn or limit (R122, R159). -/
def configWriteAction (table : TagField) (index setting : BitVec 4) (value : Data) (s : State) :
    State × Answer :=
  let refuse (r : Result) : State × Answer := (s, { result := r, tag := table, data := 0 })
  match settingRef table index setting with
  | none => refuse .badArg
  | some r =>
    let v := value.toNat
    if !settingWritable r then refuse .badArg
    else if (s.line = .run || s.line = .draining) && !settingOfBlade r then refuse .lineRunning
    else if v < (settingRange r).1 || (settingRange r).2 < v then refuse .badArg
    else if !settingFits s.settings r v then refuse .badArg
    else
      let s1 := { s with settings := settingWrite s.settings r v }
      (if settingOfBlade r then s1.bladeRetest else s1,
        { result := .ok, tag := table, data := dataOf v })

def execConfigWrite (table : TagField) (index setting : BitVec 4) (value : Data) (s : State) :
    Host.Outcome State Fault Refusal :=
  plainRequest .plan 19 table (configWriteAction table index setting value) s

/-- R160. -/
def State.configReadAnswer (s : State) (table : TagField) (index setting : BitVec 4) : Answer :=
  match settingRef table index setting with
  | none => { result := .badArg, tag := table, data := 0 }
  | some r => { result := .ok, tag := table, data := dataOf (settingValue s.settings r) }

def execConfigRead (table : TagField) (index setting : BitVec 4) (s : State) :
    Host.Outcome State Fault Refusal :=
  readRequest .plan 20 table (fun s => s.configReadAnswer table index setting) s

/-! ### HALT (R74, R156) -/

/-- The HALT input becomes asserted: the condition, and HALT_ON. An input already asserted makes no change
of level, and nothing is taken. -/
def State.assertHalt (s : State) : State :=
  if s.halt then s else { s with halt := true }.raise .haltOn

/-- A timer that is running is loaded with its station's preset (R74). -/
def State.reloadRunning (s : State) (st : Station) : State :=
  if (s.ctx st).running then s.loadTimer st else s

/-- The HALT input is released: the condition, HALT_OFF, and the full reload of each running timer. -/
def State.releaseHalt (s : State) : State :=
  if s.halt then
    (((({ s with halt := false }.raise .haltOff).reloadRunning .lift).reloadRunning
      .jog).reloadRunning .knife).reloadRunning .turn
  else s

def execHaltAsserted (s : State) : Host.Outcome State Fault Refusal := event (.ok (s.assertHalt, ()))

def execHaltReleased (s : State) : Host.Outcome State Fault Refusal :=
  event (.ok (s.releaseHalt, ()))

end Sys2Proof.Machine
end

