-- ==== Sys2Proof/Machine/Pallets.lean ====
section
/-! DEFINITION. The Pallet Draft and the Pallet Table as the line terminal reaches them: PALLET_FIELD,
PALLET_QUEUE, PALLET_CANCEL and PALLET_READ (chapter 5). -/

namespace Sys2Proof.Machine

/-- PALLET_FIELD after NOT_READY (R77). -/
def palletFieldAction (tag : TagField) (field : BitVec 4) (value : Data) (s : State) :
    State × Answer :=
  match draftWrite s.draft field.toNat value.toNat with
  | none => (s, { result := .badArg, tag := tag, data := 0 })
  | some d => ({ s with draft := d }, { result := .ok, tag := tag, data := value })

def execPalletField (tag : TagField) (field : BitVec 4) (value : Data) (s : State) :
    Host.Outcome State Fault Refusal :=
  plainRequest .plan 21 tag (palletFieldAction tag field value) s

/-- Whether a program operation for a program is pending or in progress: the program is committing, or its
erase has not ended (R140, R144). -/
def State.operating (s : State) (p : ProgNo) : Bool :=
  match s.progOp with
  | none => false
  | some op => op.program = p

/-- Whether a load session for a program is open. -/
def State.loading (s : State) (p : ProgNo) : Bool :=
  match s.session with
  | none => false
  | some x => x.program = p

/-- The pallet record that R79 makes of the Draft. -/
def queuedPallet (d : Draft) (p : ProgNo) (seq : Nat) : Pallet :=
  { seq := seq, program := p, cls := d.cls, caliper := d.caliper, extentNS := d.extentNS,
    extentEW := d.extentEW, gauge := d.gauge, face := d.face, declared := d.sheets,
    remaining := d.sheets, lifted := 0, cancelled := 0, live := 0, liftsIssued := 0,
    delivered := 0, scrapped := 0 }

/-- A pallet created at the end of the table (R79). -/
def State.queuePallet (s : State) (p : ProgNo) : State :=
  let seq := s.nextSeq
  { s with pallets := s.pallets ++ [queuedPallet s.draft p seq], seqCounter := seq }.addUse p

/-- PALLET_QUEUE after NOT_READY: checks 2 to 5 of R78, then R79. -/
def palletQueueAction (tag : TagField) (s : State) : State × Answer :=
  let refuse (r : Result) : State × Answer := (s, { result := r, tag := tag, data := 0 })
  match s.draft.program with
  | none => refuse .badArg
  | some p =>
    if !draftInRange s.draft then refuse .badArg
    else if (s.entry p).state ≠ .valid then refuse .invalid
    else if s.loading p || s.operating p then refuse .busy
    else if 4 ≤ s.pallets.length then refuse .full
    else (s.queuePallet p, { result := .ok, tag := 0, data := dataOf s.nextSeq })

def execPalletQueue (tag : TagField) (s : State) : Host.Outcome State Fault Refusal :=
  plainRequest .plan 22 tag (palletQueueAction tag) s

/-- A pallet's accounts at PALLET_CANCEL (R80, R82). -/
def accountCancelled (q : Pallet) : Pallet :=
  { q with cancelled := q.cancelled + q.remaining, remaining := 0 }

/-- PALLET_CANCEL after NOT_READY (R82), with the finish test of R83. -/
def palletCancelAction (tag : TagField) (seq : BitVec 8) (s : State) : State × Answer :=
  let refused : State × Answer := (s, { result := .badArg, tag := tag, data := 0 })
  if seq.toNat = 0 then refused
  else
    match s.palletOf seq.toNat with
    | none => refused
    | some q =>
      ((s.modifyPallet seq.toNat accountCancelled).finishTest seq.toNat,
        { result := .ok, tag := 0, data := dataOf q.remaining })

def execPalletCancel (tag : TagField) (seq : BitVec 8) (s : State) :
    Host.Outcome State Fault Refusal :=
  plainRequest .plan 23 tag (palletCancelAction tag seq) s

/-- The word of a source of PALLET_READ: 0 the Draft, 1..4 the table's places, 5 the Last Pallet Report. -/
def State.palletSourceWord (s : State) (source word : Nat) : Data :=
  match source with
  | 0 => draftWord s.draft word
  | 5 => palletWordOf s.lastReport word
  | k => palletWordOf s.pallets[k - 1]? word

/-- R85. -/
def State.palletReadAnswer (s : State) (tag : TagField) (source word : BitVec 4) : Answer :=
  if 5 < source.toNat || 11 < word.toNat then { result := .badArg, tag := tag, data := 0 }
  else { result := .ok, tag := 0, data := s.palletSourceWord source.toNat word.toNat }

def execPalletRead (tag : TagField) (source word : BitVec 4) (s : State) :
    Host.Outcome State Fault Refusal :=
  readRequest .plan 24 tag (fun s => s.palletReadAnswer tag source word) s

end Sys2Proof.Machine
end

