-- ==== Sys2Proof/Machine/Programs.lean ====
section
/-! DEFINITION. The Program Store as the line terminal reaches it, and the ends of nonvolatile writes:
LOAD_BEGIN, LOAD_STEP, LOAD_END, LOAD_ABORT, PROG_ERASE, PROG_READ, PROG_INFO, BLOCK_WRITE_DONE and
DIRECTORY_WRITE_DONE (chapter 9). -/

namespace Sys2Proof.Machine

/-! ### Load sessions -/

/-- Checks 3 and 4 of R138, which PROG_ERASE shares (R144): the result that refuses, if any. -/
def State.storeBusy (s : State) (p : ProgNo) : Option Result :=
  if s.session.isSome || s.progOp.isSome then some .busy
  else if 0 < s.useCount p then some .inUse
  else none

/-- LOAD_BEGIN after NOT_READY: checks 2 to 5 of R138, and the session opened. -/
def loadBeginAction (program : TagField) (count : BitVec 8) (s : State) : State × Answer :=
  let refuse (r : Result) : State × Answer := (s, { result := r, tag := program, data := 0 })
  match progOfNum program.toNat with
  | none => refuse .badArg
  | some p =>
    let c := count.toNat
    if c = 0 then refuse .badArg
    else
      match s.storeBusy p with
      | some r => refuse r
      | none =>
        if (freeBlocks s.work).length < blocksFor c then refuse .full
        else
          let x : Session := { program := p, count := c, buffer := List.replicate c 0, pointer := 0 }
          ({ s with session := some x },
            { result := .ok, tag := program, data := dataOf (blocksFor c) })

def execLoadBegin (program : TagField) (count : BitVec 8) (s : State) :
    Host.Outcome State Fault Refusal :=
  plainRequest .plan 25 program (loadBeginAction program count) s

/-- The tag field of a LOAD_STEP as received: frame bits 41..40 and packed step bits 31..28. -/
def loadStepTag (top : BitVec 2) (step : PackedStep) : TagField := top ++ step.extractLsb' 28 4

/-- LOAD_STEP after NOT_READY (R139). -/
def loadStepAction (top : BitVec 2) (step : PackedStep) (s : State) : State × Answer :=
  let refused : State × Answer := (s, { result := .badArg, tag := loadStepTag top step, data := 0 })
  match s.session with
  | none => refused
  | some x =>
    if x.pointer = x.count then refused
    else
      let x1 := { x with buffer := x.buffer.set x.pointer step, pointer := x.pointer + 1 }
      ({ s with session := some x1 },
        { result := .ok, tag := progField x.program, data := dataOf (x.pointer + 1) })

def execLoadStep (top : BitVec 2) (step : PackedStep) (s : State) : Host.Outcome State Fault Refusal :=
  plainRequest .plan 26 (loadStepTag top step) (loadStepAction top step) s

/-- The data of an INVALID answer of LOAD_END: detail 1 MISSING, 2 STEP, 3 CHECK in bits 19..18, and the
pointer, index or computed check in bits 15..0. -/
def loadEndDetail (detail : Nat) (value : BitVec 16) : Data :=
  BitVec.ofNat 2 detail ++ 0#2 ++ value

/-- The session closed with its buffer handed to the Store Controller as a pending commit (R140). -/
def State.handCommit (s : State) (x : Session) : State :=
  { s with
    session := none
    progOp := some { program := x.program, kind := .commit x.buffer (programCheck x.buffer),
                     stage := .pending } }.startNext

/-- LOAD_END after NOT_READY: checks 2 to 5 of R140. -/
def loadEndAction (tag : TagField) (mode : BitVec 4) (check : BitVec 16) (s : State) :
    State × Answer :=
  match s.session with
  | none => (s, { result := .badArg, tag := tag, data := 0 })
  | some x =>
    let closed := { s with session := none }
    let computed := programCheck x.buffer
    if 1 < mode.toNat then (s, { result := .badArg, tag := tag, data := 0 })
    else if x.pointer < x.count then
      (s, { result := .invalid, tag := tag, data := loadEndDetail 1 (BitVec.ofNat 16 x.pointer) })
    else
      match firstInvalid x.buffer with
      | some i =>
        (closed, { result := .invalid, tag := tag, data := loadEndDetail 2 (BitVec.ofNat 16 i) })
      | none =>
        if mode.toNat = 1 && computed != check then
          (closed, { result := .invalid, tag := tag, data := loadEndDetail 3 computed })
        else
          (s.handCommit x,
            { result := .ok, tag := progField x.program, data := computed.setWidth 20 })

def execLoadEnd (tag : TagField) (mode : BitVec 4) (check : BitVec 16) (s : State) :
    Host.Outcome State Fault Refusal :=
  plainRequest .plan 27 tag (loadEndAction tag mode check) s

/-- LOAD_ABORT after NOT_READY (R141). -/
def loadAbortAction (s : State) : State × Answer :=
  match s.session with
  | none => (s, { result := .ok, tag := 0, data := 0 })
  | some x => ({ s with session := none }, { result := .ok, tag := progField x.program, data := 0 })

def execLoadAbort (tag : TagField) (s : State) : Host.Outcome State Fault Refusal :=
  plainRequest .plan 28 tag loadAbortAction s

/-! ### Erasing and reading -/

/-- PROG_ERASE after NOT_READY (R144). -/
def progEraseAction (program : TagField) (s : State) : State × Answer :=
  let refuse (r : Result) : State × Answer := (s, { result := r, tag := program, data := 0 })
  match progOfNum program.toNat with
  | none => refuse .badArg
  | some p =>
    match s.storeBusy p with
    | some r => refuse r
    | none =>
      ({ s with progOp := some { program := p, kind := .erase, stage := .pending } }.startNext,
        { result := .ok, tag := program, data := 0 })

def execProgErase (program : TagField) (s : State) : Host.Outcome State Fault Refusal :=
  plainRequest .plan 29 program (progEraseAction program) s

/-- Half 1 of a packed step is its upper 16 bits, half 0 its lower 16 bits (R148). -/
def stepHalf (w : PackedStep) (half : Nat) : Data :=
  if half = 1 then (w.extractLsb' 16 16).setWidth 20 else (w.extractLsb' 0 16).setWidth 20

/-- PROG_READ after NOT_READY: checks 2 to 4 of R148. -/
def State.progReadAnswer (s : State) (program : TagField) (half : BitVec 4) (index : BitVec 8) :
    Answer :=
  let refuse (r : Result) : Answer := { result := r, tag := program, data := 0 }
  match progOfNum program.toNat with
  | none => refuse .badArg
  | some p =>
    if 1 < half.toNat then refuse .badArg
    else if (s.entry p).state = .empty then refuse .invalid
    else if (s.entry p).count ≤ index.toNat then refuse .badArg
    else
      { result := .ok, tag := program, data := stepHalf (s.packedStep p index.toNat) half.toNat }

def execProgRead (program : TagField) (half : BitVec 4) (index : BitVec 8) (s : State) :
    Host.Outcome State Fault Refusal :=
  readRequest .plan 30 program (fun s => s.progReadAnswer program half index) s

/-- Item 3 of PROG_INFO: 7..0 load pointer, 15..8 declared count; 0 with no session open for the program. -/
def State.sessionItem (s : State) (p : ProgNo) : Data :=
  match s.session with
  | none => 0
  | some x => if x.program = p then dataOf (x.pointer + x.count * 2 ^ 8) else 0

/-- An item of PROG_INFO (R149). -/
def State.progItem (s : State) (p : ProgNo) (item : Nat) : Data :=
  let e := s.entry p
  match item with
  | 0 => dataOf (entryStateCode e.state + e.count * 2 ^ 2 + (s.operating p).toNat * 2 ^ 10 +
      (s.loading p).toNat * 2 ^ 11)
  | 1 => e.check.setWidth 20
  | 2 => dataOf (s.useCount p)
  | 3 => s.sessionItem p
  | 4 => dataOf (freeBlocks s.work).length
  | _ => dataOf (badBlocks s.work).length

/-- PROG_INFO after NOT_READY (R149). -/
def State.progInfoAnswer (s : State) (program : TagField) (item : BitVec 4) : Answer :=
  match progOfNum program.toNat with
  | none => { result := .badArg, tag := program, data := 0 }
  | some p =>
    if 5 < item.toNat then { result := .badArg, tag := program, data := 0 }
    else { result := .ok, tag := program, data := s.progItem p item.toNat }

def execProgInfo (program : TagField) (item : BitVec 4) (s : State) :
    Host.Outcome State Fault Refusal :=
  readRequest .plan 31 program (fun s => s.progInfoAnswer program item) s

/-! ### The end of a block write (R142, R143) -/

/-- The part of a program that the block at a position holds, under its header (R134). -/
def blockOf (p : ProgNo) (steps : List PackedStep) (position : Nat) : Block :=
  { header := some (progNum p, position), steps := (steps.drop (48 * position)).take 48 }

/-- The next stage after a block read back with no difference: the next block, or the commit point. -/
def State.blockWritten (s : State) (op : ProgOp) (steps : List PackedStep) (check : BitVec 16)
    (blocks : List BlockNo) (position : Nat) (b : BlockNo) : State :=
  let s1 := { s with
    nv := { s.nv with blocks := put s.nv.blocks b (blockOf op.program steps position) }
    storeWrite := .idle }
  if position + 1 < blocks.length then s1.startBlockWrite op blocks (position + 1)
  else
    { s1 with progOp := some { op with stage := .commitPoint } }.startDirWrite
      (s1.bladeImage (commitImage s1.work op.program steps check blocks)) .operation

/-- A block read back with a difference: the directory write that marks it BAD is started (R143). -/
def State.blockFailed (s : State) (op : ProgOp) (b : BlockNo) : State :=
  { s with storeWrite := .idle, progOp := some { op with stage := .markBad } }.startDirWrite
    (s.bladeImage { s.work with blocks := put s.work.blocks b .bad }) .operation

/-- The end of a block write; no event, and so no change, unless one is in progress. -/
def State.blockWriteEnd (s : State) (isMatch : Bool) : State :=
  match s.storeWrite, s.progOp with
  | .block b, some op =>
    match op.kind, op.stage with
    | .commit steps check, .blockWrites blocks position =>
      if isMatch then s.blockWritten op steps check blocks position b else s.blockFailed op b
    | _, _ => s
  | _, _ => s

def execBlockWriteDone (matched : Bool) (s : State) : Host.Outcome State Fault Refusal :=
  event (.ok (s.blockWriteEnd matched, ()))

/-! ### The end of a directory write (R135, R142 to R145) -/

/-- A program operation has ended: its event, and the controller's next write. -/
def State.opEnd (s : State) (ev : Event) : State := ({ s with progOp := none }.raise ev).startNext

/-- What the end of a directory write of a program operation leads to. `old` is the program's block list
before the write. -/
def State.opWriteEnd (s : State) (op : ProgOp) (completed : Bool) (old : Entry) : State :=
  match op.stage with
  | .commitPoint =>
    if !completed then s.opEnd (.storeFailed (some op.program))
    else if old.state = .empty then s.opEnd (.storeDone op.program false)
    else
      { s with progOp := some { op with stage := .releaseOld old.blocks } }.startDirWrite
        (s.bladeImage (releaseImage s.work old.blocks)) .operation
  | .releaseOld _ => s.opEnd (.storeDone op.program false)
  | .markBad => s.opEnd (.storeFailed (some op.program))
  | .eraseWrite =>
    s.opEnd (if completed then .storeDone op.program true else .storeFailed (some op.program))
  | .pending => s
  | .blockWrites _ _ => s

/-- What the end of a directory write leads to, by what it served; `before` is the working copy before it. -/
def State.dirWriteFollow (s : State) (purpose : DirPurpose) (completed : Bool) (before : Directory) :
    State :=
  match purpose with
  | .scan => { s with scan := .ending }
  | .bladeSave => (if completed then s else s.raise (.storeFailed none)).startNext
  | .operation =>
    match s.progOp with
    | none => s
    | some op => s.opWriteEnd op completed (look before.entries op.program)

/-- The end of a directory write's read-back (R135): completed, made a second time, or abandoned. No event,
and so no change, unless one is in progress. -/
def State.dirWriteEnd (s : State) (isMatch : Bool) : State :=
  match s.storeWrite with
  | .directory target generation image purpose second =>
    if isMatch then
      { s with
        nv := nvPutCopy s.nv target { checkOk := true, generation := generation, dir := image }
        latest := some target
        work := image
        storeWrite := .idle }.dirWriteFollow purpose true s.work
    else if !second then { s with storeWrite := .directory target generation image purpose true }
    else { s with storeWrite := .idle }.dirWriteFollow purpose false s.work
  | _ => s

def execDirectoryWriteDone (matched : Bool) (s : State) : Host.Outcome State Fault Refusal :=
  event (.ok (s.dirWriteEnd matched, ()))

end Sys2Proof.Machine
end

