-- ==== Sys2Proof/Machine/Reset.lean ====
section
/-! DEFINITION. Hardware reset, the start-up scan and its end (R147, R150, R156, R125). -/

namespace Sys2Proof.Machine

/-! ### Choosing the directory (R147 step 1) -/

/-- Every field of an entry lies in its range (R134). -/
def entryInRange (e : Entry) : Bool :=
  match e.state with
  | .empty => e.count = 0 && e.check = 0#16 && e.blocks.isEmpty
  | .valid => 1 ≤ e.count && e.count ≤ 255 && e.blocks.length ≤ 6
  | .damaged => 1 ≤ e.count && e.count ≤ 255 && e.blocks.length ≤ 6

/-- A copy is valid when its check matches and every field lies in its range. -/
def copyValid (c : DirCopy) : Bool :=
  c.checkOk && 1 ≤ c.generation && c.generation ≤ 65535 && c.dir.savedBlade ≤ 999999 &&
    allPrograms.all fun p => entryInRange (look c.dir.entries p)

/-- One generation follows another by one, or from 65535 to 1. -/
def generationFollows (later earlier : Nat) : Bool :=
  later = earlier + 1 || (earlier = 65535 && later = 1)

/-- The latest copy of R147: none when neither is valid. -/
def latestCopy (nv : NvMemory) : Option CopyId :=
  let a := nv.copyA
  let b := nv.copyB
  if copyValid a then
    if copyValid b then
      if generationFollows a.generation b.generation then some .a
      else if generationFollows b.generation a.generation then some .b
      else if a.generation < b.generation then some .b
      else some .a
    else some .a
  else if copyValid b then some .b
  else none

/-! ### Checking programs and freeing blocks (R147 steps 2 and 3) -/

/-- The stored steps of a program in index order. -/
def storedSteps (nv : NvMemory) (p : ProgNo) (e : Entry) : List PackedStep :=
  (List.range e.count).map (entryStep nv p e)

/-- The blocks of a list, from a position on, are not all USED with the header their place asks for. -/
def listDamaged (nv : NvMemory) (d : Directory) (p : ProgNo) : Nat → List BlockNo → Bool
  | _, [] => false
  | position, b :: bs =>
    look d.blocks b != .used || (look nv.blocks b).header != some (progNum p, position) ||
      listDamaged nv d p (position + 1) bs

/-- A VALID entry is damaged (R147 step 2). -/
def entryDamaged (nv : NvMemory) (d : Directory) (p : ProgNo) (e : Entry) : Bool :=
  listDamaged nv d p 0 e.blocks || e.blocks.length != blocksFor e.count ||
    programCheck (storedSteps nv p e) != e.check

/-- The programs that the scan finds damaged, from 1 to 48. -/
def damagedPrograms (nv : NvMemory) (d : Directory) : List ProgNo :=
  allPrograms.filter fun p =>
    (look d.entries p).state = .valid && entryDamaged nv d p (look d.entries p)

/-- The directory with programs marked DAMAGED. -/
def markDamaged (d : Directory) (ps : List ProgNo) : Directory :=
  { d with entries := ps.foldl (fun v p => put v p { look v p with state := .damaged }) d.entries }

/-- The USED blocks that no VALID or DAMAGED entry lists. -/
def strayBlocks (d : Directory) : List BlockNo :=
  allBlocks.filter fun b => look d.blocks b = .used &&
    !(allPrograms.any fun p =>
      (look d.entries p).state != .empty && (look d.entries p).blocks.contains b)

/-- The directory with its stray blocks marked FREE. -/
def freeStrays (d : Directory) : Directory :=
  { d with blocks := markBlocks d.blocks (strayBlocks d) .free }

/-- Raise several events in order. -/
def State.raiseAll (s : State) (evs : List Event) : State := evs.foldl State.raise s

/-- The scan's steps 1 to 4 on the state that hardware reset leaves: the working copy set, the events
raised, and the directory write started if one is made. Its image carries the saved blade count. -/
def State.scanStart (s : State) : State :=
  match latestCopy s.nv with
  | none =>
    { { s with work := Directory.formatted, latest := none }.startDirWrite Directory.formatted .scan with
      scan := .writing }.raise .storeFormatted
  | some i =>
    let found := (nvCopy s.nv i).dir
    let damaged := damagedPrograms s.nv found
    let result := freeStrays (markDamaged found damaged)
    let s1 := { s with work := result, latest := some i }.raiseAll (damaged.map .programDamaged)
    if damaged.isEmpty && (strayBlocks (markDamaged found damaged)).isEmpty then
      { s1 with scan := .ending }
    else { s1.startDirWrite result .scan with scan := .writing }

/-- Hardware reset: every volatile item at its reset value, STARTING, the HALT input's level taken at the
start of the scan (R156), and the scan begun. -/
def State.hardwareReset (s : State) (haltInput : Bool) : State :=
  let s1 := State.volatileReset s.nv s.pending s.freeCtr
  (if haltInput then s1.assertHalt else s1).scanStart

def execHardwareReset (haltInput : Bool) (s : State) : Host.Outcome State Fault Refusal :=
  event (.ok (s.hardwareReset haltInput, ()))

/-- The scan's step 5 and its end: the blade counter restored, each latch whose threshold it reaches set
without an event, the line in CONFIG (R125, R147, R150). No event, and so no change, before the scan's
directory write has ended or outside STARTING. -/
def State.scanFinish (s : State) : State :=
  if s.line = .starting && s.scan = .ending then
    let count := s.work.savedBlade
    { s with
      blade :=
        { counter := count
          warnLatch := s.settings.warn ≤ count
          overdueLatch := s.settings.limit ≤ count }
      scan := .off
      line := .config }
  else s

def execScanEnd (s : State) : Host.Outcome State Fault Refusal := event (.ok (s.scanFinish, ()))

end Sys2Proof.Machine
end

