-- ==== Sys2Proof/Machine/Dispatch.lean ====
section
/-! DEFINITION. The command dispatch: one arm per constructor of Instr, in the order of
spec/opcode_table.json. -/

namespace Sys2Proof.Machine

def exec (i : Instr) (s : State) : Host.Outcome State Fault Refusal :=
  match i with
  | .nop p => Sys2Proof.Machine.execNop p s
  | .status p => Sys2Proof.Machine.execStatus p s
  | .snapshot p tag => Sys2Proof.Machine.execSnapshot p tag s
  | .snapRead p tag word => Sys2Proof.Machine.execSnapRead p tag word s
  | .pileRead p tag word => Sys2Proof.Machine.execPileRead p tag word s
  | .next st => Sys2Proof.Machine.execNext st s
  | .done st tag outcome value => Sys2Proof.Machine.execDone st tag outcome value s
  | .abort st tag => Sys2Proof.Machine.execAbort st tag s
  | .extend st tag => Sys2Proof.Machine.execExtend st tag s
  | .jobRead st tag word => Sys2Proof.Machine.execJobRead st tag word s
  | .bladeChanged p tag => Sys2Proof.Machine.execBladeChanged p tag s
  | .lineStart tag => Sys2Proof.Machine.execLineStart tag s
  | .lineStop tag => Sys2Proof.Machine.execLineStop tag s
  | .lineReset tag => Sys2Proof.Machine.execLineReset tag s
  | .configWrite table index setting value => Sys2Proof.Machine.execConfigWrite table index setting value s
  | .configRead table index setting => Sys2Proof.Machine.execConfigRead table index setting s
  | .palletField tag field value => Sys2Proof.Machine.execPalletField tag field value s
  | .palletQueue tag => Sys2Proof.Machine.execPalletQueue tag s
  | .palletCancel tag seq => Sys2Proof.Machine.execPalletCancel tag seq s
  | .palletRead tag source word => Sys2Proof.Machine.execPalletRead tag source word s
  | .loadBegin program count => Sys2Proof.Machine.execLoadBegin program count s
  | .loadStep top step => Sys2Proof.Machine.execLoadStep top step s
  | .loadEnd tag mode check => Sys2Proof.Machine.execLoadEnd tag mode check s
  | .loadAbort tag => Sys2Proof.Machine.execLoadAbort tag s
  | .progErase program => Sys2Proof.Machine.execProgErase program s
  | .progRead program half index => Sys2Proof.Machine.execProgRead program half index s
  | .progInfo program item => Sys2Proof.Machine.execProgInfo program item s
  | .release tag action => Sys2Proof.Machine.execRelease tag action s
  | .eventRead tag => Sys2Proof.Machine.execEventRead tag s
  | .badCommand p code tag => Sys2Proof.Machine.execBadCommand p code tag s
  | .frameDiscarded p cause => Sys2Proof.Machine.execFrameDiscarded p cause s
  | .haltAsserted => Sys2Proof.Machine.execHaltAsserted s
  | .haltReleased => Sys2Proof.Machine.execHaltReleased s
  | .hardwareReset haltInput => Sys2Proof.Machine.execHardwareReset haltInput s
  | .scanEnd => Sys2Proof.Machine.execScanEnd s
  | .timebaseTick => Sys2Proof.Machine.execTimebaseTick s
  | .responseTimerExpiry st => Sys2Proof.Machine.execResponseTimerExpiry st s
  | .blockWriteDone matched => Sys2Proof.Machine.execBlockWriteDone matched s
  | .directoryWriteDone matched => Sys2Proof.Machine.execDirectoryWriteDone matched s
  | .drainComplete => Sys2Proof.Machine.execDrainComplete s

end Sys2Proof.Machine
end

