-- ==== Sys2Proof/Safety.lean ====
section
/-! DEFINITION. What counts as a safe state of the SQ32, and the words in which the statements speak of a
command's reply. -/

namespace Sys2Proof.Machine

/-! ### Replies and frames -/

/-- The port, the command code and the tag that an unserved request's answer echoes, of the commands that
are accepted requests; NEXT carries no tag, and its answers give 0 where no pile is named (R60). -/
def requestOf : Instr → Option (Port × BitVec 6 × TagField)
  | .nop p => some (p, 0, 0)
  | .status p => some (p, 1, 0)
  | .snapshot p tag => some (p, 2, tag)
  | .snapRead p tag _ => some (p, 3, tag)
  | .pileRead p tag _ => some (p, 4, tag)
  | .next st => some (st.port, 8, 0)
  | .done st tag _ _ => some (st.port, 9, tag)
  | .abort st tag => some (st.port, 10, tag)
  | .extend st tag => some (st.port, 11, tag)
  | .jobRead st tag _ => some (st.port, 12, tag)
  | .bladeChanged p tag => some (p.port, 13, tag)
  | .lineStart tag => some (.plan, 16, tag)
  | .lineStop tag => some (.plan, 17, tag)
  | .lineReset tag => some (.plan, 18, tag)
  | .configWrite table _ _ _ => some (.plan, 19, table)
  | .configRead table _ _ => some (.plan, 20, table)
  | .palletField tag _ _ => some (.plan, 21, tag)
  | .palletQueue tag => some (.plan, 22, tag)
  | .palletCancel tag _ => some (.plan, 23, tag)
  | .palletRead tag _ _ => some (.plan, 24, tag)
  | .loadBegin program _ => some (.plan, 25, program)
  | .loadStep top step => some (.plan, 26, top ++ step.extractLsb' 28 4)
  | .loadEnd tag _ _ => some (.plan, 27, tag)
  | .loadAbort tag => some (.plan, 28, tag)
  | .progErase program => some (.plan, 29, program)
  | .progRead program _ _ => some (.plan, 30, program)
  | .progInfo program _ => some (.plan, 31, program)
  | .release tag _ => some (.plan, 32, tag)
  | .eventRead tag => some (.plan, 33, tag)
  | .badCommand p code tag => some (p, code, tag)
  | .frameDiscarded _ _ => none
  | .haltAsserted => none
  | .haltReleased => none
  | .hardwareReset _ => none
  | .scanEnd => none
  | .timebaseTick => none
  | .responseTimerExpiry _ => none
  | .blockWriteDone _ => none
  | .directoryWriteDone _ => none
  | .drainComplete => none

/-- NOISY once the link error level has come to a value: set at 64 or more, clear at 16 or less, between
them as it was (R163). -/
def noisyAt (level : Nat) (noisy : Bool) : Bool :=
  if 64 ≤ level then true else if level ≤ 16 then false else noisy

/-- The port unit that an accepted request leaves on its port, the state after it being `t`: the reply slot
shifted out, the reply formed in its place with its four flags, the link error level one lower (R162, R163,
R165). `shown` is the RESTARTED flag in the reply; `restarted` and `ptr` what the port unit then holds. -/
def answeredUnit (u : PortUnit) (t : State) (p : Port) (code : BitVec 6) (r : Result) (tag : TagField)
    (data : Data) (shown restarted : Bool) (ptr : Fin 20) : PortUnit :=
  { slot := some
      { code := code, tag := tag, result := r, restarted := shown
        noisy := noisyAt (u.level - 1) u.noisy, ready := t.portReady p, halt := t.halt, data := data }
    sdo := some (slotFrame u.slot)
    level := u.level - 1
    noisy := noisyAt (u.level - 1) u.noisy
    restarted := restarted
    snapPtr := ptr }

/-- The port units of the other ports are as they were. -/
def OtherPorts (s t : State) (p : Port) : Prop := ∀ q, q ≠ p → t.port q = s.port q

/-- From `s` to `t` the port took one accepted request, answered with this code, result, tag and data; its
RESTARTED flag and read pointer, and every other port unit, are as they were. -/
def Answered (s t : State) (p : Port) (code : BitVec 6) (r : Result) (tag : TagField) (data : Data) :
    Prop :=
  t.port p = answeredUnit (s.port p) t p code r tag data (s.port p).restarted (s.port p).restarted
    (s.port p).snapPtr ∧ OtherPorts s t p

/-- Nothing but the port units and the output lines differs. -/
def OnlyPorts (s t : State) : Prop := t = { s with ports := t.ports, pins := t.pins }

/-- The line state is not STARTING. -/
def State.Up (s : State) : Prop := s.line ≠ .starting

/-- The line state admits jobs for a station: RUN, or for every station but the lift DRAINING (R60). -/
def Admits (st : Station) (line : LineState) : Prop := line = .run ∨ (st ≠ .lift ∧ line = .draining)

/-- A NEXT of the station comes to its selection: IDLE, the line state admits jobs, HALT released (R60). -/
def Selects (s : State) (st : Station) : Prop :=
  (s.ctx st).busy = false ∧ Admits st s.line ∧ s.halt = false

/-! ### The drain (R153) -/

/-- No station context BUSY, no knife pile, the four queues and the Return Stack empty. -/
def Drained (s : State) : Prop :=
  (∀ st, (s.ctx st).busy = false) ∧ s.knifePile = none ∧ s.jogQueue = [] ∧ s.knifeQueue = [] ∧
    s.returnLane = [] ∧ s.turnQueue = [] ∧ s.returnStack = []

/-- A command begun in `s` whose effect comes to `u` ends in `t`, the drain test of R153 made in the same
event. When it finds the drain complete the line is STOPPED and LINE_STOPPED joins the queue behind the
events that stood in it, its place among the command's own events open (R167, log entry 6); when one event
too many is raised, one is lost and DROPPED is set. Ports and output lines are left to other statements. -/
def DrainTested (s u t : State) : Prop :=
  (¬ (u.line = .draining ∧ Drained u) → OnlyPorts u t) ∧
  (u.line = .draining ∧ Drained u →
    t = { u with line := .stopped, events := t.events, dropped := t.dropped, freeCtr := u.freeCtr + 1,
                 ports := t.ports, pins := t.pins } ∧
    (u.events.length < 32 → t.dropped = u.dropped ∧
      ∃ a b, u.events = a ++ b ∧ s.events <+: a ∧ t.events = a ++ .lineStopped :: b) ∧
    (32 ≤ u.events.length → t.dropped = true ∧ t.events.length = u.events.length))

/-! ### Jobs (R61, R65, R66, R72) -/

/-- A station context with a job issued: BUSY under the pile's tag, the job record and its record tag
written, the job-read pointer 1, the response timer loaded and running (R61). -/
def issuedContext (c : Context) (t : Tag) (j : Job) (preset : Nat) : Context :=
  { busy := true, tag := some t, job := j, recordTag := some t, pointer := 1, running := true
    remaining := preset, lastExpired := c.lastExpired }

/-- A station context whose job has ended: IDLE, current tag 0, timer stopped with remaining 0; the job
record, the pointer and the last expired tag kept (R65). -/
def endedContext (c : Context) : Context :=
  { c with busy := false, tag := none, running := false, remaining := 0 }

/-- A job of the station has the pile `t` with record `p` in flight. -/
def InFlight (s : State) (st : Station) (t : Tag) (p : Pile) : Prop :=
  (s.ctx st).busy = true ∧ (s.ctx st).tag = some t ∧ s.pile t = some p

/-- The job record holds a TRANSFER_TURN job. -/
def isTransferTurn : Job → Bool
  | .knife { kind := .transferTurn _, .. } => true
  | _ => false

/-- A job of the station ended with its pile held (R17, R66, R72): the hold written and its HELD event
raised; at the knife also the knife pile cleared, the reservation released and a TRANSFER_TURN job's
pending turn put back to none; the context IDLE with the last expired tag given. -/
def heldOff (s : State) (st : Station) (t : Tag) (p : Pile) (r : HoldReason) (expired : Option Tag) :
    State :=
  let s1 := s.putPile t (some { p with
    residency := .held
    hold := some { reason := r, station := st }
    pendingTurn := if st = Station.knife ∧ isTransferTurn (s.ctx .knife).job = true then none
      else p.pendingTurn })
  let s2 := { s1 with
    knifePile := if st = Station.knife then none else s.knifePile
    reservedRecords := if st = Station.knife then 0 else s.reservedRecords
    reservedSlots := if st = Station.knife then 0 else s.reservedSlots }
  (s2.raise (.held t r st)).putCtx st { endedContext (s.ctx st) with lastExpired := expired }

/-- From `s` to `u` the response timers of the stations listed expire, one after another (R72). -/
def ExpireInTurn : List Station → State → State → Prop
  | [], s, u => u = s
  | st :: rest, s, u => ∃ t, exec (.responseTimerExpiry st) s = .next t ∧ ExpireInTurn rest t u

/-- From `s` to `t` the write of block `b`, at a position of a commit's block list, has started (R142): the
Store Controller in BLOCK_WRITE with that block, the operation in that stage, the contents of the block open
(log entry 4). The working copy and all else are as they were. -/
def BlockStarted (s t : State) (op : ProgOp) (blocks : List BlockNo) (position : Nat) (b : BlockNo) : Prop :=
  ∃ content : Block, t = { s with
    nv := { s.nv with blocks := put s.nv.blocks b content }
    storeWrite := .block b
    progOp := some { op with stage := .blockWrites blocks position }
    freeCtr := s.freeCtr + 1 }

/-- The value of a Draft field by the field codes of PALLET_FIELD (section 11.4). -/
def draftFieldValue (d : Draft) : Nat → Nat
  | 0 => progNumOf d.program
  | 1 => d.cls.val
  | 2 => d.sheets
  | 3 => d.caliper
  | 4 => d.extentNS
  | 5 => d.extentEW
  | 6 => edgeCode d.gauge
  | 7 => faceCode d.face
  | _ => 0

/-- The range of R76 for a Draft field. -/
def DraftRange (field v : Nat) : Prop :=
  (field = 0 ∧ v ≤ 48) ∨ (field = 1 ∧ v ≤ 15) ∨ (field = 2 ∧ 1 ≤ v ∧ v ≤ 65535) ∨
    (field = 3 ∧ 30 ≤ v ∧ v ≤ 600) ∨ ((field = 4 ∨ field = 5) ∧ 5000 ≤ v ∧ v ≤ 145000) ∨
    (field = 6 ∧ v ≤ 3) ∨ (field = 7 ∧ v ≤ 1)

/-! ### Allocation (R8) -/

/-- How far a tag stands behind the tag after the allocation pointer, in the rotation of R8. -/
def tagDistance (ptr : Option Tag) (t : Tag) : Nat :=
  match ptr with
  | none => t.val
  | some a => (t.val + 31 - a.val) % 32

/-- The tag that R8 allocates: not in use, and every tag before it in the rotation in use. -/
def NextFree (s : State) (t : Tag) : Prop :=
  s.pile t = none ∧ ∀ u, tagDistance s.allocPtr u < tagDistance s.allocPtr t → s.pile u ≠ none

/-! ### Port units and queues (R163, R167) -/

/-- R163: the level within 0..255, NOISY set at 64 or more and clear at 16 or less. -/
def portOk (u : PortUnit) : Prop :=
  u.level ≤ 255 ∧ (64 ≤ u.level → u.noisy = true) ∧ (u.level ≤ 16 → u.noisy = false)

def State.LinkInv (s : State) : Prop := ∀ p, portOk (s.port p)

/-- The saved blade count that a directory write in progress would store. -/
def imageBlade : NvWrite → Nat
  | .idle => 0
  | .block _ => 0
  | .directory _ _ image _ _ => image.savedBlade

/-- The Event Queue holds at most 32 records (R167); the blade counter and the blade counts of the working
copy and of a directory write in progress are at most 999999 (R121, R134); the snapshot number is at most
63 (R169). -/
def State.RangesInv (s : State) : Prop :=
  s.events.length ≤ 32 ∧ s.blade.counter ≤ 999999 ∧ s.work.savedBlade ≤ 999999 ∧
    imageBlade s.storeWrite ≤ 999999 ∧ s.snapSeq ≤ 63

/-! ### Settings (R157, R159) -/

/-- Every setting in its range and every constraint between neighbours met. -/
def settingsOk (cfg : Settings) : Prop :=
  (∀ r, (settingRange r).1 ≤ settingValue cfg r ∧ settingValue cfg r ≤ (settingRange r).2) ∧
    (∀ c, (look cfg.classes c).thr ≤ (look cfg.classes c).lim) ∧
    (∀ k, k < 8 → knotValue cfg k ≤ knotValue cfg (k + 1)) ∧ cfg.warn ≤ cfg.limit

def State.SettingsInv (s : State) : Prop := settingsOk s.settings

/-! ### Places (R11, R59) -/

/-- The residency of the job in flight at a station (R59). -/
def jobResidency : Station → Residency
  | .lift => .lifting
  | .jog => .jogging
  | .knife => .knifeJob
  | .turn => .turning

/-- A list holds each tag that is in a residency once and no other tag. -/
def Holds (s : State) (l : List Tag) (r : Residency) : Prop :=
  ∀ t, l.count t = (s.resides t r).toNat

/-- Every pile is in the place that its residency names and in no other (R11), and a context is BUSY exactly
while it has a current tag (R59). -/
structure State.PlaceInv (s : State) : Prop where
  jog : Holds s s.jogQueue .jogWait
  knife : Holds s s.knifeQueue .knifeWait
  lane : Holds s s.returnLane .returnWait
  turn : Holds s s.turnQueue .turnWait
  stack : Holds s s.returnStack .stacked
  under : ∀ t, s.knifePile = some t ↔ (s.resides t .atKnife = true ∨ s.resides t .knifeJob = true)
  job : ∀ st t, (s.ctx st).tag = some t ↔ s.resides t (jobResidency st) = true
  busy : ∀ st, (s.ctx st).busy = (s.ctx st).tag.isSome

/-! ### Reservations (R13, R15, R16) -/

/-- A KEEP cut job is in flight at the knife. -/
def State.keepInFlight (s : State) : Bool :=
  (s.ctx .knife).busy && (match s.knifeJob with
    | some j => j.kind = .cut && j.keep
    | none => false)

/-- Both counts are 1 while a KEEP cut job is in flight and else 0 (R15), a stack slot (R13) and a record
(R8, R16) stand ready for what is reserved. -/
structure State.ReserveInv (s : State) : Prop where
  records : s.reservedRecords = s.keepInFlight.toNat
  slots : s.reservedSlots = s.keepInFlight.toNat
  stack : s.returnStack.length + s.reservedSlots ≤ 12
  room : s.inUse + s.reservedRecords ≤ 32

/-! ### Accounts (R78, R80) -/

/-- The tags in use whose record satisfies a test. -/
def State.tagsWith (s : State) (f : Pile → Bool) : List Tag :=
  allTags.filter fun t => match s.pile t with
    | none => false
    | some p => f p

/-- At most 4 pallets under different numbers in 1..255 (R79, R81); each program's use count is the number of
pallet records and pile records that name it (R78); each live count is the number of pile records that name
the pallet, and each pile names a pallet of the table (R80). -/
structure State.AccountsInv (s : State) : Prop where
  places : s.pallets.length ≤ 4
  distinct : (s.pallets.map Pallet.seq).Nodup
  numbered : ∀ q ∈ s.pallets, 1 ≤ q.seq ∧ q.seq ≤ 255
  counter : s.seqCounter ≤ 255
  uses : ∀ p, s.useCount p =
    (s.pallets.filter fun q => q.program = p).length + (s.tagsWith fun x => x.program = p).length
  live : ∀ q ∈ s.pallets, q.live = (s.tagsWith fun x => x.pallet = q.seq).length
  named : ∀ t p, s.pile t = some p → ∃ q ∈ s.pallets, q.seq = p.pallet

/-- The entries that a directory write in progress would store. -/
def imageEntries : NvWrite → Option (Vector Entry 48)
  | .idle => none
  | .block _ => none
  | .directory _ _ image _ _ => some image.entries

/-- A program operation of the program is pending or in progress. -/
def State.engaged (s : State) (p : ProgNo) : Prop := ∃ op, s.progOp = some op ∧ op.program = p

/-- A program with a use count above 0 has no load session, no program operation, and a VALID entry (R78). With
it what it rests on: a load session and a program operation are never there together (R138), and a directory
write in progress changes the entry of the operation's program only (R142 to R145). -/
structure State.ProgramsInv (s : State) : Prop where
  session : ∀ p, 0 < s.useCount p → ∀ x, s.session = some x → x.program ≠ p
  operation : ∀ p, 0 < s.useCount p → ¬ s.engaged p
  valid : ∀ p, 0 < s.useCount p → (s.entry p).state = .valid
  apart : s.session = none ∨ s.progOp = none
  image : ∀ v, imageEntries s.storeWrite = some v → ∀ p, ¬ s.engaged p → look v p = s.entry p

/-- A pile whose sheets a lift ABORT or a RELEASE RETURN would give back: in LIFTING, or held at LIFT. -/
def returnable (p : Pile) : Bool :=
  p.residency = .lifting || (p.residency = .held && (match p.hold with
    | some h => h.station = .lift
    | none => false))

/-- The sheets of a pallet's piles that could be given back. -/
def State.returnableSheets (s : State) (seq : Nat) : Nat :=
  (allTags.map fun t => match s.pile t with
    | none => 0
    | some p => if p.pallet = seq && returnable p then p.sheets else 0).sum

/-- For every pallet record, remaining plus lifted plus cancelled equals its declared count, and lifted
covers the sheets that could be given back (R80). -/
def State.SheetsInv (s : State) : Prop :=
  ∀ q ∈ s.pallets, q.remaining + q.lifted + q.cancelled = q.declared ∧
    s.returnableSheets q.seq ≤ q.lifted

end Sys2Proof.Machine
end

