-- ==== Sys2Proof/WellFormed.lean ====
section
/-! DEFINITION. Which commands can arise: a BAD_COMMAND is a request whose code its port does not admit. -/

namespace Sys2Proof

/-- The command is one that some frame or event of the device comes to. The operand types leave one
condition: a BAD_COMMAND carries a code that its port does not admit (R164). -/
def Instr.wellFormed : Instr → Bool
  | .badCommand p code _ => !admits p code
  | .nop _ => true
  | .status _ => true
  | .snapshot _ _ => true
  | .snapRead _ _ _ => true
  | .pileRead _ _ _ => true
  | .next _ => true
  | .done _ _ _ _ => true
  | .abort _ _ => true
  | .extend _ _ => true
  | .jobRead _ _ _ => true
  | .bladeChanged _ _ => true
  | .lineStart _ => true
  | .lineStop _ => true
  | .lineReset _ => true
  | .configWrite _ _ _ _ => true
  | .configRead _ _ _ => true
  | .palletField _ _ _ => true
  | .palletQueue _ => true
  | .palletCancel _ _ => true
  | .palletRead _ _ _ => true
  | .loadBegin _ _ => true
  | .loadStep _ _ => true
  | .loadEnd _ _ _ => true
  | .loadAbort _ => true
  | .progErase _ => true
  | .progRead _ _ _ => true
  | .progInfo _ _ => true
  | .release _ _ => true
  | .eventRead _ => true
  | .frameDiscarded _ _ => true
  | .haltAsserted => true
  | .haltReleased => true
  | .hardwareReset _ => true
  | .scanEnd => true
  | .timebaseTick => true
  | .responseTimerExpiry _ => true
  | .blockWriteDone _ => true
  | .directoryWriteDone _ => true
  | .drainComplete => true

end Sys2Proof
end

