-- ==== Sys2Proof/Certificates/Slice0/Obligations.lean ====
section
/-! DEFINITION. The statements about the SQ32, in the order of OBLIGATIONS.json. -/

open Sys2Proof Sys2Proof.Machine

/-! ### The machine as a whole -/

/-- One step carries out the command at the front of the queue with the queue's rest. The queue is the model's
own (log entry 1). -/
def Obligations.StepTakesTheFrontCommand : Prop :=
  ∀ (c : Instr) (rest : List Instr) (s : State),
    step { s with pending := c :: rest } = exec c { s with pending := rest }

/-- No command changes the queue of waiting commands. The queue is the model's own (log entry 1), and that
HARDWARE_RESET keeps it is the model's choice (log entry 16). -/
def Obligations.CommandsKeepTheQueue : Prop :=
  ∀ (c : Instr) (s t : State), exec c s = .next t → t.pending = s.pending

/-- After every command RDY of a station is asserted exactly when the station is IDLE, the line state
admits its jobs, HALT is released, and a NEXT taken now would be answered JOB (R63); ATTN is asserted
exactly while the Event Queue is not empty and the line is not STARTING (R167). -/
def Obligations.OutputLinesShowTheirConditions : Prop :=
  ∀ (c : Instr) (s t : State), exec c s = .next t →
    (∀ st, look t.pins.rdy st.ix = true ↔
      Selects t st ∧ ∃ u rep, exec (.next st) t = .next u ∧ (u.port st.port).slot = some rep ∧
        rep.result = .job) ∧
    (t.pins.attn = true ↔ t.events ≠ [] ∧ t.line ≠ .starting)

/-- Every accepted request shifts out the reply that waited, lowers the link error level by 1, and leaves its
own reply with the code answered (62 for 63) and the four flags as they stand after its effect; the other
ports keep their slots and levels (R162, R163, R165). STATUS shows RESTARTED as it stood before. A reply is laid
out as section 11.2 gives, with the check over its bits 47..8; NO_REPLY is all ones. -/
def Obligations.AcceptedRequestsFormReplies : Prop :=
  (slotFrame none = BitVec.allOnes 48 ∧
    [Result.ok, .job, .wait, .retry, .late, .unknownTag, .notYours, .badCommand, .badArg, .notReady,
      .notRunning, .lineRunning, .busy, .inUse, .full, .invalid].map (fun r => (resultCode r).toNat) =
      List.range 16 ∧
    ∀ r : Reply, let f := slotFrame (some r)
      f.extractLsb' 42 6 = r.code ∧ f.extractLsb' 36 6 = r.tag ∧ f.extractLsb' 32 4 = resultCode r.result ∧
        f.getLsbD 31 = r.restarted ∧ f.getLsbD 30 = r.noisy ∧ f.getLsbD 29 = r.ready ∧
        f.getLsbD 28 = r.halt ∧ f.extractLsb' 8 20 = r.data ∧
        f.extractLsb' 0 8 = crc8 (f.extractLsb' 8 40)) ∧
  ∀ (c : Instr) (s t : State) (p : Port) (code : BitVec 6) (tag : TagField),
    requestOf c = some (p, code, tag) → exec c s = .next t →
    (∃ rep, (t.port p).slot = some rep ∧ rep.code = (if code = 63#6 then 62#6 else code) ∧
      rep.noisy = (t.port p).noisy ∧ rep.halt = t.halt ∧
      rep.ready = (match stationOf p with
        | some st => look t.pins.rdy st.ix
        | none => t.pins.attn) ∧
      rep.restarted = (if code = 1#6 then (s.port p).restarted else (t.port p).restarted)) ∧
    (t.port p).sdo = some (slotFrame (s.port p).slot) ∧
    (t.port p).level = (s.port p).level - 1 ∧
    (t.port p).noisy = noisyAt ((s.port p).level - 1) (s.port p).noisy ∧
    (∀ q, q ≠ p → (t.port q).slot = (s.port q).slot ∧ (t.port q).sdo = (s.port q).sdo ∧
      (t.port q).level = (s.port q).level ∧ (t.port q).noisy = (s.port q).noisy)

/-- A discarded frame leaves NO_REPLY in its slot, shifts out what the slot held (NO_REPLY when it began too
soon), raises the level by 8 up to 255, sets NOISY at 64 with its PORT_NOISY event, and touches nothing else
(R161, R162, R163). -/
def Obligations.DiscardedFramesTouchTheirPortOnly : Prop :=
  ∀ (p : Port) (cause : DiscardCause) (s : State),
    ∃ t, exec (.frameDiscarded p cause) s = .next t ∧
      OnlyPorts (if 64 ≤ min 255 ((s.port p).level + 8) ∧ (s.port p).noisy = false
        then s.raise (.portNoisy p) else s) t ∧
      OtherPorts s t p ∧
      t.port p =
        { slot := none
          sdo := some (if cause = .shortGap then noReply else slotFrame (s.port p).slot)
          level := min 255 ((s.port p).level + 8)
          noisy := noisyAt (min 255 ((s.port p).level + 8)) (s.port p).noisy
          restarted := (s.port p).restarted
          snapPtr := (s.port p).snapPtr }

/-- NOP is answered OK with tag 0 and data 0, and a request whose code its port does not admit BAD_COMMAND
with the tag echoed and data 0 (62 in the command field for code 63), in every line state; neither changes
anything (R162, R164). -/
def Obligations.NopAndBadCommandInEveryLineState : Prop :=
  ∀ (s : State) (p : Port),
    (∃ t, exec (.nop p) s = .next t ∧ OnlyPorts s t ∧ Answered s t p 0 .ok 0 0) ∧
    (∀ code tag, ∃ t, exec (.badCommand p code tag) s = .next t ∧ OnlyPorts s t ∧
      Answered s t p (if code = 63#6 then 62#6 else code) .badCommand tag 0)

/-- In STARTING every admitted request but NOP and STATUS is answered NOT_READY and changes nothing
(R150, R164). -/
def Obligations.StartingAnswersNotReady : Prop :=
  ∀ (c : Instr) (s : State) (p : Port) (code : BitVec 6) (tag : TagField),
    s.line = .starting → requestOf c = some (p, code, tag) → admits p code = true → 2 ≤ code.toNat →
    c.wellFormed = true →
    ∃ t, exec c s = .next t ∧ OnlyPorts s t ∧ Answered s t p code .notReady tag 0

/-! ### Frames and commands -/

/-- Decoding the frame that spells a well-formed command gives the command back, on the port that admits it
and with every operand at every value (section 11.4). -/
def Obligations.DecodeReadsWhatEncodeSpells : Prop :=
  ∀ (c : Instr) (p : Port) (f : BitVec 48), c.wellFormed = true → encodeRequest c = some (p, f) →
    decodeFrame p true 48 f = c

/-- A frame is discarded exactly when its edges were not 48, its check field differs from the check of its
bits 47..8, or it began too soon; every frame comes to a well-formed command of its own port (R161, R164). The
check has generator x^8 + x^5 + x^3 + x^2 + x + 1 and initial value C3h, most significant bit first. -/
def Obligations.FramesAreJudgedByCountCheckAndGap : Prop :=
  (∀ body : BitVec 40, crc8 body =
    ((List.range 40).map fun i => body.getLsbD (39 - i)).foldl
      (fun (c : BitVec 8) b => if c.msb = b then c <<< 1 else (c <<< 1) ^^^ 0x2F#8) 0xC3#8) ∧
  ∀ (p : Port) (gapOk : Bool) (edges : Nat) (f : BitVec 48),
    ((∃ cause, decodeFrame p gapOk edges f = .frameDiscarded p cause) ↔
      (edges ≠ 48 ∨ f.extractLsb' 0 8 ≠ crc8 (f.extractLsb' 8 40) ∨ gapOk = false)) ∧
    (decodeFrame p gapOk edges f).wellFormed = true ∧
    (∀ q code tag, requestOf (decodeFrame p gapOk edges f) = some (q, code, tag) →
      q = p ∧ code = f.extractLsb' 42 6)

/-! ### Laws that every step keeps -/

/-- R163: every link error level stays within 0..255, NOISY set at 64 or more and clear at 16 or less. -/
def Obligations.LinkErrorLevelsStayInBounds : Prop :=
  ∀ s t : State, s.LinkInv → step s = .next t → t.LinkInv

/-- At most 32 events (R167), blade counts at most 999999 (R121), snapshot numbers at most 63 (R169). -/
def Obligations.CountersStayInRange : Prop :=
  ∀ s t : State, s.RangesInv → step s = .next t → t.RangesInv

/-- R157, R159: every setting in its range, thr not above lim, knots non-decreasing, warn not above limit. -/
def Obligations.SettingsStayValid : Prop :=
  ∀ s t : State, s.SettingsInv → step s = .next t → t.SettingsInv

/-- R11, R59: every pile in the one place its residency names, jobs in flight matching residencies. -/
def Obligations.PilesStayInTheirPlaces : Prop :=
  ∀ s t : State, s.PlaceInv → step s = .next t → t.PlaceInv

/-- R13, R15, R16: the reservation counts are 1 exactly while a KEEP cut is in flight, the Return Stack
within its 12 places and the records within 32. -/
def Obligations.ReservationsFollowKeepCuts : Prop :=
  ∀ s t : State, s.PlaceInv → s.ReserveInv → step s = .next t → t.ReserveInv

/-- R78, R80: use counts and live counts count the records that name a program or a pallet, and remaining plus
lifted plus cancelled stays the declared count of every pallet; a program with a use count above 0 has no load
session and no program operation, and its entry is VALID. -/
def Obligations.AccountsCountRecordsAndSheets : Prop :=
  (∀ s t : State, s.AccountsInv → step s = .next t → t.AccountsInv) ∧
  (∀ s t : State, s.PlaceInv → s.AccountsInv → s.SheetsInv → step s = .next t → t.SheetsInv) ∧
  (∀ s t : State, s.AccountsInv → s.ProgramsInv → step s = .next t → t.ProgramsInv)

/-- The state after reset meets every law, that of the drain among them. The nonvolatile contents and the working
copy of that state are the model's choice: a part formatted and never loaded (log entry 2). -/
def Obligations.ResetMeetsTheLaws : Prop :=
  State.reset.LinkInv ∧ State.reset.RangesInv ∧ State.reset.SettingsInv ∧ State.reset.PlaceInv ∧
    State.reset.ReserveInv ∧ State.reset.AccountsInv ∧ State.reset.SheetsInv ∧
    State.reset.ProgramsInv ∧ ¬ (State.reset.line = .draining ∧ Drained State.reset)

/-- Where the laws of places and reservations hold no record is found missing and none is lacking for a kept
offcut (R8, R11, R15). -/
def Obligations.RecordsAreAlwaysThere : Prop :=
  ∀ s : State, s.PlaceInv → s.ReserveInv →
    step s ≠ .fault .recordAbsent ∧ step s ≠ .fault .noFreeRecord

/-- A complete drain never waits: from a state that is not a completed drain in DRAINING every step leads to
such a state, and every step that comes to STOPPED from another line state finds the drain complete, with
LINE_STOPPED raised or DROPPED set (R153). -/
def Obligations.CompleteDrainsNeverWait : Prop :=
  ∀ s t : State, ¬ (s.line = .draining ∧ Drained s) → step s = .next t →
    ¬ (t.line = .draining ∧ Drained t) ∧
    (s.line ≠ .stopped → t.line = .stopped → Drained t ∧ (.lineStopped ∈ t.events ∨ t.dropped = true))

/-! ### NEXT -/

/-- NEXT is answered NOT_READY in STARTING, else BUSY with the tag and word w0 of the job in flight and nothing
changed, else NOT_RUNNING where the line state admits no job, else WAIT while HALT is asserted, else by the
station's selection: WAIT with what the selection did on its way, or JOB with the job issued (R60, R61, R62). -/
def Obligations.NextIsAnsweredInOrder : Prop :=
  ∀ (st : Station) (s : State),
    (s.line = .starting →
      ∃ t, exec (.next st) s = .next t ∧ OnlyPorts s t ∧ Answered s t st.port 8 .notReady 0 0) ∧
    (s.Up → (s.ctx st).busy = true →
      ∃ t, exec (.next st) s = .next t ∧ OnlyPorts s t ∧
        Answered s t st.port 8 .busy (tagFieldOf (s.ctx st).tag) (jobWord (s.ctx st).job 0)) ∧
    (s.Up → (s.ctx st).busy = false → ¬ Admits st s.line →
      ∃ t, exec (.next st) s = .next t ∧ OnlyPorts s t ∧ Answered s t st.port 8 .notRunning 0 0) ∧
    ((s.ctx st).busy = false → Admits st s.line → s.halt = true →
      ∃ t, exec (.next st) s = .next t ∧ OnlyPorts s t ∧ Answered s t st.port 8 .wait 0 0) ∧
    (Selects s st →
      (∀ u, s.select st = .ok (u, none) →
        ∃ t, exec (.next st) s = .next t ∧ DrainTested s u t ∧ Answered s t st.port 8 .wait 0 0) ∧
      (∀ u tag j, s.select st = .ok (u, some (tag, j)) →
        ∃ t, exec (.next st) s = .next t ∧
          OnlyPorts (u.putCtx st (issuedContext (u.ctx st) tag j (s.preset st))) t ∧
          Answered s t st.port 8 .job (tagField tag) (jobWord j 0)))

/-- The lift's NEXT: with a source, more free records than the child reserve and fewer fresh piles than the
infeed window a lift of R39's size is issued from the oldest source, the tag of R8 allocated and written as R1
gives; otherwise WAIT (R86, R87, R88). -/
def Obligations.LiftIsSizedAndIssued : Prop :=
  ∀ s : State, s.line = .run → (s.ctx .lift).busy = false → s.halt = false →
    (∀ (q : Pallet) (tag : Tag), s.pallets.find? (fun q => 0 < q.remaining) = some q →
      s.settings.childReserve < s.freeRecords → s.freshCount < s.settings.infeed → NextFree s tag →
      let n := liftSize q.remaining (nMax s.settings.hmax q.caliper)
      let k := if 4095 ≤ q.liftsIssued then 1 else q.liftsIssued + 1
      let job := Job.lift n (expectedHeight n q.caliper) q.seq k q.cls
      let across := q.gauge = .n ∨ q.gauge = .s
      let pile : Pile :=
        { residency := .lifting, pallet := q.seq, liftNumber := k, parent := none, program := q.program
          cursor := 0, cls := q.cls, sheets := n, height := 0
          depth := if across then q.extentNS else q.extentEW
          width := if across then q.extentEW else q.extentNS
          gauge := q.gauge, face := q.face, started := false, attempt := 0, pendingTurn := none
          caliperDev := false, limitedSeen := false, hold := none }
      ∃ t, exec (.next .lift) s = .next t ∧ Answered s t .lift 8 .job (tagField tag) (dataOf n) ∧
        OnlyPorts
          { s with
            piles := put s.piles tag (some pile)
            allocPtr := some tag
            useCounts := put s.useCounts q.program (s.useCount q.program + 1)
            pallets := s.pallets.map fun x => if x.seq = q.seq then
                { x with remaining := x.remaining - n, lifted := x.lifted + n, live := x.live + 1,
                         liftsIssued := if 4095 ≤ x.liftsIssued then 1 else x.liftsIssued + 1 }
              else x
            contexts := put s.contexts Station.lift.ix
              (issuedContext (s.ctx .lift) tag job (s.preset .lift)) } t) ∧
    (¬ ((∃ q ∈ s.pallets, 0 < q.remaining) ∧ s.settings.childReserve < s.freeRecords ∧
        s.freshCount < s.settings.infeed) →
      ∃ t, exec (.next .lift) s = .next t ∧ OnlyPorts s t ∧ Answered s t .lift 8 .wait 0 0)

/-- The jogger and the turner take the head of their queue as their job, its record written from the pile as
it stands; on an empty queue WAIT (R94, R95, R126, R127). -/
def Obligations.JoggerAndTurnerTakeTheHead : Prop :=
  ∀ (s : State) (tag : Tag) (rest : List Tag) (p : Pile), s.Up →
    (Selects s .jog → s.jogQueue = tag :: rest → s.pile tag = some p →
      let c := s.stock p.cls
      let dur := min 255 (c.jogBase * (2 + p.attempt) / 2)
      ∃ t, exec (.next .jog) s = .next t ∧
        Answered s t .jog 8 .job (tagField tag) (dataOf (dur + c.amplitude * 256 + c.air * 2048)) ∧
        OnlyPorts
          { s with
            jogQueue := rest
            piles := put s.piles tag (some { p with residency := .jogging })
            contexts := put s.contexts Station.jog.ix
              (issuedContext (s.ctx .jog) tag (.jog dur c.amplitude c.air p.sheets p.height p.attempt)
                (s.preset .jog)) } t) ∧
    (Selects s .turn → s.turnQueue = tag :: rest → s.pile tag = some p →
      ∃ t, exec (.next .turn) s = .next t ∧
        Answered s t .turn 8 .job (tagField tag) (dataOf (turnCode p.pendingTurn)) ∧
        OnlyPorts
          { s with
            turnQueue := rest
            piles := put s.piles tag (some { p with residency := .turning })
            contexts := put s.contexts Station.turn.ix
              (issuedContext (s.ctx .turn) tag (.turn p.pendingTurn p.depth p.width p.height)
                (s.preset .turn)) } t) ∧
    (Selects s .jog → s.jogQueue = [] →
      ∃ t, exec (.next .jog) s = .next t ∧ DrainTested s s t ∧ Answered s t .jog 8 .wait 0 0) ∧
    (Selects s .turn → s.turnQueue = [] →
      ∃ t, exec (.next .turn) s = .next t ∧ DrainTested s s t ∧ Answered s t .turn 8 .wait 0 0)

/-- With no knife pile the knife's selection goes on as if the pile of the arbiter's choice were under the
knife, started: the head of the Return Lane, else the top of the Return Stack, else the head of the Knife
Queue, else nothing (R105). Dispatch of a CUT on the gauge edge holds the knife pile with CUT_BEYOND when P is not less
than D, else with NO_ROOM when a KEEP cut finds no free record or stack slot, and the selection goes on with no knife
pile (R58, R108). The step dispatched is the packed step at the pile's cursor, read by its fields (R32, section
11.4). -/
def Obligations.KnifeSelectionServesAndHolds : Prop :=
  (∀ (s : State) (p : Pile), s.stepAt p = decodeStep (s.packedStep p.program p.cursor)) ∧
  (∀ w : PackedStep,
      let kind := w.toNat / 2 ^ 29
      (∀ edge, kind = 1 → edgeCode edge = w.toNat / 2 ^ 27 % 4 → decodeStep w = some
        (.cut edge (w.toNat / 2 ^ 8 % 2 ^ 18) (decide (w.toNat / 2 ^ 26 % 2 = 1)) (w.toNat % 2 ^ 8))) ∧
      (kind = 2 → decodeStep w = some .flip) ∧ (kind = 3 → decodeStep w = some .jog) ∧
      (kind = 4 → decodeStep w = some .fin) ∧ (kind = 0 ∨ 5 ≤ kind → decodeStep w = none)) ∧
  (∀ (s : State) (tag : Tag) (rest : List Tag), s.knifePile = none →
      let placed (x : State) : State :=
        { x with
          piles := put s.piles tag
            ((s.pile tag).map fun p => { p with residency := .atKnife, started := true })
          knifePile := some tag }
      (s.returnLane = tag :: rest →
        s.select .knife = (placed { s with returnLane := rest }).select .knife) ∧
      (s.returnLane = [] → s.returnStack = tag :: rest →
        s.select .knife = (placed { s with returnStack := rest }).select .knife) ∧
      (s.returnLane = [] → s.returnStack = [] → s.knifeQueue = tag :: rest →
        s.select .knife = (placed { s with knifeQueue := rest }).select .knife) ∧
      (s.returnLane = [] → s.returnStack = [] → s.knifeQueue = [] →
        s.select .knife = .ok (s, none))) ∧
  (∀ (s : State) (tag : Tag) (p : Pile) (distance entry : Nat) (keep : Bool),
      s.knifePile = some tag → s.pile tag = some p →
      s.stepAt p = some (.cut p.gauge distance keep entry) →
      let held (r : HoldReason) : State :=
        ({ s with
          piles := put s.piles tag
            (some { p with residency := .held, hold := some { reason := r, station := .knife } })
          knifePile := none }).raise (.held tag r .knife)
      (p.depth ≤ distance → s.select .knife = (held .cutBeyond).select .knife) ∧
      (distance < p.depth → keep = true → s.freeRecords < 1 ∨ s.freeSlots < 1 →
        s.select .knife = (held .noRoom).select .knife))

/-- The knife's NEXT on a CUT whose edge is at the gauge, P less than D and room for a kept offcut: a CUT job
with the setpoints of R51 to R56, a KEEP cut reserving a record and a stack slot, a limited target setting
LIMITED and LIMITED_SEEN with its event (R15, R53, R108, R112). -/
def Obligations.CutJobsCarrySetpointsAndReserve : Prop :=
  ∀ (s : State) (tag : Tag) (p : Pile) (distance entry : Nat) (keep : Bool), s.Up →
    Selects s .knife → s.knifePile = some tag → s.pile tag = some p →
    s.stepAt p = some (.cut p.gauge distance keep entry) → distance < p.depth →
    (keep = true → 1 ≤ s.freeRecords ∧ 1 ≤ s.freeSlots) →
    let c := s.stock p.cls
    let target : Int := (distance : Int) + ((s.settings.ocode : Int) - 128) * 2 +
      (((p.height * c.kd + 8192) / 16384 : Nat) : Int)
    let limited : Bool := target < 2000 ∨ 132000 < target
    let force := (clampForce (knotValue s.settings) p.height * c.force + 64) / 128
    let job : KnifeJob :=
      { kind := .cut, keep := keep, limited := limited, capped := decide (1023 < force)
        overdue := s.blade.overdueLatch
        target := if target < 2000 then 2000 else if 132000 < target then 132000 else target.toNat
        force := if force < 40 then 40 else if 1023 < force then 1023 else force
        step := p.cursor, program := p.program }
    let s1 : State :=
      { s with
        piles := put s.piles tag
          (some { p with residency := .knifeJob, limitedSeen := p.limitedSeen || limited })
        reservedRecords := if keep then 1 else s.reservedRecords
        reservedSlots := if keep then 1 else s.reservedSlots
        contexts := put s.contexts Station.knife.ix
          (issuedContext (s.ctx .knife) tag (.knife job) (s.preset .knife)) }
    ∃ t, exec (.next .knife) s = .next t ∧
      OnlyPorts (if limited then s1.raise (.targetLimited tag p.cursor) else s1) t ∧
      Answered s t .knife 8 .job (tagField tag)
        (dataOf (1 + keep.toNat * 256 + limited.toNat * 512 + job.capped.toNat * 1024 +
          job.overdue.toNat * 2048))

/-- The knife's NEXT on a CUT whose edge is not at the gauge issues a TRANSFER_TURN job with the turn of R48 as
the pending turn, on a FLIP step one with FLIP, on a JOG step a TRANSFER_JOG and on an END step a DELIVER job;
no setpoint, no flag, the cursor unchanged (R107, R109, R110, R111, R112). -/
def Obligations.OtherStepsTransferOrDeliver : Prop :=
  ∀ (s : State) (tag : Tag) (p : Pile) (kind : KnifeKind) (pending : Option Turn), s.Up →
    Selects s .knife → s.knifePile = some tag → s.pile tag = some p →
    ((∃ edge distance keep entry turn, s.stepAt p = some (.cut edge distance keep entry) ∧
        edge ≠ p.gauge ∧ kind = .transferTurn turn ∧ pending = some turn ∧
        turn = (if edge = layEdge p.gauge p.face then .cw
          else if edge = rightEdge p.gauge p.face then .ccw else .half)) ∨
      (s.stepAt p = some .flip ∧ kind = .transferTurn .flip ∧ pending = some .flip) ∨
      (s.stepAt p = some .jog ∧ kind = .transferJog ∧ pending = p.pendingTurn) ∨
      (s.stepAt p = some .fin ∧ kind = .deliver ∧ pending = p.pendingTurn)) →
    let job : KnifeJob :=
      { kind := kind, keep := false, limited := false, capped := false, overdue := false, target := 0
        force := 0, step := p.cursor, program := p.program }
    ∃ t, exec (.next .knife) s = .next t ∧
      OnlyPorts
        { s with
          piles := put s.piles tag (some { p with residency := .knifeJob, pendingTurn := pending })
          contexts := put s.contexts Station.knife.ix
            (issuedContext (s.ctx .knife) tag (.knife job) (s.preset .knife)) } t ∧
      Answered s t .knife 8 .job (tagField tag)
        (dataOf (knifeKindCode kind + turnCode (knifeTurn kind) * 8))

/-! ### DONE, ABORT, EXTEND -/

/-- DONE, ABORT and EXTEND: BAD_ARG for a tag outside 1..32 or an unknown outcome; otherwise, when the tag is
not the job in flight, LATE for the last expired tag, else UNKNOWN_TAG for a tag not in use, else NOT_YOURS;
each changes nothing, echoes the tag and carries data 0 (R64). -/
def Obligations.StrayReportsAreToldApart : Prop :=
  ∀ (st : Station) (c : Instr) (code : BitVec 6) (tag : TagField) (known : Prop) (s : State), s.Up →
    ((∃ outcome value, c = .done st tag outcome value ∧ code = 9 ∧
        (known ↔ outcome = 1#2 ∨ outcome = 2#2)) ∨
      (c = .abort st tag ∧ code = 10 ∧ known) ∨ (c = .extend st tag ∧ code = 11 ∧ known)) →
    let refused (r : Result) : Prop :=
      ∃ t, exec c s = .next t ∧ OnlyPorts s t ∧ Answered s t st.port code r tag 0
    (tag.toNat = 0 ∨ 32 < tag.toNat ∨ ¬ known → refused .badArg) ∧
    (∀ t0 : Tag, tag.toNat = tagNum t0 → known → ¬ ((s.ctx st).busy = true ∧ (s.ctx st).tag = some t0) →
      ((s.ctx st).lastExpired = some t0 → refused .late) ∧
      ((s.ctx st).lastExpired ≠ some t0 → s.pile t0 = none → refused .unknownTag) ∧
      ((s.ctx st).lastExpired ≠ some t0 → s.pile t0 ≠ none → refused .notYours))

/-- The lift's DONE COMPLETE: a height above 16500 holds the pile with OVERHEIGHT; any other becomes the
pile's height, the caliper check of R42 is made against the job's He, and the pile joins the tail of the Jogger
Queue (R43, R89, R90). -/
def Obligations.LiftDoneMeasuresTheHeight : Prop :=
  ∀ (s : State) (tag : Tag) (p : Pile) (value : Data) (n he q k : Nat) (cls : ClassNo), s.Up →
    InFlight s .lift tag p → (s.ctx .lift).job = .lift n he q k cls →
    (16500 < value.toNat →
      ∃ t, exec (.done .lift (tagField tag) 1 value) s = .next t ∧
        Answered s t .lift 9 .ok (tagField tag) 0 ∧
        DrainTested s (heldOff s .lift tag p .overheight (s.ctx .lift).lastExpired) t) ∧
    (value.toNat ≤ 16500 →
      let difference : Int := (value.toNat : Int) - he
      let deviates : Bool := (s.stock p.cls).tol * he < difference.natAbs * 256
      let s1 : State :=
        { s with
          piles := put s.piles tag (some { p with
            height := value.toNat, attempt := 0, residency := .jogWait
            caliperDev := p.caliperDev || deviates })
          jogQueue := s.jogQueue ++ [tag]
          contexts := put s.contexts Station.lift.ix (endedContext (s.ctx .lift)) }
      ∃ t, exec (.done .lift (tagField tag) 1 value) s = .next t ∧
        Answered s t .lift 9 .ok (tagField tag) 0 ∧
        OnlyPorts (if deviates then
          s1.raise (.caliperDev tag (if difference < -8191 then -8191 else
            if 8191 < difference then 8191 else difference)) else s1) t)

/-- The jogger's DONE COMPLETE by its skew: not above thr the pile goes to the Knife Queue, or started to the
Return Lane; not above lim it is jogged again with RETRY in attempts 0 to 2 and held with JOG_RETRIES after; above
lim it is held with JOG_REJECT (R46, R96, R97, R98). -/
def Obligations.JogDoneClassifiesTheSkew : Prop :=
  ∀ (s : State) (tag : Tag) (p : Pile) (value : Data), s.Up → InFlight s .jog tag p →
    let c := s.stock p.cls
    let doneCommand := Instr.done .jog (tagField tag) 1 value
    (value.toNat ≤ c.thr →
      ∃ t, exec doneCommand s = .next t ∧ Answered s t .jog 9 .ok (tagField tag) 0 ∧
        OnlyPorts
          { s with
            piles := put s.piles tag
              (some { p with residency := if p.started then .returnWait else .knifeWait })
            returnLane := if p.started then s.returnLane ++ [tag] else s.returnLane
            knifeQueue := if p.started then s.knifeQueue else s.knifeQueue ++ [tag]
            contexts := put s.contexts Station.jog.ix (endedContext (s.ctx .jog)) } t) ∧
    (c.thr < value.toNat → value.toNat ≤ c.lim → p.attempt < 3 →
      let dur := min 255 (c.jogBase * (2 + (p.attempt + 1)) / 2)
      ∃ t, exec doneCommand s = .next t ∧
        Answered s t .jog 9 .retry (tagField tag)
          (dataOf (dur + c.amplitude * 256 + c.air * 2048)) ∧
        OnlyPorts
          { s with
            piles := put s.piles tag (some { p with attempt := p.attempt + 1 })
            contexts := put s.contexts Station.jog.ix
              (issuedContext (s.ctx .jog) tag
                (.jog dur c.amplitude c.air p.sheets p.height (p.attempt + 1)) (s.preset .jog)) } t) ∧
    (c.thr < value.toNat → value.toNat ≤ c.lim → 3 ≤ p.attempt →
      ∃ t, exec doneCommand s = .next t ∧ Answered s t .jog 9 .ok (tagField tag) 0 ∧
        DrainTested s (heldOff s .jog tag p .jogRetries (s.ctx .jog).lastExpired) t) ∧
    (c.thr < value.toNat → c.lim < value.toNat →
      ∃ t, exec doneCommand s = .next t ∧ Answered s t .jog 9 .ok (tagField tag) 0 ∧
        DrainTested s (heldOff s .jog tag p .jogReject (s.ctx .jog).lastExpired) t)

/-- The knife's DONE COMPLETE for a CUT job: D becomes P, the cursor advances unless it stands on the last
step, the pile stays under the knife, the blade counter rises; a KEEP cut's offcut becomes a child pile as R2
gives, under the tag of R8, on top of the Return Stack, the reservation consumed (R4, R15, R113). -/
def Obligations.CutDoneKeepsOrWastesTheOffcut : Prop :=
  ∀ (s : State) (tag : Tag) (p : Pile) (value : Data) (j : KnifeJob) (edge : Edge)
    (distance entry : Nat) (kept : Bool), s.Up → InFlight s .knife tag p → s.knifePile = some tag →
    (s.ctx .knife).job = .knife j → j.kind = .cut →
    s.stepAt p = some (.cut edge distance kept entry) →
    let cut : Pile :=
      { p with
        depth := distance, residency := .atKnife
        cursor := if p.cursor + 1 < (s.entry p.program).count then p.cursor + 1 else p.cursor }
    (j.keep = false →
      ∃ t, exec (.done .knife (tagField tag) 1 value) s = .next t ∧
        Answered s t .knife 9 .ok (tagField tag) 0 ∧
        OnlyPorts (({ s with piles := put s.piles tag (some cut) }).bladeRise.putCtx .knife
          (endedContext (s.ctx .knife))) t) ∧
    (∀ child : Tag, j.keep = true → NextFree s child →
      let offcut : Pile :=
        { p with
          residency := .stacked, parent := some tag, cursor := entry, depth := p.depth - distance
          started := false, attempt := 0, pendingTurn := none, limitedSeen := false, hold := none }
      let s1 : State :=
        { s with
          piles := put (put s.piles child (some offcut)) tag (some cut)
          allocPtr := some child
          returnStack := child :: s.returnStack
          useCounts := put s.useCounts p.program (s.useCount p.program + 1)
          pallets := s.pallets.map fun q =>
            if q.seq = p.pallet then { q with live := q.live + 1 } else q
          reservedRecords := 0
          reservedSlots := 0 }
      ∃ t, exec (.done .knife (tagField tag) 1 value) s = .next t ∧
        Answered s t .knife 9 .ok (tagField tag) 0 ∧
        OnlyPorts (s1.bladeRise.putCtx .knife (endedContext (s.ctx .knife))) t)

/-- The knife's DONE COMPLETE for TRANSFER_TURN, TRANSFER_JOG and DELIVER jobs: the Turner Queue's tail, the
Jogger Queue's tail with the cursor advanced, or the record freed with its sheets delivered; the knife pile
cleared (R114, R115, R116). -/
def Obligations.TransferAndDeliveryDone : Prop :=
  ∀ (s : State) (tag : Tag) (p : Pile) (value : Data) (j : KnifeJob), s.Up →
    InFlight s .knife tag p → (s.ctx .knife).job = .knife j →
    let doneCommand := Instr.done .knife (tagField tag) 1 value
    let ended := put s.contexts Station.knife.ix (endedContext (s.ctx .knife))
    ((∃ turn, j.kind = .transferTurn turn) →
      ∃ t, exec doneCommand s = .next t ∧ Answered s t .knife 9 .ok (tagField tag) 0 ∧
        OnlyPorts
          { s with
            piles := put s.piles tag (some { p with residency := .turnWait })
            turnQueue := s.turnQueue ++ [tag], knifePile := none, contexts := ended } t) ∧
    (j.kind = .transferJog →
      ∃ t, exec doneCommand s = .next t ∧ Answered s t .knife 9 .ok (tagField tag) 0 ∧
        OnlyPorts
          { s with
            piles := put s.piles tag (some { p with
              cursor := if p.cursor + 1 < (s.entry p.program).count then p.cursor + 1 else p.cursor
              attempt := 0, residency := .jogWait })
            jogQueue := s.jogQueue ++ [tag], knifePile := none, contexts := ended } t) ∧
    (j.kind = .deliver →
      ∃ t, exec doneCommand s = .next t ∧ Answered s t .knife 9 .ok (tagField tag) 0 ∧
        DrainTested s { s.freeRecord tag accountDelivered with knifePile := none, contexts := ended } t)

/-- Freeing a record (R9) takes its tag out of use, lowers its program's use count and its pallet's live count
by 1 with the accounts of the cause, and finishes the pallet when remaining and live are then both 0: the
record moved to the Last Pallet Report, PALLET_DONE raised, one use fewer (R20, R80, R83). The other records of the
Pallet Table keep their order (R81). -/
def Obligations.FreeingARecordSettlesItsAccounts : Prop :=
  ∀ (s : State) (tag : Tag) (p : Pile) (q q1 : Pallet) (account : Nat → Pallet → Pallet),
    s.pile tag = some p → s.palletOf p.pallet = some q →
    ((account = accountDelivered ∧ q1 = { q with
        live := q.live - 1, delivered := min 1048575 (q.delivered + p.sheets) }) ∨
      (account = accountScrapped ∧ q1 = { q with
        live := q.live - 1, scrapped := min 1048575 (q.scrapped + p.sheets) }) ∨
      (account = accountReturned ∧ q1 = { q with
        live := q.live - 1, lifted := q.lifted - p.sheets, remaining := q.remaining + p.sheets })) →
    let t := s.freeRecord tag account
    let uses := put s.useCounts p.program (s.useCount p.program - 1)
    let settled := s.pallets.map fun x =>
      if x.seq = p.pallet then account p.sheets { x with live := x.live - 1 } else x
    t.pile tag = none ∧ (∀ u, u ≠ tag → t.pile u = s.pile u) ∧
    (∀ n, n ≠ p.pallet → t.palletOf n = s.palletOf n) ∧
    (¬ (q1.remaining = 0 ∧ q1.live = 0) →
      t.palletOf p.pallet = some q1 ∧
      t = { s with piles := put s.piles tag none, useCounts := uses, pallets := settled }) ∧
    (q1.remaining = 0 ∧ q1.live = 0 →
      t.palletOf p.pallet = none ∧
      t = { (s.raise (.palletDone p.pallet)) with
        piles := put s.piles tag none, pallets := settled.filter fun x => x.seq ≠ p.pallet
        lastReport := some q1
        useCounts := put uses q.program (look uses q.program - 1) })

/-- The turner's DONE COMPLETE applies the pending turn (R49), advances the cursor for a FLIP, and puts the
pile at the tail of the Return Lane (R128, R129). -/
def Obligations.TurnDoneAppliesTheTurn : Prop :=
  ∀ (s : State) (tag : Tag) (p : Pile) (value : Data) (turn : Turn), s.Up →
    InFlight s .turn tag p → p.pendingTurn = some turn →
    ∃ t, exec (.done .turn (tagField tag) 1 value) s = .next t ∧
      Answered s t .turn 9 .ok (tagField tag) 0 ∧
      OnlyPorts
        { s with
          piles := put s.piles tag (some { p with
            residency := .returnWait
            pendingTurn := none
            gauge := match turn with
              | .cw => layEdge p.gauge p.face
              | .ccw => rightEdge p.gauge p.face
              | .half => frontEdge p.gauge
              | .flip => p.gauge
            face := if turn = .flip then (if p.face = .up then .down else .up) else p.face
            depth := if turn = .cw ∨ turn = .ccw then p.width else p.depth
            width := if turn = .cw ∨ turn = .ccw then p.depth else p.width
            cursor := if turn = .flip ∧ p.cursor + 1 < (s.entry p.program).count then p.cursor + 1
              else p.cursor })
          returnLane := s.returnLane ++ [tag]
          contexts := put s.contexts Station.turn.ix (endedContext (s.ctx .turn)) } t

/-- DONE FAILED for the job in flight holds the pile with MACHINE at every station, nothing of the job applied
(R66, R91, R99, R117, R130). -/
def Obligations.FailedJobsHoldThePile : Prop :=
  ∀ (st : Station) (s : State) (tag : Tag) (p : Pile) (value : Data), s.Up → InFlight s st tag p →
    ∃ t, exec (.done st (tagField tag) 2 value) s = .next t ∧
      Answered s t st.port 9 .ok (tagField tag) 0 ∧
      DrainTested s (heldOff s st tag p .machine (s.ctx st).lastExpired) t

/-- ABORT for the job in flight undoes it: the lift's record is freed and its sheets given back; the jogger's
and the turner's pile returns to the head of its queue; the knife's stays under the knife, its reservation
released and a TRANSFER_TURN job's pending turn back to none (R67, R92, R100, R118, R131). -/
def Obligations.AbortUndoesTheJob : Prop :=
  ∀ (s : State) (tag : Tag) (p : Pile), s.Up →
    let after (st : Station) (u : State) : Prop :=
      ∃ t, exec (.abort st (tagField tag)) s = .next t ∧
        Answered s t st.port 10 .ok (tagField tag) 0 ∧
        DrainTested s (u.putCtx st (endedContext (s.ctx st))) t
    (InFlight s .lift tag p → after .lift (s.freeRecord tag accountReturned)) ∧
    (InFlight s .jog tag p → after .jog
      { s with piles := put s.piles tag (some { p with residency := .jogWait })
               jogQueue := tag :: s.jogQueue }) ∧
    (InFlight s .knife tag p → after .knife
      { s with
        piles := put s.piles tag (some { p with
          residency := .atKnife
          pendingTurn := if isTransferTurn (s.ctx .knife).job = true then none else p.pendingTurn })
        reservedRecords := 0, reservedSlots := 0 }) ∧
    (InFlight s .turn tag p → after .turn
      { s with piles := put s.piles tag (some { p with residency := .turnWait })
               turnQueue := tag :: s.turnQueue })

/-- EXTEND for the job in flight reloads the timer with the preset and answers it (R68). JOB_READ returns the word
of an index 0..3, or of the pointer for 15, with the record tag, and sets the pointer to the index that follows; 4..14
is BAD_ARG with the pointer unchanged, in both states of the context (R69). The words of each station's record stand
as section 11.4 lays them out. -/
def Obligations.ExtendAndJobReadServeTheJob : Prop :=
  (let words (j : Job) : List Data := [0, 1, 2, 3].map (jobWord j);
    words .none = [0, 0, 0, 0] ∧
    (∀ n he seq k cls, words (.lift n he seq k cls) =
      [dataOf n, dataOf he, dataOf (k + seq * 4096), dataOf cls.val]) ∧
    (∀ dur amplitude air n height attempt, words (.jog dur amplitude air n height attempt) =
      [dataOf (dur + amplitude * 256 + air * 2048), dataOf n, dataOf height, dataOf attempt]) ∧
    (∀ turn depth width height, words (.turn turn depth width height) =
      [dataOf (turnCode turn), dataOf depth, dataOf width, dataOf height]) ∧
    (∀ j : KnifeJob, words (.knife j) =
      [dataOf ((match j.kind with
          | .cut => 1
          | .transferTurn turn => 2 + turnCode (some turn) * 8
          | .transferJog => 3
          | .deliver => 4) + j.keep.toNat * 256 + j.limited.toNat * 512 + j.capped.toNat * 1024 +
          j.overdue.toNat * 2048),
        dataOf j.target, dataOf j.force, dataOf (j.step + progNum j.program * 256)]) ∧
    [none, some Turn.cw, some .ccw, some .half, some .flip].map turnCode = [0, 1, 2, 3, 4]) ∧
  (∀ (st : Station) (s : State) (tag : Tag) (p : Pile), s.Up → InFlight s st tag p →
      ∃ t, exec (.extend st (tagField tag)) s = .next t ∧
        OnlyPorts (s.putCtx st { s.ctx st with running := true, remaining := s.preset st }) t ∧
        Answered s t st.port 11 .ok (tagField tag) (dataOf (s.preset st))) ∧
  (∀ (st : Station) (tag : TagField) (word : BitVec 4) (s : State), s.Up →
      let c := s.ctx st
      (4 ≤ word.toNat → word.toNat ≤ 14 →
        ∃ t, exec (.jobRead st tag word) s = .next t ∧ OnlyPorts s t ∧
          Answered s t st.port 12 .badArg tag 0) ∧
      (∀ i : Fin 4, word.toNat = i.val ∨ (word.toNat = 15 ∧ i = c.pointer) →
        ∃ t, exec (.jobRead st tag word) s = .next t ∧
          OnlyPorts (s.putCtx st { c with pointer := if i = 3 then 0 else i + 1 }) t ∧
          Answered s t st.port 12 .ok (tagFieldOf c.recordTag) (jobWord c.job i)))

/-- STATUS on a station port shows the current tag, BUSY and the timer's remaining value, and on the PLAN port the
line state, DROPPED, the event count and the Store Controller's state; it clears the port's RESTARTED flag, on
PLAN also DROPPED, and shows both as they stood, in every line state (R70, R166). -/
def Obligations.StatusShowsThenClears : Prop :=
  ∀ s : State,
    (∀ st : Station, ∃ t, exec (.status st.port) s = .next t ∧ OnlyPorts s t ∧ OtherPorts s t st.port ∧
      t.port st.port = answeredUnit (s.port st.port) t st.port 1 .ok (tagFieldOf (s.ctx st).tag)
        (dataOf ((s.ctx st).remaining + (s.ctx st).busy.toNat * 4096)) (s.port st.port).restarted false
        (s.port st.port).snapPtr) ∧
    (∃ t, exec (.status .plan) s = .next t ∧ OnlyPorts { s with dropped := false } t ∧
      OtherPorts s t .plan ∧
      t.port .plan = answeredUnit (s.port .plan) t .plan 1 .ok 0
        (dataOf ((match s.line with
            | .starting => 0
            | .config => 1
            | .run => 2
            | .draining => 3
            | .stopped => 4) + s.dropped.toNat * 8 + s.events.length * 16 +
          (match s.storeWrite with
            | .idle => 0
            | .block _ => 1
            | .directory _ _ _ _ _ => 2) * 1024))
        (s.port .plan).restarted false (s.port .plan).snapPtr)

/-! ### Response timers and HALT -/

/-- A running timer at its last count whose expiry is taken while HALT is released ends the job: the pile held
with TIMEOUT, its tag the station's last expired tag (R72). Of any other timer nothing is taken; that the
command then changes nothing is the model's choice (log entry 7). A 0.1 s tick lowers every running timer by 1, and
none while HALT is asserted; where one timer comes to 0 it expires in the same event as R72 says, the others lowered
(R71, R74). Where several come to 0 each expires so in that event, in the order LIFT, JOG, KNIFE, TURN: the order is
the model's choice (log entry 7). -/
def Obligations.TimersCountDownAndExpire : Prop :=
  (∀ (st : Station) (s : State),
      (∀ tag p, (s.ctx st).running = true → (s.ctx st).remaining ≤ 1 → s.halt = false →
        (s.ctx st).tag = some tag → s.pile tag = some p →
        ∃ t, exec (.responseTimerExpiry st) s = .next t ∧ t.ports = s.ports ∧
          DrainTested s (heldOff s st tag p .timeout (some tag)) t) ∧
      ((s.ctx st).running = false ∨ 1 < (s.ctx st).remaining ∨ s.halt = true →
        ∃ t, exec (.responseTimerExpiry st) s = .next t ∧ t = { s with pins := t.pins })) ∧
  (∀ s : State,
      let lowered (c : Context) : Context :=
        if c.running = true then { c with remaining := c.remaining - 1 } else c
      let due (st : Station) : Prop := (s.ctx st).running = true ∧ (s.ctx st).remaining ≤ 1
      (s.halt = true → ∃ t, exec .timebaseTick s = .next t ∧ t = { s with pins := t.pins }) ∧
      (s.halt = false → (∀ st, ¬ due st) →
        ∃ t, exec .timebaseTick s = .next t ∧
          t = { s with contexts := s.contexts.map lowered, pins := t.pins }) ∧
      (∀ st, s.halt = false → due st → (∀ other, other ≠ st → ¬ due other) →
        ∃ t, exec .timebaseTick s = .next t ∧
          exec (.responseTimerExpiry st)
            { s with contexts := put (s.contexts.map lowered) st.ix (s.ctx st) } = .next t) ∧
      (s.halt = false →
        let expired (c : Context) : Bool := c.running && decide (c.remaining ≤ 1)
        ∃ t u, exec .timebaseTick s = .next t ∧ t = { u with pins := t.pins } ∧
          ExpireInTurn ([.lift, .jog, .knife, .turn].filter fun st => expired (s.ctx st))
            { s with contexts := s.contexts.map fun c => if expired c then c else lowered c } u))

/-- A change of the HALT input's level sets the condition with its event, HALT_ON or HALT_OFF; at the release
every running timer, and no other, is loaded with its full preset (R74, R156). A level that does not
change is no event: the model's choice (log entry 11). -/
def Obligations.HaltFollowsItsInput : Prop :=
  ∀ s : State,
    let reloaded (st : Station) : Context :=
      if (s.ctx st).running = true then { s.ctx st with remaining := s.preset st } else s.ctx st
    (s.halt = false →
      (∃ t, exec .haltAsserted s = .next t ∧
        t = { ({ s with halt := true }.raise .haltOn) with pins := t.pins }) ∧
      (∃ t, exec .haltReleased s = .next t ∧ t = { s with pins := t.pins })) ∧
    (s.halt = true →
      (∃ t, exec .haltReleased s = .next t ∧
        t = { ({ s with halt := false }.raise .haltOff) with
          contexts := #v[reloaded .lift, reloaded .jog, reloaded .knife, reloaded .turn]
          pins := t.pins }) ∧
      (∃ t, exec .haltAsserted s = .next t ∧ t = { s with pins := t.pins }))

/-! ### Line Control -/

/-- LINE_START makes every line state but STARTING RUN; LINE_STOP makes RUN DRAINING, or at once STOPPED when the
drain is complete, and is NOT_RUNNING elsewhere; the OK answers carry the line state after the request (R151,
R152). DRAIN_COMPLETE makes the drain test by itself (R153, log entry 8). -/
def Obligations.LineStatesFollowTheirRequests : Prop :=
  ∀ (s : State) (tag : TagField),
    (s.Up → ∃ t, exec (.lineStart tag) s = .next t ∧ OnlyPorts { s with line := .run } t ∧
      Answered s t .plan 16 .ok tag 2) ∧
    (s.line = .run → ∃ t, exec (.lineStop tag) s = .next t ∧
      DrainTested s { s with line := .draining } t ∧
      Answered s t .plan 17 .ok tag (if t.line = .stopped then 4 else 3) ∧
      (t.line = .stopped ↔ Drained s)) ∧
    (s.Up → s.line ≠ .run → ∃ t, exec (.lineStop tag) s = .next t ∧ OnlyPorts s t ∧
      Answered s t .plan 17 .notRunning tag 0) ∧
    (∃ t, exec .drainComplete s = .next t ∧ DrainTested s s t ∧ t.ports = s.ports)

/-- LINE_RESET clears what R154 lists and keeps what R155 lists, in every line state but STARTING; its reply
carries RESTARTED set. -/
def Obligations.LineResetClearsTheLine : Prop :=
  ∀ (s : State) (tag : TagField), s.Up →
    ∃ t, exec (.lineReset tag) s = .next t ∧
      OnlyPorts
        { s with
          piles := Vector.replicate 32 none, allocPtr := none
          jogQueue := [], knifeQueue := [], returnLane := [], turnQueue := [], returnStack := []
          reservedRecords := 0, reservedSlots := 0, knifePile := none
          contexts := Vector.replicate 4
            { busy := false, tag := none, job := .none, recordTag := none, pointer := 0
              running := false, remaining := 0, lastExpired := none }
          draft := { program := none, cls := 0, sheets := 0, caliper := 100, extentNS := 0
                     extentEW := 0, gauge := .n, face := .up }
          pallets := [], lastReport := none, seqCounter := 0
          useCounts := Vector.replicate 48 0, session := none
          events := [], dropped := false
          snapWords := Vector.replicate 20 0, snapSeq := 0
          line := .config } t ∧
      t.port .plan = answeredUnit (s.port .plan) t .plan 18 .ok 0 0 true true 0 ∧
      (∀ q, q ≠ .plan → t.port q = { s.port q with restarted := true, snapPtr := 0 })

/-- CONFIG_WRITE makes the checks of R158 in order; one that passes writes the value, every other setting keeping
its own, and a write of a blade threshold re-tests the latches: each then stands exactly where the counter has
reached its threshold, with an event for each newly set, BLADE_WARN first (R122, R158, R159). The codes name the
settings as section 11.4 gives, with the ranges and defaults of R157. -/
def Obligations.ConfigWriteChecksAndWrites : Prop :=
  (∀ (table : TagField) (index setting : BitVec 4) (r : SettingRef),
      settingRef table index setting = some r ↔ (table.toNat, index.toNat, setting.toNat) =
        match r with
        | .stock c .kd => (1, c.val, 0)
        | .stock c .force => (1, c.val, 1)
        | .stock c .jogBase => (1, c.val, 2)
        | .stock c .amplitude => (1, c.val, 3)
        | .stock c .air => (1, c.val, 4)
        | .stock c .thr => (1, c.val, 5)
        | .stock c .lim => (1, c.val, 6)
        | .stock c .tol => (1, c.val, 7)
        | .knot k => (2, k.val, 0)
        | .hmax => (3, 0, 0)
        | .ocode => (3, 0, 1)
        | .preset .lift => (4, 0, 0)
        | .preset .jog => (4, 1, 0)
        | .preset .knife => (4, 2, 0)
        | .preset .turn => (4, 3, 0)
        | .infeed => (5, 0, 0)
        | .childReserve => (5, 0, 1)
        | .warn => (6, 0, 0)
        | .limit => (6, 0, 1)) ∧
  (∀ r : SettingRef, (settingRange r, settingValue Settings.reset r) =
      match r with
      | .stock _ .kd => ((0, 255), 64)
      | .stock _ .force => ((0, 255), 128)
      | .stock _ .jogBase => ((1, 255), 20)
      | .stock _ .amplitude => ((0, 7), 3)
      | .stock _ .air => ((0, 1), 1)
      | .stock _ .thr => ((0, 4095), 10)
      | .stock _ .lim => ((0, 4095), 80)
      | .stock _ .tol => ((0, 255), 8)
      | .knot k => ((80, 1000), [80, 160, 240, 320, 400, 520, 640, 800, 1000].getD k.val 0)
      | .hmax => ((1000, 16500), 12000)
      | .ocode => ((0, 255), 128)
      | .preset .lift => ((1, 4095), 600)
      | .preset .jog => ((1, 4095), 300)
      | .preset .knife => ((1, 4095), 1200)
      | .preset .turn => ((1, 4095), 300)
      | .infeed => ((1, 16), 8)
      | .childReserve => ((0, 24), 8)
      | .warn => ((1, 999999), 40000)
      | .limit => ((1, 999999), 50000)) ∧
  (∀ (cfg : Settings) (r x : SettingRef) (v : Nat), r ≠ .knot 0 → r ≠ .knot 8 →
      settingValue (settingWrite cfg r v) x = if x = r then v else settingValue cfg x) ∧
  (∀ (table : TagField) (index setting : BitVec 4) (value : Data) (s : State), s.Up →
      let command := Instr.configWrite table index setting value
      let refused (r : Result) : Prop :=
        ∃ t, exec command s = .next t ∧ OnlyPorts s t ∧ Answered s t .plan 19 r table 0
      let v := value.toNat
      let running : Prop := s.line = .run ∨ s.line = .draining
      let fits (r : SettingRef) : Prop :=
        (∀ c, r = .stock c .thr → v ≤ (s.stock c).lim) ∧
        (∀ c, r = .stock c .lim → (s.stock c).thr ≤ v) ∧
        (∀ k, r = .knot k → knotValue s.settings (k.val - 1) ≤ v ∧
          v ≤ knotValue s.settings (k.val + 1)) ∧
        (r = .warn → v ≤ s.settings.limit) ∧ (r = .limit → s.settings.warn ≤ v)
      (settingRef table index setting = none → refused .badArg) ∧
      (∀ r, settingRef table index setting = some r →
        (r = .knot 0 ∨ r = .knot 8 → refused .badArg) ∧
        (r ≠ .knot 0 → r ≠ .knot 8 →
          (running → r ≠ .warn → r ≠ .limit → refused .lineRunning) ∧
          (¬ running ∨ r = .warn ∨ r = .limit →
            (v < (settingRange r).1 ∨ (settingRange r).2 < v → refused .badArg) ∧
            ((settingRange r).1 ≤ v → v ≤ (settingRange r).2 →
              (¬ fits r → refused .badArg) ∧
              (fits r →
                let cfg := settingWrite s.settings r v
                let warned : Bool := cfg.warn ≤ s.blade.counter
                let overdue : Bool := cfg.limit ≤ s.blade.counter
                let s1 : State := { s with settings := cfg }
                let s2 := if warned && !s.blade.warnLatch then s1.raise .bladeWarn else s1
                let s3 := if overdue && !s.blade.overdueLatch then s2.raise .bladeOverdue else s2
                ∃ t, exec command s = .next t ∧ Answered s t .plan 19 .ok table value ∧
                  OnlyPorts (if r = .warn ∨ r = .limit then
                    { s3 with blade := { s.blade with warnLatch := warned, overdueLatch := overdue } }
                    else s1) t))))))

/-! ### Reading requests -/

/-- PILE_READ, PALLET_READ, CONFIG_READ, PROG_READ and PROG_INFO answer their word, setting, step half or item,
or the refusals of their rules in order, and change nothing (R21, R85, R148, R149, R160). The words and items hold
their fields in the places of section 11.4, under the codes given there; a step is read from the place of the block
that the program's block list names for its index (R134). -/
def Obligations.ReadsAnswerAndChangeNothing : Prop :=
  ([Residency.lifting, .jogWait, .jogging, .knifeWait, .returnWait, .stacked, .atKnife, .knifeJob, .turnWait,
      .turning, .held].map residencyCode = [1, 2, 3, 4, 5, 6, 7, 8, 9, 10, 11] ∧
    [Edge.n, .e, .s, .w].map edgeCode = [0, 1, 2, 3] ∧ [Face.up, .down].map faceCode = [0, 1] ∧
    [none, some Turn.cw, some .ccw, some .half, some .flip].map turnCode = [0, 1, 2, 3, 4] ∧
    [HoldReason.timeout, .machine, .overheight, .jogReject, .jogRetries, .cutBeyond, .noRoom].map reasonCode =
      [1, 2, 3, 4, 5, 6, 7] ∧
    [Station.lift, .jog, .knife, .turn].map (fun st => st.ix.val) = [0, 1, 2, 3] ∧
    [EntryState.empty, .valid, .damaged].map entryStateCode = [0, 1, 2]) ∧
  (∀ x : Pile, (List.range 8).map (pileWord x) =
    [dataOf (residencyCode x.residency + edgeCode x.gauge * 16 + faceCode x.face * 64 +
        (match x.hold with
          | none => 0
          | some h => reasonCode h.reason * 128 + h.station.ix.val * 1024)),
      dataOf (x.liftNumber + x.pallet * 4096),
      dataOf ((match x.parent with
          | none => 0
          | some u => tagNum u) + progNum x.program * 64 + x.cls.val * 4096),
      dataOf (x.cursor + x.started.toNat * 256 + x.caliperDev.toNat * 512 + x.limitedSeen.toNat * 1024 +
        x.attempt * 2048 + turnCode x.pendingTurn * 8192),
      dataOf x.sheets, dataOf x.height, dataOf x.depth, dataOf x.width]) ∧
  (∀ q : Pallet, (List.range 12).map (palletWord q) =
      [dataOf (q.seq + progNum q.program * 256 + q.cls.val * 16384), dataOf q.declared, dataOf q.remaining,
        dataOf q.lifted, dataOf q.cancelled, dataOf (q.live + q.liftsIssued * 64), dataOf q.delivered,
        dataOf q.scrapped, dataOf q.caliper, dataOf q.extentNS, dataOf q.extentEW,
        dataOf (edgeCode q.gauge + faceCode q.face * 4)] ∧
      (∀ w, palletWordOf (some q) w = palletWord q w ∧ palletWordOf none w = 0)) ∧
  (∀ d : Draft, (List.range 12).map (draftWord d) =
    [dataOf ((match d.program with
          | none => 0
          | some p => progNum p) * 256 + d.cls.val * 16384),
      dataOf d.sheets, 0, 0, 0, 0, 0, 0, dataOf d.caliper, dataOf d.extentNS, dataOf d.extentEW,
      dataOf (edgeCode d.gauge + faceCode d.face * 4)]) ∧
  (∀ (s : State) (p : ProgNo),
      let blocksIn (state : BlockState) : Nat :=
        ((List.finRange 64).filter fun b => look s.work.blocks b = state).length
      (List.range 6).map (s.progItem p) =
        [dataOf (entryStateCode (s.entry p).state + (s.entry p).count * 4 +
            (match s.progOp with
              | none => 0
              | some op => if op.program = p then 1024 else 0) +
            (match s.session with
              | none => 0
              | some x => if x.program = p then 2048 else 0)),
          (s.entry p).check.setWidth 20, dataOf (s.useCount p),
          (match s.session with
            | none => 0
            | some x => if x.program = p then dataOf (x.pointer + x.count * 256) else 0),
          dataOf (blocksIn .free), dataOf (blocksIn .bad)] ∧
      (∀ i b w, (s.entry p).blocks[i / 48]? = some b → (look s.nv.blocks b).steps[i % 48]? = some w →
        s.packedStep p i = w)) ∧
  ∀ (s : State) (tag : TagField), s.Up →
    let reads (c : Instr) (p : Port) (code : BitVec 6) (r : Result) (echo : TagField) (data : Data) :
        Prop := ∃ t, exec c s = .next t ∧ OnlyPorts s t ∧ Answered s t p code r echo data
    (∀ (p : Port) (word : BitVec 4),
      (tag.toNat = 0 ∨ 32 < tag.toNat ∨ 7 < word.toNat →
        reads (.pileRead p tag word) p 4 .badArg tag 0) ∧
      (∀ t0 : Tag, tag.toNat = tagNum t0 → word.toNat ≤ 7 →
        (s.pile t0 = none → reads (.pileRead p tag word) p 4 .unknownTag tag 0) ∧
        (∀ x, s.pile t0 = some x →
          reads (.pileRead p tag word) p 4 .ok tag (pileWord x word.toNat)))) ∧
    (∀ source word : BitVec 4,
      (5 < source.toNat ∨ 11 < word.toNat →
        reads (.palletRead tag source word) .plan 24 .badArg tag 0) ∧
      (word.toNat ≤ 11 →
        (source.toNat = 0 → reads (.palletRead tag source word) .plan 24 .ok 0
          (draftWord s.draft word.toNat)) ∧
        (1 ≤ source.toNat → source.toNat ≤ 4 → reads (.palletRead tag source word) .plan 24 .ok 0
          (palletWordOf s.pallets[source.toNat - 1]? word.toNat)) ∧
        (source.toNat = 5 → reads (.palletRead tag source word) .plan 24 .ok 0
          (palletWordOf s.lastReport word.toNat)))) ∧
    (∀ index setting : BitVec 4,
      (settingRef tag index setting = none →
        reads (.configRead tag index setting) .plan 20 .badArg tag 0) ∧
      (∀ r, settingRef tag index setting = some r →
        reads (.configRead tag index setting) .plan 20 .ok tag (dataOf (settingValue s.settings r)))) ∧
    (∀ (half : BitVec 4) (index : BitVec 8) (item : BitVec 4),
      (tag.toNat = 0 ∨ 48 < tag.toNat →
        reads (.progRead tag half index) .plan 30 .badArg tag 0 ∧
        reads (.progInfo tag item) .plan 31 .badArg tag 0) ∧
      (1 < half.toNat → reads (.progRead tag half index) .plan 30 .badArg tag 0) ∧
      (5 < item.toNat → reads (.progInfo tag item) .plan 31 .badArg tag 0) ∧
      (∀ p : ProgNo, tag.toNat = progNum p →
        (half.toNat ≤ 1 → (s.entry p).state = .empty →
          reads (.progRead tag half index) .plan 30 .invalid tag 0) ∧
        (half.toNat ≤ 1 → (s.entry p).state ≠ .empty → (s.entry p).count ≤ index.toNat →
          reads (.progRead tag half index) .plan 30 .badArg tag 0) ∧
        (half.toNat ≤ 1 → (s.entry p).state ≠ .empty → index.toNat < (s.entry p).count →
          reads (.progRead tag half index) .plan 30 .ok tag
            (if half = 1#4 then ((s.packedStep p index.toNat).extractLsb' 16 16).setWidth 20
              else ((s.packedStep p index.toNat).extractLsb' 0 16).setWidth 20)) ∧
        (item.toNat ≤ 5 → reads (.progInfo tag item) .plan 31 .ok tag (s.progItem p item.toNat))))

/-- SNAPSHOT copies the status words, advances the sequence number and sets the port's pointer to 0; SNAP_READ
returns a word 0..19, or the word at the pointer for 31, with the buffer's number, and moves the pointer; any
other word is BAD_ARG (R169, R170). The status words are those of the table of R169, the counts in them those of R16
and R86. -/
def Obligations.SnapshotsAreTakenAndRead : Prop :=
  (∀ s : State,
      let tags (f : Pile → Bool) : Nat := ((List.finRange 32).filter fun t => match s.pile t with
        | none => false
        | some x => f x).length
      let number : Option Tag → Nat := fun
        | none => 0
        | some t => tagNum t
      let station (c : Context) (idle : Option Tag) : Data :=
        dataOf (number (if c.busy then c.tag else idle) + c.busy.toNat * 64)
      let place (i : Nat) : Data := match s.pallets[i]? with
        | none => 0
        | some q => dataOf q.remaining
      s.inUse = tags (fun _ => true) ∧
      s.freeRecords = 32 - s.inUse - s.reservedRecords ∧
      s.freeSlots = 12 - s.returnStack.length - s.reservedSlots ∧
      s.freshCount = tags (fun x => !x.started && (x.residency = .lifting || x.residency = .jogWait ||
        x.residency = .jogging || x.residency = .knifeWait)) ∧
      ((∀ st, (s.ctx st).busy = (s.ctx st).tag.isSome) → s.statusWords =
        #v[dataOf ((match s.line with
              | .starting => 0
              | .config => 1
              | .run => 2
              | .draining => 3
              | .stopped => 4) + s.halt.toNat * 8 + s.blade.warnLatch.toNat * 16 +
              s.blade.overdueLatch.toNat * 32),
          station (s.ctx .lift) none, station (s.ctx .jog) none, station (s.ctx .knife) s.knifePile,
          station (s.ctx .turn) none,
          dataOf s.jogQueue.length, dataOf s.knifeQueue.length, dataOf s.returnLane.length,
          dataOf s.turnQueue.length, dataOf s.returnStack.length,
          dataOf (s.inUse + s.reservedRecords * 64 + s.reservedSlots * 128),
          dataOf (tags fun x => x.residency = .held), dataOf s.blade.counter,
          place 0, place 1, place 2, place 3,
          dataOf (s.events.length + s.dropped.toNat * 64),
          dataOf ((match s.storeWrite with
              | .idle => 0
              | .block _ => 1
              | .directory _ _ _ _ _ => 2) + (match s.progOp with
              | none => 0
              | some op => progNum op.program * 4 + (if op.stage = .pending then 0 else 256)) +
              s.bladeSave.toNat * 512),
          dataOf (s.freshCount + s.freeRecords * 64 + s.freeSlots * 4096)])) ∧
  ∀ (p : Port) (tag : TagField) (word : BitVec 5) (s : State), s.Up →
    (let n := if 63 ≤ s.snapSeq then 0 else s.snapSeq + 1
      ∃ t, exec (.snapshot p tag) s = .next t ∧
        OnlyPorts { s with snapWords := s.statusWords, snapSeq := n } t ∧ OtherPorts s t p ∧
        t.port p = answeredUnit (s.port p) t p 2 .ok (BitVec.ofNat 6 n) 0 (s.port p).restarted
          (s.port p).restarted 0) ∧
    (20 ≤ word.toNat → word.toNat ≠ 31 →
      ∃ t, exec (.snapRead p tag word) s = .next t ∧ OnlyPorts s t ∧
        Answered s t p 3 .badArg tag 0) ∧
    (∀ i : Fin 20, word.toNat = i.val ∨ (word.toNat = 31 ∧ i = (s.port p).snapPtr) →
      ∃ t, exec (.snapRead p tag word) s = .next t ∧ OnlyPorts s t ∧ OtherPorts s t p ∧
        t.port p = answeredUnit (s.port p) t p 3 .ok (BitVec.ofNat 6 s.snapSeq) (look s.snapWords i)
          (s.port p).restarted (s.port p).restarted (if i = 19 then 0 else i + 1))

/-- An event joins the tail of a queue of fewer than 32, and is discarded with DROPPED set at a full one; nothing
else changes (R167). EVENT_READ removes the oldest and answers its tag, kind and detail, or WAIT on an empty queue
(R168). Kinds, tags and details are those of the table of R167. -/
def Obligations.EventQueueIsFirstInFirstOut : Prop :=
  (∀ ev : Event, (eventKind ev, eventTag ev, eventDetail ev) = match ev with
    | .held t reason st => (1, tagField t, BitVec.ofNat 14 (reasonCode reason * 4 + st.ix.val))
    | .palletDone seq => (2, 0, BitVec.ofNat 14 seq)
    | .caliperDev t difference => (3, tagField t, BitVec.ofInt 14 difference)
    | .targetLimited t index => (4, tagField t, BitVec.ofNat 14 index)
    | .bladeWarn => (5, 0, 0)
    | .bladeOverdue => (6, 0, 0)
    | .portNoisy p => (7, 0, BitVec.ofNat 14 p.ix.val)
    | .storeDone p erase => (8, 0, BitVec.ofNat 14 (progNum p + (if erase then 64 else 0)))
    | .storeFailed none => (9, 0, 0)
    | .storeFailed (some p) => (9, 0, BitVec.ofNat 14 (progNum p))
    | .storeFormatted => (10, 0, 0)
    | .programDamaged p => (11, 0, BitVec.ofNat 14 (progNum p))
    | .lineStopped => (12, 0, 0)
    | .haltOn => (13, 0, 0)
    | .haltOff => (14, 0, 0)) ∧
  (∀ (s : State) (ev : Event),
      (s.events.length < 32 → s.raise ev = { s with events := s.events ++ [ev] }) ∧
      (32 ≤ s.events.length → s.raise ev = { s with dropped := true })) ∧
  (∀ (tag : TagField) (s : State), s.Up →
      (s.events = [] → ∃ t, exec (.eventRead tag) s = .next t ∧ OnlyPorts s t ∧
        Answered s t .plan 33 .wait 0 0) ∧
      (∀ ev rest, s.events = ev :: rest →
        ∃ t, exec (.eventRead tag) s = .next t ∧ OnlyPorts { s with events := rest } t ∧
          Answered s t .plan 33 .ok (eventTag ev) (BitVec.ofNat 6 (eventKind ev) ++ eventDetail ev)))

/-! ### Pallets -/

/-- PALLET_FIELD writes the field named, its value within the range of R76, and no other; an unknown field or a
value out of range is BAD_ARG and changes nothing (R77). -/
def Obligations.PalletFieldWritesOneField : Prop :=
  ∀ (tag : TagField) (field : BitVec 4) (value : Data) (s : State), s.Up →
    (¬ DraftRange field.toNat value.toNat →
      ∃ t, exec (.palletField tag field value) s = .next t ∧ OnlyPorts s t ∧
        Answered s t .plan 21 .badArg tag 0) ∧
    (DraftRange field.toNat value.toNat →
      ∃ t d, exec (.palletField tag field value) s = .next t ∧ OnlyPorts { s with draft := d } t ∧
        Answered s t .plan 21 .ok tag value ∧
        (∀ g, draftFieldValue d g =
          if g = field.toNat then value.toNat else draftFieldValue s.draft g))

/-- PALLET_QUEUE makes the checks of R78 in order; one that passes creates a record at the end of the Pallet
Table under the next sequence number, with one more use of the program: the first number, counting on from the counter
and passing from 255 to 1, that no record of the table carries (R79). -/
def Obligations.PalletQueueCreatesARecord : Prop :=
  (∀ s : State, s.pallets.length ≤ 4 → s.seqCounter ≤ 255 →
      1 ≤ s.nextSeq ∧ s.nextSeq ≤ 255 ∧ (∀ q ∈ s.pallets, q.seq ≠ s.nextSeq) ∧
      (∀ n, 1 ≤ n → n ≤ 255 → (∀ q ∈ s.pallets, q.seq ≠ n) →
        (s.nextSeq + 254 - s.seqCounter) % 255 ≤ (n + 254 - s.seqCounter) % 255)) ∧
  (∀ (tag : TagField) (s : State), s.Up →
      let d := s.draft
      let refused (r : Result) : Prop :=
        ∃ t, exec (.palletQueue tag) s = .next t ∧ OnlyPorts s t ∧ Answered s t .plan 22 r tag 0
      let ranges : Prop := 1 ≤ d.sheets ∧ d.sheets ≤ 65535 ∧ 30 ≤ d.caliper ∧ d.caliper ≤ 600 ∧
        5000 ≤ d.extentNS ∧ d.extentNS ≤ 145000 ∧ 5000 ≤ d.extentEW ∧ d.extentEW ≤ 145000
      (d.program = none ∨ ¬ ranges → refused .badArg) ∧
      (∀ p, d.program = some p → ranges →
        ((s.entry p).state ≠ .valid → refused .invalid) ∧
        ((s.entry p).state = .valid →
          let engaged : Prop := (∃ x, s.session = some x ∧ x.program = p) ∨
            (∃ op, s.progOp = some op ∧ op.program = p)
          (engaged → refused .busy) ∧
          (¬ engaged → 4 ≤ s.pallets.length → refused .full) ∧
          (¬ engaged → s.pallets.length < 4 →
            let pallet : Pallet :=
              { seq := s.nextSeq, program := p, cls := d.cls, caliper := d.caliper
                extentNS := d.extentNS, extentEW := d.extentEW, gauge := d.gauge, face := d.face
                declared := d.sheets, remaining := d.sheets, lifted := 0, cancelled := 0, live := 0
                liftsIssued := 0, delivered := 0, scrapped := 0 }
            ∃ t, exec (.palletQueue tag) s = .next t ∧
              Answered s t .plan 22 .ok 0 (dataOf s.nextSeq) ∧
              OnlyPorts
                { s with
                  pallets := s.pallets ++ [pallet], seqCounter := s.nextSeq
                  useCounts := put s.useCounts p (s.useCount p + 1) } t))))

/-- PALLET_CANCEL moves the remaining sheets of the pallet named to cancelled, answers their number, and
finishes the pallet when no pile of it is live; BAD_ARG for a number no record carries (R82, R83). The other
records of the Pallet Table keep their order (R81). -/
def Obligations.PalletCancelMovesTheRest : Prop :=
  ∀ (tag : TagField) (seq : BitVec 8) (s : State), s.Up →
    (seq.toNat = 0 ∨ (∀ q ∈ s.pallets, q.seq ≠ seq.toNat) →
      ∃ t, exec (.palletCancel tag seq) s = .next t ∧ OnlyPorts s t ∧
        Answered s t .plan 23 .badArg tag 0) ∧
    (∀ q, seq.toNat ≠ 0 → s.palletOf seq.toNat = some q →
      let q1 : Pallet := { q with cancelled := q.cancelled + q.remaining, remaining := 0 }
      let moved := s.pallets.map fun x => if x.seq = seq.toNat then
        { x with cancelled := x.cancelled + x.remaining, remaining := 0 } else x
      ∃ t, exec (.palletCancel tag seq) s = .next t ∧
        Answered s t .plan 23 .ok 0 (dataOf q.remaining) ∧
        (∀ n, n ≠ seq.toNat → t.palletOf n = s.palletOf n) ∧
        (q.live ≠ 0 → t.palletOf seq.toNat = some q1 ∧
          OnlyPorts { s with pallets := moved } t) ∧
        (q.live = 0 → t.palletOf seq.toNat = none ∧
          OnlyPorts
            { (s.raise (.palletDone seq.toNat)) with
              pallets := moved.filter fun x => x.seq ≠ seq.toNat
              lastReport := some q1
              useCounts := put s.useCounts q.program (s.useCount q.program - 1) } t))

/-! ### The Program Store -/

/-- LOAD_BEGIN makes the checks of R138 in order and opens a session; LOAD_STEP writes the step at the pointer
(R139); LOAD_ABORT closes an open session (R141). -/
def Obligations.LoadSessionsOpenFillAndClose : Prop :=
  ∀ (tag : TagField) (count : BitVec 8) (s : State), s.Up →
    let refused (r : Result) : Prop :=
      ∃ t, exec (.loadBegin tag count) s = .next t ∧ OnlyPorts s t ∧ Answered s t .plan 25 r tag 0
    let needed := (count.toNat + 47) / 48
    (tag.toNat = 0 ∨ 48 < tag.toNat ∨ count.toNat = 0 → refused .badArg) ∧
    (∀ p : ProgNo, tag.toNat = progNum p → count.toNat ≠ 0 →
      (s.session ≠ none ∨ s.progOp ≠ none → refused .busy) ∧
      (s.session = none → s.progOp = none →
        (0 < s.useCount p → refused .inUse) ∧
        (s.useCount p = 0 → (freeBlocks s.work).length < needed → refused .full) ∧
        (s.useCount p = 0 → needed ≤ (freeBlocks s.work).length →
          ∃ t, exec (.loadBegin tag count) s = .next t ∧
            Answered s t .plan 25 .ok tag (dataOf needed) ∧
            let opened : Session :=
              { program := p, count := count.toNat, buffer := List.replicate count.toNat 0
                pointer := 0 }
            OnlyPorts { s with session := some opened } t))) ∧
    (∀ (top : BitVec 2) (step : PackedStep),
      (s.session = none ∨ (∃ x, s.session = some x ∧ x.pointer = x.count) →
        ∃ t, exec (.loadStep top step) s = .next t ∧ OnlyPorts s t ∧
          Answered s t .plan 26 .badArg (top ++ step.extractLsb' 28 4) 0) ∧
      (∀ x, s.session = some x → x.pointer ≠ x.count →
        ∃ t, exec (.loadStep top step) s = .next t ∧
          let filled : Session :=
            { x with buffer := x.buffer.set x.pointer step, pointer := x.pointer + 1 }
          OnlyPorts { s with session := some filled } t ∧
          Answered s t .plan 26 .ok (progField x.program) (dataOf (x.pointer + 1)))) ∧
    (s.session = none → ∃ t, exec (.loadAbort tag) s = .next t ∧ OnlyPorts s t ∧
      Answered s t .plan 28 .ok 0 0) ∧
    (∀ x, s.session = some x → ∃ t, exec (.loadAbort tag) s = .next t ∧
      OnlyPorts { s with session := none } t ∧ Answered s t .plan 28 .ok (progField x.program) 0)

/-- LOAD_END makes the checks of R140 in order: MISSING keeps the session open, STEP (the lowest failing index)
and CHECK close it, and a program that passes is handed to the Store Controller as a pending commit. A step meets
the conditions of R33 for its index, and the program check is that of R136: generator x^16 + x^12 + x^5 + 1, initial
value FFFFh, each packed step most significant bit first. -/
def Obligations.LoadEndChecksAndHandsOver : Prop :=
  (∀ (c i : Nat) (w : PackedStep),
      let kind := w.toNat / 2 ^ 29
      let keep := w.toNat / 2 ^ 26 % 2
      let distance := w.toNat / 2 ^ 8 % 2 ^ 18
      let entry := w.toNat % 2 ^ 8
      stepValid c i w = true ↔
        ((kind = 1 ∧ 2000 ≤ distance ∧ distance ≤ 132000 ∧ (keep = 0 → entry = 0) ∧
            (keep = 1 → i < entry ∧ entry < c)) ∨
          (2 ≤ kind ∧ kind ≤ 4 ∧ w.toNat % 2 ^ 29 = 0)) ∧
        (i + 1 = c → kind = 4)) ∧
  (∀ steps : List PackedStep, programCheck steps =
    (steps.flatMap fun w => (List.range 32).map fun i => w.getLsbD (31 - i)).foldl
      (fun (c : BitVec 16) b => if c.msb = b then c <<< 1 else (c <<< 1) ^^^ 0x1021#16) 0xFFFF#16) ∧
  ∀ (tag : TagField) (mode : BitVec 4) (check : BitVec 16) (s : State), s.Up →
    let command := Instr.loadEnd tag mode check
    (s.session = none ∨ 1 < mode.toNat →
      ∃ t, exec command s = .next t ∧ OnlyPorts s t ∧ Answered s t .plan 27 .badArg tag 0) ∧
    (∀ x, s.session = some x → mode.toNat ≤ 1 →
      let c := x.buffer.length
      let computed := programCheck x.buffer
      (x.pointer < x.count →
        ∃ t, exec command s = .next t ∧ OnlyPorts s t ∧
          Answered s t .plan 27 .invalid tag (1#2 ++ 0#2 ++ BitVec.ofNat 16 x.pointer)) ∧
      (x.count ≤ x.pointer →
        (∀ i w, x.buffer[i]? = some w → stepValid c i w = false →
          (∀ k v, k < i → x.buffer[k]? = some v → stepValid c k v = true) →
          ∃ t, exec command s = .next t ∧ OnlyPorts { s with session := none } t ∧
            Answered s t .plan 27 .invalid tag (2#2 ++ 0#2 ++ BitVec.ofNat 16 i)) ∧
        ((∀ k v, x.buffer[k]? = some v → stepValid c k v = true) →
          (mode = 1#4 ∧ computed ≠ check →
            ∃ t, exec command s = .next t ∧ OnlyPorts { s with session := none } t ∧
              Answered s t .plan 27 .invalid tag (3#2 ++ 0#2 ++ computed)) ∧
          (mode = 0#4 ∨ computed = check →
            ∃ t, exec command s = .next t ∧
              OnlyPorts (State.startNext { s with
                session := none
                progOp := some { program := x.program, kind := .commit x.buffer computed
                                 stage := .pending } }) t ∧
              Answered s t .plan 27 .ok (progField x.program) (computed.setWidth 20)))))

/-- PROG_ERASE makes checks 1 to 4 of R138 and hands a pending erase to the Store Controller (R144). -/
def Obligations.ProgEraseHandsOver : Prop :=
  ∀ (tag : TagField) (s : State), s.Up →
    let refused (r : Result) : Prop :=
      ∃ t, exec (.progErase tag) s = .next t ∧ OnlyPorts s t ∧ Answered s t .plan 29 r tag 0
    (tag.toNat = 0 ∨ 48 < tag.toNat → refused .badArg) ∧
    (∀ p : ProgNo, tag.toNat = progNum p →
      (s.session ≠ none ∨ s.progOp ≠ none → refused .busy) ∧
      (s.session = none → s.progOp = none →
        (0 < s.useCount p → refused .inUse) ∧
        (s.useCount p = 0 →
          let op : ProgOp := { program := p, kind := .erase, stage := .pending }
          ∃ t, exec (.progErase tag) s = .next t ∧ Answered s t .plan 29 .ok tag 0 ∧
            OnlyPorts (State.startNext { s with progOp := some op }) t)))

/-- How the Store Controller chooses its next write (R145): none while a write, the start-up scan or an
operation between its stages is in progress; else a pending blade save, else a pending operation, whose erase is
one directory write and whose commit takes the lowest FREE blocks and writes the first. A directory write goes to
the copy that is not the latest with the next generation, and clears blade save pending (R135). A block write
leaves the working copy as it is and the contents of its block open (R142, log entry 4). -/
def Obligations.StoreControllerStartsOneWriteAtATime : Prop :=
  ∀ s : State,
    let dirWrite (x : State) (image : Directory) (purpose : DirPurpose) : State :=
      let target := match s.latest with
        | some .a => CopyId.b
        | some .b => CopyId.a
        | none => CopyId.a
      let generation := match s.latest with
        | none => 1
        | some i => if 65535 ≤ (nvCopy s.nv i).generation then 1 else (nvCopy s.nv i).generation + 1
      { x with
        nv := nvPutCopy s.nv target { nvCopy s.nv target with checkOk := false }
        storeWrite := .directory target generation image purpose false
        bladeSave := false }
    let carrying (image : Directory) : Directory := { image with savedBlade := s.blade.counter }
    (∀ image purpose, s.startDirWrite image purpose = dirWrite s image purpose) ∧
    (∀ op blocks position b, blocks[position]? = some b →
      BlockStarted s (s.startBlockWrite op blocks position) op blocks position b) ∧
    (s.storeWrite ≠ .idle ∨ s.scan ≠ .off ∨ (∃ op, s.progOp = some op ∧ op.stage ≠ .pending) →
      s.startNext = s) ∧
    (s.storeWrite = .idle → s.scan = .off →
      (∀ op, s.progOp = some op → op.stage = .pending) →
      (s.bladeSave = true → s.startNext = dirWrite s (carrying s.work) .bladeSave) ∧
      (s.bladeSave = false →
        (s.progOp = none → s.startNext = s) ∧
        (∀ op, s.progOp = some op → op.kind = .erase →
          let old := look s.work.entries op.program
          let dead := old.blocks.filter fun b => look s.work.blocks b = .used &&
            !(allPrograms.any fun x => x != op.program && (look s.work.entries x).blocks.contains b)
          s.startNext = dirWrite { s with progOp := some { op with stage := .eraseWrite } }
            (carrying
              { s.work with
                entries := put s.work.entries op.program
                  { state := .empty, count := 0, check := 0, blocks := [] }
                blocks := markBlocks s.work.blocks dead .free }) .operation) ∧
        (∀ op steps check, s.progOp = some op → op.kind = .commit steps check →
          let free := (List.finRange 64).filter fun b => look s.work.blocks b = .free
          let blocks := free.take ((steps.length + 47) / 48)
          steps ≠ [] → (steps.length + 47) / 48 ≤ free.length →
            ∃ b, blocks[0]? = some b ∧ BlockStarted s s.startNext op blocks 0 b)))

/-- The end of a block write (R142, R143): read back with no difference the block holds its header and its part
of the program, and the write of the next block of the list, or the commit-point directory write, is started; read
back with a difference a directory write that marks the block BAD is started. With no block write in progress nothing is
taken: the model's choice (log entry 11). -/
def Obligations.BlockWritesLeadToTheCommitPoint : Prop :=
  ∀ s : State,
    (∀ (op : ProgOp) (b : BlockNo) (steps : List PackedStep) (check : BitVec 16)
      (blocks : List BlockNo) (position : Nat), s.storeWrite = .block b → s.progOp = some op →
      op.kind = .commit steps check → op.stage = .blockWrites blocks position →
      let content : Block :=
        { header := some (progNum op.program, position)
          steps := (steps.drop (48 * position)).take 48 }
      let written : State :=
        { s with
          nv := { s.nv with blocks := put s.nv.blocks b content }
          storeWrite := .idle }
      (position + 1 < blocks.length →
        ∃ t u b1, exec (.blockWriteDone true) s = .next t ∧ t = { u with pins := t.pins } ∧
          blocks[position + 1]? = some b1 ∧ BlockStarted written u op blocks (position + 1) b1) ∧
      (blocks.length ≤ position + 1 →
        let image : Directory :=
          { entries := put s.work.entries op.program
              { state := .valid, count := steps.length, check := check, blocks := blocks }
            blocks := markBlocks s.work.blocks blocks .used
            savedBlade := s.blade.counter }
        ∃ t, exec (.blockWriteDone true) s = .next t ∧
          t = { State.startDirWrite { written with progOp := some { op with stage := .commitPoint } }
            image .operation with pins := t.pins }) ∧
      (let image : Directory :=
          { s.work with blocks := put s.work.blocks b .bad, savedBlade := s.blade.counter }
        ∃ t, exec (.blockWriteDone false) s = .next t ∧
          t = { State.startDirWrite
            { s with storeWrite := .idle, progOp := some { op with stage := .markBad } }
            image .operation with pins := t.pins })) ∧
    (∀ matched, (∀ b, s.storeWrite ≠ .block b) →
      ∃ t, exec (.blockWriteDone matched) s = .next t ∧ t = { s with pins := t.pins })

/-- The end of a directory write (R135, R142 to R145, R147): a match makes the copy the latest and the image the
working copy, a first difference repeats the write, a second abandons it. A commit then goes on to the release
of an old version's blocks, or ends with STORE_DONE or STORE_FAILED; an erase ends; an abandoned blade save
raises STORE_FAILED with program 0; the start-up scan comes to its last step. That the second try carries the image,
the generation and the blade count of the first is the model's choice (log entry 14). -/
def Obligations.DirectoryWritesTakeEffectOrDoNot : Prop :=
  ∀ (s : State) (target : CopyId) (generation : Nat) (image : Directory) (purpose : DirPurpose)
    (second : Bool), s.storeWrite = .directory target generation image purpose second →
    let leads (matched : Bool) (u : State) : Prop :=
      ∃ t, exec (.directoryWriteDone matched) s = .next t ∧ t = { u with pins := t.pins }
    let done : State :=
      { s with
        nv := nvPutCopy s.nv target { checkOk := true, generation := generation, dir := image }
        latest := some target, work := image, storeWrite := .idle }
    let abandoned : State := { s with storeWrite := .idle }
    let finished (u : State) (ev : Event) : State := (State.raise { u with progOp := none } ev).startNext
    (second = false →
      leads false { s with storeWrite := .directory target generation image purpose true }) ∧
    (purpose = .scan → leads true { done with scan := .ending } ∧
      (second = true → leads false { abandoned with scan := .ending })) ∧
    (purpose = .bladeSave → leads true done.startNext ∧
      (second = true → leads false (abandoned.raise (.storeFailed none)).startNext)) ∧
    (∀ op, purpose = .operation → s.progOp = some op →
      let p := op.program
      let old := look s.work.entries p
      (op.stage = .commitPoint →
        (old.state = .empty → leads true (finished done (.storeDone p false))) ∧
        (old.state ≠ .empty → leads true
          (State.startDirWrite { done with progOp := some { op with stage := .releaseOld old.blocks } }
            { image with
              savedBlade := s.blade.counter
              blocks := markBlocks image.blocks
                (old.blocks.filter fun b => look image.blocks b = .used &&
                  !(allPrograms.any fun x => (look image.entries x).blocks.contains b)) .free }
            .operation)) ∧
        (second = true → leads false (finished abandoned (.storeFailed (some p))))) ∧
      (∀ blocks, op.stage = .releaseOld blocks →
        leads true (finished done (.storeDone p false)) ∧
        (second = true → leads false (finished abandoned (.storeDone p false)))) ∧
      (op.stage = .markBad →
        leads true (finished done (.storeFailed (some p))) ∧
        (second = true → leads false (finished abandoned (.storeFailed (some p))))) ∧
      (op.stage = .eraseWrite →
        leads true (finished done (.storeDone p true)) ∧
        (second = true → leads false (finished abandoned (.storeFailed (some p))))))

/-! ### RELEASE, the Blade Monitor, reset -/

/-- RELEASE makes the checks of R18 in order; one that passes clears the hold and does what the table of R19
gives for the station and the action, the record freed by RETURN and SCRAP with its accounts (R93, R103, R119,
R133). -/
def Obligations.ReleasePutsBackOrFrees : Prop :=
  ∀ (tag : TagField) (action : BitVec 4) (s : State), s.Up →
    let command := Instr.release tag action
    let refused (r : Result) : Prop :=
      ∃ t, exec command s = .next t ∧ OnlyPorts s t ∧ Answered s t .plan 32 r tag 0
    let leads (u : State) : Prop :=
      ∃ t, exec command s = .next t ∧ OnlyPorts u t ∧ Answered s t .plan 32 .ok tag 0
    (tag.toNat = 0 ∨ 32 < tag.toNat → refused .badArg) ∧
    (∀ t0 : Tag, tag.toNat = tagNum t0 →
      ((∀ p, s.pile t0 = some p → p.residency ≠ .held) → refused .badArg) ∧
      (∀ p h, s.pile t0 = some p → p.residency = .held → p.hold = some h →
        let retry : Prop := action = 1#4 ∧ h.station ≠ .lift
        let skip : Prop := action = 2#4 ∧ h.station = .knife
        let back : Prop := action = 3#4 ∧ h.station = .lift
        let scrap : Prop := action = 4#4
        let stopped : Prop := s.line = .config ∨ s.line = .stopped
        (¬ (retry ∨ skip ∨ back ∨ scrap) → refused .badArg) ∧
        (skip → s.stepAt p = some .fin → refused .badArg) ∧
        (retry → stopped → refused .notRunning) ∧
        (skip → s.stepAt p ≠ some .fin → stopped → refused .notRunning) ∧
        (scrap → leads (s.freeRecord t0 accountScrapped)) ∧
        (back → leads (s.freeRecord t0 accountReturned)) ∧
        (retry → ¬ stopped →
          (h.station = .jog → leads
            { s with
              piles := put s.piles t0
                (some { p with hold := none, attempt := 0, residency := .jogWait })
              jogQueue := s.jogQueue ++ [t0] }) ∧
          (h.station = .knife → leads
            { s with
              piles := put s.piles t0 (some { p with hold := none, residency := .returnWait })
              returnLane := s.returnLane ++ [t0] }) ∧
          (h.station = .turn → leads
            { s with
              piles := put s.piles t0 (some { p with hold := none, residency := .turnWait })
              turnQueue := s.turnQueue ++ [t0] })) ∧
        (skip → s.stepAt p ≠ some .fin → ¬ stopped → leads
          { s with
            piles := put s.piles t0 (some { p with
              hold := none, residency := .returnWait
              cursor := if p.cursor + 1 < (s.entry p.program).count then p.cursor + 1
                else p.cursor })
            returnLane := s.returnLane ++ [t0] })))

/-- The blade counter's rise at a completed cut (R121, R122): none from 999999; else by 1, a save requested at each
multiple of 256, and each clear latch whose threshold is reached set with its event, BLADE_WARN first. BLADE_CHANGED
answers the old count, sets the counter to 0, clears both latches and requests a save (R124). -/
def Obligations.BladeIsCountedAndChanged : Prop :=
  ∀ s : State,
    (999999 ≤ s.blade.counter → s.bladeRise = s) ∧
    (s.blade.counter < 999999 →
      let n := s.blade.counter + 1
      let warned : Bool := s.settings.warn ≤ n
      let overdue : Bool := s.settings.limit ≤ n
      let s1 : State := { s with blade := { s.blade with counter := n } }
      let s2 := if n % 256 = 0 then State.startNext { s1 with bladeSave := true } else s1
      let s3 := if warned && !s.blade.warnLatch then s2.raise .bladeWarn else s2
      let s4 := if overdue && !s.blade.overdueLatch then s3.raise .bladeOverdue else s3
      s.bladeRise = { s4 with blade :=
        { counter := n, warnLatch := s.blade.warnLatch || warned
          overdueLatch := s.blade.overdueLatch || overdue } }) ∧
    (s.Up → ∀ (p : BladePort) (tag : TagField),
      ∃ t, exec (.bladeChanged p tag) s = .next t ∧
        Answered s t p.port 13 .ok 0 (dataOf s.blade.counter) ∧
        OnlyPorts (State.startNext
          { s with
            blade := { counter := 0, warnLatch := false, overdueLatch := false }
            bladeSave := true }) t)

/-- Hardware reset puts every volatile item at its reset value and the line in STARTING, takes an asserted HALT
input as an assertion, and begins the start-up scan (R10, R59, R104, R145, R147, R150, R156, R157, R167): with
neither copy valid the store is formatted, with one latest copy whose programs and blocks are in order nothing is
written; otherwise damaged programs are marked with their events, stray blocks freed, and the result written. A
program is damaged by the four conditions of R147 step 2, a block stray by its step 3. That the events of the scan are
raised in HARDWARE_RESET itself is the model's choice (log entry 10), and that it keeps the queue of commands and the
count of free choices, both the model's own, is another (log entry 16). -/
def Obligations.HardwareResetBeginsTheScan : Prop :=
  (∀ (nv : NvMemory) (d : Directory),
      (∀ p, p ∈ damagedPrograms nv d ↔
        let e := look d.entries p
        e.state = .valid ∧
          ((∃ b ∈ e.blocks, look d.blocks b ≠ .used) ∨
            (∃ i b, e.blocks[i]? = some b ∧ (look nv.blocks b).header ≠ some (progNum p, i)) ∨
            e.blocks.length ≠ (e.count + 47) / 48 ∨
            programCheck ((List.range e.count).map (entryStep nv p e)) ≠ e.check)) ∧
      (damagedPrograms nv d).Pairwise (fun p q => p < q) ∧
      (∀ ps p, look (markDamaged d ps).entries p =
        if p ∈ ps then { look d.entries p with state := .damaged } else look d.entries p) ∧
      (∀ ps, markDamaged d ps = { d with entries := (markDamaged d ps).entries }) ∧
      (∀ b, b ∈ strayBlocks d ↔ look d.blocks b = .used ∧
        ∀ p, (look d.entries p).state ≠ .empty → b ∉ (look d.entries p).blocks) ∧
      (∀ bs state b, look (markBlocks d.blocks bs state) b = if b ∈ bs then state else look d.blocks b) ∧
      (∀ p e i b w, e.blocks[i / 48]? = some b → (look nv.blocks b).steps[i % 48]? = some w →
        entryStep nv p e i = w)) ∧
  ∀ (haltInput : Bool) (s : State),
    let opened : List Event := if haltInput then [.haltOn] else []
    let fresh : State :=
      { s with
        piles := Vector.replicate 32 none, allocPtr := none
        jogQueue := [], knifeQueue := [], returnLane := [], turnQueue := [], returnStack := []
        reservedRecords := 0, reservedSlots := 0, knifePile := none
        blade := { counter := 0, warnLatch := false, overdueLatch := false }
        draft := { program := none, cls := 0, sheets := 0, caliper := 100, extentNS := 0
                   extentEW := 0, gauge := .n, face := .up }
        pallets := [], lastReport := none, seqCounter := 0
        contexts := Vector.replicate 4
          { busy := false, tag := none, job := .none, recordTag := none, pointer := 0
            running := false, remaining := 0, lastExpired := none }
        useCounts := Vector.replicate 48 0, session := none
        storeWrite := .idle, progOp := none, bladeSave := false, scan := .ending
        line := .starting, halt := haltInput, settings := Settings.reset
        ports := Vector.replicate 5
          { slot := none, sdo := none, level := 0, noisy := false, restarted := true, snapPtr := 0 }
        events := opened, dropped := false
        snapWords := Vector.replicate 20 0, snapSeq := 0 }
    let leads (u : State) : Prop :=
      ∃ t, exec (.hardwareReset haltInput) s = .next t ∧ t = { u with pins := t.pins }
    (copyValid s.nv.copyA = false → copyValid s.nv.copyB = false →
      leads { fresh with
        nv := { s.nv with copyA := { s.nv.copyA with checkOk := false } }
        work := Directory.formatted, latest := none
        storeWrite := .directory .a 1 Directory.formatted .scan false, scan := .writing
        events := opened ++ [.storeFormatted] }) ∧
    (∀ i, latestCopy s.nv = some i →
      let found := (nvCopy s.nv i).dir
      let damaged := damagedPrograms s.nv found
      let marked := markDamaged found damaged
      let strays := strayBlocks marked
      (damaged = [] → strays = [] → leads { fresh with work := found, latest := some i }) ∧
      (damaged ≠ [] ∨ strays ≠ [] →
        let result : Directory := { marked with blocks := markBlocks marked.blocks strays .free }
        let generation := (nvCopy s.nv i).generation
        let target := if i = .a then CopyId.b else CopyId.a
        leads { fresh with
          nv := nvPutCopy s.nv target { nvCopy s.nv target with checkOk := false }
          work := result, latest := some i
          storeWrite := .directory target (if 65535 ≤ generation then 1 else generation + 1) result .scan
            false
          scan := .writing
          events := (opened ++ damaged.map Event.programDamaged).take 32
          dropped := 32 < opened.length + damaged.length }))

/-- The latest directory copy (R147): the valid one; of two valid ones the one whose generation follows the
other's by one or from 65535 to 1, else the higher generation, else copy A; a copy is valid when its check matches and
its fields lie in the ranges of R134 (those of an entry as the model reads them, log entry 13). The scan's end
restores the blade counter, sets the latches it reaches without an event, and makes the line CONFIG (R125, R150);
taken at any other time it changes nothing, the model's choice (log entry 11). -/
def Obligations.ScanChoosesTheLatestCopyAndEnds : Prop :=
  (∀ c : DirCopy, copyValid c = true ↔
    c.checkOk = true ∧ 1 ≤ c.generation ∧ c.generation ≤ 65535 ∧ c.dir.savedBlade ≤ 999999 ∧
      ∀ p, let e := look c.dir.entries p
        (e.state = .empty → e.count = 0 ∧ e.check = 0 ∧ e.blocks = []) ∧
        (e.state ≠ .empty → 1 ≤ e.count ∧ e.count ≤ 255 ∧ e.blocks.length ≤ 6)) ∧
  (∀ nv : NvMemory,
    let a := nv.copyA
    let b := nv.copyB
    let follows (later earlier : Nat) : Prop :=
      later = earlier + 1 ∨ (earlier = 65535 ∧ later = 1)
    (copyValid a = true → copyValid b = false → latestCopy nv = some .a) ∧
    (copyValid a = false → copyValid b = true → latestCopy nv = some .b) ∧
    (copyValid a = false → copyValid b = false → latestCopy nv = none) ∧
    (copyValid a = true → copyValid b = true →
      (follows a.generation b.generation → latestCopy nv = some .a) ∧
      (follows b.generation a.generation → latestCopy nv = some .b) ∧
      (¬ follows a.generation b.generation → ¬ follows b.generation a.generation →
        latestCopy nv = if a.generation < b.generation then some .b else some .a))) ∧
  (∀ s : State,
    (s.line = .starting → s.scan = .ending →
      ∃ t, exec .scanEnd s = .next t ∧
        t = { s with
          blade :=
            { counter := s.work.savedBlade
              warnLatch := s.settings.warn ≤ s.work.savedBlade
              overdueLatch := s.settings.limit ≤ s.work.savedBlade }
          scan := .off, line := .config, pins := t.pins }) ∧
    (s.line ≠ .starting ∨ s.scan ≠ .ending →
      ∃ t, exec .scanEnd s = .next t ∧ t = { s with pins := t.pins }))

/-! ### Setpoint arithmetic -/

/-- The lay, right and front edge of every orientation (R7), the turn that brings each edge to the gauge (R48),
and the gauge edge and face after every turn (R49). -/
def Obligations.EdgesAndTurnsFollowTheTables : Prop :=
  (layEdge .n .up = .w ∧ rightEdge .n .up = .e ∧ layEdge .e .up = .n ∧ rightEdge .e .up = .s ∧
    layEdge .s .up = .e ∧ rightEdge .s .up = .w ∧ layEdge .w .up = .s ∧ rightEdge .w .up = .n ∧
    layEdge .n .down = .e ∧ rightEdge .n .down = .w ∧ layEdge .e .down = .s ∧
    rightEdge .e .down = .n ∧ layEdge .s .down = .w ∧ rightEdge .s .down = .e ∧
    layEdge .w .down = .n ∧ rightEdge .w .down = .s) ∧
  (frontEdge .n = .s ∧ frontEdge .e = .w ∧ frontEdge .s = .n ∧ frontEdge .w = .e) ∧
  (∀ g f, turnFor g f g = none ∧ turnFor g f (layEdge g f) = some .cw ∧
    turnFor g f (rightEdge g f) = some .ccw ∧ turnFor g f (frontEdge g) = some .half) ∧
  (∀ g f, turnedGauge .cw g f = layEdge g f ∧ turnedGauge .ccw g f = rightEdge g f ∧
    turnedGauge .half g f = frontEdge g ∧ turnedGauge .flip g f = g ∧
    turnedGauge .cw (turnedGauge .cw g f) f = turnedGauge .half g f ∧
    turnedGauge .ccw (turnedGauge .cw g f) f = g) ∧
  (∀ f, turnedFace .cw f = f ∧ turnedFace .ccw f = f ∧ turnedFace .half f = f ∧
    turnedFace .flip f ≠ f)

/-- The lift size (R38, R39, R41): never over Nmax or the remaining sheets, the least number of lifts, lifts that
differ by at most one sheet, and an expected height from 3 to Hmax. The jog duration (R44): half of base times 2 plus
the attempt, rounded down, at most 255 and never under 1. -/
def Obligations.LiftAndJogSetpoints : Prop :=
  (∀ remaining hmax caliper : Nat, 1 ≤ remaining → 1000 ≤ hmax → hmax ≤ 16500 → 30 ≤ caliper →
    caliper ≤ 600 →
    let nmax := nMax hmax caliper
    let n := liftSize remaining nmax
    let lifts := (remaining + nmax - 1) / nmax
    nmax = hmax * 10 / caliper ∧ 16 ≤ nmax ∧ 1 ≤ n ∧ n ≤ nmax ∧ n ≤ remaining ∧
      remaining ≤ lifts * nmax ∧ (lifts - 1) * nmax < remaining ∧
      (lifts - 1) * (n - 1) ≤ remaining - n ∧ remaining - n ≤ (lifts - 1) * n ∧
      3 ≤ expectedHeight n caliper ∧ expectedHeight n caliper ≤ hmax) ∧
  (∀ base attempt : Nat, 1 ≤ base → base ≤ 255 → attempt ≤ 3 →
    jogDuration base 0 = base ∧ 1 ≤ jogDuration base attempt ∧
      (base * (2 + attempt) / 2 ≤ 255 → jogDuration base attempt = base * (2 + attempt) / 2) ∧
      (255 < base * (2 + attempt) / 2 → jogDuration base attempt = 255))

/-- The setpoints of a CUT job: the blade offset (R51) and the draw compensation (R52) in their ranges; the target,
their sum with P, limited to 2000..132000 with LIMITED, and standing in w1; the scaled force (R55) kept within
40..1023 with FORCE_CAPPED above, and standing in w2 (R56). -/
def Obligations.CutSetpointsStayInRange : Prop :=
  (∀ ocode : Nat, ocode ≤ 255 → bladeOffset ocode = ((ocode : Int) - 128) * 2 ∧
    -256 ≤ bladeOffset ocode ∧ bladeOffset ocode ≤ 254) ∧
  (∀ height kd : Nat, height ≤ 16500 → kd ≤ 255 →
    drawComp height kd = (height * kd + 8192) / 16384 ∧ drawComp height kd ≤ 257) ∧
  (∀ (s : State) (p : Pile) (distance : Nat) (keep : Bool),
    let c := s.stock p.cls
    let t : Int := (distance : Int) + bladeOffset s.settings.ocode + (drawComp p.height c.kd : Nat)
    let f := (clampForce (knotValue s.settings) p.height * c.force + 64) / 128
    let j := s.cutJobOf p distance keep
    (t < 2000 → j.target = 2000) ∧ (132000 < t → j.target = 132000) ∧
      (2000 ≤ t → t ≤ 132000 → (j.target : Int) = t) ∧
      (j.limited = true ↔ t < 2000 ∨ 132000 < t) ∧ (jobWord (.knife j) 1).toNat = j.target ∧
      (f < 40 → j.force = 40) ∧ (1023 < f → j.force = 1023) ∧ (40 ≤ f → f ≤ 1023 → j.force = f) ∧
      (j.capped = true ↔ 1023 < f) ∧ (jobWord (.knife j) 2).toNat = j.force)

/-- The clamp curve (R54): F0 is 80 and F8 1000 and no write changes them; over valid settings the curve passes
through its knots, runs on the line between them rounded down, stays within 80..1000 and does not decrease as the
height rises; the settings' defaults are valid, with the knots of R54. -/
def Obligations.ClampCurveRisesThroughItsKnots : Prop :=
  (∀ (cfg : Settings) (r : SettingRef) (v : Nat), knotValue (settingWrite cfg r v) 0 = 80 ∧
    knotValue (settingWrite cfg r v) 8 = 1000) ∧
  (settingsOk Settings.reset ∧ [1, 2, 3, 4, 5, 6, 7].map (knotValue Settings.reset) =
    [160, 240, 320, 400, 520, 640, 800]) ∧
  (∀ cfg : Settings, settingsOk cfg →
    let knot := knotValue cfg
    knot 0 = 80 ∧ knot 8 = 1000 ∧ (∀ k, k < 8 → knot k ≤ knot (k + 1)) ∧
    (∀ k, k < 8 → clampForce knot (2000 * k) = knot k) ∧
    (∀ height, 16000 ≤ height → clampForce knot height = 1000) ∧
    (∀ height, height < 16000 →
      let k := height / 2000
      clampForce knot height = knot k + (knot (k + 1) - knot k) * (height - 2000 * k) / 2000) ∧
    (∀ height, 80 ≤ clampForce knot height ∧ clampForce knot height ≤ 1000) ∧
    (∀ low high, low ≤ high → clampForce knot low ≤ clampForce knot high))
end

