-- ==== Sys2Proof/Laws/Decode.lean ====
section
/-! SUPPORT. The fields of a request frame that a command was written into. -/

namespace Sys2Proof

theorem frameBody_withCheck (b : BitVec 40) : frameBody (withCheck b) = b := by
  unfold frameBody withCheck
  ext i hi
  simp only [BitVec.getElem_extractLsb', BitVec.getLsbD_append]
  have h1 : ¬ 8 + i < 8 := by omega
  simp [h1, BitVec.getLsbD_eq_getElem hi]

theorem checkField_withCheck (b : BitVec 40) : (withCheck b).extractLsb' 0 8 = crc8 b := by
  unfold withCheck
  ext i hi
  simp only [BitVec.getElem_extractLsb', BitVec.getLsbD_append]
  simp [hi]

/-- A frame that was given its check is accepted for its check. -/
theorem checkMatches_withCheck (b : BitVec 40) : checkMatches (withCheck b) = true := by
  simp [checkMatches, frameBody_withCheck, checkField_withCheck]

theorem extract_append_high {a b : Nat} (x : BitVec a) (y : BitVec b) : (x ++ y).extractLsb' b a = x := by
  ext i hi
  simp only [BitVec.getElem_extractLsb', BitVec.getLsbD_append]
  have h1 : ¬ b + i < b := by omega
  simp [h1, BitVec.getLsbD_eq_getElem hi]

theorem extract_append_low {a b : Nat} (x : BitVec a) (y : BitVec b) : (x ++ y).extractLsb' 0 b = y := by
  ext i hi
  simp only [BitVec.getElem_extractLsb', BitVec.getLsbD_append]
  simp [hi]

theorem requestCode_requestFrame (code : BitVec 6) (tag : TagField) (arg : BitVec 28) :
    requestCode (requestFrame code tag arg) = code := by
  unfold requestCode requestFrame withCheck
  ext i hi
  simp only [BitVec.getElem_extractLsb', BitVec.getLsbD_append]
  have h1 : ¬ 42 + i < 8 := by omega
  have h2 : ¬ 42 + i - 8 < 28 := by omega
  have h3 : ¬ 42 + i - 8 - 28 < 6 := by omega
  have h4 : 42 + i - 8 - 28 - 6 = i := by omega
  simp [h1, h2, h3, h4, BitVec.getLsbD_eq_getElem hi]

theorem requestTag_requestFrame (code : BitVec 6) (tag : TagField) (arg : BitVec 28) :
    requestTag (requestFrame code tag arg) = tag := by
  unfold requestTag requestFrame withCheck
  ext i hi
  simp only [BitVec.getElem_extractLsb', BitVec.getLsbD_append]
  have h1 : ¬ 36 + i < 8 := by omega
  have h2 : ¬ 36 + i - 8 < 28 := by omega
  have h4 : 36 + i - 8 - 28 = i := by omega
  simp [h1, h2, h4, hi]

theorem requestArg_requestFrame (code : BitVec 6) (tag : TagField) (arg : BitVec 28) :
    requestArg (requestFrame code tag arg) = arg := by
  unfold requestArg requestFrame withCheck
  ext i hi
  simp only [BitVec.getElem_extractLsb', BitVec.getLsbD_append]
  have h1 : ¬ 8 + i < 8 := by omega
  simp [h1, hi]

/-- A frame written from a code, a tag and an argument, on a port and with its check, comes to the request
that these spell. -/
theorem decodeFrame_requestFrame (p : Port) (code : BitVec 6) (tag : TagField) (arg : BitVec 28) :
    decodeFrame p true 48 (requestFrame code tag arg) = decodeRequest p (requestFrame code tag arg) := by
  have : checkMatches (requestFrame code tag arg) = true := checkMatches_withCheck _
  simp [decodeFrame, this]

end Sys2Proof
end

