-- ==== Sys2Proof/Laws/State.lean ====
section
/-! SUPPORT. What each named update of the state leaves unchanged: one lemma per field per update. -/

namespace Sys2Proof.Machine

/-! ### putPile -/

@[simp] theorem State.putPile_allocPtr (s : State) (t : Tag) (p : Option Pile) : (s.putPile t p).allocPtr = s.allocPtr := rfl
@[simp] theorem State.putPile_jogQueue (s : State) (t : Tag) (p : Option Pile) : (s.putPile t p).jogQueue = s.jogQueue := rfl
@[simp] theorem State.putPile_knifeQueue (s : State) (t : Tag) (p : Option Pile) : (s.putPile t p).knifeQueue = s.knifeQueue := rfl
@[simp] theorem State.putPile_returnLane (s : State) (t : Tag) (p : Option Pile) : (s.putPile t p).returnLane = s.returnLane := rfl
@[simp] theorem State.putPile_turnQueue (s : State) (t : Tag) (p : Option Pile) : (s.putPile t p).turnQueue = s.turnQueue := rfl
@[simp] theorem State.putPile_returnStack (s : State) (t : Tag) (p : Option Pile) : (s.putPile t p).returnStack = s.returnStack := rfl
@[simp] theorem State.putPile_reservedRecords (s : State) (t : Tag) (p : Option Pile) : (s.putPile t p).reservedRecords = s.reservedRecords := rfl
@[simp] theorem State.putPile_reservedSlots (s : State) (t : Tag) (p : Option Pile) : (s.putPile t p).reservedSlots = s.reservedSlots := rfl
@[simp] theorem State.putPile_knifePile (s : State) (t : Tag) (p : Option Pile) : (s.putPile t p).knifePile = s.knifePile := rfl
@[simp] theorem State.putPile_blade (s : State) (t : Tag) (p : Option Pile) : (s.putPile t p).blade = s.blade := rfl
@[simp] theorem State.putPile_draft (s : State) (t : Tag) (p : Option Pile) : (s.putPile t p).draft = s.draft := rfl
@[simp] theorem State.putPile_pallets (s : State) (t : Tag) (p : Option Pile) : (s.putPile t p).pallets = s.pallets := rfl
@[simp] theorem State.putPile_lastReport (s : State) (t : Tag) (p : Option Pile) : (s.putPile t p).lastReport = s.lastReport := rfl
@[simp] theorem State.putPile_seqCounter (s : State) (t : Tag) (p : Option Pile) : (s.putPile t p).seqCounter = s.seqCounter := rfl
@[simp] theorem State.putPile_contexts (s : State) (t : Tag) (p : Option Pile) : (s.putPile t p).contexts = s.contexts := rfl
@[simp] theorem State.putPile_nv (s : State) (t : Tag) (p : Option Pile) : (s.putPile t p).nv = s.nv := rfl
@[simp] theorem State.putPile_work (s : State) (t : Tag) (p : Option Pile) : (s.putPile t p).work = s.work := rfl
@[simp] theorem State.putPile_latest (s : State) (t : Tag) (p : Option Pile) : (s.putPile t p).latest = s.latest := rfl
@[simp] theorem State.putPile_useCounts (s : State) (t : Tag) (p : Option Pile) : (s.putPile t p).useCounts = s.useCounts := rfl
@[simp] theorem State.putPile_session (s : State) (t : Tag) (p : Option Pile) : (s.putPile t p).session = s.session := rfl
@[simp] theorem State.putPile_storeWrite (s : State) (t : Tag) (p : Option Pile) : (s.putPile t p).storeWrite = s.storeWrite := rfl
@[simp] theorem State.putPile_progOp (s : State) (t : Tag) (p : Option Pile) : (s.putPile t p).progOp = s.progOp := rfl
@[simp] theorem State.putPile_bladeSave (s : State) (t : Tag) (p : Option Pile) : (s.putPile t p).bladeSave = s.bladeSave := rfl
@[simp] theorem State.putPile_scan (s : State) (t : Tag) (p : Option Pile) : (s.putPile t p).scan = s.scan := rfl
@[simp] theorem State.putPile_line (s : State) (t : Tag) (p : Option Pile) : (s.putPile t p).line = s.line := rfl
@[simp] theorem State.putPile_halt (s : State) (t : Tag) (p : Option Pile) : (s.putPile t p).halt = s.halt := rfl
@[simp] theorem State.putPile_settings (s : State) (t : Tag) (p : Option Pile) : (s.putPile t p).settings = s.settings := rfl
@[simp] theorem State.putPile_ports (s : State) (t : Tag) (p : Option Pile) : (s.putPile t p).ports = s.ports := rfl
@[simp] theorem State.putPile_events (s : State) (t : Tag) (p : Option Pile) : (s.putPile t p).events = s.events := rfl
@[simp] theorem State.putPile_dropped (s : State) (t : Tag) (p : Option Pile) : (s.putPile t p).dropped = s.dropped := rfl
@[simp] theorem State.putPile_snapWords (s : State) (t : Tag) (p : Option Pile) : (s.putPile t p).snapWords = s.snapWords := rfl
@[simp] theorem State.putPile_snapSeq (s : State) (t : Tag) (p : Option Pile) : (s.putPile t p).snapSeq = s.snapSeq := rfl
@[simp] theorem State.putPile_pins (s : State) (t : Tag) (p : Option Pile) : (s.putPile t p).pins = s.pins := rfl
@[simp] theorem State.putPile_pending (s : State) (t : Tag) (p : Option Pile) : (s.putPile t p).pending = s.pending := rfl
@[simp] theorem State.putPile_freeCtr (s : State) (t : Tag) (p : Option Pile) : (s.putPile t p).freeCtr = s.freeCtr := rfl

/-! ### modifyPile -/

@[simp] theorem State.modifyPile_allocPtr (s : State) (t : Tag) (f : Pile → Pile) : (s.modifyPile t f).allocPtr = s.allocPtr := rfl
@[simp] theorem State.modifyPile_jogQueue (s : State) (t : Tag) (f : Pile → Pile) : (s.modifyPile t f).jogQueue = s.jogQueue := rfl
@[simp] theorem State.modifyPile_knifeQueue (s : State) (t : Tag) (f : Pile → Pile) : (s.modifyPile t f).knifeQueue = s.knifeQueue := rfl
@[simp] theorem State.modifyPile_returnLane (s : State) (t : Tag) (f : Pile → Pile) : (s.modifyPile t f).returnLane = s.returnLane := rfl
@[simp] theorem State.modifyPile_turnQueue (s : State) (t : Tag) (f : Pile → Pile) : (s.modifyPile t f).turnQueue = s.turnQueue := rfl
@[simp] theorem State.modifyPile_returnStack (s : State) (t : Tag) (f : Pile → Pile) : (s.modifyPile t f).returnStack = s.returnStack := rfl
@[simp] theorem State.modifyPile_reservedRecords (s : State) (t : Tag) (f : Pile → Pile) : (s.modifyPile t f).reservedRecords = s.reservedRecords := rfl
@[simp] theorem State.modifyPile_reservedSlots (s : State) (t : Tag) (f : Pile → Pile) : (s.modifyPile t f).reservedSlots = s.reservedSlots := rfl
@[simp] theorem State.modifyPile_knifePile (s : State) (t : Tag) (f : Pile → Pile) : (s.modifyPile t f).knifePile = s.knifePile := rfl
@[simp] theorem State.modifyPile_blade (s : State) (t : Tag) (f : Pile → Pile) : (s.modifyPile t f).blade = s.blade := rfl
@[simp] theorem State.modifyPile_draft (s : State) (t : Tag) (f : Pile → Pile) : (s.modifyPile t f).draft = s.draft := rfl
@[simp] theorem State.modifyPile_pallets (s : State) (t : Tag) (f : Pile → Pile) : (s.modifyPile t f).pallets = s.pallets := rfl
@[simp] theorem State.modifyPile_lastReport (s : State) (t : Tag) (f : Pile → Pile) : (s.modifyPile t f).lastReport = s.lastReport := rfl
@[simp] theorem State.modifyPile_seqCounter (s : State) (t : Tag) (f : Pile → Pile) : (s.modifyPile t f).seqCounter = s.seqCounter := rfl
@[simp] theorem State.modifyPile_contexts (s : State) (t : Tag) (f : Pile → Pile) : (s.modifyPile t f).contexts = s.contexts := rfl
@[simp] theorem State.modifyPile_nv (s : State) (t : Tag) (f : Pile → Pile) : (s.modifyPile t f).nv = s.nv := rfl
@[simp] theorem State.modifyPile_work (s : State) (t : Tag) (f : Pile → Pile) : (s.modifyPile t f).work = s.work := rfl
@[simp] theorem State.modifyPile_latest (s : State) (t : Tag) (f : Pile → Pile) : (s.modifyPile t f).latest = s.latest := rfl
@[simp] theorem State.modifyPile_useCounts (s : State) (t : Tag) (f : Pile → Pile) : (s.modifyPile t f).useCounts = s.useCounts := rfl
@[simp] theorem State.modifyPile_session (s : State) (t : Tag) (f : Pile → Pile) : (s.modifyPile t f).session = s.session := rfl
@[simp] theorem State.modifyPile_storeWrite (s : State) (t : Tag) (f : Pile → Pile) : (s.modifyPile t f).storeWrite = s.storeWrite := rfl
@[simp] theorem State.modifyPile_progOp (s : State) (t : Tag) (f : Pile → Pile) : (s.modifyPile t f).progOp = s.progOp := rfl
@[simp] theorem State.modifyPile_bladeSave (s : State) (t : Tag) (f : Pile → Pile) : (s.modifyPile t f).bladeSave = s.bladeSave := rfl
@[simp] theorem State.modifyPile_scan (s : State) (t : Tag) (f : Pile → Pile) : (s.modifyPile t f).scan = s.scan := rfl
@[simp] theorem State.modifyPile_line (s : State) (t : Tag) (f : Pile → Pile) : (s.modifyPile t f).line = s.line := rfl
@[simp] theorem State.modifyPile_halt (s : State) (t : Tag) (f : Pile → Pile) : (s.modifyPile t f).halt = s.halt := rfl
@[simp] theorem State.modifyPile_settings (s : State) (t : Tag) (f : Pile → Pile) : (s.modifyPile t f).settings = s.settings := rfl
@[simp] theorem State.modifyPile_ports (s : State) (t : Tag) (f : Pile → Pile) : (s.modifyPile t f).ports = s.ports := rfl
@[simp] theorem State.modifyPile_events (s : State) (t : Tag) (f : Pile → Pile) : (s.modifyPile t f).events = s.events := rfl
@[simp] theorem State.modifyPile_dropped (s : State) (t : Tag) (f : Pile → Pile) : (s.modifyPile t f).dropped = s.dropped := rfl
@[simp] theorem State.modifyPile_snapWords (s : State) (t : Tag) (f : Pile → Pile) : (s.modifyPile t f).snapWords = s.snapWords := rfl
@[simp] theorem State.modifyPile_snapSeq (s : State) (t : Tag) (f : Pile → Pile) : (s.modifyPile t f).snapSeq = s.snapSeq := rfl
@[simp] theorem State.modifyPile_pins (s : State) (t : Tag) (f : Pile → Pile) : (s.modifyPile t f).pins = s.pins := rfl
@[simp] theorem State.modifyPile_pending (s : State) (t : Tag) (f : Pile → Pile) : (s.modifyPile t f).pending = s.pending := rfl
@[simp] theorem State.modifyPile_freeCtr (s : State) (t : Tag) (f : Pile → Pile) : (s.modifyPile t f).freeCtr = s.freeCtr := rfl

/-! ### putCtx -/

@[simp] theorem State.putCtx_piles (s : State) (st : Station) (c : Context) : (s.putCtx st c).piles = s.piles := rfl
@[simp] theorem State.putCtx_allocPtr (s : State) (st : Station) (c : Context) : (s.putCtx st c).allocPtr = s.allocPtr := rfl
@[simp] theorem State.putCtx_jogQueue (s : State) (st : Station) (c : Context) : (s.putCtx st c).jogQueue = s.jogQueue := rfl
@[simp] theorem State.putCtx_knifeQueue (s : State) (st : Station) (c : Context) : (s.putCtx st c).knifeQueue = s.knifeQueue := rfl
@[simp] theorem State.putCtx_returnLane (s : State) (st : Station) (c : Context) : (s.putCtx st c).returnLane = s.returnLane := rfl
@[simp] theorem State.putCtx_turnQueue (s : State) (st : Station) (c : Context) : (s.putCtx st c).turnQueue = s.turnQueue := rfl
@[simp] theorem State.putCtx_returnStack (s : State) (st : Station) (c : Context) : (s.putCtx st c).returnStack = s.returnStack := rfl
@[simp] theorem State.putCtx_reservedRecords (s : State) (st : Station) (c : Context) : (s.putCtx st c).reservedRecords = s.reservedRecords := rfl
@[simp] theorem State.putCtx_reservedSlots (s : State) (st : Station) (c : Context) : (s.putCtx st c).reservedSlots = s.reservedSlots := rfl
@[simp] theorem State.putCtx_knifePile (s : State) (st : Station) (c : Context) : (s.putCtx st c).knifePile = s.knifePile := rfl
@[simp] theorem State.putCtx_blade (s : State) (st : Station) (c : Context) : (s.putCtx st c).blade = s.blade := rfl
@[simp] theorem State.putCtx_draft (s : State) (st : Station) (c : Context) : (s.putCtx st c).draft = s.draft := rfl
@[simp] theorem State.putCtx_pallets (s : State) (st : Station) (c : Context) : (s.putCtx st c).pallets = s.pallets := rfl
@[simp] theorem State.putCtx_lastReport (s : State) (st : Station) (c : Context) : (s.putCtx st c).lastReport = s.lastReport := rfl
@[simp] theorem State.putCtx_seqCounter (s : State) (st : Station) (c : Context) : (s.putCtx st c).seqCounter = s.seqCounter := rfl
@[simp] theorem State.putCtx_nv (s : State) (st : Station) (c : Context) : (s.putCtx st c).nv = s.nv := rfl
@[simp] theorem State.putCtx_work (s : State) (st : Station) (c : Context) : (s.putCtx st c).work = s.work := rfl
@[simp] theorem State.putCtx_latest (s : State) (st : Station) (c : Context) : (s.putCtx st c).latest = s.latest := rfl
@[simp] theorem State.putCtx_useCounts (s : State) (st : Station) (c : Context) : (s.putCtx st c).useCounts = s.useCounts := rfl
@[simp] theorem State.putCtx_session (s : State) (st : Station) (c : Context) : (s.putCtx st c).session = s.session := rfl
@[simp] theorem State.putCtx_storeWrite (s : State) (st : Station) (c : Context) : (s.putCtx st c).storeWrite = s.storeWrite := rfl
@[simp] theorem State.putCtx_progOp (s : State) (st : Station) (c : Context) : (s.putCtx st c).progOp = s.progOp := rfl
@[simp] theorem State.putCtx_bladeSave (s : State) (st : Station) (c : Context) : (s.putCtx st c).bladeSave = s.bladeSave := rfl
@[simp] theorem State.putCtx_scan (s : State) (st : Station) (c : Context) : (s.putCtx st c).scan = s.scan := rfl
@[simp] theorem State.putCtx_line (s : State) (st : Station) (c : Context) : (s.putCtx st c).line = s.line := rfl
@[simp] theorem State.putCtx_halt (s : State) (st : Station) (c : Context) : (s.putCtx st c).halt = s.halt := rfl
@[simp] theorem State.putCtx_settings (s : State) (st : Station) (c : Context) : (s.putCtx st c).settings = s.settings := rfl
@[simp] theorem State.putCtx_ports (s : State) (st : Station) (c : Context) : (s.putCtx st c).ports = s.ports := rfl
@[simp] theorem State.putCtx_events (s : State) (st : Station) (c : Context) : (s.putCtx st c).events = s.events := rfl
@[simp] theorem State.putCtx_dropped (s : State) (st : Station) (c : Context) : (s.putCtx st c).dropped = s.dropped := rfl
@[simp] theorem State.putCtx_snapWords (s : State) (st : Station) (c : Context) : (s.putCtx st c).snapWords = s.snapWords := rfl
@[simp] theorem State.putCtx_snapSeq (s : State) (st : Station) (c : Context) : (s.putCtx st c).snapSeq = s.snapSeq := rfl
@[simp] theorem State.putCtx_pins (s : State) (st : Station) (c : Context) : (s.putCtx st c).pins = s.pins := rfl
@[simp] theorem State.putCtx_pending (s : State) (st : Station) (c : Context) : (s.putCtx st c).pending = s.pending := rfl
@[simp] theorem State.putCtx_freeCtr (s : State) (st : Station) (c : Context) : (s.putCtx st c).freeCtr = s.freeCtr := rfl

/-! ### putPort -/

@[simp] theorem State.putPort_piles (s : State) (p : Port) (u : PortUnit) : (s.putPort p u).piles = s.piles := rfl
@[simp] theorem State.putPort_allocPtr (s : State) (p : Port) (u : PortUnit) : (s.putPort p u).allocPtr = s.allocPtr := rfl
@[simp] theorem State.putPort_jogQueue (s : State) (p : Port) (u : PortUnit) : (s.putPort p u).jogQueue = s.jogQueue := rfl
@[simp] theorem State.putPort_knifeQueue (s : State) (p : Port) (u : PortUnit) : (s.putPort p u).knifeQueue = s.knifeQueue := rfl
@[simp] theorem State.putPort_returnLane (s : State) (p : Port) (u : PortUnit) : (s.putPort p u).returnLane = s.returnLane := rfl
@[simp] theorem State.putPort_turnQueue (s : State) (p : Port) (u : PortUnit) : (s.putPort p u).turnQueue = s.turnQueue := rfl
@[simp] theorem State.putPort_returnStack (s : State) (p : Port) (u : PortUnit) : (s.putPort p u).returnStack = s.returnStack := rfl
@[simp] theorem State.putPort_reservedRecords (s : State) (p : Port) (u : PortUnit) : (s.putPort p u).reservedRecords = s.reservedRecords := rfl
@[simp] theorem State.putPort_reservedSlots (s : State) (p : Port) (u : PortUnit) : (s.putPort p u).reservedSlots = s.reservedSlots := rfl
@[simp] theorem State.putPort_knifePile (s : State) (p : Port) (u : PortUnit) : (s.putPort p u).knifePile = s.knifePile := rfl
@[simp] theorem State.putPort_blade (s : State) (p : Port) (u : PortUnit) : (s.putPort p u).blade = s.blade := rfl
@[simp] theorem State.putPort_draft (s : State) (p : Port) (u : PortUnit) : (s.putPort p u).draft = s.draft := rfl
@[simp] theorem State.putPort_pallets (s : State) (p : Port) (u : PortUnit) : (s.putPort p u).pallets = s.pallets := rfl
@[simp] theorem State.putPort_lastReport (s : State) (p : Port) (u : PortUnit) : (s.putPort p u).lastReport = s.lastReport := rfl
@[simp] theorem State.putPort_seqCounter (s : State) (p : Port) (u : PortUnit) : (s.putPort p u).seqCounter = s.seqCounter := rfl
@[simp] theorem State.putPort_contexts (s : State) (p : Port) (u : PortUnit) : (s.putPort p u).contexts = s.contexts := rfl
@[simp] theorem State.putPort_nv (s : State) (p : Port) (u : PortUnit) : (s.putPort p u).nv = s.nv := rfl
@[simp] theorem State.putPort_work (s : State) (p : Port) (u : PortUnit) : (s.putPort p u).work = s.work := rfl
@[simp] theorem State.putPort_latest (s : State) (p : Port) (u : PortUnit) : (s.putPort p u).latest = s.latest := rfl
@[simp] theorem State.putPort_useCounts (s : State) (p : Port) (u : PortUnit) : (s.putPort p u).useCounts = s.useCounts := rfl
@[simp] theorem State.putPort_session (s : State) (p : Port) (u : PortUnit) : (s.putPort p u).session = s.session := rfl
@[simp] theorem State.putPort_storeWrite (s : State) (p : Port) (u : PortUnit) : (s.putPort p u).storeWrite = s.storeWrite := rfl
@[simp] theorem State.putPort_progOp (s : State) (p : Port) (u : PortUnit) : (s.putPort p u).progOp = s.progOp := rfl
@[simp] theorem State.putPort_bladeSave (s : State) (p : Port) (u : PortUnit) : (s.putPort p u).bladeSave = s.bladeSave := rfl
@[simp] theorem State.putPort_scan (s : State) (p : Port) (u : PortUnit) : (s.putPort p u).scan = s.scan := rfl
@[simp] theorem State.putPort_line (s : State) (p : Port) (u : PortUnit) : (s.putPort p u).line = s.line := rfl
@[simp] theorem State.putPort_halt (s : State) (p : Port) (u : PortUnit) : (s.putPort p u).halt = s.halt := rfl
@[simp] theorem State.putPort_settings (s : State) (p : Port) (u : PortUnit) : (s.putPort p u).settings = s.settings := rfl
@[simp] theorem State.putPort_events (s : State) (p : Port) (u : PortUnit) : (s.putPort p u).events = s.events := rfl
@[simp] theorem State.putPort_dropped (s : State) (p : Port) (u : PortUnit) : (s.putPort p u).dropped = s.dropped := rfl
@[simp] theorem State.putPort_snapWords (s : State) (p : Port) (u : PortUnit) : (s.putPort p u).snapWords = s.snapWords := rfl
@[simp] theorem State.putPort_snapSeq (s : State) (p : Port) (u : PortUnit) : (s.putPort p u).snapSeq = s.snapSeq := rfl
@[simp] theorem State.putPort_pins (s : State) (p : Port) (u : PortUnit) : (s.putPort p u).pins = s.pins := rfl
@[simp] theorem State.putPort_pending (s : State) (p : Port) (u : PortUnit) : (s.putPort p u).pending = s.pending := rfl
@[simp] theorem State.putPort_freeCtr (s : State) (p : Port) (u : PortUnit) : (s.putPort p u).freeCtr = s.freeCtr := rfl

/-! ### addUse -/

@[simp] theorem State.addUse_piles (s : State) (p : ProgNo) : (s.addUse p).piles = s.piles := rfl
@[simp] theorem State.addUse_allocPtr (s : State) (p : ProgNo) : (s.addUse p).allocPtr = s.allocPtr := rfl
@[simp] theorem State.addUse_jogQueue (s : State) (p : ProgNo) : (s.addUse p).jogQueue = s.jogQueue := rfl
@[simp] theorem State.addUse_knifeQueue (s : State) (p : ProgNo) : (s.addUse p).knifeQueue = s.knifeQueue := rfl
@[simp] theorem State.addUse_returnLane (s : State) (p : ProgNo) : (s.addUse p).returnLane = s.returnLane := rfl
@[simp] theorem State.addUse_turnQueue (s : State) (p : ProgNo) : (s.addUse p).turnQueue = s.turnQueue := rfl
@[simp] theorem State.addUse_returnStack (s : State) (p : ProgNo) : (s.addUse p).returnStack = s.returnStack := rfl
@[simp] theorem State.addUse_reservedRecords (s : State) (p : ProgNo) : (s.addUse p).reservedRecords = s.reservedRecords := rfl
@[simp] theorem State.addUse_reservedSlots (s : State) (p : ProgNo) : (s.addUse p).reservedSlots = s.reservedSlots := rfl
@[simp] theorem State.addUse_knifePile (s : State) (p : ProgNo) : (s.addUse p).knifePile = s.knifePile := rfl
@[simp] theorem State.addUse_blade (s : State) (p : ProgNo) : (s.addUse p).blade = s.blade := rfl
@[simp] theorem State.addUse_draft (s : State) (p : ProgNo) : (s.addUse p).draft = s.draft := rfl
@[simp] theorem State.addUse_pallets (s : State) (p : ProgNo) : (s.addUse p).pallets = s.pallets := rfl
@[simp] theorem State.addUse_lastReport (s : State) (p : ProgNo) : (s.addUse p).lastReport = s.lastReport := rfl
@[simp] theorem State.addUse_seqCounter (s : State) (p : ProgNo) : (s.addUse p).seqCounter = s.seqCounter := rfl
@[simp] theorem State.addUse_contexts (s : State) (p : ProgNo) : (s.addUse p).contexts = s.contexts := rfl
@[simp] theorem State.addUse_nv (s : State) (p : ProgNo) : (s.addUse p).nv = s.nv := rfl
@[simp] theorem State.addUse_work (s : State) (p : ProgNo) : (s.addUse p).work = s.work := rfl
@[simp] theorem State.addUse_latest (s : State) (p : ProgNo) : (s.addUse p).latest = s.latest := rfl
@[simp] theorem State.addUse_session (s : State) (p : ProgNo) : (s.addUse p).session = s.session := rfl
@[simp] theorem State.addUse_storeWrite (s : State) (p : ProgNo) : (s.addUse p).storeWrite = s.storeWrite := rfl
@[simp] theorem State.addUse_progOp (s : State) (p : ProgNo) : (s.addUse p).progOp = s.progOp := rfl
@[simp] theorem State.addUse_bladeSave (s : State) (p : ProgNo) : (s.addUse p).bladeSave = s.bladeSave := rfl
@[simp] theorem State.addUse_scan (s : State) (p : ProgNo) : (s.addUse p).scan = s.scan := rfl
@[simp] theorem State.addUse_line (s : State) (p : ProgNo) : (s.addUse p).line = s.line := rfl
@[simp] theorem State.addUse_halt (s : State) (p : ProgNo) : (s.addUse p).halt = s.halt := rfl
@[simp] theorem State.addUse_settings (s : State) (p : ProgNo) : (s.addUse p).settings = s.settings := rfl
@[simp] theorem State.addUse_ports (s : State) (p : ProgNo) : (s.addUse p).ports = s.ports := rfl
@[simp] theorem State.addUse_events (s : State) (p : ProgNo) : (s.addUse p).events = s.events := rfl
@[simp] theorem State.addUse_dropped (s : State) (p : ProgNo) : (s.addUse p).dropped = s.dropped := rfl
@[simp] theorem State.addUse_snapWords (s : State) (p : ProgNo) : (s.addUse p).snapWords = s.snapWords := rfl
@[simp] theorem State.addUse_snapSeq (s : State) (p : ProgNo) : (s.addUse p).snapSeq = s.snapSeq := rfl
@[simp] theorem State.addUse_pins (s : State) (p : ProgNo) : (s.addUse p).pins = s.pins := rfl
@[simp] theorem State.addUse_pending (s : State) (p : ProgNo) : (s.addUse p).pending = s.pending := rfl
@[simp] theorem State.addUse_freeCtr (s : State) (p : ProgNo) : (s.addUse p).freeCtr = s.freeCtr := rfl

/-! ### dropUse -/

@[simp] theorem State.dropUse_piles (s : State) (p : ProgNo) : (s.dropUse p).piles = s.piles := rfl
@[simp] theorem State.dropUse_allocPtr (s : State) (p : ProgNo) : (s.dropUse p).allocPtr = s.allocPtr := rfl
@[simp] theorem State.dropUse_jogQueue (s : State) (p : ProgNo) : (s.dropUse p).jogQueue = s.jogQueue := rfl
@[simp] theorem State.dropUse_knifeQueue (s : State) (p : ProgNo) : (s.dropUse p).knifeQueue = s.knifeQueue := rfl
@[simp] theorem State.dropUse_returnLane (s : State) (p : ProgNo) : (s.dropUse p).returnLane = s.returnLane := rfl
@[simp] theorem State.dropUse_turnQueue (s : State) (p : ProgNo) : (s.dropUse p).turnQueue = s.turnQueue := rfl
@[simp] theorem State.dropUse_returnStack (s : State) (p : ProgNo) : (s.dropUse p).returnStack = s.returnStack := rfl
@[simp] theorem State.dropUse_reservedRecords (s : State) (p : ProgNo) : (s.dropUse p).reservedRecords = s.reservedRecords := rfl
@[simp] theorem State.dropUse_reservedSlots (s : State) (p : ProgNo) : (s.dropUse p).reservedSlots = s.reservedSlots := rfl
@[simp] theorem State.dropUse_knifePile (s : State) (p : ProgNo) : (s.dropUse p).knifePile = s.knifePile := rfl
@[simp] theorem State.dropUse_blade (s : State) (p : ProgNo) : (s.dropUse p).blade = s.blade := rfl
@[simp] theorem State.dropUse_draft (s : State) (p : ProgNo) : (s.dropUse p).draft = s.draft := rfl
@[simp] theorem State.dropUse_pallets (s : State) (p : ProgNo) : (s.dropUse p).pallets = s.pallets := rfl
@[simp] theorem State.dropUse_lastReport (s : State) (p : ProgNo) : (s.dropUse p).lastReport = s.lastReport := rfl
@[simp] theorem State.dropUse_seqCounter (s : State) (p : ProgNo) : (s.dropUse p).seqCounter = s.seqCounter := rfl
@[simp] theorem State.dropUse_contexts (s : State) (p : ProgNo) : (s.dropUse p).contexts = s.contexts := rfl
@[simp] theorem State.dropUse_nv (s : State) (p : ProgNo) : (s.dropUse p).nv = s.nv := rfl
@[simp] theorem State.dropUse_work (s : State) (p : ProgNo) : (s.dropUse p).work = s.work := rfl
@[simp] theorem State.dropUse_latest (s : State) (p : ProgNo) : (s.dropUse p).latest = s.latest := rfl
@[simp] theorem State.dropUse_session (s : State) (p : ProgNo) : (s.dropUse p).session = s.session := rfl
@[simp] theorem State.dropUse_storeWrite (s : State) (p : ProgNo) : (s.dropUse p).storeWrite = s.storeWrite := rfl
@[simp] theorem State.dropUse_progOp (s : State) (p : ProgNo) : (s.dropUse p).progOp = s.progOp := rfl
@[simp] theorem State.dropUse_bladeSave (s : State) (p : ProgNo) : (s.dropUse p).bladeSave = s.bladeSave := rfl
@[simp] theorem State.dropUse_scan (s : State) (p : ProgNo) : (s.dropUse p).scan = s.scan := rfl
@[simp] theorem State.dropUse_line (s : State) (p : ProgNo) : (s.dropUse p).line = s.line := rfl
@[simp] theorem State.dropUse_halt (s : State) (p : ProgNo) : (s.dropUse p).halt = s.halt := rfl
@[simp] theorem State.dropUse_settings (s : State) (p : ProgNo) : (s.dropUse p).settings = s.settings := rfl
@[simp] theorem State.dropUse_ports (s : State) (p : ProgNo) : (s.dropUse p).ports = s.ports := rfl
@[simp] theorem State.dropUse_events (s : State) (p : ProgNo) : (s.dropUse p).events = s.events := rfl
@[simp] theorem State.dropUse_dropped (s : State) (p : ProgNo) : (s.dropUse p).dropped = s.dropped := rfl
@[simp] theorem State.dropUse_snapWords (s : State) (p : ProgNo) : (s.dropUse p).snapWords = s.snapWords := rfl
@[simp] theorem State.dropUse_snapSeq (s : State) (p : ProgNo) : (s.dropUse p).snapSeq = s.snapSeq := rfl
@[simp] theorem State.dropUse_pins (s : State) (p : ProgNo) : (s.dropUse p).pins = s.pins := rfl
@[simp] theorem State.dropUse_pending (s : State) (p : ProgNo) : (s.dropUse p).pending = s.pending := rfl
@[simp] theorem State.dropUse_freeCtr (s : State) (p : ProgNo) : (s.dropUse p).freeCtr = s.freeCtr := rfl

/-! ### modifyPallet -/

@[simp] theorem State.modifyPallet_piles (s : State) (n : Nat) (f : Pallet → Pallet) : (s.modifyPallet n f).piles = s.piles := rfl
@[simp] theorem State.modifyPallet_allocPtr (s : State) (n : Nat) (f : Pallet → Pallet) : (s.modifyPallet n f).allocPtr = s.allocPtr := rfl
@[simp] theorem State.modifyPallet_jogQueue (s : State) (n : Nat) (f : Pallet → Pallet) : (s.modifyPallet n f).jogQueue = s.jogQueue := rfl
@[simp] theorem State.modifyPallet_knifeQueue (s : State) (n : Nat) (f : Pallet → Pallet) : (s.modifyPallet n f).knifeQueue = s.knifeQueue := rfl
@[simp] theorem State.modifyPallet_returnLane (s : State) (n : Nat) (f : Pallet → Pallet) : (s.modifyPallet n f).returnLane = s.returnLane := rfl
@[simp] theorem State.modifyPallet_turnQueue (s : State) (n : Nat) (f : Pallet → Pallet) : (s.modifyPallet n f).turnQueue = s.turnQueue := rfl
@[simp] theorem State.modifyPallet_returnStack (s : State) (n : Nat) (f : Pallet → Pallet) : (s.modifyPallet n f).returnStack = s.returnStack := rfl
@[simp] theorem State.modifyPallet_reservedRecords (s : State) (n : Nat) (f : Pallet → Pallet) : (s.modifyPallet n f).reservedRecords = s.reservedRecords := rfl
@[simp] theorem State.modifyPallet_reservedSlots (s : State) (n : Nat) (f : Pallet → Pallet) : (s.modifyPallet n f).reservedSlots = s.reservedSlots := rfl
@[simp] theorem State.modifyPallet_knifePile (s : State) (n : Nat) (f : Pallet → Pallet) : (s.modifyPallet n f).knifePile = s.knifePile := rfl
@[simp] theorem State.modifyPallet_blade (s : State) (n : Nat) (f : Pallet → Pallet) : (s.modifyPallet n f).blade = s.blade := rfl
@[simp] theorem State.modifyPallet_draft (s : State) (n : Nat) (f : Pallet → Pallet) : (s.modifyPallet n f).draft = s.draft := rfl
@[simp] theorem State.modifyPallet_lastReport (s : State) (n : Nat) (f : Pallet → Pallet) : (s.modifyPallet n f).lastReport = s.lastReport := rfl
@[simp] theorem State.modifyPallet_seqCounter (s : State) (n : Nat) (f : Pallet → Pallet) : (s.modifyPallet n f).seqCounter = s.seqCounter := rfl
@[simp] theorem State.modifyPallet_contexts (s : State) (n : Nat) (f : Pallet → Pallet) : (s.modifyPallet n f).contexts = s.contexts := rfl
@[simp] theorem State.modifyPallet_nv (s : State) (n : Nat) (f : Pallet → Pallet) : (s.modifyPallet n f).nv = s.nv := rfl
@[simp] theorem State.modifyPallet_work (s : State) (n : Nat) (f : Pallet → Pallet) : (s.modifyPallet n f).work = s.work := rfl
@[simp] theorem State.modifyPallet_latest (s : State) (n : Nat) (f : Pallet → Pallet) : (s.modifyPallet n f).latest = s.latest := rfl
@[simp] theorem State.modifyPallet_useCounts (s : State) (n : Nat) (f : Pallet → Pallet) : (s.modifyPallet n f).useCounts = s.useCounts := rfl
@[simp] theorem State.modifyPallet_session (s : State) (n : Nat) (f : Pallet → Pallet) : (s.modifyPallet n f).session = s.session := rfl
@[simp] theorem State.modifyPallet_storeWrite (s : State) (n : Nat) (f : Pallet → Pallet) : (s.modifyPallet n f).storeWrite = s.storeWrite := rfl
@[simp] theorem State.modifyPallet_progOp (s : State) (n : Nat) (f : Pallet → Pallet) : (s.modifyPallet n f).progOp = s.progOp := rfl
@[simp] theorem State.modifyPallet_bladeSave (s : State) (n : Nat) (f : Pallet → Pallet) : (s.modifyPallet n f).bladeSave = s.bladeSave := rfl
@[simp] theorem State.modifyPallet_scan (s : State) (n : Nat) (f : Pallet → Pallet) : (s.modifyPallet n f).scan = s.scan := rfl
@[simp] theorem State.modifyPallet_line (s : State) (n : Nat) (f : Pallet → Pallet) : (s.modifyPallet n f).line = s.line := rfl
@[simp] theorem State.modifyPallet_halt (s : State) (n : Nat) (f : Pallet → Pallet) : (s.modifyPallet n f).halt = s.halt := rfl
@[simp] theorem State.modifyPallet_settings (s : State) (n : Nat) (f : Pallet → Pallet) : (s.modifyPallet n f).settings = s.settings := rfl
@[simp] theorem State.modifyPallet_ports (s : State) (n : Nat) (f : Pallet → Pallet) : (s.modifyPallet n f).ports = s.ports := rfl
@[simp] theorem State.modifyPallet_events (s : State) (n : Nat) (f : Pallet → Pallet) : (s.modifyPallet n f).events = s.events := rfl
@[simp] theorem State.modifyPallet_dropped (s : State) (n : Nat) (f : Pallet → Pallet) : (s.modifyPallet n f).dropped = s.dropped := rfl
@[simp] theorem State.modifyPallet_snapWords (s : State) (n : Nat) (f : Pallet → Pallet) : (s.modifyPallet n f).snapWords = s.snapWords := rfl
@[simp] theorem State.modifyPallet_snapSeq (s : State) (n : Nat) (f : Pallet → Pallet) : (s.modifyPallet n f).snapSeq = s.snapSeq := rfl
@[simp] theorem State.modifyPallet_pins (s : State) (n : Nat) (f : Pallet → Pallet) : (s.modifyPallet n f).pins = s.pins := rfl
@[simp] theorem State.modifyPallet_pending (s : State) (n : Nat) (f : Pallet → Pallet) : (s.modifyPallet n f).pending = s.pending := rfl
@[simp] theorem State.modifyPallet_freeCtr (s : State) (n : Nat) (f : Pallet → Pallet) : (s.modifyPallet n f).freeCtr = s.freeCtr := rfl

/-! ### allocate -/

@[simp] theorem State.allocate_jogQueue (s : State) (t : Tag) (p : Pile) : (s.allocate t p).jogQueue = s.jogQueue := rfl
@[simp] theorem State.allocate_knifeQueue (s : State) (t : Tag) (p : Pile) : (s.allocate t p).knifeQueue = s.knifeQueue := rfl
@[simp] theorem State.allocate_returnLane (s : State) (t : Tag) (p : Pile) : (s.allocate t p).returnLane = s.returnLane := rfl
@[simp] theorem State.allocate_turnQueue (s : State) (t : Tag) (p : Pile) : (s.allocate t p).turnQueue = s.turnQueue := rfl
@[simp] theorem State.allocate_returnStack (s : State) (t : Tag) (p : Pile) : (s.allocate t p).returnStack = s.returnStack := rfl
@[simp] theorem State.allocate_reservedRecords (s : State) (t : Tag) (p : Pile) : (s.allocate t p).reservedRecords = s.reservedRecords := rfl
@[simp] theorem State.allocate_reservedSlots (s : State) (t : Tag) (p : Pile) : (s.allocate t p).reservedSlots = s.reservedSlots := rfl
@[simp] theorem State.allocate_knifePile (s : State) (t : Tag) (p : Pile) : (s.allocate t p).knifePile = s.knifePile := rfl
@[simp] theorem State.allocate_blade (s : State) (t : Tag) (p : Pile) : (s.allocate t p).blade = s.blade := rfl
@[simp] theorem State.allocate_draft (s : State) (t : Tag) (p : Pile) : (s.allocate t p).draft = s.draft := rfl
@[simp] theorem State.allocate_pallets (s : State) (t : Tag) (p : Pile) : (s.allocate t p).pallets = s.pallets := rfl
@[simp] theorem State.allocate_lastReport (s : State) (t : Tag) (p : Pile) : (s.allocate t p).lastReport = s.lastReport := rfl
@[simp] theorem State.allocate_seqCounter (s : State) (t : Tag) (p : Pile) : (s.allocate t p).seqCounter = s.seqCounter := rfl
@[simp] theorem State.allocate_contexts (s : State) (t : Tag) (p : Pile) : (s.allocate t p).contexts = s.contexts := rfl
@[simp] theorem State.allocate_nv (s : State) (t : Tag) (p : Pile) : (s.allocate t p).nv = s.nv := rfl
@[simp] theorem State.allocate_work (s : State) (t : Tag) (p : Pile) : (s.allocate t p).work = s.work := rfl
@[simp] theorem State.allocate_latest (s : State) (t : Tag) (p : Pile) : (s.allocate t p).latest = s.latest := rfl
@[simp] theorem State.allocate_useCounts (s : State) (t : Tag) (p : Pile) : (s.allocate t p).useCounts = s.useCounts := rfl
@[simp] theorem State.allocate_session (s : State) (t : Tag) (p : Pile) : (s.allocate t p).session = s.session := rfl
@[simp] theorem State.allocate_storeWrite (s : State) (t : Tag) (p : Pile) : (s.allocate t p).storeWrite = s.storeWrite := rfl
@[simp] theorem State.allocate_progOp (s : State) (t : Tag) (p : Pile) : (s.allocate t p).progOp = s.progOp := rfl
@[simp] theorem State.allocate_bladeSave (s : State) (t : Tag) (p : Pile) : (s.allocate t p).bladeSave = s.bladeSave := rfl
@[simp] theorem State.allocate_scan (s : State) (t : Tag) (p : Pile) : (s.allocate t p).scan = s.scan := rfl
@[simp] theorem State.allocate_line (s : State) (t : Tag) (p : Pile) : (s.allocate t p).line = s.line := rfl
@[simp] theorem State.allocate_halt (s : State) (t : Tag) (p : Pile) : (s.allocate t p).halt = s.halt := rfl
@[simp] theorem State.allocate_settings (s : State) (t : Tag) (p : Pile) : (s.allocate t p).settings = s.settings := rfl
@[simp] theorem State.allocate_ports (s : State) (t : Tag) (p : Pile) : (s.allocate t p).ports = s.ports := rfl
@[simp] theorem State.allocate_events (s : State) (t : Tag) (p : Pile) : (s.allocate t p).events = s.events := rfl
@[simp] theorem State.allocate_dropped (s : State) (t : Tag) (p : Pile) : (s.allocate t p).dropped = s.dropped := rfl
@[simp] theorem State.allocate_snapWords (s : State) (t : Tag) (p : Pile) : (s.allocate t p).snapWords = s.snapWords := rfl
@[simp] theorem State.allocate_snapSeq (s : State) (t : Tag) (p : Pile) : (s.allocate t p).snapSeq = s.snapSeq := rfl
@[simp] theorem State.allocate_pins (s : State) (t : Tag) (p : Pile) : (s.allocate t p).pins = s.pins := rfl
@[simp] theorem State.allocate_pending (s : State) (t : Tag) (p : Pile) : (s.allocate t p).pending = s.pending := rfl
@[simp] theorem State.allocate_freeCtr (s : State) (t : Tag) (p : Pile) : (s.allocate t p).freeCtr = s.freeCtr := rfl

/-! ### loadTimer -/

@[simp] theorem State.loadTimer_piles (s : State) (st : Station) : (s.loadTimer st).piles = s.piles := rfl
@[simp] theorem State.loadTimer_allocPtr (s : State) (st : Station) : (s.loadTimer st).allocPtr = s.allocPtr := rfl
@[simp] theorem State.loadTimer_jogQueue (s : State) (st : Station) : (s.loadTimer st).jogQueue = s.jogQueue := rfl
@[simp] theorem State.loadTimer_knifeQueue (s : State) (st : Station) : (s.loadTimer st).knifeQueue = s.knifeQueue := rfl
@[simp] theorem State.loadTimer_returnLane (s : State) (st : Station) : (s.loadTimer st).returnLane = s.returnLane := rfl
@[simp] theorem State.loadTimer_turnQueue (s : State) (st : Station) : (s.loadTimer st).turnQueue = s.turnQueue := rfl
@[simp] theorem State.loadTimer_returnStack (s : State) (st : Station) : (s.loadTimer st).returnStack = s.returnStack := rfl
@[simp] theorem State.loadTimer_reservedRecords (s : State) (st : Station) : (s.loadTimer st).reservedRecords = s.reservedRecords := rfl
@[simp] theorem State.loadTimer_reservedSlots (s : State) (st : Station) : (s.loadTimer st).reservedSlots = s.reservedSlots := rfl
@[simp] theorem State.loadTimer_knifePile (s : State) (st : Station) : (s.loadTimer st).knifePile = s.knifePile := rfl
@[simp] theorem State.loadTimer_blade (s : State) (st : Station) : (s.loadTimer st).blade = s.blade := rfl
@[simp] theorem State.loadTimer_draft (s : State) (st : Station) : (s.loadTimer st).draft = s.draft := rfl
@[simp] theorem State.loadTimer_pallets (s : State) (st : Station) : (s.loadTimer st).pallets = s.pallets := rfl
@[simp] theorem State.loadTimer_lastReport (s : State) (st : Station) : (s.loadTimer st).lastReport = s.lastReport := rfl
@[simp] theorem State.loadTimer_seqCounter (s : State) (st : Station) : (s.loadTimer st).seqCounter = s.seqCounter := rfl
@[simp] theorem State.loadTimer_nv (s : State) (st : Station) : (s.loadTimer st).nv = s.nv := rfl
@[simp] theorem State.loadTimer_work (s : State) (st : Station) : (s.loadTimer st).work = s.work := rfl
@[simp] theorem State.loadTimer_latest (s : State) (st : Station) : (s.loadTimer st).latest = s.latest := rfl
@[simp] theorem State.loadTimer_useCounts (s : State) (st : Station) : (s.loadTimer st).useCounts = s.useCounts := rfl
@[simp] theorem State.loadTimer_session (s : State) (st : Station) : (s.loadTimer st).session = s.session := rfl
@[simp] theorem State.loadTimer_storeWrite (s : State) (st : Station) : (s.loadTimer st).storeWrite = s.storeWrite := rfl
@[simp] theorem State.loadTimer_progOp (s : State) (st : Station) : (s.loadTimer st).progOp = s.progOp := rfl
@[simp] theorem State.loadTimer_bladeSave (s : State) (st : Station) : (s.loadTimer st).bladeSave = s.bladeSave := rfl
@[simp] theorem State.loadTimer_scan (s : State) (st : Station) : (s.loadTimer st).scan = s.scan := rfl
@[simp] theorem State.loadTimer_line (s : State) (st : Station) : (s.loadTimer st).line = s.line := rfl
@[simp] theorem State.loadTimer_halt (s : State) (st : Station) : (s.loadTimer st).halt = s.halt := rfl
@[simp] theorem State.loadTimer_settings (s : State) (st : Station) : (s.loadTimer st).settings = s.settings := rfl
@[simp] theorem State.loadTimer_ports (s : State) (st : Station) : (s.loadTimer st).ports = s.ports := rfl
@[simp] theorem State.loadTimer_events (s : State) (st : Station) : (s.loadTimer st).events = s.events := rfl
@[simp] theorem State.loadTimer_dropped (s : State) (st : Station) : (s.loadTimer st).dropped = s.dropped := rfl
@[simp] theorem State.loadTimer_snapWords (s : State) (st : Station) : (s.loadTimer st).snapWords = s.snapWords := rfl
@[simp] theorem State.loadTimer_snapSeq (s : State) (st : Station) : (s.loadTimer st).snapSeq = s.snapSeq := rfl
@[simp] theorem State.loadTimer_pins (s : State) (st : Station) : (s.loadTimer st).pins = s.pins := rfl
@[simp] theorem State.loadTimer_pending (s : State) (st : Station) : (s.loadTimer st).pending = s.pending := rfl
@[simp] theorem State.loadTimer_freeCtr (s : State) (st : Station) : (s.loadTimer st).freeCtr = s.freeCtr := rfl

/-! ### issue -/

@[simp] theorem State.issue_piles (s : State) (st : Station) (t : Tag) (j : Job) : (s.issue st t j).piles = s.piles := rfl
@[simp] theorem State.issue_allocPtr (s : State) (st : Station) (t : Tag) (j : Job) : (s.issue st t j).allocPtr = s.allocPtr := rfl
@[simp] theorem State.issue_jogQueue (s : State) (st : Station) (t : Tag) (j : Job) : (s.issue st t j).jogQueue = s.jogQueue := rfl
@[simp] theorem State.issue_knifeQueue (s : State) (st : Station) (t : Tag) (j : Job) : (s.issue st t j).knifeQueue = s.knifeQueue := rfl
@[simp] theorem State.issue_returnLane (s : State) (st : Station) (t : Tag) (j : Job) : (s.issue st t j).returnLane = s.returnLane := rfl
@[simp] theorem State.issue_turnQueue (s : State) (st : Station) (t : Tag) (j : Job) : (s.issue st t j).turnQueue = s.turnQueue := rfl
@[simp] theorem State.issue_returnStack (s : State) (st : Station) (t : Tag) (j : Job) : (s.issue st t j).returnStack = s.returnStack := rfl
@[simp] theorem State.issue_reservedRecords (s : State) (st : Station) (t : Tag) (j : Job) : (s.issue st t j).reservedRecords = s.reservedRecords := rfl
@[simp] theorem State.issue_reservedSlots (s : State) (st : Station) (t : Tag) (j : Job) : (s.issue st t j).reservedSlots = s.reservedSlots := rfl
@[simp] theorem State.issue_knifePile (s : State) (st : Station) (t : Tag) (j : Job) : (s.issue st t j).knifePile = s.knifePile := rfl
@[simp] theorem State.issue_blade (s : State) (st : Station) (t : Tag) (j : Job) : (s.issue st t j).blade = s.blade := rfl
@[simp] theorem State.issue_draft (s : State) (st : Station) (t : Tag) (j : Job) : (s.issue st t j).draft = s.draft := rfl
@[simp] theorem State.issue_pallets (s : State) (st : Station) (t : Tag) (j : Job) : (s.issue st t j).pallets = s.pallets := rfl
@[simp] theorem State.issue_lastReport (s : State) (st : Station) (t : Tag) (j : Job) : (s.issue st t j).lastReport = s.lastReport := rfl
@[simp] theorem State.issue_seqCounter (s : State) (st : Station) (t : Tag) (j : Job) : (s.issue st t j).seqCounter = s.seqCounter := rfl
@[simp] theorem State.issue_nv (s : State) (st : Station) (t : Tag) (j : Job) : (s.issue st t j).nv = s.nv := rfl
@[simp] theorem State.issue_work (s : State) (st : Station) (t : Tag) (j : Job) : (s.issue st t j).work = s.work := rfl
@[simp] theorem State.issue_latest (s : State) (st : Station) (t : Tag) (j : Job) : (s.issue st t j).latest = s.latest := rfl
@[simp] theorem State.issue_useCounts (s : State) (st : Station) (t : Tag) (j : Job) : (s.issue st t j).useCounts = s.useCounts := rfl
@[simp] theorem State.issue_session (s : State) (st : Station) (t : Tag) (j : Job) : (s.issue st t j).session = s.session := rfl
@[simp] theorem State.issue_storeWrite (s : State) (st : Station) (t : Tag) (j : Job) : (s.issue st t j).storeWrite = s.storeWrite := rfl
@[simp] theorem State.issue_progOp (s : State) (st : Station) (t : Tag) (j : Job) : (s.issue st t j).progOp = s.progOp := rfl
@[simp] theorem State.issue_bladeSave (s : State) (st : Station) (t : Tag) (j : Job) : (s.issue st t j).bladeSave = s.bladeSave := rfl
@[simp] theorem State.issue_scan (s : State) (st : Station) (t : Tag) (j : Job) : (s.issue st t j).scan = s.scan := rfl
@[simp] theorem State.issue_line (s : State) (st : Station) (t : Tag) (j : Job) : (s.issue st t j).line = s.line := rfl
@[simp] theorem State.issue_halt (s : State) (st : Station) (t : Tag) (j : Job) : (s.issue st t j).halt = s.halt := rfl
@[simp] theorem State.issue_settings (s : State) (st : Station) (t : Tag) (j : Job) : (s.issue st t j).settings = s.settings := rfl
@[simp] theorem State.issue_ports (s : State) (st : Station) (t : Tag) (j : Job) : (s.issue st t j).ports = s.ports := rfl
@[simp] theorem State.issue_events (s : State) (st : Station) (t : Tag) (j : Job) : (s.issue st t j).events = s.events := rfl
@[simp] theorem State.issue_dropped (s : State) (st : Station) (t : Tag) (j : Job) : (s.issue st t j).dropped = s.dropped := rfl
@[simp] theorem State.issue_snapWords (s : State) (st : Station) (t : Tag) (j : Job) : (s.issue st t j).snapWords = s.snapWords := rfl
@[simp] theorem State.issue_snapSeq (s : State) (st : Station) (t : Tag) (j : Job) : (s.issue st t j).snapSeq = s.snapSeq := rfl
@[simp] theorem State.issue_pins (s : State) (st : Station) (t : Tag) (j : Job) : (s.issue st t j).pins = s.pins := rfl
@[simp] theorem State.issue_pending (s : State) (st : Station) (t : Tag) (j : Job) : (s.issue st t j).pending = s.pending := rfl
@[simp] theorem State.issue_freeCtr (s : State) (st : Station) (t : Tag) (j : Job) : (s.issue st t j).freeCtr = s.freeCtr := rfl

/-! ### endJob -/

@[simp] theorem State.endJob_piles (s : State) (st : Station) : (s.endJob st).piles = s.piles := rfl
@[simp] theorem State.endJob_allocPtr (s : State) (st : Station) : (s.endJob st).allocPtr = s.allocPtr := rfl
@[simp] theorem State.endJob_jogQueue (s : State) (st : Station) : (s.endJob st).jogQueue = s.jogQueue := rfl
@[simp] theorem State.endJob_knifeQueue (s : State) (st : Station) : (s.endJob st).knifeQueue = s.knifeQueue := rfl
@[simp] theorem State.endJob_returnLane (s : State) (st : Station) : (s.endJob st).returnLane = s.returnLane := rfl
@[simp] theorem State.endJob_turnQueue (s : State) (st : Station) : (s.endJob st).turnQueue = s.turnQueue := rfl
@[simp] theorem State.endJob_returnStack (s : State) (st : Station) : (s.endJob st).returnStack = s.returnStack := rfl
@[simp] theorem State.endJob_reservedRecords (s : State) (st : Station) : (s.endJob st).reservedRecords = s.reservedRecords := rfl
@[simp] theorem State.endJob_reservedSlots (s : State) (st : Station) : (s.endJob st).reservedSlots = s.reservedSlots := rfl
@[simp] theorem State.endJob_knifePile (s : State) (st : Station) : (s.endJob st).knifePile = s.knifePile := rfl
@[simp] theorem State.endJob_blade (s : State) (st : Station) : (s.endJob st).blade = s.blade := rfl
@[simp] theorem State.endJob_draft (s : State) (st : Station) : (s.endJob st).draft = s.draft := rfl
@[simp] theorem State.endJob_pallets (s : State) (st : Station) : (s.endJob st).pallets = s.pallets := rfl
@[simp] theorem State.endJob_lastReport (s : State) (st : Station) : (s.endJob st).lastReport = s.lastReport := rfl
@[simp] theorem State.endJob_seqCounter (s : State) (st : Station) : (s.endJob st).seqCounter = s.seqCounter := rfl
@[simp] theorem State.endJob_nv (s : State) (st : Station) : (s.endJob st).nv = s.nv := rfl
@[simp] theorem State.endJob_work (s : State) (st : Station) : (s.endJob st).work = s.work := rfl
@[simp] theorem State.endJob_latest (s : State) (st : Station) : (s.endJob st).latest = s.latest := rfl
@[simp] theorem State.endJob_useCounts (s : State) (st : Station) : (s.endJob st).useCounts = s.useCounts := rfl
@[simp] theorem State.endJob_session (s : State) (st : Station) : (s.endJob st).session = s.session := rfl
@[simp] theorem State.endJob_storeWrite (s : State) (st : Station) : (s.endJob st).storeWrite = s.storeWrite := rfl
@[simp] theorem State.endJob_progOp (s : State) (st : Station) : (s.endJob st).progOp = s.progOp := rfl
@[simp] theorem State.endJob_bladeSave (s : State) (st : Station) : (s.endJob st).bladeSave = s.bladeSave := rfl
@[simp] theorem State.endJob_scan (s : State) (st : Station) : (s.endJob st).scan = s.scan := rfl
@[simp] theorem State.endJob_line (s : State) (st : Station) : (s.endJob st).line = s.line := rfl
@[simp] theorem State.endJob_halt (s : State) (st : Station) : (s.endJob st).halt = s.halt := rfl
@[simp] theorem State.endJob_settings (s : State) (st : Station) : (s.endJob st).settings = s.settings := rfl
@[simp] theorem State.endJob_ports (s : State) (st : Station) : (s.endJob st).ports = s.ports := rfl
@[simp] theorem State.endJob_events (s : State) (st : Station) : (s.endJob st).events = s.events := rfl
@[simp] theorem State.endJob_dropped (s : State) (st : Station) : (s.endJob st).dropped = s.dropped := rfl
@[simp] theorem State.endJob_snapWords (s : State) (st : Station) : (s.endJob st).snapWords = s.snapWords := rfl
@[simp] theorem State.endJob_snapSeq (s : State) (st : Station) : (s.endJob st).snapSeq = s.snapSeq := rfl
@[simp] theorem State.endJob_pins (s : State) (st : Station) : (s.endJob st).pins = s.pins := rfl
@[simp] theorem State.endJob_pending (s : State) (st : Station) : (s.endJob st).pending = s.pending := rfl
@[simp] theorem State.endJob_freeCtr (s : State) (st : Station) : (s.endJob st).freeCtr = s.freeCtr := rfl

/-! ### dropReservation -/

@[simp] theorem State.dropReservation_piles (s : State) : s.dropReservation.piles = s.piles := rfl
@[simp] theorem State.dropReservation_allocPtr (s : State) : s.dropReservation.allocPtr = s.allocPtr := rfl
@[simp] theorem State.dropReservation_jogQueue (s : State) : s.dropReservation.jogQueue = s.jogQueue := rfl
@[simp] theorem State.dropReservation_knifeQueue (s : State) : s.dropReservation.knifeQueue = s.knifeQueue := rfl
@[simp] theorem State.dropReservation_returnLane (s : State) : s.dropReservation.returnLane = s.returnLane := rfl
@[simp] theorem State.dropReservation_turnQueue (s : State) : s.dropReservation.turnQueue = s.turnQueue := rfl
@[simp] theorem State.dropReservation_returnStack (s : State) : s.dropReservation.returnStack = s.returnStack := rfl
@[simp] theorem State.dropReservation_knifePile (s : State) : s.dropReservation.knifePile = s.knifePile := rfl
@[simp] theorem State.dropReservation_blade (s : State) : s.dropReservation.blade = s.blade := rfl
@[simp] theorem State.dropReservation_draft (s : State) : s.dropReservation.draft = s.draft := rfl
@[simp] theorem State.dropReservation_pallets (s : State) : s.dropReservation.pallets = s.pallets := rfl
@[simp] theorem State.dropReservation_lastReport (s : State) : s.dropReservation.lastReport = s.lastReport := rfl
@[simp] theorem State.dropReservation_seqCounter (s : State) : s.dropReservation.seqCounter = s.seqCounter := rfl
@[simp] theorem State.dropReservation_contexts (s : State) : s.dropReservation.contexts = s.contexts := rfl
@[simp] theorem State.dropReservation_nv (s : State) : s.dropReservation.nv = s.nv := rfl
@[simp] theorem State.dropReservation_work (s : State) : s.dropReservation.work = s.work := rfl
@[simp] theorem State.dropReservation_latest (s : State) : s.dropReservation.latest = s.latest := rfl
@[simp] theorem State.dropReservation_useCounts (s : State) : s.dropReservation.useCounts = s.useCounts := rfl
@[simp] theorem State.dropReservation_session (s : State) : s.dropReservation.session = s.session := rfl
@[simp] theorem State.dropReservation_storeWrite (s : State) : s.dropReservation.storeWrite = s.storeWrite := rfl
@[simp] theorem State.dropReservation_progOp (s : State) : s.dropReservation.progOp = s.progOp := rfl
@[simp] theorem State.dropReservation_bladeSave (s : State) : s.dropReservation.bladeSave = s.bladeSave := rfl
@[simp] theorem State.dropReservation_scan (s : State) : s.dropReservation.scan = s.scan := rfl
@[simp] theorem State.dropReservation_line (s : State) : s.dropReservation.line = s.line := rfl
@[simp] theorem State.dropReservation_halt (s : State) : s.dropReservation.halt = s.halt := rfl
@[simp] theorem State.dropReservation_settings (s : State) : s.dropReservation.settings = s.settings := rfl
@[simp] theorem State.dropReservation_ports (s : State) : s.dropReservation.ports = s.ports := rfl
@[simp] theorem State.dropReservation_events (s : State) : s.dropReservation.events = s.events := rfl
@[simp] theorem State.dropReservation_dropped (s : State) : s.dropReservation.dropped = s.dropped := rfl
@[simp] theorem State.dropReservation_snapWords (s : State) : s.dropReservation.snapWords = s.snapWords := rfl
@[simp] theorem State.dropReservation_snapSeq (s : State) : s.dropReservation.snapSeq = s.snapSeq := rfl
@[simp] theorem State.dropReservation_pins (s : State) : s.dropReservation.pins = s.pins := rfl
@[simp] theorem State.dropReservation_pending (s : State) : s.dropReservation.pending = s.pending := rfl
@[simp] theorem State.dropReservation_freeCtr (s : State) : s.dropReservation.freeCtr = s.freeCtr := rfl

/-! ### startDirWrite -/

@[simp] theorem State.startDirWrite_piles (s : State) (d : Directory) (k : DirPurpose) : (s.startDirWrite d k).piles = s.piles := rfl
@[simp] theorem State.startDirWrite_allocPtr (s : State) (d : Directory) (k : DirPurpose) : (s.startDirWrite d k).allocPtr = s.allocPtr := rfl
@[simp] theorem State.startDirWrite_jogQueue (s : State) (d : Directory) (k : DirPurpose) : (s.startDirWrite d k).jogQueue = s.jogQueue := rfl
@[simp] theorem State.startDirWrite_knifeQueue (s : State) (d : Directory) (k : DirPurpose) : (s.startDirWrite d k).knifeQueue = s.knifeQueue := rfl
@[simp] theorem State.startDirWrite_returnLane (s : State) (d : Directory) (k : DirPurpose) : (s.startDirWrite d k).returnLane = s.returnLane := rfl
@[simp] theorem State.startDirWrite_turnQueue (s : State) (d : Directory) (k : DirPurpose) : (s.startDirWrite d k).turnQueue = s.turnQueue := rfl
@[simp] theorem State.startDirWrite_returnStack (s : State) (d : Directory) (k : DirPurpose) : (s.startDirWrite d k).returnStack = s.returnStack := rfl
@[simp] theorem State.startDirWrite_reservedRecords (s : State) (d : Directory) (k : DirPurpose) : (s.startDirWrite d k).reservedRecords = s.reservedRecords := rfl
@[simp] theorem State.startDirWrite_reservedSlots (s : State) (d : Directory) (k : DirPurpose) : (s.startDirWrite d k).reservedSlots = s.reservedSlots := rfl
@[simp] theorem State.startDirWrite_knifePile (s : State) (d : Directory) (k : DirPurpose) : (s.startDirWrite d k).knifePile = s.knifePile := rfl
@[simp] theorem State.startDirWrite_blade (s : State) (d : Directory) (k : DirPurpose) : (s.startDirWrite d k).blade = s.blade := rfl
@[simp] theorem State.startDirWrite_draft (s : State) (d : Directory) (k : DirPurpose) : (s.startDirWrite d k).draft = s.draft := rfl
@[simp] theorem State.startDirWrite_pallets (s : State) (d : Directory) (k : DirPurpose) : (s.startDirWrite d k).pallets = s.pallets := rfl
@[simp] theorem State.startDirWrite_lastReport (s : State) (d : Directory) (k : DirPurpose) : (s.startDirWrite d k).lastReport = s.lastReport := rfl
@[simp] theorem State.startDirWrite_seqCounter (s : State) (d : Directory) (k : DirPurpose) : (s.startDirWrite d k).seqCounter = s.seqCounter := rfl
@[simp] theorem State.startDirWrite_contexts (s : State) (d : Directory) (k : DirPurpose) : (s.startDirWrite d k).contexts = s.contexts := rfl
@[simp] theorem State.startDirWrite_work (s : State) (d : Directory) (k : DirPurpose) : (s.startDirWrite d k).work = s.work := rfl
@[simp] theorem State.startDirWrite_latest (s : State) (d : Directory) (k : DirPurpose) : (s.startDirWrite d k).latest = s.latest := rfl
@[simp] theorem State.startDirWrite_useCounts (s : State) (d : Directory) (k : DirPurpose) : (s.startDirWrite d k).useCounts = s.useCounts := rfl
@[simp] theorem State.startDirWrite_session (s : State) (d : Directory) (k : DirPurpose) : (s.startDirWrite d k).session = s.session := rfl
@[simp] theorem State.startDirWrite_progOp (s : State) (d : Directory) (k : DirPurpose) : (s.startDirWrite d k).progOp = s.progOp := rfl
@[simp] theorem State.startDirWrite_scan (s : State) (d : Directory) (k : DirPurpose) : (s.startDirWrite d k).scan = s.scan := rfl
@[simp] theorem State.startDirWrite_line (s : State) (d : Directory) (k : DirPurpose) : (s.startDirWrite d k).line = s.line := rfl
@[simp] theorem State.startDirWrite_halt (s : State) (d : Directory) (k : DirPurpose) : (s.startDirWrite d k).halt = s.halt := rfl
@[simp] theorem State.startDirWrite_settings (s : State) (d : Directory) (k : DirPurpose) : (s.startDirWrite d k).settings = s.settings := rfl
@[simp] theorem State.startDirWrite_ports (s : State) (d : Directory) (k : DirPurpose) : (s.startDirWrite d k).ports = s.ports := rfl
@[simp] theorem State.startDirWrite_events (s : State) (d : Directory) (k : DirPurpose) : (s.startDirWrite d k).events = s.events := rfl
@[simp] theorem State.startDirWrite_dropped (s : State) (d : Directory) (k : DirPurpose) : (s.startDirWrite d k).dropped = s.dropped := rfl
@[simp] theorem State.startDirWrite_snapWords (s : State) (d : Directory) (k : DirPurpose) : (s.startDirWrite d k).snapWords = s.snapWords := rfl
@[simp] theorem State.startDirWrite_snapSeq (s : State) (d : Directory) (k : DirPurpose) : (s.startDirWrite d k).snapSeq = s.snapSeq := rfl
@[simp] theorem State.startDirWrite_pins (s : State) (d : Directory) (k : DirPurpose) : (s.startDirWrite d k).pins = s.pins := rfl
@[simp] theorem State.startDirWrite_pending (s : State) (d : Directory) (k : DirPurpose) : (s.startDirWrite d k).pending = s.pending := rfl
@[simp] theorem State.startDirWrite_freeCtr (s : State) (d : Directory) (k : DirPurpose) : (s.startDirWrite d k).freeCtr = s.freeCtr := rfl

/-! ### settle -/

@[simp] theorem State.settle_piles (s : State) : s.settle.piles = s.piles := rfl
@[simp] theorem State.settle_allocPtr (s : State) : s.settle.allocPtr = s.allocPtr := rfl
@[simp] theorem State.settle_jogQueue (s : State) : s.settle.jogQueue = s.jogQueue := rfl
@[simp] theorem State.settle_knifeQueue (s : State) : s.settle.knifeQueue = s.knifeQueue := rfl
@[simp] theorem State.settle_returnLane (s : State) : s.settle.returnLane = s.returnLane := rfl
@[simp] theorem State.settle_turnQueue (s : State) : s.settle.turnQueue = s.turnQueue := rfl
@[simp] theorem State.settle_returnStack (s : State) : s.settle.returnStack = s.returnStack := rfl
@[simp] theorem State.settle_reservedRecords (s : State) : s.settle.reservedRecords = s.reservedRecords := rfl
@[simp] theorem State.settle_reservedSlots (s : State) : s.settle.reservedSlots = s.reservedSlots := rfl
@[simp] theorem State.settle_knifePile (s : State) : s.settle.knifePile = s.knifePile := rfl
@[simp] theorem State.settle_blade (s : State) : s.settle.blade = s.blade := rfl
@[simp] theorem State.settle_draft (s : State) : s.settle.draft = s.draft := rfl
@[simp] theorem State.settle_pallets (s : State) : s.settle.pallets = s.pallets := rfl
@[simp] theorem State.settle_lastReport (s : State) : s.settle.lastReport = s.lastReport := rfl
@[simp] theorem State.settle_seqCounter (s : State) : s.settle.seqCounter = s.seqCounter := rfl
@[simp] theorem State.settle_contexts (s : State) : s.settle.contexts = s.contexts := rfl
@[simp] theorem State.settle_nv (s : State) : s.settle.nv = s.nv := rfl
@[simp] theorem State.settle_work (s : State) : s.settle.work = s.work := rfl
@[simp] theorem State.settle_latest (s : State) : s.settle.latest = s.latest := rfl
@[simp] theorem State.settle_useCounts (s : State) : s.settle.useCounts = s.useCounts := rfl
@[simp] theorem State.settle_session (s : State) : s.settle.session = s.session := rfl
@[simp] theorem State.settle_storeWrite (s : State) : s.settle.storeWrite = s.storeWrite := rfl
@[simp] theorem State.settle_progOp (s : State) : s.settle.progOp = s.progOp := rfl
@[simp] theorem State.settle_bladeSave (s : State) : s.settle.bladeSave = s.bladeSave := rfl
@[simp] theorem State.settle_scan (s : State) : s.settle.scan = s.scan := rfl
@[simp] theorem State.settle_line (s : State) : s.settle.line = s.line := rfl
@[simp] theorem State.settle_halt (s : State) : s.settle.halt = s.halt := rfl
@[simp] theorem State.settle_settings (s : State) : s.settle.settings = s.settings := rfl
@[simp] theorem State.settle_ports (s : State) : s.settle.ports = s.ports := rfl
@[simp] theorem State.settle_events (s : State) : s.settle.events = s.events := rfl
@[simp] theorem State.settle_dropped (s : State) : s.settle.dropped = s.dropped := rfl
@[simp] theorem State.settle_snapWords (s : State) : s.settle.snapWords = s.snapWords := rfl
@[simp] theorem State.settle_snapSeq (s : State) : s.settle.snapSeq = s.snapSeq := rfl
@[simp] theorem State.settle_pending (s : State) : s.settle.pending = s.pending := rfl
@[simp] theorem State.settle_freeCtr (s : State) : s.settle.freeCtr = s.freeCtr := rfl

/-! ### acceptFrame -/

@[simp] theorem State.acceptFrame_piles (s : State) (p : Port) : (s.acceptFrame p).piles = s.piles := rfl
@[simp] theorem State.acceptFrame_allocPtr (s : State) (p : Port) : (s.acceptFrame p).allocPtr = s.allocPtr := rfl
@[simp] theorem State.acceptFrame_jogQueue (s : State) (p : Port) : (s.acceptFrame p).jogQueue = s.jogQueue := rfl
@[simp] theorem State.acceptFrame_knifeQueue (s : State) (p : Port) : (s.acceptFrame p).knifeQueue = s.knifeQueue := rfl
@[simp] theorem State.acceptFrame_returnLane (s : State) (p : Port) : (s.acceptFrame p).returnLane = s.returnLane := rfl
@[simp] theorem State.acceptFrame_turnQueue (s : State) (p : Port) : (s.acceptFrame p).turnQueue = s.turnQueue := rfl
@[simp] theorem State.acceptFrame_returnStack (s : State) (p : Port) : (s.acceptFrame p).returnStack = s.returnStack := rfl
@[simp] theorem State.acceptFrame_reservedRecords (s : State) (p : Port) : (s.acceptFrame p).reservedRecords = s.reservedRecords := rfl
@[simp] theorem State.acceptFrame_reservedSlots (s : State) (p : Port) : (s.acceptFrame p).reservedSlots = s.reservedSlots := rfl
@[simp] theorem State.acceptFrame_knifePile (s : State) (p : Port) : (s.acceptFrame p).knifePile = s.knifePile := rfl
@[simp] theorem State.acceptFrame_blade (s : State) (p : Port) : (s.acceptFrame p).blade = s.blade := rfl
@[simp] theorem State.acceptFrame_draft (s : State) (p : Port) : (s.acceptFrame p).draft = s.draft := rfl
@[simp] theorem State.acceptFrame_pallets (s : State) (p : Port) : (s.acceptFrame p).pallets = s.pallets := rfl
@[simp] theorem State.acceptFrame_lastReport (s : State) (p : Port) : (s.acceptFrame p).lastReport = s.lastReport := rfl
@[simp] theorem State.acceptFrame_seqCounter (s : State) (p : Port) : (s.acceptFrame p).seqCounter = s.seqCounter := rfl
@[simp] theorem State.acceptFrame_contexts (s : State) (p : Port) : (s.acceptFrame p).contexts = s.contexts := rfl
@[simp] theorem State.acceptFrame_nv (s : State) (p : Port) : (s.acceptFrame p).nv = s.nv := rfl
@[simp] theorem State.acceptFrame_work (s : State) (p : Port) : (s.acceptFrame p).work = s.work := rfl
@[simp] theorem State.acceptFrame_latest (s : State) (p : Port) : (s.acceptFrame p).latest = s.latest := rfl
@[simp] theorem State.acceptFrame_useCounts (s : State) (p : Port) : (s.acceptFrame p).useCounts = s.useCounts := rfl
@[simp] theorem State.acceptFrame_session (s : State) (p : Port) : (s.acceptFrame p).session = s.session := rfl
@[simp] theorem State.acceptFrame_storeWrite (s : State) (p : Port) : (s.acceptFrame p).storeWrite = s.storeWrite := rfl
@[simp] theorem State.acceptFrame_progOp (s : State) (p : Port) : (s.acceptFrame p).progOp = s.progOp := rfl
@[simp] theorem State.acceptFrame_bladeSave (s : State) (p : Port) : (s.acceptFrame p).bladeSave = s.bladeSave := rfl
@[simp] theorem State.acceptFrame_scan (s : State) (p : Port) : (s.acceptFrame p).scan = s.scan := rfl
@[simp] theorem State.acceptFrame_line (s : State) (p : Port) : (s.acceptFrame p).line = s.line := rfl
@[simp] theorem State.acceptFrame_halt (s : State) (p : Port) : (s.acceptFrame p).halt = s.halt := rfl
@[simp] theorem State.acceptFrame_settings (s : State) (p : Port) : (s.acceptFrame p).settings = s.settings := rfl
@[simp] theorem State.acceptFrame_events (s : State) (p : Port) : (s.acceptFrame p).events = s.events := rfl
@[simp] theorem State.acceptFrame_dropped (s : State) (p : Port) : (s.acceptFrame p).dropped = s.dropped := rfl
@[simp] theorem State.acceptFrame_snapWords (s : State) (p : Port) : (s.acceptFrame p).snapWords = s.snapWords := rfl
@[simp] theorem State.acceptFrame_snapSeq (s : State) (p : Port) : (s.acceptFrame p).snapSeq = s.snapSeq := rfl
@[simp] theorem State.acceptFrame_pins (s : State) (p : Port) : (s.acceptFrame p).pins = s.pins := rfl
@[simp] theorem State.acceptFrame_pending (s : State) (p : Port) : (s.acceptFrame p).pending = s.pending := rfl
@[simp] theorem State.acceptFrame_freeCtr (s : State) (p : Port) : (s.acceptFrame p).freeCtr = s.freeCtr := rfl

/-! ### respond -/

@[simp] theorem State.respond_piles (s : State) (p : Port) (c : BitVec 6) (r : Bool) (a : Answer) : (s.respond p c r a).piles = s.piles := rfl
@[simp] theorem State.respond_allocPtr (s : State) (p : Port) (c : BitVec 6) (r : Bool) (a : Answer) : (s.respond p c r a).allocPtr = s.allocPtr := rfl
@[simp] theorem State.respond_jogQueue (s : State) (p : Port) (c : BitVec 6) (r : Bool) (a : Answer) : (s.respond p c r a).jogQueue = s.jogQueue := rfl
@[simp] theorem State.respond_knifeQueue (s : State) (p : Port) (c : BitVec 6) (r : Bool) (a : Answer) : (s.respond p c r a).knifeQueue = s.knifeQueue := rfl
@[simp] theorem State.respond_returnLane (s : State) (p : Port) (c : BitVec 6) (r : Bool) (a : Answer) : (s.respond p c r a).returnLane = s.returnLane := rfl
@[simp] theorem State.respond_turnQueue (s : State) (p : Port) (c : BitVec 6) (r : Bool) (a : Answer) : (s.respond p c r a).turnQueue = s.turnQueue := rfl
@[simp] theorem State.respond_returnStack (s : State) (p : Port) (c : BitVec 6) (r : Bool) (a : Answer) : (s.respond p c r a).returnStack = s.returnStack := rfl
@[simp] theorem State.respond_reservedRecords (s : State) (p : Port) (c : BitVec 6) (r : Bool) (a : Answer) : (s.respond p c r a).reservedRecords = s.reservedRecords := rfl
@[simp] theorem State.respond_reservedSlots (s : State) (p : Port) (c : BitVec 6) (r : Bool) (a : Answer) : (s.respond p c r a).reservedSlots = s.reservedSlots := rfl
@[simp] theorem State.respond_knifePile (s : State) (p : Port) (c : BitVec 6) (r : Bool) (a : Answer) : (s.respond p c r a).knifePile = s.knifePile := rfl
@[simp] theorem State.respond_blade (s : State) (p : Port) (c : BitVec 6) (r : Bool) (a : Answer) : (s.respond p c r a).blade = s.blade := rfl
@[simp] theorem State.respond_draft (s : State) (p : Port) (c : BitVec 6) (r : Bool) (a : Answer) : (s.respond p c r a).draft = s.draft := rfl
@[simp] theorem State.respond_pallets (s : State) (p : Port) (c : BitVec 6) (r : Bool) (a : Answer) : (s.respond p c r a).pallets = s.pallets := rfl
@[simp] theorem State.respond_lastReport (s : State) (p : Port) (c : BitVec 6) (r : Bool) (a : Answer) : (s.respond p c r a).lastReport = s.lastReport := rfl
@[simp] theorem State.respond_seqCounter (s : State) (p : Port) (c : BitVec 6) (r : Bool) (a : Answer) : (s.respond p c r a).seqCounter = s.seqCounter := rfl
@[simp] theorem State.respond_contexts (s : State) (p : Port) (c : BitVec 6) (r : Bool) (a : Answer) : (s.respond p c r a).contexts = s.contexts := rfl
@[simp] theorem State.respond_nv (s : State) (p : Port) (c : BitVec 6) (r : Bool) (a : Answer) : (s.respond p c r a).nv = s.nv := rfl
@[simp] theorem State.respond_work (s : State) (p : Port) (c : BitVec 6) (r : Bool) (a : Answer) : (s.respond p c r a).work = s.work := rfl
@[simp] theorem State.respond_latest (s : State) (p : Port) (c : BitVec 6) (r : Bool) (a : Answer) : (s.respond p c r a).latest = s.latest := rfl
@[simp] theorem State.respond_useCounts (s : State) (p : Port) (c : BitVec 6) (r : Bool) (a : Answer) : (s.respond p c r a).useCounts = s.useCounts := rfl
@[simp] theorem State.respond_session (s : State) (p : Port) (c : BitVec 6) (r : Bool) (a : Answer) : (s.respond p c r a).session = s.session := rfl
@[simp] theorem State.respond_storeWrite (s : State) (p : Port) (c : BitVec 6) (r : Bool) (a : Answer) : (s.respond p c r a).storeWrite = s.storeWrite := rfl
@[simp] theorem State.respond_progOp (s : State) (p : Port) (c : BitVec 6) (r : Bool) (a : Answer) : (s.respond p c r a).progOp = s.progOp := rfl
@[simp] theorem State.respond_bladeSave (s : State) (p : Port) (c : BitVec 6) (r : Bool) (a : Answer) : (s.respond p c r a).bladeSave = s.bladeSave := rfl
@[simp] theorem State.respond_scan (s : State) (p : Port) (c : BitVec 6) (r : Bool) (a : Answer) : (s.respond p c r a).scan = s.scan := rfl
@[simp] theorem State.respond_line (s : State) (p : Port) (c : BitVec 6) (r : Bool) (a : Answer) : (s.respond p c r a).line = s.line := rfl
@[simp] theorem State.respond_halt (s : State) (p : Port) (c : BitVec 6) (r : Bool) (a : Answer) : (s.respond p c r a).halt = s.halt := rfl
@[simp] theorem State.respond_settings (s : State) (p : Port) (c : BitVec 6) (r : Bool) (a : Answer) : (s.respond p c r a).settings = s.settings := rfl
@[simp] theorem State.respond_events (s : State) (p : Port) (c : BitVec 6) (r : Bool) (a : Answer) : (s.respond p c r a).events = s.events := rfl
@[simp] theorem State.respond_dropped (s : State) (p : Port) (c : BitVec 6) (r : Bool) (a : Answer) : (s.respond p c r a).dropped = s.dropped := rfl
@[simp] theorem State.respond_snapWords (s : State) (p : Port) (c : BitVec 6) (r : Bool) (a : Answer) : (s.respond p c r a).snapWords = s.snapWords := rfl
@[simp] theorem State.respond_snapSeq (s : State) (p : Port) (c : BitVec 6) (r : Bool) (a : Answer) : (s.respond p c r a).snapSeq = s.snapSeq := rfl
@[simp] theorem State.respond_pending (s : State) (p : Port) (c : BitVec 6) (r : Bool) (a : Answer) : (s.respond p c r a).pending = s.pending := rfl
@[simp] theorem State.respond_freeCtr (s : State) (p : Port) (c : BitVec 6) (r : Bool) (a : Answer) : (s.respond p c r a).freeCtr = s.freeCtr := rfl

/-! ### reply -/

@[simp] theorem State.reply_piles (s : State) (p : Port) (c : BitVec 6) (a : Answer) : (s.reply p c a).piles = s.piles := rfl
@[simp] theorem State.reply_allocPtr (s : State) (p : Port) (c : BitVec 6) (a : Answer) : (s.reply p c a).allocPtr = s.allocPtr := rfl
@[simp] theorem State.reply_jogQueue (s : State) (p : Port) (c : BitVec 6) (a : Answer) : (s.reply p c a).jogQueue = s.jogQueue := rfl
@[simp] theorem State.reply_knifeQueue (s : State) (p : Port) (c : BitVec 6) (a : Answer) : (s.reply p c a).knifeQueue = s.knifeQueue := rfl
@[simp] theorem State.reply_returnLane (s : State) (p : Port) (c : BitVec 6) (a : Answer) : (s.reply p c a).returnLane = s.returnLane := rfl
@[simp] theorem State.reply_turnQueue (s : State) (p : Port) (c : BitVec 6) (a : Answer) : (s.reply p c a).turnQueue = s.turnQueue := rfl
@[simp] theorem State.reply_returnStack (s : State) (p : Port) (c : BitVec 6) (a : Answer) : (s.reply p c a).returnStack = s.returnStack := rfl
@[simp] theorem State.reply_reservedRecords (s : State) (p : Port) (c : BitVec 6) (a : Answer) : (s.reply p c a).reservedRecords = s.reservedRecords := rfl
@[simp] theorem State.reply_reservedSlots (s : State) (p : Port) (c : BitVec 6) (a : Answer) : (s.reply p c a).reservedSlots = s.reservedSlots := rfl
@[simp] theorem State.reply_knifePile (s : State) (p : Port) (c : BitVec 6) (a : Answer) : (s.reply p c a).knifePile = s.knifePile := rfl
@[simp] theorem State.reply_blade (s : State) (p : Port) (c : BitVec 6) (a : Answer) : (s.reply p c a).blade = s.blade := rfl
@[simp] theorem State.reply_draft (s : State) (p : Port) (c : BitVec 6) (a : Answer) : (s.reply p c a).draft = s.draft := rfl
@[simp] theorem State.reply_pallets (s : State) (p : Port) (c : BitVec 6) (a : Answer) : (s.reply p c a).pallets = s.pallets := rfl
@[simp] theorem State.reply_lastReport (s : State) (p : Port) (c : BitVec 6) (a : Answer) : (s.reply p c a).lastReport = s.lastReport := rfl
@[simp] theorem State.reply_seqCounter (s : State) (p : Port) (c : BitVec 6) (a : Answer) : (s.reply p c a).seqCounter = s.seqCounter := rfl
@[simp] theorem State.reply_contexts (s : State) (p : Port) (c : BitVec 6) (a : Answer) : (s.reply p c a).contexts = s.contexts := rfl
@[simp] theorem State.reply_nv (s : State) (p : Port) (c : BitVec 6) (a : Answer) : (s.reply p c a).nv = s.nv := rfl
@[simp] theorem State.reply_work (s : State) (p : Port) (c : BitVec 6) (a : Answer) : (s.reply p c a).work = s.work := rfl
@[simp] theorem State.reply_latest (s : State) (p : Port) (c : BitVec 6) (a : Answer) : (s.reply p c a).latest = s.latest := rfl
@[simp] theorem State.reply_useCounts (s : State) (p : Port) (c : BitVec 6) (a : Answer) : (s.reply p c a).useCounts = s.useCounts := rfl
@[simp] theorem State.reply_session (s : State) (p : Port) (c : BitVec 6) (a : Answer) : (s.reply p c a).session = s.session := rfl
@[simp] theorem State.reply_storeWrite (s : State) (p : Port) (c : BitVec 6) (a : Answer) : (s.reply p c a).storeWrite = s.storeWrite := rfl
@[simp] theorem State.reply_progOp (s : State) (p : Port) (c : BitVec 6) (a : Answer) : (s.reply p c a).progOp = s.progOp := rfl
@[simp] theorem State.reply_bladeSave (s : State) (p : Port) (c : BitVec 6) (a : Answer) : (s.reply p c a).bladeSave = s.bladeSave := rfl
@[simp] theorem State.reply_scan (s : State) (p : Port) (c : BitVec 6) (a : Answer) : (s.reply p c a).scan = s.scan := rfl
@[simp] theorem State.reply_line (s : State) (p : Port) (c : BitVec 6) (a : Answer) : (s.reply p c a).line = s.line := rfl
@[simp] theorem State.reply_halt (s : State) (p : Port) (c : BitVec 6) (a : Answer) : (s.reply p c a).halt = s.halt := rfl
@[simp] theorem State.reply_settings (s : State) (p : Port) (c : BitVec 6) (a : Answer) : (s.reply p c a).settings = s.settings := rfl
@[simp] theorem State.reply_events (s : State) (p : Port) (c : BitVec 6) (a : Answer) : (s.reply p c a).events = s.events := rfl
@[simp] theorem State.reply_dropped (s : State) (p : Port) (c : BitVec 6) (a : Answer) : (s.reply p c a).dropped = s.dropped := rfl
@[simp] theorem State.reply_snapWords (s : State) (p : Port) (c : BitVec 6) (a : Answer) : (s.reply p c a).snapWords = s.snapWords := rfl
@[simp] theorem State.reply_snapSeq (s : State) (p : Port) (c : BitVec 6) (a : Answer) : (s.reply p c a).snapSeq = s.snapSeq := rfl
@[simp] theorem State.reply_pending (s : State) (p : Port) (c : BitVec 6) (a : Answer) : (s.reply p c a).pending = s.pending := rfl
@[simp] theorem State.reply_freeCtr (s : State) (p : Port) (c : BitVec 6) (a : Answer) : (s.reply p c a).freeCtr = s.freeCtr := rfl

/-! ### raise -/

@[simp] theorem State.raise_piles (s : State) (ev : Event) : (s.raise ev).piles = s.piles := by unfold State.raise; split <;> rfl
@[simp] theorem State.raise_allocPtr (s : State) (ev : Event) : (s.raise ev).allocPtr = s.allocPtr := by unfold State.raise; split <;> rfl
@[simp] theorem State.raise_jogQueue (s : State) (ev : Event) : (s.raise ev).jogQueue = s.jogQueue := by unfold State.raise; split <;> rfl
@[simp] theorem State.raise_knifeQueue (s : State) (ev : Event) : (s.raise ev).knifeQueue = s.knifeQueue := by unfold State.raise; split <;> rfl
@[simp] theorem State.raise_returnLane (s : State) (ev : Event) : (s.raise ev).returnLane = s.returnLane := by unfold State.raise; split <;> rfl
@[simp] theorem State.raise_turnQueue (s : State) (ev : Event) : (s.raise ev).turnQueue = s.turnQueue := by unfold State.raise; split <;> rfl
@[simp] theorem State.raise_returnStack (s : State) (ev : Event) : (s.raise ev).returnStack = s.returnStack := by unfold State.raise; split <;> rfl
@[simp] theorem State.raise_reservedRecords (s : State) (ev : Event) : (s.raise ev).reservedRecords = s.reservedRecords := by unfold State.raise; split <;> rfl
@[simp] theorem State.raise_reservedSlots (s : State) (ev : Event) : (s.raise ev).reservedSlots = s.reservedSlots := by unfold State.raise; split <;> rfl
@[simp] theorem State.raise_knifePile (s : State) (ev : Event) : (s.raise ev).knifePile = s.knifePile := by unfold State.raise; split <;> rfl
@[simp] theorem State.raise_blade (s : State) (ev : Event) : (s.raise ev).blade = s.blade := by unfold State.raise; split <;> rfl
@[simp] theorem State.raise_draft (s : State) (ev : Event) : (s.raise ev).draft = s.draft := by unfold State.raise; split <;> rfl
@[simp] theorem State.raise_pallets (s : State) (ev : Event) : (s.raise ev).pallets = s.pallets := by unfold State.raise; split <;> rfl
@[simp] theorem State.raise_lastReport (s : State) (ev : Event) : (s.raise ev).lastReport = s.lastReport := by unfold State.raise; split <;> rfl
@[simp] theorem State.raise_seqCounter (s : State) (ev : Event) : (s.raise ev).seqCounter = s.seqCounter := by unfold State.raise; split <;> rfl
@[simp] theorem State.raise_contexts (s : State) (ev : Event) : (s.raise ev).contexts = s.contexts := by unfold State.raise; split <;> rfl
@[simp] theorem State.raise_nv (s : State) (ev : Event) : (s.raise ev).nv = s.nv := by unfold State.raise; split <;> rfl
@[simp] theorem State.raise_work (s : State) (ev : Event) : (s.raise ev).work = s.work := by unfold State.raise; split <;> rfl
@[simp] theorem State.raise_latest (s : State) (ev : Event) : (s.raise ev).latest = s.latest := by unfold State.raise; split <;> rfl
@[simp] theorem State.raise_useCounts (s : State) (ev : Event) : (s.raise ev).useCounts = s.useCounts := by unfold State.raise; split <;> rfl
@[simp] theorem State.raise_session (s : State) (ev : Event) : (s.raise ev).session = s.session := by unfold State.raise; split <;> rfl
@[simp] theorem State.raise_storeWrite (s : State) (ev : Event) : (s.raise ev).storeWrite = s.storeWrite := by unfold State.raise; split <;> rfl
@[simp] theorem State.raise_progOp (s : State) (ev : Event) : (s.raise ev).progOp = s.progOp := by unfold State.raise; split <;> rfl
@[simp] theorem State.raise_bladeSave (s : State) (ev : Event) : (s.raise ev).bladeSave = s.bladeSave := by unfold State.raise; split <;> rfl
@[simp] theorem State.raise_scan (s : State) (ev : Event) : (s.raise ev).scan = s.scan := by unfold State.raise; split <;> rfl
@[simp] theorem State.raise_line (s : State) (ev : Event) : (s.raise ev).line = s.line := by unfold State.raise; split <;> rfl
@[simp] theorem State.raise_halt (s : State) (ev : Event) : (s.raise ev).halt = s.halt := by unfold State.raise; split <;> rfl
@[simp] theorem State.raise_settings (s : State) (ev : Event) : (s.raise ev).settings = s.settings := by unfold State.raise; split <;> rfl
@[simp] theorem State.raise_ports (s : State) (ev : Event) : (s.raise ev).ports = s.ports := by unfold State.raise; split <;> rfl
@[simp] theorem State.raise_snapWords (s : State) (ev : Event) : (s.raise ev).snapWords = s.snapWords := by unfold State.raise; split <;> rfl
@[simp] theorem State.raise_snapSeq (s : State) (ev : Event) : (s.raise ev).snapSeq = s.snapSeq := by unfold State.raise; split <;> rfl
@[simp] theorem State.raise_pins (s : State) (ev : Event) : (s.raise ev).pins = s.pins := by unfold State.raise; split <;> rfl
@[simp] theorem State.raise_pending (s : State) (ev : Event) : (s.raise ev).pending = s.pending := by unfold State.raise; split <;> rfl
@[simp] theorem State.raise_freeCtr (s : State) (ev : Event) : (s.raise ev).freeCtr = s.freeCtr := by unfold State.raise; split <;> rfl

/-! ### holdPile -/

@[simp] theorem State.holdPile_allocPtr (s : State) (t : Tag) (r : HoldReason) (st : Station) : (s.holdPile t r st).allocPtr = s.allocPtr := by simp [State.holdPile]
@[simp] theorem State.holdPile_jogQueue (s : State) (t : Tag) (r : HoldReason) (st : Station) : (s.holdPile t r st).jogQueue = s.jogQueue := by simp [State.holdPile]
@[simp] theorem State.holdPile_knifeQueue (s : State) (t : Tag) (r : HoldReason) (st : Station) : (s.holdPile t r st).knifeQueue = s.knifeQueue := by simp [State.holdPile]
@[simp] theorem State.holdPile_returnLane (s : State) (t : Tag) (r : HoldReason) (st : Station) : (s.holdPile t r st).returnLane = s.returnLane := by simp [State.holdPile]
@[simp] theorem State.holdPile_turnQueue (s : State) (t : Tag) (r : HoldReason) (st : Station) : (s.holdPile t r st).turnQueue = s.turnQueue := by simp [State.holdPile]
@[simp] theorem State.holdPile_returnStack (s : State) (t : Tag) (r : HoldReason) (st : Station) : (s.holdPile t r st).returnStack = s.returnStack := by simp [State.holdPile]
@[simp] theorem State.holdPile_reservedRecords (s : State) (t : Tag) (r : HoldReason) (st : Station) : (s.holdPile t r st).reservedRecords = s.reservedRecords := by simp [State.holdPile]
@[simp] theorem State.holdPile_reservedSlots (s : State) (t : Tag) (r : HoldReason) (st : Station) : (s.holdPile t r st).reservedSlots = s.reservedSlots := by simp [State.holdPile]
@[simp] theorem State.holdPile_knifePile (s : State) (t : Tag) (r : HoldReason) (st : Station) : (s.holdPile t r st).knifePile = s.knifePile := by simp [State.holdPile]
@[simp] theorem State.holdPile_blade (s : State) (t : Tag) (r : HoldReason) (st : Station) : (s.holdPile t r st).blade = s.blade := by simp [State.holdPile]
@[simp] theorem State.holdPile_draft (s : State) (t : Tag) (r : HoldReason) (st : Station) : (s.holdPile t r st).draft = s.draft := by simp [State.holdPile]
@[simp] theorem State.holdPile_pallets (s : State) (t : Tag) (r : HoldReason) (st : Station) : (s.holdPile t r st).pallets = s.pallets := by simp [State.holdPile]
@[simp] theorem State.holdPile_lastReport (s : State) (t : Tag) (r : HoldReason) (st : Station) : (s.holdPile t r st).lastReport = s.lastReport := by simp [State.holdPile]
@[simp] theorem State.holdPile_seqCounter (s : State) (t : Tag) (r : HoldReason) (st : Station) : (s.holdPile t r st).seqCounter = s.seqCounter := by simp [State.holdPile]
@[simp] theorem State.holdPile_contexts (s : State) (t : Tag) (r : HoldReason) (st : Station) : (s.holdPile t r st).contexts = s.contexts := by simp [State.holdPile]
@[simp] theorem State.holdPile_nv (s : State) (t : Tag) (r : HoldReason) (st : Station) : (s.holdPile t r st).nv = s.nv := by simp [State.holdPile]
@[simp] theorem State.holdPile_work (s : State) (t : Tag) (r : HoldReason) (st : Station) : (s.holdPile t r st).work = s.work := by simp [State.holdPile]
@[simp] theorem State.holdPile_latest (s : State) (t : Tag) (r : HoldReason) (st : Station) : (s.holdPile t r st).latest = s.latest := by simp [State.holdPile]
@[simp] theorem State.holdPile_useCounts (s : State) (t : Tag) (r : HoldReason) (st : Station) : (s.holdPile t r st).useCounts = s.useCounts := by simp [State.holdPile]
@[simp] theorem State.holdPile_session (s : State) (t : Tag) (r : HoldReason) (st : Station) : (s.holdPile t r st).session = s.session := by simp [State.holdPile]
@[simp] theorem State.holdPile_storeWrite (s : State) (t : Tag) (r : HoldReason) (st : Station) : (s.holdPile t r st).storeWrite = s.storeWrite := by simp [State.holdPile]
@[simp] theorem State.holdPile_progOp (s : State) (t : Tag) (r : HoldReason) (st : Station) : (s.holdPile t r st).progOp = s.progOp := by simp [State.holdPile]
@[simp] theorem State.holdPile_bladeSave (s : State) (t : Tag) (r : HoldReason) (st : Station) : (s.holdPile t r st).bladeSave = s.bladeSave := by simp [State.holdPile]
@[simp] theorem State.holdPile_scan (s : State) (t : Tag) (r : HoldReason) (st : Station) : (s.holdPile t r st).scan = s.scan := by simp [State.holdPile]
@[simp] theorem State.holdPile_line (s : State) (t : Tag) (r : HoldReason) (st : Station) : (s.holdPile t r st).line = s.line := by simp [State.holdPile]
@[simp] theorem State.holdPile_halt (s : State) (t : Tag) (r : HoldReason) (st : Station) : (s.holdPile t r st).halt = s.halt := by simp [State.holdPile]
@[simp] theorem State.holdPile_settings (s : State) (t : Tag) (r : HoldReason) (st : Station) : (s.holdPile t r st).settings = s.settings := by simp [State.holdPile]
@[simp] theorem State.holdPile_ports (s : State) (t : Tag) (r : HoldReason) (st : Station) : (s.holdPile t r st).ports = s.ports := by simp [State.holdPile]
@[simp] theorem State.holdPile_snapWords (s : State) (t : Tag) (r : HoldReason) (st : Station) : (s.holdPile t r st).snapWords = s.snapWords := by simp [State.holdPile]
@[simp] theorem State.holdPile_snapSeq (s : State) (t : Tag) (r : HoldReason) (st : Station) : (s.holdPile t r st).snapSeq = s.snapSeq := by simp [State.holdPile]
@[simp] theorem State.holdPile_pins (s : State) (t : Tag) (r : HoldReason) (st : Station) : (s.holdPile t r st).pins = s.pins := by simp [State.holdPile]
@[simp] theorem State.holdPile_pending (s : State) (t : Tag) (r : HoldReason) (st : Station) : (s.holdPile t r st).pending = s.pending := by simp [State.holdPile]
@[simp] theorem State.holdPile_freeCtr (s : State) (t : Tag) (r : HoldReason) (st : Station) : (s.holdPile t r st).freeCtr = s.freeCtr := by simp [State.holdPile]

end Sys2Proof.Machine
end

