-- ==== Sys2Proof/Laws/Ports.lean ====
section
/-! SUPPORT. No block's operation reads a port unit or an output line: a station's selection, its ready condition
and its status are the same whatever the ports hold. With it the spec lemmas of an accepted request. -/

namespace Sys2Proof.Machine

/-- The state with other port units and output lines. -/
def State.withLines (s : State) (ps : Vector PortUnit 5) (pn : Pins) : State :=
  { s with ports := ps, pins := pn }

/-- A selection's result with other port units and output lines in its state. -/
def selectedWithLines (ps : Vector PortUnit 5) (pn : Pins) :
    Except Fault (State × Option (Tag × Job)) → Except Fault (State × Option (Tag × Job))
  | .error f => .error f
  | .ok (s, r) => .ok (s.withLines ps pn, r)

theorem State.onlyPorts_iff (s t : State) : OnlyPorts s t ↔ t = s.withLines t.ports t.pins := Iff.rfl

theorem State.acceptFrame_eq (s : State) (p : Port) :
    s.acceptFrame p = s.withLines (s.acceptFrame p).ports s.pins := rfl

theorem State.reply_eq (s : State) (p : Port) (code : BitVec 6) (a : Answer) :
    s.reply p code a = s.withLines (s.reply p code a).ports (s.reply p code a).pins := rfl

section
variable (s : State) (ps : Vector PortUnit 5) (pn : Pins)

theorem State.selectLift_withLines :
    (s.withLines ps pn).selectLift = (s.selectLift.1.withLines ps pn, s.selectLift.2) := by
  have h1 : (s.withLines ps pn).liftSource = s.liftSource := rfl
  have h2 : (s.withLines ps pn).nextTag = s.nextTag := rfl
  have h3 : (s.withLines ps pn).liftAdmits = s.liftAdmits := rfl
  simp only [State.selectLift, h1, h2, h3]
  split
  · split <;> rfl
  · rfl

theorem State.selectJog_withLines :
    (s.withLines ps pn).selectJog = selectedWithLines ps pn s.selectJog := by
  have h1 : (s.withLines ps pn).jogQueue = s.jogQueue := rfl
  have h2 : ∀ t, (s.withLines ps pn).pile t = s.pile t := fun _ => rfl
  simp only [State.selectJog, h1, h2]
  split
  · rfl
  · split <;> rfl

theorem State.selectTurn_withLines :
    (s.withLines ps pn).selectTurn = selectedWithLines ps pn s.selectTurn := by
  have h1 : (s.withLines ps pn).turnQueue = s.turnQueue := rfl
  have h2 : ∀ t, (s.withLines ps pn).pile t = s.pile t := fun _ => rfl
  simp only [State.selectTurn, h1, h2]
  split
  · rfl
  · split <;> rfl

theorem State.arbiter_withLines :
    (s.withLines ps pn).arbiter = s.arbiter.map fun r => (r.1, r.2.withLines ps pn) := by
  have h1 : (s.withLines ps pn).returnLane = s.returnLane := rfl
  have h2 : (s.withLines ps pn).returnStack = s.returnStack := rfl
  have h3 : (s.withLines ps pn).knifeQueue = s.knifeQueue := rfl
  simp only [State.arbiter, h1, h2, h3]
  split
  · rfl
  · split
    · rfl
    · split <;> rfl

theorem State.raise_withLines (ev : Event) :
    (s.withLines ps pn).raise ev = (s.raise ev).withLines ps pn := by
  have h : (s.withLines ps pn).events = s.events := rfl
  unfold State.raise
  rw [h]
  split <;> rfl

/-- A dispatch's result with other port units and output lines in its state. -/
def Dispatched.withLines (ps : Vector PortUnit 5) (pn : Pins) : Dispatched → Dispatched
  | .job s t j => .job (s.withLines ps pn) t j
  | .held s => .held (s.withLines ps pn)

theorem State.dispatchHold_withLines (t : Tag) (r : HoldReason) :
    (s.withLines ps pn).dispatchHold t r = (s.dispatchHold t r).withLines ps pn := by
  have h : ∀ f, (s.withLines ps pn).modifyPile t f = (s.modifyPile t f).withLines ps pn := fun _ => rfl
  unfold State.dispatchHold State.holdPile
  rw [h, State.raise_withLines]
  rfl

theorem State.cutIssue_withLines (t : Tag) (p : Pile) (j : KnifeJob) :
    (s.withLines ps pn).cutIssue t p j = (s.cutIssue t p j).withLines ps pn := by
  unfold State.cutIssue
  cases j.keep <;> cases j.limited <;> simp only [Bool.false_eq_true, if_true, if_false]
  · rfl
  · rw [← State.raise_withLines]; rfl
  · rfl
  · rw [← State.raise_withLines]; rfl

theorem State.dispatch_withLines (t : Tag) (p : Pile) :
    (s.withLines ps pn).dispatch t p = (s.dispatch t p).map (Dispatched.withLines ps pn) := by
  have h1 : (s.withLines ps pn).stepAt p = s.stepAt p := rfl
  have h2 : (s.withLines ps pn).freeRecords = s.freeRecords := rfl
  have h3 : (s.withLines ps pn).freeSlots = s.freeSlots := rfl
  have h4 : ∀ d k, (s.withLines ps pn).cutJobOf p d k = s.cutJobOf p d k := fun _ _ => rfl
  simp only [State.dispatch, h1, h2, h3, h4, State.dispatchHold_withLines, State.cutIssue_withLines]
  split
  · rfl
  · split
    · rfl
    · split
      · rfl
      · split <;> rfl
  · rfl
  · rfl
  · rfl

theorem State.knifeSearch_withLines (fuel : Nat) :
    ∀ s : State, State.knifeSearch fuel (s.withLines ps pn) =
      selectedWithLines ps pn (State.knifeSearch fuel s) := by
  induction fuel with
  | zero => intro s; rfl
  | succ n ih =>
    intro s
    have hc : ((s.withLines ps pn).knifePile) = s.knifePile := rfl
    have hstep : ∀ (t : Tag) (s1 : State),
        (match (s1.withLines ps pn).pile t with
          | none => (Except.error Fault.recordAbsent : Except Fault (State × Option (Tag × Job)))
          | some p =>
            match (s1.withLines ps pn).dispatch t p with
            | .error f => .error f
            | .ok (.job s2 t2 j) => .ok (s2, some (t2, j))
            | .ok (.held s2) => State.knifeSearch n s2) =
        selectedWithLines ps pn (match s1.pile t with
          | none => .error .recordAbsent
          | some p =>
            match s1.dispatch t p with
            | .error f => .error f
            | .ok (.job s2 t2 j) => .ok (s2, some (t2, j))
            | .ok (.held s2) => State.knifeSearch n s2) := by
      intro t s1
      have hp : (s1.withLines ps pn).pile t = s1.pile t := rfl
      rw [hp]
      cases s1.pile t with
      | none => rfl
      | some p =>
        simp only [State.dispatch_withLines]
        cases s1.dispatch t p with
        | error f => rfl
        | ok d =>
          cases d with
          | job s2 t2 j => rfl
          | held s2 => exact ih s2
    simp only [State.knifeSearch, hc, State.arbiter_withLines]
    cases s.knifePile with
    | some t => exact hstep t s
    | none =>
      cases s.arbiter with
      | none => rfl
      | some r => exact hstep r.1 r.2

/-- A station's selection reads no port unit and no output line. -/
theorem State.select_withLines (st : Station) :
    (s.withLines ps pn).select st = selectedWithLines ps pn (s.select st) := by
  cases st with
  | lift => simp only [State.select, State.selectLift_withLines]; rfl
  | jog => exact State.selectJog_withLines s ps pn
  | knife => exact State.knifeSearch_withLines ps pn _ s
  | turn => exact State.selectTurn_withLines s ps pn

@[simp] theorem State.finds_withLines (st : Station) : (s.withLines ps pn).finds st = s.finds st := by
  simp only [State.finds, State.select_withLines]
  cases s.select st with
  | error f => rfl
  | ok r => obtain ⟨u, o⟩ := r; cases o <;> rfl

@[simp] theorem State.ready_withLines (st : Station) : (s.withLines ps pn).ready st = s.ready st := by
  have h1 : (s.withLines ps pn).ctx st = s.ctx st := rfl
  have h2 : (s.withLines ps pn).lineAdmits st = s.lineAdmits st := by cases st <;> rfl
  have h3 : (s.withLines ps pn).halt = s.halt := rfl
  simp only [State.ready, State.finds_withLines, h1, h2, h3]

@[simp] theorem State.portReady_withLines (p : Port) :
    (s.withLines ps pn).portReady p = s.portReady p := by
  unfold State.portReady
  split
  · exact State.ready_withLines s ps pn _
  · rfl

end

/-! ### Ports -/

theorem Port.ix_ne {p q : Port} (h : q ≠ p) : p.ix ≠ q.ix := by
  cases p <;> cases q <;> first | exact absurd rfl h | decide

@[simp] theorem State.putPort_port (s : State) (p : Port) (u : PortUnit) : (s.putPort p u).port p = u := by
  simp [State.putPort, State.port]

theorem State.putPort_other (s : State) (p q : Port) (u : PortUnit) (h : q ≠ p) :
    (s.putPort p u).port q = s.port q := by
  simp [State.putPort, State.port, look_put_other _ _ (Port.ix_ne h)]

theorem State.respond_other (s : State) (p q : Port) (code : BitVec 6) (r : Bool) (a : Answer) (h : q ≠ p) :
    (s.respond p code r a).port q = s.port q := State.putPort_other s p q _ h

theorem State.acceptFrame_other (s : State) (p q : Port) (h : q ≠ p) :
    (s.acceptFrame p).port q = s.port q := State.putPort_other s p q _ h

theorem State.respond_port (s : State) (p : Port) (code : BitVec 6) (r : Bool) (a : Answer) :
    (s.respond p code r a).port p = { s.port p with slot := some (s.replyOf p code r a) } :=
  State.putPort_port s p _

theorem State.acceptFrame_port (s : State) (p : Port) :
    (s.acceptFrame p).port p = { s.port p with
      slot := none, sdo := some (slotFrame (s.port p).slot), level := (s.port p).level - 1,
      noisy := noisyAt ((s.port p).level - 1) (s.port p).noisy } := State.putPort_port s p _

@[simp] theorem State.respond_portReady (s : State) (p q : Port) (code : BitVec 6) (r : Bool) (a : Answer) :
    (s.respond p code r a).portReady q = s.portReady q :=
  State.portReady_withLines s (s.respond p code r a).ports (s.respond p code r a).pins q

/-! ### Requests -/

/-- What the answer to a request leaves on its port, when the action before it touched no port unit but
may have changed its own port's RESTARTED flag and read pointer. -/
theorem State.respond_unit (s u : State) (p : Port) (code : BitVec 6) (r restarted : Bool) (ptr : Fin 20)
    (a : Answer)
    (h : u.port p = { (s.acceptFrame p).port p with restarted := restarted, snapPtr := ptr }) :
    (u.respond p code r a).port p =
      answeredUnit (s.port p) (u.respond p code r a) p (replyCode code) a.result a.tag a.data r restarted
        ptr := by
  rw [State.respond_port, h, State.acceptFrame_port]
  simp only [answeredUnit, State.respond_portReady, State.replyOf, h, State.acceptFrame_port]
  rfl

/-- The answer to a request whose action touched no port unit. -/
theorem State.reply_answered (s u : State) (p : Port) (code : BitVec 6) (a : Answer)
    (h : u.ports = (s.acceptFrame p).ports) :
    Answered s (u.reply p code a) p (replyCode code) a.result a.tag a.data := by
  have hq : ∀ q, u.port q = (s.acceptFrame p).port q := fun q => by simp only [State.port, h]
  have hr : (u.port p).restarted = (s.port p).restarted := by rw [hq, State.acceptFrame_port]
  refine ⟨?_, fun q hne => ?_⟩
  · have := State.respond_unit s u p code (u.port p).restarted (s.port p).restarted (s.port p).snapPtr a
      (by rw [hq, State.acceptFrame_port])
    rw [hr] at this
    simpa only [State.reply, hr] using this
  · rw [State.reply, State.respond_other _ _ _ _ _ _ hne, hq, State.acceptFrame_other _ _ _ hne]

theorem request_starting {p : Port} {code : BitVec 6} {tag : TagField}
    {f : State → Except Fault (State × Answer)} {s : State} (h : s.line = .starting) :
    request p code tag f s =
      .next ((s.acceptFrame p).reply p code { result := .notReady, tag := tag, data := 0 }) := by
  simp [request, h]

theorem request_ok {p : Port} {code : BitVec 6} {tag : TagField}
    {f : State → Except Fault (State × Answer)} {s u : State} {a : Answer} (h : s.Up)
    (hf : f (s.acceptFrame p) = .ok (u, a)) : request p code tag f s = .next (u.reply p code a) := by
  have h' : ¬ s.line = .starting := h
  simp [request, h', hf]

theorem plainRequest_ok {p : Port} {code : BitVec 6} {tag : TagField} {f : State → State × Answer}
    {s : State} (h : s.Up) :
    plainRequest p code tag f s =
      .next ((f (s.acceptFrame p)).1.reply p code (f (s.acceptFrame p)).2) :=
  request_ok h rfl

/-- What a request outside STARTING comes to, when its action's state is `e` but for port units and output
lines and the action touched no port unit: a next state that is `e` but for these, with the answer in its
port's reply slot. -/
theorem request_spec {p : Port} {code : BitVec 6} {tag : TagField}
    {f : State → Except Fault (State × Answer)} {s u e : State} {a : Answer} (h : s.Up)
    (hf : f (s.acceptFrame p) = .ok (u, a)) (hp : u.ports = (s.acceptFrame p).ports)
    (he : u = e.withLines u.ports u.pins) :
    ∃ t, request p code tag f s = .next t ∧ OnlyPorts e t ∧
      Answered s t p (replyCode code) a.result a.tag a.data := by
  refine ⟨_, request_ok h hf, ?_, State.reply_answered s u p code a hp⟩
  exact congrArg (fun x => x.withLines (u.reply p code a).ports (u.reply p code a).pins) he

/-- The same with the answer's fields and the reply's command field named. -/
theorem request_answers {s e u : State} {p : Port} {code c : BitVec 6} {nr tag : TagField}
    {f : State → Except Fault (State × Answer)} {r : Result} {d : Data} (h : s.Up)
    (hf : f (s.acceptFrame p) = .ok (u, { result := r, tag := tag, data := d }))
    (hp : u.ports = (s.acceptFrame p).ports) (he : u = e.withLines u.ports u.pins)
    (hc : replyCode code = c) :
    ∃ t, request p code nr f s = .next t ∧ OnlyPorts e t ∧ Answered s t p c r tag d := by
  subst hc
  exact request_spec h hf hp he

theorem plainRequest_answers {s e u : State} {p : Port} {code c : BitVec 6} {nr tag : TagField}
    {f : State → State × Answer} {r : Result} {d : Data} (h : s.Up)
    (hf : f (s.acceptFrame p) = (u, { result := r, tag := tag, data := d }))
    (hp : u.ports = (s.acceptFrame p).ports) (he : u = e.withLines u.ports u.pins)
    (hc : replyCode code = c) :
    ∃ t, plainRequest p code nr f s = .next t ∧ OnlyPorts e t ∧ Answered s t p c r tag d :=
  request_answers h (by rw [hf]) hp he hc

theorem readRequest_answers {s : State} {p : Port} {code c : BitVec 6} {nr tag : TagField}
    {f : State → Answer} {r : Result} {d : Data} (h : s.Up)
    (hf : f (s.acceptFrame p) = { result := r, tag := tag, data := d }) (hc : replyCode code = c) :
    ∃ t, readRequest p code nr f s = .next t ∧ OnlyPorts s t ∧ Answered s t p c r tag d :=
  plainRequest_answers (u := s.acceptFrame p) h (by rw [hf]) rfl rfl hc

/-- What a request comes to whose action may have changed the RESTARTED flag and read pointer of its own
port. -/
theorem request_unit {s e u : State} {p : Port} {code c : BitVec 6} {nr tag : TagField}
    {f : State → Except Fault (State × Answer)} {r : Result} {d : Data} {restarted : Bool} {ptr : Fin 20}
    (h : s.Up) (hf : f (s.acceptFrame p) = .ok (u, { result := r, tag := tag, data := d }))
    (hu : u.port p = { (s.acceptFrame p).port p with restarted := restarted, snapPtr := ptr })
    (ho : ∀ q, q ≠ p → u.port q = s.port q) (he : u = e.withLines u.ports u.pins)
    (hc : replyCode code = c) :
    ∃ t, request p code nr f s = .next t ∧ OnlyPorts e t ∧ OtherPorts s t p ∧
      t.port p = answeredUnit (s.port p) t p c r tag d restarted restarted ptr := by
  subst hc
  refine ⟨_, request_ok h hf, ?_, fun q hq => ?_, ?_⟩
  · exact congrArg (fun x => x.withLines
      (u.reply p code { result := r, tag := tag, data := d }).ports
      (u.reply p code { result := r, tag := tag, data := d }).pins) he
  · rw [State.reply, State.respond_other _ _ _ _ _ _ hq, ho q hq]
  · have hr : (u.port p).restarted = restarted := by rw [hu]
    rw [State.reply, hr]
    exact State.respond_unit s u p code restarted restarted ptr _ hu

/-- A next state of a request: NOT_READY in STARTING, else its action carried out and answered. -/
theorem request_cases {p : Port} {code : BitVec 6} {tag : TagField}
    {f : State → Except Fault (State × Answer)} {s t : State} (h : request p code tag f s = .next t) :
    (s.line = .starting ∧
      t = (s.acceptFrame p).reply p code { result := .notReady, tag := tag, data := 0 }) ∨
    (s.Up ∧ ∃ u a, f (s.acceptFrame p) = .ok (u, a) ∧ t = u.reply p code a) := by
  by_cases hs : s.line = .starting
  · rw [request_starting hs] at h
    exact .inl ⟨hs, by injection h with h; exact h.symm⟩
  · refine .inr ⟨hs, ?_⟩
    simp only [request, State.acceptFrame_line, hs, if_false] at h
    split at h
    · cases h
    · rename_i u a hf
      exact ⟨u, a, hf, by injection h with h; exact h.symm⟩

/-- A next state of an event that is no request: its effect, the output lines following. -/
theorem event_cases {r : Except Fault (State × Unit)} {t : State} (h : event r = .next t) :
    ∃ u x, r = .ok (u, x) ∧ t = u.settle := by
  unfold event at h
  split at h
  · cases h
  · rename_i u x
    exact ⟨u, x, rfl, by injection h with h; exact h.symm⟩

end Sys2Proof.Machine
end

