-- ==== Sys2Proof/Laws/Drain.lean ====
section
/-! SUPPORT. No block's operation reads the Event Queue either: with other port units, output lines and events
around it each does the same and adds the same events. With it the drain test of R153, said once. -/

namespace Sys2Proof.Machine

/-- What stands around the blocks: the port units, the output lines, the Event Queue and DROPPED. -/
structure Outside where
  ports : Vector PortUnit 5
  pins : Pins
  events : List Event
  dropped : Bool

/-- The state with other surroundings. -/
def State.dress (s : State) (o : Outside) : State :=
  { s with ports := o.ports, pins := o.pins, events := o.events, dropped := o.dropped }

def State.outside (s : State) : Outside :=
  { ports := s.ports, pins := s.pins, events := s.events, dropped := s.dropped }

/-- An event joins the queue of some surroundings. -/
def Outside.push (o : Outside) (ev : Event) : Outside :=
  if o.events.length < 32 then { o with events := o.events ++ [ev] } else { o with dropped := true }

def Outside.pushAll (o : Outside) (evs : List Event) : Outside := evs.foldl Outside.push o

@[simp] theorem State.dress_dress (s : State) (o o' : Outside) : (s.dress o).dress o' = s.dress o' := rfl
@[simp] theorem State.dress_outside (s : State) : s.dress s.outside = s := rfl
@[simp] theorem State.outside_dress (s : State) (o : Outside) : (s.dress o).outside = o := rfl
@[simp] theorem Outside.pushAll_nil (o : Outside) : o.pushAll [] = o := rfl
@[simp] theorem Outside.pushAll_cons (o : Outside) (e : Event) (evs : List Event) :
    o.pushAll (e :: evs) = (o.push e).pushAll evs := rfl

theorem State.withLines_eq_dress (s : State) (ps : Vector PortUnit 5) (pn : Pins) :
    s.withLines ps pn = s.dress { s.outside with ports := ps, pins := pn } := rfl

theorem State.raise_dress (s : State) (o : Outside) (ev : Event) :
    (s.dress o).raise ev = s.dress (o.push ev) := by
  show (if o.events.length < 32 then _ else _) = _
  unfold Outside.push
  split <;> rfl

theorem State.raise_eq (s : State) (ev : Event) : s.raise ev = s.dress (s.outside.push ev) :=
  State.raise_dress s s.outside ev

@[simp] theorem Outside.push_ports (o : Outside) (ev : Event) : (o.push ev).ports = o.ports := by
  unfold Outside.push; split <;> rfl
@[simp] theorem Outside.push_pins (o : Outside) (ev : Event) : (o.push ev).pins = o.pins := by
  unfold Outside.push; split <;> rfl

@[simp] theorem Outside.pushAll_ports (o : Outside) (evs : List Event) :
    (o.pushAll evs).ports = o.ports := by
  induction evs generalizing o with
  | nil => rfl
  | cons e evs ih => simp [ih]

@[simp] theorem Outside.pushAll_pins (o : Outside) (evs : List Event) : (o.pushAll evs).pins = o.pins := by
  induction evs generalizing o with
  | nil => rfl
  | cons e evs ih => simp [ih]

/-- Events that all find room join in order; when one does not, DROPPED is set and the queue is full. -/
theorem Outside.pushAll_spec (o : Outside) (evs : List Event) :
    (o.events.length + evs.length ≤ 32 →
      (o.pushAll evs).events = o.events ++ evs ∧ (o.pushAll evs).dropped = o.dropped) ∧
    (32 < o.events.length + evs.length → evs ≠ [] →
      (o.pushAll evs).dropped = true ∧ (o.pushAll evs).events.length = max 32 o.events.length) := by
  induction evs generalizing o with
  | nil => simp
  | cons e evs ih =>
    rw [Outside.pushAll_cons]
    simp only [List.length_cons]
    by_cases h : o.events.length < 32
    · have hp : o.push e = { o with events := o.events ++ [e] } := by simp [Outside.push, h]
      have := ih (o.push e)
      rw [hp] at this ⊢
      simp only [List.length_append, List.length_cons, List.length_nil] at this
      refine ⟨fun hl => ?_, fun hl _ => ?_⟩
      · obtain ⟨h1, h2⟩ := this.1 (by omega)
        exact ⟨by rw [h1]; simp, h2⟩
      · obtain ⟨h1, h2⟩ := this.2 (by omega) (by
          rintro rfl
          simp only [List.length_nil] at hl
          omega)
        exact ⟨h1, by rw [h2]; omega⟩
    · have hp : o.push e = { o with dropped := true } := by simp [Outside.push, h]
      refine ⟨fun hl => by omega, fun _ _ => ?_⟩
      rw [hp]
      by_cases he : evs = []
      · subst he
        exact ⟨rfl, by show o.events.length = _; omega⟩
      · exact (ih { o with dropped := true }).2 (by
          have : evs.length ≠ 0 := by simpa using he
          show 32 < o.events.length + evs.length
          omega) he

/-! ### The drain test -/

theorem State.drained_iff (s : State) : s.drained = true ↔ s.line = .draining ∧ Drained s := by
  unfold State.drained Drained
  simp only [Bool.and_eq_true, Bool.not_eq_true', decide_eq_true_eq, Option.isNone_iff_eq_none,
    List.isEmpty_iff]
  constructor
  · rintro ⟨⟨⟨⟨⟨⟨⟨⟨⟨⟨h0, h1⟩, h2⟩, h3⟩, h4⟩, h5⟩, h6⟩, h7⟩, h8⟩, h9⟩, h10⟩
    exact ⟨h0, fun st => by cases st <;> assumption, h5, h6, h7, h8, h9, h10⟩
  · rintro ⟨h0, h1, h5, h6, h7, h8, h9, h10⟩
    exact ⟨⟨⟨⟨⟨⟨⟨⟨⟨⟨h0, h1 .lift⟩, h1 .jog⟩, h1 .knife⟩, h1 .turn⟩, h5⟩, h6⟩, h7⟩, h8⟩, h9⟩, h10⟩

@[simp] theorem State.drained_dress (s : State) (o : Outside) : (s.dress o).drained = s.drained := rfl

theorem Drained_dress (s : State) (o : Outside) : Drained (s.dress o) ↔ Drained s := Iff.rfl

/-- An effect does the same whatever surrounds the blocks, and adds the same events: from `s` it comes to
`u` with these events and this answer. -/
def Adds {α : Type} (effect : State → Except Fault (State × α)) (s u : State) (evs : List Event) (a : α) :
    Prop :=
  ∀ o, effect (s.dress o) = .ok (u.dress (o.pushAll evs), a)

/-- The state that an effect with these events comes to. -/
def State.after (s u : State) (evs : List Event) : State := u.dress (s.outside.pushAll evs)

theorem Adds.run {α : Type} {effect : State → Except Fault (State × α)} {s u : State} {evs : List Event}
    {a : α} (h : Adds effect s u evs a) : effect s = .ok (s.after u evs, a) := h s.outside

/-- LINE_STOPPED before or after a command's own events, the queue having room for all. -/
theorem lineStopped_fits (s u : State) (evs : List Event) (c : Bool)
    (hl : (s.after u evs).events.length < 32) :
    let late := (s.after u evs).raise .lineStopped
    let early := u.dress ((s.outside.push .lineStopped).pushAll evs)
    (if c then early.dropped else late.dropped) = (s.after u evs).dropped ∧
    ∃ a b, (s.after u evs).events = a ++ b ∧ s.events <+: a ∧
      (if c then early.events else late.events) = a ++ .lineStopped :: b := by
  have hroom : s.events.length + evs.length ≤ 32 := by
    by_contra hn
    by_cases he : evs = []
    · subst he
      have : s.events.length < 32 := hl
      simp only [List.length_nil] at hn
      omega
    · have := ((Outside.pushAll_spec s.outside evs).2 (Nat.not_le.1 hn) he).2
      have hl' : (s.outside.pushAll evs).events.length < 32 := hl
      omega
  obtain ⟨h1, h2⟩ := (Outside.pushAll_spec s.outside evs).1 hroom
  have hl' : s.events.length + evs.length < 32 := by
    have : (s.outside.pushAll evs).events.length < 32 := hl
    rw [h1, List.length_append] at this
    exact this
  intro late early
  have hp : s.outside.push .lineStopped =
      { s.outside with events := s.events ++ [.lineStopped] } := by
    have : s.events.length < 32 := by omega
    simp [Outside.push, this, State.outside]
  obtain ⟨h3, h4⟩ := (Outside.pushAll_spec (s.outside.push .lineStopped) evs).1 (by
    rw [hp]; simp only [List.length_append, List.length_cons, List.length_nil]; omega)
  have hlate : late = u.dress ((s.outside.pushAll evs).push .lineStopped) := State.raise_dress _ _ _
  have hlp : (s.outside.pushAll evs).push .lineStopped =
      { s.outside.pushAll evs with events := (s.outside.pushAll evs).events ++ [.lineStopped] } := by
    have : (s.outside.pushAll evs).events.length < 32 := hl
    simp [Outside.push, this]
  cases c
  · refine ⟨by rw [hlate, hlp]; rfl, s.events ++ evs, [], ?_, ⟨evs, rfl⟩, ?_⟩
    · rw [List.append_nil]; exact h1
    · rw [hlate, hlp]
      show (s.outside.pushAll evs).events ++ [.lineStopped] = _
      rw [h1]; rfl
  · refine ⟨?_, s.events, evs, h1, List.prefix_refl _, ?_⟩
    · show ((s.outside.push .lineStopped).pushAll evs).dropped = (s.outside.pushAll evs).dropped
      rw [h4, h2, hp]
    · show ((s.outside.push .lineStopped).pushAll evs).events = _
      rw [h3, hp]; simp

/-- LINE_STOPPED before or after a command's own events, the queue full after them. -/
theorem lineStopped_overflows (s u : State) (evs : List Event) (c : Bool)
    (hl : 32 ≤ (s.after u evs).events.length) :
    let late := (s.after u evs).raise .lineStopped
    let early := u.dress ((s.outside.push .lineStopped).pushAll evs)
    (if c then early.dropped else late.dropped) = true ∧
    (if c then early.events else late.events).length = (s.after u evs).events.length := by
  intro late early
  have hl' : 32 ≤ (s.outside.pushAll evs).events.length := hl
  have hlate : late = u.dress ((s.outside.pushAll evs).push .lineStopped) := State.raise_dress _ _ _
  have hlp : (s.outside.pushAll evs).push .lineStopped = { s.outside.pushAll evs with dropped := true } := by
    simp [Outside.push, Nat.not_lt.2 hl']
  cases c
  · rw [hlate, hlp]; exact ⟨rfl, rfl⟩
  · have key : ((s.outside.push .lineStopped).pushAll evs).dropped = true ∧
        ((s.outside.push .lineStopped).pushAll evs).events.length =
          (s.outside.pushAll evs).events.length := by
      have hlen : s.outside.events.length = s.events.length := rfl
      by_cases hs : s.events.length < 32
      · have hp : s.outside.push .lineStopped =
            { s.outside with events := s.events ++ [.lineStopped] } := by
          simp [Outside.push, hs, State.outside]
        have he : evs ≠ [] := by
          rintro rfl
          have : 32 ≤ s.events.length := hl'
          omega
        have hmore : 32 ≤ s.events.length + evs.length := by
          by_contra hn
          have := ((Outside.pushAll_spec s.outside evs).1 (by omega)).1
          rw [this, List.length_append] at hl'
          omega
        obtain ⟨h1, h2⟩ := (Outside.pushAll_spec (s.outside.push .lineStopped) evs).2 (by
          rw [hp]; simp only [List.length_append, List.length_cons, List.length_nil]; omega) he
        refine ⟨h1, h2.trans ?_⟩
        rw [hp]
        simp only [List.length_append, List.length_cons, List.length_nil]
        by_cases hf : 32 < s.events.length + evs.length
        · rw [((Outside.pushAll_spec s.outside evs).2 hf he).2]; omega
        · rw [((Outside.pushAll_spec s.outside evs).1 (by omega)).1, List.length_append]; omega
      · have hp : s.outside.push .lineStopped = { s.outside with dropped := true } := by
          simp [Outside.push, State.outside, hs]
        rw [hp]
        by_cases he : evs = []
        · subst he; exact ⟨rfl, rfl⟩
        · have hpos : evs.length ≠ 0 := by simpa using he
          obtain ⟨h1, h2⟩ := (Outside.pushAll_spec { s.outside with dropped := true } evs).2
            (by show 32 < s.events.length + _; omega) he
          obtain ⟨_, h4⟩ := (Outside.pushAll_spec s.outside evs).2
            (by show 32 < s.events.length + _; omega) he
          exact ⟨h1, h2.trans h4.symm⟩
    exact key

/-- What a command with the drain test comes to (R153). -/
theorem withDrain_spec {α : Type} {effect : State → Except Fault (State × α)} {s u : State}
    {evs : List Event} {a : α} (h : Adds effect s u evs a) :
    ∃ t, withDrain effect s = .ok (t, a) ∧ DrainTested s (s.after u evs) t ∧ t.ports = s.ports ∧
      t.pins = s.pins := by
  have hrun := h.run
  have hraise : effect (s.raise .lineStopped) =
      .ok (u.dress ((s.outside.push .lineStopped).pushAll evs), a) := by
    rw [State.raise_eq]; exact h _
  by_cases hd : (s.after u evs).drained = true
  · have hd' := (State.drained_iff _).1 hd
    have he : withDrain effect s = .ok ({ s.after u evs with
        line := .stopped
        events := if Config.lineStoppedFirst s.freeCtr
          then (u.dress ((s.outside.push .lineStopped).pushAll evs)).events
          else ((s.after u evs).raise .lineStopped).events
        dropped := if Config.lineStoppedFirst s.freeCtr
          then (u.dress ((s.outside.push .lineStopped).pushAll evs)).dropped
          else ((s.after u evs).raise .lineStopped).dropped
        freeCtr := (s.after u evs).freeCtr + 1 }, a) := by
      simp only [withDrain, hrun, hd, hraise, if_true]
    refine ⟨_, he, ⟨fun hn => absurd hd' hn, fun _ => ⟨rfl, fun hl => ?_, fun hl => ?_⟩⟩,
      Outside.pushAll_ports _ _, Outside.pushAll_pins _ _⟩
    · exact lineStopped_fits s u evs _ hl
    · exact lineStopped_overflows s u evs _ hl
  · refine ⟨s.after u evs, by simp [withDrain, hrun, hd], ⟨fun _ => rfl, fun hn => ?_⟩,
      Outside.pushAll_ports _ _, Outside.pushAll_pins _ _⟩
    exact absurd ((State.drained_iff _).2 hn) hd

theorem Adds.dress {α : Type} {effect : State → Except Fault (State × α)} {s u : State} {evs : List Event}
    {a : α} (h : Adds effect s u evs a) (o : Outside) : Adds effect (s.dress o) u evs a := h

/-- The drain test reads no port unit and no output line. -/
theorem DrainTested.withLines {s u t : State} (ps ps' ps'' : Vector PortUnit 5) (pn pn' pn'' : Pins)
    (h : DrainTested (s.withLines ps pn) (u.withLines ps' pn') t) :
    DrainTested s u (t.withLines ps'' pn'') := by
  refine ⟨fun hn => ?_, fun hd => ?_⟩
  · have := h.1 hn
    unfold OnlyPorts at this ⊢
    rw [this]; rfl
  · obtain ⟨h1, h2⟩ := h.2 hd
    exact ⟨congrArg (fun x => State.withLines x ps'' pn'') h1, h2⟩

theorem Outside.pushAll_withLines (o : Outside) (evs : List Event) (ps : Vector PortUnit 5) (pn : Pins) :
    ({ o with ports := ps, pins := pn } : Outside).pushAll evs =
      { o.pushAll evs with ports := ps, pins := pn } := by
  induction evs generalizing o with
  | nil => rfl
  | cons e evs ih =>
    rw [Outside.pushAll_cons, Outside.pushAll_cons, ← ih]
    congr 1
    show (if o.events.length < 32 then _ else _) = _
    unfold Outside.push
    split <;> rfl

theorem State.after_withLines (s u : State) (evs : List Event) (ps : Vector PortUnit 5) (pn : Pins) :
    (s.withLines ps pn).after u evs = (s.after u evs).withLines ps pn := by
  unfold State.after
  show u.dress (({ s.outside with ports := ps, pins := pn } : Outside).pushAll evs) = _
  rw [Outside.pushAll_withLines]
  rfl

/-- An effect that comes to `u` comes to it whatever surrounds the blocks, its events apart. -/
def Settled {α : Type} (effect : State → Except Fault (State × α)) (s u : State) (a : α) : Prop :=
  effect s = .ok (u, a) ∧ ∃ evs, Adds effect s u evs a

theorem Settled.after {α : Type} {effect : State → Except Fault (State × α)} {s u : State} {a : α}
    {evs : List Event} (h : effect s = .ok (u, a)) (ha : Adds effect s u evs a) : s.after u evs = u := by
  have := ha.run
  rw [h] at this
  simp only [Except.ok.injEq, Prod.mk.injEq, and_true] at this
  exact this.symm

/-- What a request outside STARTING comes to whose action is an effect followed by the drain test. -/
theorem drain_answers {s u : State} {p : Port} {code c : BitVec 6} {nr tag : TagField}
    {f effect : State → Except Fault (State × Answer)} {r : Result} {d : Data}
    (h : s.Up) (hf : f (s.acceptFrame p) = withDrain effect (s.acceptFrame p))
    (hs : Settled effect s u { result := r, tag := tag, data := d }) (hc : replyCode code = c) :
    ∃ t, request p code nr f s = .next t ∧ DrainTested s u t ∧ Answered s t p c r tag d := by
  obtain ⟨hr, evs, ha⟩ := hs
  obtain ⟨v, h1, h2, h3, h4⟩ := withDrain_spec (s := s.acceptFrame p) ha
  subst hc
  rw [State.acceptFrame_eq, State.after_withLines, Settled.after hr ha] at h2
  exact ⟨_, request_ok h (hf.trans h1),
    DrainTested.withLines (t := v) _ _ (v.reply p code _).ports _ _ (v.reply p code _).pins h2,
    State.reply_answered s v p code _ h3⟩

/-- What an event comes to that is an effect followed by the drain test. -/
theorem drain_event {s u : State} {effect : State → Except Fault (State × Unit)}
    (hs : Settled effect s u ()) :
    ∃ t, event (withDrain effect s) = .next t ∧ DrainTested s u t ∧ t.ports = s.ports := by
  obtain ⟨hr, evs, ha⟩ := hs
  obtain ⟨v, h1, h2, h3, h4⟩ := withDrain_spec ha
  rw [Settled.after hr ha] at h2
  refine ⟨v.settle, by rw [h1]; rfl, ?_, h3⟩
  exact DrainTested.withLines s.ports u.ports v.ports s.pins u.pins _ h2

/-! ### Operations that add events -/

/-- An operation does the same whatever surrounds the blocks, and adds the same events. -/
def Dresses (f : State → State) (s : State) : Prop :=
  ∃ evs, ∀ o, f (s.dress o) = (f s).dress (o.pushAll evs)

theorem Dresses.quiet {f : State → State} {s : State} (h : ∀ o, f (s.dress o) = (f s).dress o) :
    Dresses f s := ⟨[], h⟩

theorem Dresses.comp {f g : State → State} {s : State} (hf : Dresses f s) (hg : Dresses g (f s)) :
    Dresses (fun x => g (f x)) s := by
  obtain ⟨e1, h1⟩ := hf
  obtain ⟨e2, h2⟩ := hg
  refine ⟨e1 ++ e2, fun o => ?_⟩
  show g (f (s.dress o)) = _
  rw [h1, h2]
  simp [Outside.pushAll, List.foldl_append]

/-- Such an operation does the same whatever the port units and output lines. -/
theorem Dresses.withLines {f : State → State} {s : State} (h : Dresses f s) (ps : Vector PortUnit 5)
    (pn : Pins) : f (s.withLines ps pn) = (f s).withLines ps pn := by
  obtain ⟨evs, h⟩ := h
  have h0 : f s = (f s).dress (s.outside.pushAll evs) := h s.outside
  rw [State.withLines_eq_dress, h, Outside.pushAll_withLines]
  exact (congrArg (fun x => State.withLines x ps pn) h0).symm

theorem Dresses.settled {α : Type} {f : State → State} {s : State} (h : Dresses f s) (a : α) :
    Settled (fun s => .ok (f s, a)) s (f s) a := by
  obtain ⟨evs, h⟩ := h
  exact ⟨rfl, evs, fun o => by show Except.ok (f (s.dress o), a) = _; rw [h]⟩

theorem State.raise_dresses (s : State) (ev : Event) : Dresses (fun x => x.raise ev) s :=
  ⟨[ev], fun o => by simp only [State.raise_dress, State.raise_eq s]; rfl⟩

theorem State.holdPile_dresses (s : State) (t : Tag) (r : HoldReason) (st : Station) :
    Dresses (fun x => x.holdPile t r st) s :=
  Dresses.comp (f := fun x => x.modifyPile t fun p =>
      { p with residency := .held, hold := some { reason := r, station := st } })
    (Dresses.quiet fun _ => rfl) (State.raise_dresses _ _)

theorem State.dropKnifeTurn_dresses (s : State) (t : Tag) : Dresses (fun x => x.dropKnifeTurn t) s := by
  refine Dresses.quiet fun o => ?_
  have h : (s.dress o).knifeJob = s.knifeJob := rfl
  simp only [State.dropKnifeTurn, h]
  split <;> rfl

theorem State.failJob_dresses (s : State) (st : Station) (t : Tag) (r : HoldReason) :
    Dresses (fun x => x.failJob st t r) s := by
  cases st with
  | lift =>
    exact (State.holdPile_dresses s t r .lift).comp (g := fun x => x.endJob .lift)
      (Dresses.quiet fun _ => rfl)
  | jog =>
    exact (State.holdPile_dresses s t r .jog).comp (g := fun x => x.endJob .jog)
      (Dresses.quiet fun _ => rfl)
  | knife =>
    exact ((State.dropKnifeTurn_dresses s t).comp (State.holdPile_dresses _ t r .knife)).comp
      (g := fun x => { x.dropReservation.endJob .knife with knifePile := none })
      (Dresses.quiet fun _ => rfl)
  | turn =>
    exact (State.holdPile_dresses s t r .turn).comp (g := fun x => x.endJob .turn)
      (Dresses.quiet fun _ => rfl)

theorem State.finishTest_dresses (s : State) (n : Nat) : Dresses (fun x => x.finishTest n) s := by
  have h : ∀ o, (s.dress o).palletOf n = s.palletOf n := fun _ => rfl
  cases hp : s.palletOf n with
  | none => exact Dresses.quiet fun o => by simp only [State.finishTest, h, hp]
  | some q =>
    by_cases hf : palletFinished q = true
    · obtain ⟨evs, key⟩ := ((Dresses.quiet (s := s)
        (f := fun x => { x with
          pallets := x.pallets.filter (fun q => q.seq ≠ n), lastReport := some q }) fun _ => rfl).comp
        (State.raise_dresses _ (.palletDone n))).comp (g := fun x => x.dropUse q.program)
        (Dresses.quiet fun _ => rfl)
      exact ⟨evs, fun o => by simpa only [State.finishTest, h, hp, hf, if_true] using key o⟩
    · exact Dresses.quiet fun o => by simp only [State.finishTest, h, hp, hf]; rfl

theorem State.freeRecord_dresses (s : State) (t : Tag) (account : Nat → Pallet → Pallet) :
    Dresses (fun x => x.freeRecord t account) s := by
  have h : ∀ o, (s.dress o).pile t = s.pile t := fun _ => rfl
  cases hp : s.pile t with
  | none => exact Dresses.quiet fun o => by simp only [State.freeRecord, h, hp]
  | some p =>
    have key := Dresses.comp (s := s)
      (f := fun x => ((x.putPile t none).dropUse p.program).modifyPallet p.pallet fun q =>
        account p.sheets { q with live := q.live - 1 })
      (Dresses.quiet fun _ => rfl) (State.finishTest_dresses _ p.pallet)
    obtain ⟨evs, key⟩ := key
    exact ⟨evs, fun o => by simpa only [State.freeRecord, h, hp] using key o⟩

theorem State.abortJob_dresses (s : State) (st : Station) (t : Tag) :
    Dresses (fun x => x.abortJob st t) s := by
  cases st with
  | lift =>
    exact (State.freeRecord_dresses s t accountReturned).comp (g := fun x => x.endJob .lift)
      (Dresses.quiet fun _ => rfl)
  | jog => exact Dresses.quiet fun _ => rfl
  | knife =>
    exact (State.dropKnifeTurn_dresses s t).comp
      (g := fun x => (x.modifyPile t fun p => { p with residency := .atKnife }).dropReservation.endJob
        .knife)
      (Dresses.quiet fun _ => rfl)
  | turn => exact Dresses.quiet fun _ => rfl

end Sys2Proof.Machine
end

