-- ==== Sys2Proof/Laws/Jobs.lean ====
section
/-! SUPPORT. Every effect that the drain test follows does the same whatever surrounds the blocks: the
selections, the completions, the failures and the expiries of the four stations. -/

namespace Sys2Proof.Machine

/-! ### Selections -/

theorem State.selectLift_dress (s : State) (o : Outside) :
    (s.dress o).selectLift = (s.selectLift.1.dress o, s.selectLift.2) := by
  have h1 : (s.dress o).liftSource = s.liftSource := rfl
  have h2 : (s.dress o).nextTag = s.nextTag := rfl
  have h3 : (s.dress o).liftAdmits = s.liftAdmits := rfl
  simp only [State.selectLift, h1, h2, h3]
  split
  · split <;> rfl
  · rfl

theorem State.arbiter_dress (s : State) (o : Outside) :
    (s.dress o).arbiter = s.arbiter.map fun r => (r.1, r.2.dress o) := by
  have h1 : (s.dress o).returnLane = s.returnLane := rfl
  have h2 : (s.dress o).returnStack = s.returnStack := rfl
  have h3 : (s.dress o).knifeQueue = s.knifeQueue := rfl
  simp only [State.arbiter, h1, h2, h3]
  split
  · rfl
  · split
    · rfl
    · split <;> rfl

theorem State.dispatchHold_dresses (s : State) (t : Tag) (r : HoldReason) :
    Dresses (fun x => x.dispatchHold t r) s :=
  (State.holdPile_dresses s t r .knife).comp (g := fun x => { x with knifePile := none })
    (Dresses.quiet fun _ => rfl)

theorem State.cutIssue_dresses (s : State) (t : Tag) (p : Pile) (j : KnifeJob) :
    Dresses (fun x => x.cutIssue t p j) s := by
  have h1 : Dresses (fun x => (x.putPile t (some { p with
      residency := .knifeJob, limitedSeen := p.limitedSeen || j.limited }))) s :=
    Dresses.quiet fun _ => rfl
  unfold State.cutIssue
  cases j.keep <;> cases hl : j.limited <;> rw [hl] at h1 <;>
    simp only [Bool.false_eq_true, if_true, if_false]
  · exact h1
  · exact h1.comp (g := fun x => x.raise (.targetLimited t p.cursor)) (State.raise_dresses _ _)
  · exact h1.comp (g := fun x => { x with reservedRecords := 1, reservedSlots := 1 })
      (Dresses.quiet fun _ => rfl)
  · exact (h1.comp (g := fun x => { x with reservedRecords := 1, reservedSlots := 1 })
      (Dresses.quiet fun _ => rfl)).comp (g := fun x => x.raise (.targetLimited t p.cursor))
      (State.raise_dresses _ _)

/-- A dispatch's result in other surroundings. -/
def Dispatched.dress (o : Outside) : Dispatched → Dispatched
  | .job s t j => .job (s.dress o) t j
  | .held s => .held (s.dress o)

theorem State.dispatch_dresses (s : State) (t : Tag) (p : Pile) {d : Dispatched}
    (h : s.dispatch t p = .ok d) :
    ∃ evs, ∀ o, (s.dress o).dispatch t p = .ok (d.dress (o.pushAll evs)) := by
  have h1 : ∀ o, (s.dress o).stepAt p = s.stepAt p := fun _ => rfl
  have h2 : ∀ o, (s.dress o).freeRecords = s.freeRecords := fun _ => rfl
  have h3 : ∀ o, (s.dress o).freeSlots = s.freeSlots := fun _ => rfl
  have h4 : ∀ o d k, (s.dress o).cutJobOf p d k = s.cutJobOf p d k := fun _ _ _ => rfl
  simp only [State.dispatch, h1, h2, h3, h4] at h ⊢
  cases hs : s.stepAt p with
  | none => simp only [hs] at h; cases h
  | some step =>
    simp only [hs] at h ⊢
    cases step with
    | cut edge distance keep entry =>
      dsimp only at h ⊢
      cases ht : turnFor p.gauge p.face edge with
      | some turn => simp only [ht] at h ⊢; injection h with h; subst h; exact ⟨[], fun _ => rfl⟩
      | none =>
        simp only [ht] at h ⊢
        split at h
        · rename_i hc
          obtain ⟨evs, he⟩ := State.dispatchHold_dresses s t .cutBeyond
          injection h with h; subst h
          exact ⟨evs, fun o => by
            rw [if_pos hc]; exact congrArg (fun x => Except.ok (Dispatched.held x)) (he o)⟩
        · rename_i hc
          split at h
          · rename_i hr
            obtain ⟨evs, he⟩ := State.dispatchHold_dresses s t .noRoom
            injection h with h; subst h
            exact ⟨evs, fun o => by
              rw [if_neg hc, if_pos hr]; exact congrArg (fun x => Except.ok (Dispatched.held x)) (he o)⟩
          · rename_i hr
            obtain ⟨evs, he⟩ := State.cutIssue_dresses s t p (s.cutJobOf p distance keep)
            injection h with h; subst h
            exact ⟨evs, fun o => by
              rw [if_neg hc, if_neg hr]
              exact congrArg (fun x => Except.ok (Dispatched.job x t (.knife (s.cutJobOf p distance keep))))
                (he o)⟩
    | flip => injection h with h; subst h; exact ⟨[], fun _ => rfl⟩
    | jog => injection h with h; subst h; exact ⟨[], fun _ => rfl⟩
    | fin => injection h with h; subst h; exact ⟨[], fun _ => rfl⟩

/-- What one round of the knife's search looks at. -/
def State.chosen (s : State) : Option (Tag × State) :=
  match s.knifePile with
  | some t => some (t, s)
  | none => s.arbiter

theorem State.chosen_dress (s : State) (o : Outside) :
    (s.dress o).chosen = s.chosen.map fun r => (r.1, r.2.dress o) := by
  have h : (s.dress o).knifePile = s.knifePile := rfl
  unfold State.chosen
  rw [h]
  cases s.knifePile with
  | none => exact State.arbiter_dress s o
  | some t => rfl

theorem State.knifeSearch_succ (fuel : Nat) (s : State) :
    State.knifeSearch (fuel + 1) s =
      match s.chosen with
      | none => .ok (s, none)
      | some (t, s1) =>
        match s1.pile t with
        | none => .error .recordAbsent
        | some p =>
          match s1.dispatch t p with
          | .error f => .error f
          | .ok (.job s2 t2 j) => .ok (s2, some (t2, j))
          | .ok (.held s2) => State.knifeSearch fuel s2 := rfl

theorem State.knifeSearch_settled (fuel : Nat) : ∀ (s : State) {u : State} {r : Option (Tag × Job)},
    State.knifeSearch fuel s = .ok (u, r) → Settled (State.knifeSearch fuel) s u r := by
  induction fuel with
  | zero =>
    intro s u r h
    refine ⟨h, [], fun o => ?_⟩
    simp only [State.knifeSearch, Except.ok.injEq, Prod.mk.injEq] at h ⊢
    exact ⟨by rw [h.1]; rfl, h.2⟩
  | succ n ih =>
    intro s u r h
    refine ⟨h, ?_⟩
    rw [State.knifeSearch_succ] at h
    unfold Adds
    simp only [State.knifeSearch_succ, State.chosen_dress]
    cases hc : s.chosen with
    | none =>
      simp only [hc, Except.ok.injEq, Prod.mk.injEq] at h
      exact ⟨[], fun o => by simp only [Option.map_none, ← h.1, ← h.2]; rfl⟩
    | some x =>
      obtain ⟨t, s1⟩ := x
      simp only [hc, Option.map_some] at h ⊢
      have hp : ∀ o, (s1.dress o).pile t = s1.pile t := fun _ => rfl
      simp only [hp]
      cases hpile : s1.pile t with
      | none => simp only [hpile] at h; cases h
      | some p =>
        simp only [hpile] at h ⊢
        cases hd : s1.dispatch t p with
        | error f => simp only [hd] at h; cases h
        | ok d =>
          obtain ⟨e1, he⟩ := State.dispatch_dresses s1 t p hd
          simp only [hd, he] at h ⊢
          cases d with
          | job s2 t2 j =>
            simp only [Except.ok.injEq, Prod.mk.injEq] at h
            exact ⟨e1, fun o => by rw [← h.1, ← h.2]; rfl⟩
          | held s2 =>
            obtain ⟨_, e2, h2⟩ := ih s2 h
            refine ⟨e1 ++ e2, fun o => ?_⟩
            have := h2 (o.pushAll e1)
            simp only [Dispatched.dress]
            rw [this]
            simp [Outside.pushAll, List.foldl_append]

/-- A station's selection that stops nowhere finds the same whatever surrounds the blocks. -/
theorem State.select_settled (s : State) (st : Station) {u : State} {r : Option (Tag × Job)}
    (h : s.select st = .ok (u, r)) : Settled (fun x => x.select st) s u r := by
  refine ⟨h, ?_⟩
  unfold Adds
  cases st with
  | lift =>
    simp only [State.select, Except.ok.injEq] at h ⊢
    exact ⟨[], fun o => by rw [State.selectLift_dress, h]; rfl⟩
  | jog =>
    have h1 : ∀ o, (s.dress o).jogQueue = s.jogQueue := fun _ => rfl
    have h2 : ∀ o t, (s.dress o).pile t = s.pile t := fun _ _ => rfl
    simp only [State.select, State.selectJog, h1, h2] at h ⊢
    refine ⟨[], fun o => ?_⟩
    split at h
    · injection h with h; injection h with ha hb; subst ha hb; rfl
    · split at h
      · cases h
      · injection h with h; injection h with ha hb; subst ha hb; rfl
  | knife => exact (State.knifeSearch_settled _ s h).2
  | turn =>
    have h1 : ∀ o, (s.dress o).turnQueue = s.turnQueue := fun _ => rfl
    have h2 : ∀ o t, (s.dress o).pile t = s.pile t := fun _ _ => rfl
    simp only [State.select, State.selectTurn, h1, h2] at h ⊢
    refine ⟨[], fun o => ?_⟩
    split at h
    · injection h with h; injection h with ha hb; subst ha hb; rfl
    · split at h
      · cases h
      · injection h with h; injection h with ha hb; subst ha hb; rfl

theorem serve_wait (s : State) (st : Station) {u : State} (h : s.select st = .ok (u, none)) :
    Settled (serve st) s u { result := .wait, tag := 0, data := 0 } := by
  obtain ⟨_, evs, ha⟩ := State.select_settled s st h
  refine ⟨by simp only [serve, h], evs, fun o => ?_⟩
  have : (s.dress o).select st = _ := ha o
  simp only [serve]
  rw [this]

theorem serve_job (s : State) (st : Station) {u : State} {t : Tag} {j : Job}
    (h : s.select st = .ok (u, some (t, j))) :
    Settled (serve st) s (u.issue st t j)
      { result := .job, tag := tagField t, data := jobWord j 0 } := by
  obtain ⟨_, evs, ha⟩ := State.select_settled s st h
  refine ⟨by simp only [serve, h], evs, fun o => ?_⟩
  have : (s.dress o).select st = _ := ha o
  simp only [serve]
  rw [this]
  rfl

/-! ### Completions -/

theorem State.completeLift_dresses (s : State) (t : Tag) (p : Pile) (measured : Nat) :
    Dresses (fun x => x.completeLift t p measured) s := by
  by_cases hm : 16500 < measured
  · obtain ⟨evs, h⟩ := (State.holdPile_dresses s t .overheight .lift).comp (g := fun x => x.endJob .lift)
      (Dresses.quiet fun _ => rfl)
    exact ⟨evs, fun o => by simpa only [State.completeLift, hm, if_true] using h o⟩
  · have h1 : ∀ o, (s.dress o).liftExpected = s.liftExpected := fun _ => rfl
    have h2 : ∀ o, (s.dress o).stock p.cls = s.stock p.cls := fun _ => rfl
    by_cases hd : caliperDeviates measured s.liftExpected (s.stock p.cls).tol = true
    · obtain ⟨evs, h⟩ := ((Dresses.quiet (s := s) (f := fun x =>
          let y := x.putPile t (some { p with
            height := measured, attempt := 0, residency := .jogWait, caliperDev := p.caliperDev || true })
          { y with jogQueue := y.jogQueue ++ [t] }) fun _ => rfl).comp
        (State.raise_dresses _ (.caliperDev t (caliperDetail measured s.liftExpected)))).comp
        (g := fun x => x.endJob .lift) (Dresses.quiet fun _ => rfl)
      exact ⟨evs, fun o => by
        simpa only [State.completeLift, hm, if_false, h1, h2, hd, if_true] using h o⟩
    · exact Dresses.quiet fun o => by
        simp only [State.completeLift, hm, if_false, h1, h2, hd, Bool.false_eq_true]; rfl

theorem State.completeJog_settled (s : State) (t : Tag) (p : Pile) (tag : TagField) (skew : Nat) :
    Settled (fun x => .ok (x.completeJog t p tag skew)) s (s.completeJog t p tag skew).1
      (s.completeJog t p tag skew).2 := by
  refine ⟨rfl, ?_⟩
  unfold Adds
  have h1 : ∀ o, (s.dress o).stock p.cls = s.stock p.cls := fun _ => rfl
  simp only [State.completeJog, h1]
  cases classifySkew (s.stock p.cls).thr (s.stock p.cls).lim p.attempt skew with
  | aligned =>
    refine ⟨[], fun o => ?_⟩
    simp only [State.jogAligned]
    split <;> rfl
  | rejog => exact ⟨[], fun o => rfl⟩
  | tooMany =>
    obtain ⟨evs, h⟩ := (State.holdPile_dresses s t .jogRetries .jog).comp (g := fun x => x.endJob .jog)
      (Dresses.quiet fun _ => rfl)
    exact ⟨evs, fun o => by simp only [h]⟩
  | rejected =>
    obtain ⟨evs, h⟩ := (State.holdPile_dresses s t .jogReject .jog).comp (g := fun x => x.endJob .jog)
      (Dresses.quiet fun _ => rfl)
    exact ⟨evs, fun o => by simp only [h]⟩

/-! ### The Store Controller and the Blade Monitor -/

theorem State.startNext_dress (s : State) (o : Outside) :
    (s.dress o).startNext = s.startNext.dress o := by
  have h1 : (s.dress o).storeWrite = s.storeWrite := rfl
  have h2 : (s.dress o).scan = s.scan := rfl
  have h3 : (s.dress o).progOp = s.progOp := rfl
  have h4 : (s.dress o).bladeSave = s.bladeSave := rfl
  have h5 : (s.dress o).work = s.work := rfl
  unfold State.startNext
  rw [h1, h2, h3, h4]
  split
  · split
    · split
      · split
        · rfl
        · unfold State.startOp
          split
          · rfl
          · rw [h5]
            dsimp only
            split
            · rfl
            · unfold State.startBlockWrite
              split <;> rfl
      · rfl
    · split <;> rfl
  · rfl

theorem State.startNext_withLines (s : State) (ps : Vector PortUnit 5) (pn : Pins) :
    (s.withLines ps pn).startNext = s.startNext.withLines ps pn := by
  have h := State.startNext_dress s s.outside
  rw [State.dress_outside] at h
  have he : s.startNext.outside = s.outside := by rw [h]; rfl
  rw [State.withLines_eq_dress, State.startNext_dress, State.withLines_eq_dress, he]

/-- The two halves of the latch test: BLADE_WARN, then BLADE_OVERDUE. -/
def State.warnTest (s : State) : State :=
  if s.settings.warn ≤ s.blade.counter && !s.blade.warnLatch then
    { s with blade := { s.blade with warnLatch := true } }.raise .bladeWarn
  else s

def State.overdueTest (s : State) : State :=
  if s.settings.limit ≤ s.blade.counter && !s.blade.overdueLatch then
    { s with blade := { s.blade with overdueLatch := true } }.raise .bladeOverdue
  else s

theorem State.bladeTest_eq (s : State) : s.bladeTest = s.warnTest.overdueTest := rfl

theorem State.warnTest_dresses (s : State) : Dresses State.warnTest s := by
  have h : ∀ o, (s.dress o).settings = s.settings ∧ (s.dress o).blade = s.blade := fun _ => ⟨rfl, rfl⟩
  by_cases hw : (s.settings.warn ≤ s.blade.counter && !s.blade.warnLatch) = true
  · obtain ⟨evs, key⟩ := (Dresses.quiet (s := s)
      (f := fun x => { x with blade := { x.blade with warnLatch := true } }) fun _ => rfl).comp
      (State.raise_dresses _ .bladeWarn)
    exact ⟨evs, fun o => by simpa only [State.warnTest, (h o).1, (h o).2, hw, if_true] using key o⟩
  · exact Dresses.quiet fun o => by simp only [State.warnTest, (h o).1, (h o).2, hw]; rfl

theorem State.overdueTest_dresses (s : State) : Dresses State.overdueTest s := by
  have h : ∀ o, (s.dress o).settings = s.settings ∧ (s.dress o).blade = s.blade := fun _ => ⟨rfl, rfl⟩
  by_cases hw : (s.settings.limit ≤ s.blade.counter && !s.blade.overdueLatch) = true
  · obtain ⟨evs, key⟩ := (Dresses.quiet (s := s)
      (f := fun x => { x with blade := { x.blade with overdueLatch := true } }) fun _ => rfl).comp
      (State.raise_dresses _ .bladeOverdue)
    exact ⟨evs, fun o => by simpa only [State.overdueTest, (h o).1, (h o).2, hw, if_true] using key o⟩
  · exact Dresses.quiet fun o => by simp only [State.overdueTest, (h o).1, (h o).2, hw]; rfl

theorem State.bladeTest_dresses (s : State) : Dresses State.bladeTest s :=
  (State.warnTest_dresses s).comp (State.overdueTest_dresses _)

theorem State.bladeRetest_dresses (s : State) : Dresses State.bladeRetest s :=
  (Dresses.quiet (s := s) (f := fun x => { x with blade := { x.blade with
      warnLatch := x.blade.warnLatch && x.settings.warn ≤ x.blade.counter,
      overdueLatch := x.blade.overdueLatch && x.settings.limit ≤ x.blade.counter } }) fun _ => rfl).comp
    (State.bladeTest_dresses _)

theorem State.bladeRise_dresses (s : State) : Dresses State.bladeRise s := by
  have h : ∀ o, (s.dress o).blade = s.blade := fun _ => rfl
  by_cases hc : 999999 ≤ s.blade.counter
  · exact Dresses.quiet fun o => by simp only [State.bladeRise, h, hc, if_true]
  · have h1 : Dresses (fun x => { x with blade := { x.blade with counter := x.blade.counter + 1 } }) s :=
      Dresses.quiet fun _ => rfl
    by_cases hm : (s.blade.counter + 1) % 256 = 0
    · obtain ⟨evs, key⟩ := (h1.comp (g := State.requestBladeSave) (Dresses.quiet fun o =>
        State.startNext_dress { s with
          blade := { s.blade with counter := s.blade.counter + 1 }, bladeSave := true } o)).comp
        (State.bladeTest_dresses _)
      exact ⟨evs, fun o => by
        simpa only [State.bladeRise, h, hc, if_false, hm, if_true] using key o⟩
    · obtain ⟨evs, key⟩ := h1.comp (State.bladeTest_dresses _)
      exact ⟨evs, fun o => by
        simpa only [State.bladeRise, h, hc, if_false, hm] using key o⟩

/-! ### The knife and the turner -/

theorem State.makeChild_dress (s : State) (t : Tag) (p : Pile) (distance entry : Nat) (o : Outside) :
    (s.dress o).makeChild t p distance entry =
      (s.makeChild t p distance entry).map fun x => x.dress o := by
  have h : (s.dress o).nextTag = s.nextTag := rfl
  unfold State.makeChild
  rw [h]
  split <;> rfl

theorem State.completeCut_settled (s : State) (t : Tag) (p : Pile) (keep : Bool) {u : State}
    (h : s.completeCut t p keep = .ok u) :
    ∃ evs, ∀ o, (s.dress o).completeCut t p keep = .ok (u.dress (o.pushAll evs)) := by
  have h1 : ∀ o, (s.dress o).stepAt p = s.stepAt p := fun _ => rfl
  have h2 : ∀ o, (s.dress o).advanced p = s.advanced p := fun _ => rfl
  unfold State.completeCut at h ⊢
  simp only [h1, h2] at h ⊢
  split at h
  · rename_i edge distance k entry hs
    cases hm : (if keep = true then s.makeChild t p distance entry else Except.ok s) with
    | error f => rw [hm] at h; cases h
    | ok s1 =>
      rw [hm] at h
      dsimp only at h
      have hm' : ∀ o, (if keep = true then (s.dress o).makeChild t p distance entry
          else Except.ok (s.dress o)) = Except.ok (s1.dress o) := by
        intro o
        cases keep
        · simp only [Bool.false_eq_true, if_false, Except.ok.injEq] at hm ⊢; rw [hm]
        · simp only [if_true] at hm ⊢; rw [State.makeChild_dress, hm]; rfl
      obtain ⟨evs, key⟩ := ((Dresses.quiet (s := s1) (f := fun x => x.putPile t (some
          { p with depth := distance, cursor := s.advanced p, residency := .atKnife })) fun _ => rfl).comp
        (State.bladeRise_dresses _)).comp (g := fun x => x.endJob .knife) (Dresses.quiet fun _ => rfl)
      injection h with h
      subst h
      refine ⟨evs, fun o => ?_⟩
      rw [hm']
      exact congrArg Except.ok (key o)
  · cases h

theorem State.completeKnife_settled (s : State) (t : Tag) (p : Pile) {u : State}
    (h : s.completeKnife t p = .ok u) :
    ∃ evs, ∀ o, (s.dress o).completeKnife t p = .ok (u.dress (o.pushAll evs)) := by
  have h1 : ∀ o, (s.dress o).knifeJob = s.knifeJob := fun _ => rfl
  unfold State.completeKnife at h ⊢
  simp only [h1] at h ⊢
  split at h
  · cases h
  · rename_i j hj
    cases hk : j.kind with
    | cut => simp only [hk] at h ⊢; exact State.completeCut_settled s t p j.keep h
    | transferTurn turn => simp only [hk] at h ⊢; injection h with h; subst h; exact ⟨[], fun _ => rfl⟩
    | transferJog => simp only [hk] at h ⊢; injection h with h; subst h; exact ⟨[], fun _ => rfl⟩
    | deliver =>
      simp only [hk] at h ⊢
      obtain ⟨evs, key⟩ := (State.freeRecord_dresses s t accountDelivered).comp
        (g := fun x => { x with knifePile := none }.endJob .knife) (Dresses.quiet fun _ => rfl)
      injection h with h
      subst h
      exact ⟨evs, fun o => congrArg Except.ok (key o)⟩

/-- A completion that stops nowhere does the same whatever surrounds the blocks. -/
theorem complete_settled (s : State) (st : Station) (t : Tag) (tag : TagField) (value : Nat) {u : State}
    {a : Answer} (h : complete st t tag value s = .ok (u, a)) : Settled (complete st t tag value) s u a := by
  refine ⟨h, ?_⟩
  unfold Adds
  have h1 : ∀ o, (s.dress o).pile t = s.pile t := fun _ => rfl
  unfold complete at h ⊢
  simp only [h1] at h ⊢
  split at h
  · cases h
  · rename_i p hp
    cases st with
    | lift =>
      simp only at h ⊢
      obtain ⟨evs, key⟩ := State.completeLift_dresses s t p value
      injection h with h; injection h with ha hb; subst ha hb
      exact ⟨evs, fun o => congrArg (fun x => Except.ok (x, Answer.mk .ok tag 0)) (key o)⟩
    | jog =>
      simp only at h ⊢
      obtain ⟨_, evs, key⟩ := State.completeJog_settled s t p tag value
      injection h with h
      rw [h] at key
      exact ⟨evs, key⟩
    | knife =>
      simp only at h ⊢
      cases hk : s.completeKnife t p with
      | error f => rw [hk] at h; cases h
      | ok s1 =>
        rw [hk] at h
        obtain ⟨evs, key⟩ := State.completeKnife_settled s t p hk
        injection h with h; injection h with ha hb; subst ha hb
        exact ⟨evs, fun o => by rw [key]⟩
    | turn =>
      simp only at h ⊢
      injection h with h; injection h with ha hb; subst ha hb
      exact ⟨[], fun _ => rfl⟩

theorem State.expireJob_dresses (s : State) (st : Station) : Dresses (fun x => x.expireJob st) s := by
  have h : ∀ o, (s.dress o).ctx st = s.ctx st := fun _ => rfl
  cases ht : (s.ctx st).tag with
  | none => exact Dresses.quiet fun o => by simp only [State.expireJob, h, ht]; rfl
  | some t =>
    obtain ⟨evs, key⟩ := (State.failJob_dresses s st t .timeout).comp
      (g := fun x => x.putCtx st { x.ctx st with lastExpired := some t }) (Dresses.quiet fun _ => rfl)
    exact ⟨evs, fun o => by simpa only [State.expireJob, h, ht] using key o⟩

end Sys2Proof.Machine
end

