-- ==== Sys2Proof/Laws/Operands.lean ====
section
/-! SUPPORT. Which numbers name tags and programs. -/

namespace Sys2Proof.Machine

theorem tagOfNum_none {n : Nat} (h : n = 0 ∨ 32 < n) : tagOfNum n = none := by
  unfold tagOfNum
  rw [dif_neg]
  omega

theorem tagOfNum_some {n : Nat} {t : Tag} (h : n = tagNum t) : tagOfNum n = some t := by
  have := t.isLt
  unfold tagOfNum tagNum at *
  rw [dif_pos (by omega)]
  congr
  omega

@[simp] theorem tagOfNum_tagField (t : Tag) : tagOfNum (tagField t).toNat = some t := by
  have := t.isLt
  apply tagOfNum_some
  simp [tagField, tagNum]
  omega

/-- A number names the tag of that number, or it lies outside 1..32. -/
theorem tagOfNum_cases (n : Nat) :
    (∃ t, n = tagNum t ∧ tagOfNum n = some t) ∨ ((n = 0 ∨ 32 < n) ∧ tagOfNum n = none) := by
  by_cases h : n = 0 ∨ 32 < n
  · exact .inr ⟨h, tagOfNum_none h⟩
  · have h' : n = tagNum ⟨n - 1, by omega⟩ := by unfold tagNum; simp only; omega
    exact .inl ⟨_, h', tagOfNum_some h'⟩

theorem progOfNum_none {n : Nat} (h : n = 0 ∨ 48 < n) : progOfNum n = none := by
  unfold progOfNum
  rw [dif_neg]
  omega

theorem progOfNum_some {n : Nat} {p : ProgNo} (h : n = progNum p) : progOfNum n = some p := by
  have := p.isLt
  unfold progOfNum progNum at *
  rw [dif_pos (by omega)]
  congr
  omega

end Sys2Proof.Machine
end

