-- ==== Sys2Proof/Laws/Ops.lean ====
section
/-! SUPPORT. What reading a record, a context or a tag gives after each write, and what a failed job, an
allocation and a report's tag come to, each said once. -/

namespace Sys2Proof.Machine

/-! ### Reads after writes -/

@[simp] theorem State.putPile_pile (s : State) (t : Tag) (p : Option Pile) : (s.putPile t p).pile t = p := by
  simp [State.putPile, State.pile]

theorem State.putPile_pile_other (s : State) {t u : Tag} (p : Option Pile) (h : t ≠ u) :
    (s.putPile t p).pile u = s.pile u := by
  simp [State.putPile, State.pile, look_put_other _ _ h]

theorem State.modifyPile_some (s : State) (t : Tag) (f : Pile → Pile) {p : Pile} (h : s.pile t = some p) :
    s.modifyPile t f = s.putPile t (some (f p)) := by
  simp [State.modifyPile, h]

theorem put_put {α : Type} {n : Nat} (v : Vector α n) (i : Fin n) (x y : α) :
    put (put v i x) i y = put v i y := by
  simp [put]

@[simp] theorem State.putPile_putPile (s : State) (t : Tag) (p q : Option Pile) :
    (s.putPile t p).putPile t q = s.putPile t q := by
  simp [State.putPile, put_put]

theorem Station.ix_ne {a b : Station} (h : a ≠ b) : a.ix ≠ b.ix := by
  cases a <;> cases b <;> first | exact absurd rfl h | decide

@[simp] theorem State.putCtx_ctx (s : State) (st : Station) (c : Context) : (s.putCtx st c).ctx st = c := by
  simp [State.putCtx, State.ctx]

theorem State.putCtx_ctx_other (s : State) {a b : Station} (c : Context) (h : a ≠ b) :
    (s.putCtx a c).ctx b = s.ctx b := by
  simp [State.putCtx, State.ctx, look_put_other _ _ (Station.ix_ne h)]

@[simp] theorem State.putCtx_putCtx (s : State) (st : Station) (c d : Context) :
    (s.putCtx st c).putCtx st d = s.putCtx st d := by
  simp [State.putCtx, put_put]

theorem put_look {α : Type} {n : Nat} (v : Vector α n) (i : Fin n) : put v i (look v i) = v := by
  simp [put, look]

@[simp] theorem State.acceptFrame_ctx (s : State) (p : Port) (st : Station) :
    (s.acceptFrame p).ctx st = s.ctx st := rfl
@[simp] theorem State.acceptFrame_pile (s : State) (p : Port) (t : Tag) :
    (s.acceptFrame p).pile t = s.pile t := rfl
@[simp] theorem State.acceptFrame_entry (s : State) (p : Port) (q : ProgNo) :
    (s.acceptFrame p).entry q = s.entry q := rfl
@[simp] theorem State.acceptFrame_stepAt (s : State) (p : Port) (x : Pile) :
    (s.acceptFrame p).stepAt x = s.stepAt x := rfl
@[simp] theorem State.acceptFrame_palletOf (s : State) (p : Port) (n : Nat) :
    (s.acceptFrame p).palletOf n = s.palletOf n := rfl

/-! ### Raising -/

/-- Nothing but the Event Queue and DROPPED depends on an event raised. -/
theorem State.raise_frame (s : State) (ev : Event) :
    s.raise ev = { s with events := (s.raise ev).events, dropped := (s.raise ev).dropped } := by
  unfold State.raise
  split <;> rfl

/-- An event raised, field by field. -/
theorem State.raise_fields (s : State) (ev : Event) :
    s.raise ev = { s with
      events := if s.events.length < 32 then s.events ++ [ev] else s.events
      dropped := if s.events.length < 32 then s.dropped else true } := by
  unfold State.raise
  split <;> rfl

@[simp] theorem State.raise_ctx (s : State) (ev : Event) (st : Station) :
    (s.raise ev).ctx st = s.ctx st := by
  rw [State.raise_frame]; rfl

@[simp] theorem State.raise_pile (s : State) (ev : Event) (t : Tag) : (s.raise ev).pile t = s.pile t := by
  rw [State.raise_frame]; rfl

/-! ### What a selection can change -/

/-- But for piles, their places, reservations, accounts, uses and events a state is as another was. -/
def SelectionFrame (s u : State) : Prop :=
  u = { s with
    piles := u.piles, allocPtr := u.allocPtr, jogQueue := u.jogQueue, knifeQueue := u.knifeQueue
    returnLane := u.returnLane, turnQueue := u.turnQueue, returnStack := u.returnStack
    reservedRecords := u.reservedRecords, reservedSlots := u.reservedSlots, knifePile := u.knifePile
    pallets := u.pallets, useCounts := u.useCounts, events := u.events, dropped := u.dropped }

theorem SelectionFrame.trans {s u v : State} (h : SelectionFrame s u) (h' : SelectionFrame u v) :
    SelectionFrame s v := by
  unfold SelectionFrame at *
  rw [h'] at *
  rw [h]

theorem State.raise_selectionFrame (s : State) (ev : Event) : SelectionFrame s (s.raise ev) := by
  unfold SelectionFrame State.raise
  split <;> rfl

theorem State.chosen_frame {s s1 : State} {t : Tag} (h : s.chosen = some (t, s1)) : SelectionFrame s s1 := by
  unfold State.chosen State.arbiter at h
  split at h
  · injection h with h; injection h with _ h; subst h; rfl
  · split at h
    · injection h with h; injection h with _ h; subst h; rfl
    · split at h
      · injection h with h; injection h with _ h; subst h; rfl
      · split at h
        · injection h with h; injection h with _ h; subst h; rfl
        · cases h

theorem State.dispatchHold_frame (s : State) (t : Tag) (r : HoldReason) :
    SelectionFrame s (s.dispatchHold t r) := by
  unfold State.dispatchHold State.holdPile
  have h1 : SelectionFrame s (s.modifyPile t fun p =>
    { p with residency := .held, hold := some { reason := r, station := .knife } }) := rfl
  have h2 := h1.trans (State.raise_selectionFrame _ (.held t r .knife))
  exact h2.trans rfl

theorem State.cutIssue_frame (s : State) (t : Tag) (p : Pile) (j : KnifeJob) :
    SelectionFrame s (s.cutIssue t p j) := by
  unfold State.cutIssue
  dsimp only
  have h1 : ∀ x : State, SelectionFrame s x →
      SelectionFrame s (if j.limited then x.raise (.targetLimited t p.cursor) else x) := by
    intro x hx
    split
    · exact hx.trans (State.raise_selectionFrame _ _)
    · exact hx
  apply h1
  split <;> rfl

/-- The state of a dispatch's result. -/
def Dispatched.state : Dispatched → State
  | .job s _ _ => s
  | .held s => s

theorem State.dispatch_frame {s : State} {t : Tag} {p : Pile} {d : Dispatched}
    (h : s.dispatch t p = .ok d) : SelectionFrame s d.state := by
  unfold State.dispatch at h
  split at h
  · cases h
  · split at h
    · injection h with h; subst h; rfl
    · split at h
      · injection h with h; subst h; exact State.dispatchHold_frame _ _ _
      · split at h
        · injection h with h; subst h; exact State.dispatchHold_frame _ _ _
        · injection h with h; subst h; exact State.cutIssue_frame _ _ _ _
  · injection h with h; subst h; rfl
  · injection h with h; subst h; rfl
  · injection h with h; subst h; rfl

theorem State.knifeSearch_frame (fuel : Nat) : ∀ {s u : State} {r : Option (Tag × Job)},
    State.knifeSearch fuel s = .ok (u, r) → SelectionFrame s u := by
  induction fuel with
  | zero => intro s u r h; injection h with h; injection h with h _; subst h; rfl
  | succ n ih =>
    intro s u r h
    rw [State.knifeSearch_succ] at h
    split at h
    · injection h with h; injection h with h _; subst h; rfl
    · rename_i t s1 hc
      split at h
      · cases h
      · rename_i p hp
        have h1 := State.chosen_frame hc
        split at h
        · cases h
        · rename_i s2 t2 j hd
          injection h with h; injection h with h _; subst h
          exact h1.trans (State.dispatch_frame hd)
        · rename_i s2 hd
          exact (h1.trans (State.dispatch_frame hd)).trans (ih h)

/-- All that a station's selection can change. -/
theorem State.select_frame {s u : State} {st : Station} {r : Option (Tag × Job)}
    (h : s.select st = .ok (u, r)) : SelectionFrame s u := by
  cases st with
  | lift =>
    simp only [State.select, State.selectLift] at h
    split at h
    · split at h <;> (injection h with h; injection h with h _; subst h; rfl)
    · injection h with h; injection h with h _; subst h; rfl
  | jog =>
    simp only [State.select, State.selectJog] at h
    split at h
    · injection h with h; injection h with h _; subst h; rfl
    · split at h
      · cases h
      · injection h with h; injection h with h _; subst h; rfl
  | knife => exact State.knifeSearch_frame _ h
  | turn =>
    simp only [State.select, State.selectTurn] at h
    split at h
    · injection h with h; injection h with h _; subst h; rfl
    · split at h
      · cases h
      · injection h with h; injection h with h _; subst h; rfl

/-! ### Jobs that end -/

theorem State.endJob_eq (s : State) (st : Station) : s.endJob st = s.putCtx st (endedContext (s.ctx st)) :=
  rfl

/-- A TRANSFER_TURN job is in flight exactly where its job record says so. -/
theorem State.dropKnifeTurn_eq (s : State) (t : Tag) :
    s.dropKnifeTurn t =
      if isTransferTurn (s.ctx .knife).job = true then
        s.modifyPile t fun p => { p with pendingTurn := none }
      else s := by
  unfold State.dropKnifeTurn State.knifeJob
  cases (s.ctx .knife).job with
  | knife j =>
    obtain ⟨kind, _, _, _, _, _, _, _, _⟩ := j
    cases kind <;> rfl
  | none => rfl
  | lift => rfl
  | jog => rfl
  | turn => rfl

theorem State.dropKnifeTurn_pile (s : State) (t : Tag) {p : Pile} (h : s.pile t = some p) :
    s.dropKnifeTurn t = s.putPile t (some { p with
      pendingTurn := if isTransferTurn (s.ctx .knife).job = true then none else p.pendingTurn }) := by
  rw [State.dropKnifeTurn_eq]
  split
  · rw [State.modifyPile_some _ _ _ h]
  · unfold State.putPile
    have : s.piles = put s.piles t (some p) := by
      have h' : look s.piles t = some p := h
      rw [← h', put_look]
    rw [← this]

/-- What a job that ends with its pile held comes to at every station (R66, R72). -/
theorem State.failJob_eq (s : State) (st : Station) (t : Tag) (r : HoldReason) {p : Pile}
    (h : s.pile t = some p) :
    s.failJob st t r = heldOff s st t p r (s.ctx st).lastExpired := by
  cases st with
  | lift =>
    simp only [State.failJob, State.holdPile, State.modifyPile_some _ _ _ h]
    unfold State.endJob heldOff
    simp
    rfl
  | jog =>
    simp only [State.failJob, State.holdPile, State.modifyPile_some _ _ _ h]
    unfold State.endJob heldOff
    simp
    rfl
  | turn =>
    simp only [State.failJob, State.holdPile, State.modifyPile_some _ _ _ h]
    unfold State.endJob heldOff
    simp
    rfl
  | knife =>
    simp only [State.failJob, State.holdPile, State.dropKnifeTurn_pile s t h]
    rw [State.modifyPile_some _ _ _ (State.putPile_pile _ _ _), State.putPile_putPile]
    unfold State.endJob heldOff State.dropReservation
    simp only [State.raise_eq, true_and, if_true]
    rfl

/-! ### Allocation (R8) -/

theorem mem_allTags (t : Tag) : t ∈ allTags := List.mem_finRange t

/-- The k-th tag of the rotation is the one at distance k behind the pointer. -/
theorem tagOrder_get (ptr : Option Tag) (k : Nat) (hk : k < (tagOrder ptr).length) :
    tagDistance ptr (tagOrder ptr)[k] = k := by
  have hl : (tagOrder ptr).length = 32 := by simp [tagOrder]
  rw [hl] at hk
  cases ptr with
  | none => simp [tagOrder, tagDistance]; omega
  | some a =>
    have := a.isLt
    simp [tagOrder, tagDistance]
    omega

theorem tagDistance_inj (ptr : Option Tag) {t u : Tag} (h : tagDistance ptr t = tagDistance ptr u) :
    t = u := by
  apply Fin.ext
  have h1 := t.isLt
  have h2 := u.isLt
  cases ptr with
  | none => exact h
  | some a => have := a.isLt; simp only [tagDistance] at h; omega

theorem tagDistance_lt (ptr : Option Tag) (t : Tag) : tagDistance ptr t < 32 := by
  have h1 := t.isLt
  cases ptr with
  | none => exact h1
  | some a => simp only [tagDistance]; omega

/-- The tag that R8 describes is the one the search finds. -/
theorem State.nextTag_of_nextFree {s : State} {t : Tag} (h : NextFree s t) : s.nextTag = some t := by
  have hl : (tagOrder s.allocPtr).length = 32 := by simp [tagOrder]
  have hd := tagDistance_lt s.allocPtr t
  have ht : (tagOrder s.allocPtr)[tagDistance s.allocPtr t] = t :=
    tagDistance_inj s.allocPtr (tagOrder_get _ _ _)
  unfold State.nextTag
  rw [List.find?_eq_some_iff_getElem]
  refine ⟨by simp [h.1], tagDistance s.allocPtr t, by omega, ht, fun j hj => ?_⟩
  have := h.2 (tagOrder s.allocPtr)[j] (by rw [tagOrder_get]; exact hj)
  simpa [Option.isSome_iff_ne_none] using this

/-- Where a tag is free one is found, the one that R8 describes. -/
theorem State.nextFree_of_nextTag {s : State} {t : Tag} (h : s.nextTag = some t) : NextFree s t := by
  unfold State.nextTag at h
  rw [List.find?_eq_some_iff_getElem] at h
  obtain ⟨h1, i, hi, rfl, h2⟩ := h
  refine ⟨by simpa using h1, fun u hu => ?_⟩
  rw [tagOrder_get] at hu
  have hl : (tagOrder s.allocPtr).length = 32 := by simp [tagOrder]
  have hj := tagDistance_lt s.allocPtr u
  have he : (tagOrder s.allocPtr)[tagDistance s.allocPtr u] = u :=
    tagDistance_inj s.allocPtr (tagOrder_get _ _ _)
  have h3 : (!(s.pile u).isNone) = true := (congrArg (fun x => (!(s.pile x).isNone) = true) he).mp (h2 _ hu)
  intro hn
  rw [hn] at h3
  cases h3

/-! ### Reports -/

/-- A report of the job in flight is taken as the job's. -/
theorem State.reportVerdict_current {s : State} {st : Station} {t : Tag} (hb : (s.ctx st).busy = true)
    (ht : (s.ctx st).tag = some t) : s.reportVerdict st (tagField t) true = .current t := by
  simp [State.reportVerdict, hb, ht]

end Sys2Proof.Machine
end

