-- ==== Sys2Proof/Laws/Frames.lean ====
section
/-! SUPPORT. All that each shared operation can change: the Store Controller's next write, the latch tests, the
blade counter's rise, the freeing of a record, and a failed job. -/

namespace Sys2Proof.Machine

/-- The start of the Store Controller's next write changes only what belongs to it. -/
theorem State.startNext_frame (s : State) :
    s.startNext = { s with
      nv := s.startNext.nv, storeWrite := s.startNext.storeWrite, progOp := s.startNext.progOp
      bladeSave := s.startNext.bladeSave, freeCtr := s.startNext.freeCtr } := by
  unfold State.startNext
  split
  · split
    · split
      · split
        · rfl
        · unfold State.startOp
          split
          · rfl
          · dsimp only
            split
            · rfl
            · unfold State.startBlockWrite
              split <;> rfl
      · rfl
    · split <;> rfl
  · rfl

theorem State.warnTest_frame (s : State) :
    s.warnTest = { s with
      blade := s.warnTest.blade, events := s.warnTest.events, dropped := s.warnTest.dropped } := by
  unfold State.warnTest
  split
  · rw [State.raise_fields]
  · rfl

theorem State.overdueTest_frame (s : State) :
    s.overdueTest = { s with
      blade := s.overdueTest.blade, events := s.overdueTest.events, dropped := s.overdueTest.dropped } := by
  unfold State.overdueTest
  split
  · rw [State.raise_fields]
  · rfl

/-- A latch test changes only the latches and the Event Queue. -/
theorem State.bladeTest_frame (s : State) :
    s.bladeTest = { s with
      blade := s.bladeTest.blade, events := s.bladeTest.events, dropped := s.bladeTest.dropped } := by
  rw [State.bladeTest_eq, State.overdueTest_frame, State.warnTest_frame]

/-- The blade counter's rise changes only the Blade Monitor, the Event Queue and the Store Controller. -/
theorem State.bladeRise_frame (s : State) :
    s.bladeRise = { s with
      blade := s.bladeRise.blade, events := s.bladeRise.events, dropped := s.bladeRise.dropped
      nv := s.bladeRise.nv, storeWrite := s.bladeRise.storeWrite, progOp := s.bladeRise.progOp
      bladeSave := s.bladeRise.bladeSave, freeCtr := s.bladeRise.freeCtr } := by
  unfold State.bladeRise
  split
  · rfl
  · dsimp only
    split
    · rw [State.bladeTest_frame]
      simp only [State.requestBladeSave]
      rw [State.startNext_frame]
    · rw [State.bladeTest_frame]

/-- The finish test changes only the Pallet Table, the Last Pallet Report, use counts and the Event Queue. -/
theorem State.finishTest_frame (s : State) (n : Nat) :
    s.finishTest n = { s with
      pallets := (s.finishTest n).pallets, lastReport := (s.finishTest n).lastReport
      useCounts := (s.finishTest n).useCounts, events := (s.finishTest n).events
      dropped := (s.finishTest n).dropped } := by
  unfold State.finishTest
  split
  · rfl
  · split
    · rw [State.raise_fields]; rfl
    · rfl

/-- Freeing a record changes only the record, the Pallet Table, the Last Pallet Report, use counts and the
Event Queue. -/
theorem State.freeRecord_frame (s : State) (t : Tag) (account : Nat → Pallet → Pallet) :
    s.freeRecord t account = { s with
      piles := put s.piles t none
      pallets := (s.freeRecord t account).pallets, lastReport := (s.freeRecord t account).lastReport
      useCounts := (s.freeRecord t account).useCounts, events := (s.freeRecord t account).events
      dropped := (s.freeRecord t account).dropped } := by
  unfold State.freeRecord
  split
  · rename_i h
    have h' : look s.piles t = none := h
    rw [← h', put_look]
  · rw [State.finishTest_frame]; rfl

@[simp] theorem State.freeRecord_ctx (s : State) (t : Tag) (account : Nat → Pallet → Pallet) (st : Station) :
    (s.freeRecord t account).ctx st = s.ctx st := by
  rw [State.freeRecord_frame]; rfl

/-- A job that ends with its pile held changes the Pile Table, the Event Queue and its station's context, and at
the knife the knife pile and the reservation. -/
theorem State.failJob_frame (s : State) (st : Station) (t : Tag) (r : HoldReason) :
    s.failJob st t r = { s with
      piles := (s.failJob st t r).piles, contexts := (s.failJob st t r).contexts
      knifePile := (s.failJob st t r).knifePile, reservedRecords := (s.failJob st t r).reservedRecords
      reservedSlots := (s.failJob st t r).reservedSlots, events := (s.failJob st t r).events
      dropped := (s.failJob st t r).dropped } := by
  cases st with
  | lift => simp only [State.failJob, State.holdPile, State.raise_fields]; rfl
  | jog => simp only [State.failJob, State.holdPile, State.raise_fields]; rfl
  | turn => simp only [State.failJob, State.holdPile, State.raise_fields]; rfl
  | knife =>
    simp only [State.failJob, State.holdPile, State.raise_fields, State.dropKnifeTurn_eq]
    split <;> rfl

/-- A job that ends touches no other station's context. -/
theorem State.failJob_ctx_other (s : State) {st st' : Station} (t : Tag) (r : HoldReason) (h : st ≠ st') :
    (s.failJob st t r).ctx st' = s.ctx st' := by
  have key : ∀ x : State, x.contexts = s.contexts → (x.endJob st).ctx st' = s.ctx st' := by
    intro x hx
    rw [State.endJob_eq, State.putCtx_ctx_other _ _ h]
    simp only [State.ctx, hx]
  cases st with
  | lift => exact key _ (by simp only [State.holdPile, State.raise_fields]; rfl)
  | jog => exact key _ (by simp only [State.holdPile, State.raise_fields]; rfl)
  | turn => exact key _ (by simp only [State.holdPile, State.raise_fields]; rfl)
  | knife =>
    exact key (((s.dropKnifeTurn t).holdPile t r .knife).dropReservation) (by
      simp only [State.holdPile, State.raise_fields, State.dropKnifeTurn_eq]
      split <;> rfl)

end Sys2Proof.Machine
end

