-- ==== Sys2Proof/Laws/Layout.lean ====
section
/-! SUPPORT. The fields of a packed step as numbers (section 11.4), and the bits of the two checks. -/

namespace Sys2Proof.Machine

theorem stepKind_eq (w : PackedStep) : stepKind w = w.toNat / 2 ^ 29 := by
  simp [stepKind, Nat.shiftRight_eq_div_pow]
  omega

theorem stepKeep_eq (w : PackedStep) : stepKeep w = decide (w.toNat / 2 ^ 26 % 2 = 1) := by
  have h : (w.extractLsb' 26 1 == 1#1) = decide ((w.extractLsb' 26 1).toNat = 1) := by
    rw [Bool.eq_iff_iff, beq_iff_eq, decide_eq_true_iff, BitVec.toNat_eq]
    rfl
  rw [stepKeep, h]
  simp only [BitVec.extractLsb'_toNat, Nat.shiftRight_eq_div_pow, Nat.pow_one]

theorem stepDistance_eq (w : PackedStep) : stepDistance w = w.toNat / 2 ^ 8 % 2 ^ 18 := by
  simp [stepDistance, Nat.shiftRight_eq_div_pow]

theorem stepEntry_eq (w : PackedStep) : stepEntry w = w.toNat % 2 ^ 8 := by
  simp [stepEntry]

theorem stepEdge_eq (w : PackedStep) {edge : Edge} (h : edgeCode edge = w.toNat / 2 ^ 27 % 4) :
    stepEdge w = edge := by
  rw [stepEdge, show (w.extractLsb' 27 2).toNat = w.toNat / 2 ^ 27 % 4 by
    simp [Nat.shiftRight_eq_div_pow], ← h]
  cases edge <;> rfl

/-- The bits below the kind are all 0 (R33). -/
theorem stepRest_zero (w : PackedStep) : w.extractLsb' 0 29 = 0#29 ↔ w.toNat % 2 ^ 29 = 0 := by
  simp [BitVec.toNat_eq]

/-- One bit of the check of R161, by the bit that enters and the most significant bit. -/
theorem crc8Bit_eq (c : BitVec 8) (b : Bool) :
    crc8Bit c b = if c.msb = b then c <<< 1 else (c <<< 1) ^^^ 0x2F#8 := by
  rw [crc8Bit]
  cases c.msb <;> cases b <;> simp

/-- One bit of the program check of R136, by the bit that enters and the most significant bit. -/
theorem crc16Bit_eq (c : BitVec 16) (b : Bool) :
    crc16Bit c b = if c.msb = b then c <<< 1 else (c <<< 1) ^^^ 0x1021#16 := by
  rw [crc16Bit]
  cases c.msb <;> cases b <;> simp

end Sys2Proof.Machine
end

