-- ==== Sys2Proof/Laws/Store.lean ====
section
/-! SUPPORT. The Program Store and the start-up scan: what marking blocks and programs, several events raised in
order, and the start of a block write come to. -/

namespace Sys2Proof.Machine

/-- Marked blocks have the new state, and every other block its own. -/
theorem markBlocks_look (v : Vector BlockState 64) (bs : List BlockNo) (st : BlockState) (b : BlockNo) :
    look (markBlocks v bs st) b = if b ∈ bs then st else look v b := by
  induction bs generalizing v with
  | nil => rfl
  | cons x xs ih =>
    show look (markBlocks (put v x st) xs st) b = _
    rw [ih]
    by_cases h : b ∈ xs
    · simp [h]
    · by_cases hx : b = x
      · subst hx; simp [h]
      · simp only [h, List.mem_cons, hx, or_self, if_false]
        exact look_put_other v st (fun e => hx e.symm)

/-- Programs marked DAMAGED keep the rest of their entries, and every other program its whole entry. -/
theorem markDamaged_look (d : Directory) (ps : List ProgNo) (p : ProgNo) :
    look (markDamaged d ps).entries p =
      if p ∈ ps then { look d.entries p with state := .damaged } else look d.entries p := by
  show look (ps.foldl (fun v p => put v p { look v p with state := .damaged }) d.entries) p = _
  generalize d.entries = v
  induction ps generalizing v with
  | nil => rfl
  | cons x xs ih =>
    rw [List.foldl_cons, ih]
    by_cases hx : p = x
    · subst hx; simp
    · rw [look_put_other _ _ (fun e => hx e.symm)]
      simp [hx]

/-- A block list is damaged from a position on where a block is not USED or has not the header of its place
(R147 step 2). -/
theorem listDamaged_iff (nv : NvMemory) (d : Directory) (p : ProgNo) (bs : List BlockNo) (k : Nat) :
    listDamaged nv d p k bs = true ↔
      (∃ b ∈ bs, look d.blocks b ≠ .used) ∨
        (∃ i b, bs[i]? = some b ∧ (look nv.blocks b).header ≠ some (progNum p, k + i)) := by
  induction bs generalizing k with
  | nil => simp [listDamaged]
  | cons x xs ih =>
    simp only [listDamaged, Bool.or_eq_true, ih, bne_iff_ne]
    constructor
    · rintro ((h | h) | h | h)
      · exact .inl ⟨x, by simp, h⟩
      · exact .inr ⟨0, x, by simp, by simpa using h⟩
      · obtain ⟨b, hb, h⟩ := h
        exact .inl ⟨b, by simp [hb], h⟩
      · obtain ⟨i, b, hb, h⟩ := h
        exact .inr ⟨i + 1, b, by simpa using hb, by rw [show k + (i + 1) = k + 1 + i by omega]; exact h⟩
    · rintro (⟨b, hb, h⟩ | ⟨i, b, hb, h⟩)
      · rcases List.mem_cons.1 hb with rfl | hb
        · exact .inl (.inl h)
        · exact .inr (.inl ⟨b, hb, h⟩)
      · cases i with
        | zero => simp at hb; subst hb; exact .inl (.inr (by simpa using h))
        | succ i =>
          exact .inr (.inr ⟨i, b, by simpa using hb, by
            rw [show k + 1 + i = k + (i + 1) by omega]; exact h⟩)

/-- Events raised in order fill the queue up to 32; one more sets DROPPED (R167). -/
theorem State.raiseAll_eq (evs : List Event) (s : State) (h : s.events.length ≤ 32) :
    s.raiseAll evs = { s with
      events := (s.events ++ evs).take 32
      dropped := s.dropped || decide (32 < s.events.length + evs.length) } := by
  induction evs generalizing s with
  | nil =>
    have : ¬ 32 < s.events.length := by omega
    simp [State.raiseAll, this, List.take_of_length_le h]
  | cons e evs ih =>
    rw [show s.raiseAll (e :: evs) = (s.raise e).raiseAll evs from rfl]
    by_cases hl : s.events.length < 32
    · rw [show s.raise e = { s with events := s.events ++ [e] } by simp [State.raise, hl],
        ih _ (by simp; omega)]
      simp [Nat.add_assoc, Nat.add_comm 1]
    · rw [show s.raise e = { s with dropped := true } by simp [State.raise, hl],
        ih { s with dropped := true } h]
      have h32 : s.events.length = 32 := by omega
      have full (l : List Event) : (s.events ++ l).take 32 = s.events := by
        rw [List.take_append_of_le_length (by omega), List.take_of_length_le (by omega)]
      simp [full, h32]

/-- The start of a block write at a position of a commit's block list (R142). -/
theorem State.startBlockWrite_started (s : State) (op : ProgOp) (blocks : List BlockNo) (position : Nat)
    {b : BlockNo} (h : blocks[position]? = some b) :
    BlockStarted s (s.startBlockWrite op blocks position) op blocks position b := by
  unfold State.startBlockWrite
  rw [h]
  exact ⟨_, rfl⟩

end Sys2Proof.Machine
end

