-- ==== Sys2Proof/Laws/Timers.lean ====
section
/-! SUPPORT. The expiry of a station's response timer and the other stations' contexts: neither reads nor changes
the other, so that timers that come due at one tick expire one after another (R71, R72). -/

namespace Sys2Proof.Machine

theorem put_comm {α : Type} {n : Nat} (v : Vector α n) {i j : Fin n} (x y : α) (h : i ≠ j) :
    put (put v i x) j y = put (put v j y) i x := by
  apply Vector.ext
  intro k hk
  have h' : i.val ≠ j.val := fun e => h (Fin.ext e)
  simp only [put, Vector.getElem_set]
  split <;> split <;> first | rfl | omega

theorem State.putCtx_comm (s : State) {a b : Station} (c d : Context) (h : a ≠ b) :
    (s.putCtx a c).putCtx b d = (s.putCtx b d).putCtx a c := by
  simp only [State.putCtx, put_comm _ _ _ (Station.ix_ne h)]

theorem State.endJob_putCtx (s : State) {st other : Station} (c : Context) (h : other ≠ st) :
    (s.putCtx other c).endJob st = (s.endJob st).putCtx other c := by
  simp only [State.endJob_eq, State.putCtx_ctx_other _ _ h]
  exact State.putCtx_comm _ _ _ h

theorem State.holdPile_putCtx (s : State) (t : Tag) (r : HoldReason) (st other : Station) (c : Context) :
    (s.putCtx other c).holdPile t r st = (s.holdPile t r st).putCtx other c := by
  simp only [State.holdPile, State.raise_fields]
  rfl

theorem State.failJob_putCtx (s : State) {st other : Station} (t : Tag) (r : HoldReason) (c : Context)
    (h : other ≠ st) : (s.putCtx other c).failJob st t r = (s.failJob st t r).putCtx other c := by
  cases st with
  | lift => simp only [State.failJob, State.holdPile_putCtx, State.endJob_putCtx _ _ h]
  | jog => simp only [State.failJob, State.holdPile_putCtx, State.endJob_putCtx _ _ h]
  | turn => simp only [State.failJob, State.holdPile_putCtx, State.endJob_putCtx _ _ h]
  | knife =>
    have e : (((s.putCtx other c).dropKnifeTurn t).holdPile t r .knife).dropReservation =
        (((s.dropKnifeTurn t).holdPile t r .knife).dropReservation).putCtx other c := by
      simp only [State.dropKnifeTurn_eq, State.putCtx_ctx_other _ _ h, State.holdPile, State.raise_fields]
      split <;> rfl
    simp only [State.failJob, e, State.endJob_putCtx _ _ h]
    rfl

theorem State.expireJob_putCtx (s : State) {st other : Station} (c : Context) (h : other ≠ st) :
    (s.putCtx other c).expireJob st = (s.expireJob st).putCtx other c := by
  simp only [State.expireJob, State.putCtx_ctx_other _ _ h]
  split
  · exact State.endJob_putCtx _ _ h
  · rw [State.failJob_putCtx _ _ _ _ h]
    simp only [State.putCtx_ctx_other _ _ h]
    exact State.putCtx_comm _ _ _ h

theorem State.expireJob_ctx_other (s : State) {st other : Station} (h : st ≠ other) :
    (s.expireJob st).ctx other = s.ctx other := by
  simp only [State.expireJob]
  split
  · rw [State.endJob_eq, State.putCtx_ctx_other _ _ h]
  · rw [State.putCtx_ctx_other _ _ h, State.failJob_ctx_other _ _ _ h]

/-- The drain looks at no more of a context than whether it is BUSY. -/
theorem State.drained_putCtx (s : State) (other : Station) (c : Context)
    (hb : c.busy = (s.ctx other).busy) : (s.putCtx other c).drained = s.drained := by
  have h : ∀ st, ((s.putCtx other c).ctx st).busy = (s.ctx st).busy := by
    intro st
    by_cases e : other = st
    · subst e; rw [State.putCtx_ctx, hb]
    · rw [State.putCtx_ctx_other _ _ e]
  unfold State.drained
  simp only [h]
  rfl

/-- An expiry always comes to a state, HALT, the output lines and the other stations' contexts unchanged. -/
theorem expire_ok (s : State) (st : Station) :
    ∃ t, expire st s = .ok (t, ()) ∧ t.halt = s.halt ∧ t.pins = s.pins ∧
      ∀ other, st ≠ other → t.ctx other = s.ctx other := by
  have h : (s.expireJob st).halt = s.halt ∧ (s.expireJob st).pins = s.pins := by
    simp only [State.expireJob]
    split
    · exact ⟨rfl, rfl⟩
    · rw [State.failJob_frame]
      exact ⟨rfl, rfl⟩
  simp only [expire, withDrain]
  split <;> exact ⟨_, rfl, h.1, h.2, fun _ ho => State.expireJob_ctx_other s ho⟩

/-- An expiry comes to the same whatever a context of another station holds, its BUSY apart. -/
theorem expire_putCtx (s : State) {st other : Station} (c : Context) (h : other ≠ st)
    (hb : c.busy = (s.ctx other).busy) {t : State} (he : expire st s = .ok (t, ())) :
    expire st (s.putCtx other c) = .ok (t.putCtx other c, ()) := by
  have hdr : ((s.expireJob st).putCtx other c).drained = (s.expireJob st).drained :=
    State.drained_putCtx _ _ _ (by rw [State.expireJob_ctx_other _ (Ne.symm h), hb])
  simp only [expire, withDrain, State.expireJob_putCtx _ _ h, hdr] at he ⊢
  split at he
  · rename_i hd
    have hr : ((s.putCtx other c).raise .lineStopped).expireJob st =
        ((s.raise .lineStopped).expireJob st).putCtx other c := by
      rw [← State.expireJob_putCtx _ _ h]
      congr 1
      simp only [State.raise_fields]
      rfl
    simp only [hd, if_true, hr]
    injection he with he; injection he with he _; subst he
    simp only [State.raise_fields]
    rfl
  · rename_i hd
    simp only [hd]
    injection he with he; injection he with he _; subst he; rfl

end Sys2Proof.Machine
end

