-- ==== Sys2Proof/Tests/Slice0.lean ====
section
/-! SUPPORT. Tests on the manual's worked figures and small states, and for each statement with
hypotheses a witness: a concrete state and operands that meet them all. -/

namespace Sys2Proof.Machine.Tests

/-! ### Small states -/

/-- What a command leaves, read by `f`; none when it does not answer a next state. -/
def after {α : Type} (c : Instr) (s : State) (f : State → α) : Option α :=
  match exec c s with
  | .next t => some (f t)
  | .fault _ => none
  | .refused _ => none

/-- The result, the tag and the data of the reply waiting on a port. -/
def waits (p : Port) (t : State) : Option (Result × TagField × Data) :=
  (t.port p).slot.map fun r => (r.result, r.tag, r.data)

/-- The packed steps of the four-up program (section 2.7). -/
def fourUp : List PackedStep :=
  [0x20a60400, 0x309c4000, 0x344e2003, 0x38f23000, 0x28ea6000, 0x2c753006, 0x80000000]

/-- The part after its start-up scan, with the four-up program in block 0 as program 1. -/
def stocked : State :=
  let dir : Directory :=
    { Directory.formatted with
      entries := put Directory.formatted.entries 0
        { state := .valid, count := 7, check := 0x02c5, blocks := [0] }
      blocks := put Directory.formatted.blocks 0 .used }
  { State.reset with
    scan := .off
    line := .run
    work := dir
    nv := { NvMemory.formatted with
      copyA := { checkOk := true, generation := 1, dir := dir }
      blocks := put NvMemory.formatted.blocks 0 { header := some (1, 0), steps := fourUp } } }

/-- A pallet of the four-up sheet, as the worked figures of chapter 3 declare it: 4813 sheets of 115 µm. -/
def freshPallet : Pallet :=
  { seq := 1, program := 0, cls := 0, caliper := 115, extentNS := 45000, extentEW := 64000
    gauge := .n, face := .up, declared := 4813, remaining := 4813, lifted := 0, cancelled := 0, live := 0
    liftsIssued := 0, delivered := 0, scrapped := 0 }

/-- A pile of it of height 111.90 mm in a residency. -/
def pileIn (r : Residency) : Pile :=
  { residency := r, pallet := 1, liftNumber := 1, parent := none, program := 0, cursor := 0, cls := 0
    sheets := 963, height := 11190, depth := 45000, width := 64000, gauge := .n, face := .up
    started := false, attempt := 0, pendingTurn := none, caliperDev := false, limitedSeen := false
    hold := none }

/-- A held pile. -/
def heldAt (r : HoldReason) (st : Station) : Pile :=
  { pileIn .held with hold := some { reason := r, station := st } }

/-- A station's context with the job of a pile in flight, 9 tenths of a second left. -/
def inFlight (t : Tag) (j : Job) : Context :=
  { issuedContext Context.reset t j 600 with remaining := 9 }

/-- A pallet with so many piles of 963 sheets lifted. -/
def palletOf (piles : Nat) : Pallet :=
  { freshPallet with
    remaining := 4813 - piles * 963, lifted := piles * 963, live := piles, liftsIssued := piles }

/-- A knife job. -/
def knifeJobOf (kind : KnifeKind) (keep : Bool) : Job :=
  .knife
    { kind := kind, keep := keep, limited := false, capped := false, overdue := false, target := 20044
      force := 591, step := 2, program := 0 }

/-- A Pile Table with the records listed. -/
def tableOf (l : List (Tag × Pile)) : Vector (Option Pile) 32 :=
  l.foldl (fun v x => put v x.1 (some x.2)) (Vector.replicate 32 none)

/-- Every station with a job in flight: tag 1 at the lift, 2 at the jogger, 3 under the knife with a KEEP
cut, 4 at the turner; tag 5 held at KNIFE. -/
def working : State :=
  { stocked with
    piles := tableOf [(0, { pileIn .lifting with height := 0 }), (1, pileIn .jogging),
      (2, { pileIn .knifeJob with cursor := 2, gauge := .s, depth := 40000, started := true }),
      (3, { pileIn .turning with pendingTurn := some .cw, started := true }),
      (4, heldAt .cutBeyond .knife)]
    allocPtr := some 4
    knifePile := some 2
    reservedRecords := 1
    reservedSlots := 1
    contexts := #v[inFlight 0 (.lift 963 11075 1 1 0), inFlight 1 (.jog 20 3 1 963 11190 0),
      inFlight 2 (knifeJobOf .cut true), inFlight 3 (.turn (some .cw) 45000 64000 11190)]
    useCounts := put (Vector.replicate 48 0) 0 6
    pallets := [{ palletOf 5 with remaining := 0, declared := 4815 }]
    seqCounter := 1
    events := [.bladeWarn] }

/-- The stations idle: tag 1 waits for the jogger, 2 for the turner, 3 is under the knife, 4 waits for the
knife. -/
def waiting : State :=
  { stocked with
    piles := tableOf [(0, pileIn .jogWait),
      (1, { pileIn .turnWait with pendingTurn := some .half, started := true }),
      (2, { pileIn .atKnife with started := true }), (3, pileIn .knifeWait)]
    allocPtr := some 3
    jogQueue := [0]
    turnQueue := [1]
    knifePile := some 2
    knifeQueue := [3]
    useCounts := put (Vector.replicate 48 0) 0 5
    pallets := [palletOf 4]
    seqCounter := 1 }

/-! ### Witnesses: states that the laws hold of -/

theorem up_working : working.Up := by unfold State.Up; decide

theorem up_waiting : waiting.Up := by unfold State.Up; decide

theorem selects_waiting (st : Station) : Selects waiting st := by
  unfold Selects Admits
  cases st <;> decide

theorem flies_working (st : Station) : ∃ p, InFlight working st
    (match st with
      | .lift => 0
      | .jog => 1
      | .knife => 2
      | .turn => 3) p := by
  unfold InFlight
  cases st <;> exact ⟨_, by decide, by decide, rfl⟩

theorem witness_LinkErrorLevelsStayInBounds :
    working.LinkInv ∧ ∃ t, step { working with pending := [.nop .lift] } = .next t := by
  refine ⟨fun p => ?_, _, rfl⟩
  unfold portOk
  cases p <;> decide

theorem witness_CountersStayInRange :
    working.RangesInv ∧ ∃ t, step { working with pending := [.eventRead 0] } = .next t := by
  refine ⟨?_, _, rfl⟩
  unfold State.RangesInv
  decide

theorem settings_default : settingsOk Settings.reset := by
  refine ⟨fun r => ?_, by decide, by decide, by decide⟩
  cases r with
  | stock c k => cases k <;> revert c <;> decide
  | knot k => revert k; decide
  | preset st => cases st <;> decide
  | hmax => decide
  | ocode => decide
  | infeed => decide
  | childReserve => decide
  | warn => decide
  | limit => decide

theorem witness_SettingsStayValid :
    working.SettingsInv ∧ ∃ t, step { working with pending := [.configWrite 6 0 0 1] } = .next t :=
  ⟨settings_default, _, rfl⟩

theorem places_working : working.PlaceInv := by
  refine ⟨?_, ?_, ?_, ?_, ?_, ?_, ?_, ?_⟩
  · unfold Holds; decide
  · unfold Holds; decide
  · unfold Holds; decide
  · unfold Holds; decide
  · unfold Holds; decide
  · decide
  · intro st; cases st <;> decide
  · intro st; cases st <;> decide

theorem witness_PilesStayInTheirPlaces :
    working.PlaceInv ∧ ∃ t, step { working with pending := [.done .knife 3 1 0] } = .next t :=
  ⟨places_working, _, rfl⟩

theorem reserve_working : working.ReserveInv := ⟨by decide, by decide, by decide, by decide⟩

theorem witness_ReservationsFollowKeepCuts :
    working.PlaceInv ∧ working.ReserveInv ∧
      ∃ t, step { working with pending := [.done .knife 3 1 0] } = .next t :=
  ⟨places_working, reserve_working, _, rfl⟩

theorem accounts_working : working.AccountsInv := by
  refine ⟨by decide, by decide, by decide, by decide, by decide, by decide, fun t p h => ?_⟩
  have all : ∀ t, (working.pile t).all (fun p => working.pallets.any fun q => q.seq = p.pallet) = true := by
    decide
  simpa [h] using all t

/-- `working` while the directory write that erases program 2 is in progress. -/
def erasing : State :=
  { working with
    progOp := some { program := 1, kind := .erase, stage := .eraseWrite }
    storeWrite := .directory .b 2 (eraseImage working.work 1) .operation false
    pending := [.directoryWriteDone true] }

theorem programs_erasing : erasing.ProgramsInv := by
  refine ⟨fun _ _ _ h => (nomatch h), ?_, by decide, .inl rfl, ?_⟩
  · rintro p h ⟨op, ho, rfl⟩
    cases ho
    exact absurd h (by decide)
  · intro v hv p hp
    cases hv
    have h : (1 : ProgNo) ≠ p := fun e => hp ⟨_, rfl, e⟩
    exact look_put_other _ _ h

theorem witness_AccountsCountRecordsAndSheets :
    (working.PlaceInv ∧ working.AccountsInv ∧ working.SheetsInv ∧
      ∃ t, step { working with pending := [.abort .lift 1] } = .next t) ∧
    (erasing.AccountsInv ∧ erasing.ProgramsInv ∧ ∃ t, step erasing = .next t) := by
  refine ⟨⟨places_working, accounts_working, ?_, _, rfl⟩, ?_, programs_erasing, _, rfl⟩
  · unfold State.SheetsInv
    decide
  · exact ⟨accounts_working.places, accounts_working.distinct, accounts_working.numbered,
      accounts_working.counter, accounts_working.uses, accounts_working.live, accounts_working.named⟩

theorem witness_RecordsAreAlwaysThere : working.PlaceInv ∧ working.ReserveInv :=
  ⟨places_working, reserve_working⟩

theorem witness_CompleteDrainsNeverWait :
    let s : State := { working with
      line := .draining, knifePile := none, pending := [.timebaseTick] }
    (¬ (s.line = .draining ∧ Drained s) ∧ ∃ t, step s = .next t) ∧
    (let s : State := { stocked with pending := [.lineStop 0] };
      ¬ (s.line = .draining ∧ Drained s) ∧ s.line ≠ .stopped ∧
        ∃ t, step s = .next t ∧ t.line = .stopped) := by
  refine ⟨⟨fun h => absurd (h.2.1 .lift) (by decide), _, rfl⟩, fun h => (nomatch h.1), by decide, _, rfl, ?_⟩
  decide

/-! ### Witnesses: commands and frames -/

theorem witness_CommandsKeepTheQueue : ∃ t, exec .haltAsserted working = .next t := ⟨_, rfl⟩

theorem witness_OutputLinesShowTheirConditions : ∃ t, exec .scanEnd State.reset = .next t := ⟨_, rfl⟩

theorem witness_AcceptedRequestsFormReplies :
    requestOf (.badCommand .jog 63 5) = some (.jog, 63, 5) ∧
      ∃ t, exec (.badCommand .jog 63 5) working = .next t :=
  ⟨rfl, _, rfl⟩

theorem witness_StartingAnswersNotReady :
    State.reset.line = .starting ∧ requestOf (.snapshot .turn 9) = some (.turn, 2, 9) ∧
      admits .turn 2 = true ∧ 2 ≤ (2 : BitVec 6).toNat ∧ (Instr.snapshot .turn 9).wellFormed = true ∧
      requestOf (.eventRead 63) = some (.plan, 33, 63) ∧ admits .plan 33 = true := by decide

theorem witness_DecodeReadsWhatEncodeSpells :
    (Instr.done .lift 5 1 11190).wellFormed = true ∧
      ∃ f, encodeRequest (.done .lift 5 1 11190) = some (.lift, f) :=
  ⟨rfl, _, rfl⟩

/-! ### Witnesses: NEXT and the selections -/

theorem witness_NextIsAnsweredInOrder :
    State.reset.line = .starting ∧ (working.Up ∧ (working.ctx .turn).busy = true) ∧
      (let s : State := { waiting with line := .draining };
        s.Up ∧ (s.ctx .lift).busy = false ∧ ¬ Admits .lift s.line) ∧
      (let s : State := { waiting with line := .draining, halt := true };
        (s.ctx .jog).busy = false ∧ Admits .jog s.line ∧ s.halt = true) ∧
      (let s : State := { waiting with jogQueue := [] };
        Selects s .jog ∧ ∃ u, s.select .jog = .ok (u, none)) ∧
      (Selects waiting .turn ∧ ∃ u tag j, waiting.select .turn = .ok (u, some (tag, j))) := by
  refine ⟨rfl, ⟨up_working, by decide⟩, ?_, ?_, ⟨?_, _, rfl⟩, selects_waiting .turn, _, _, _, rfl⟩
  · unfold State.Up Admits; decide
  · unfold Admits; decide
  · unfold Selects Admits; decide

theorem witness_LiftIsSizedAndIssued :
    waiting.line = .run ∧ (waiting.ctx .lift).busy = false ∧ waiting.halt = false ∧
      (∃ q, waiting.pallets.find? (fun q => 0 < q.remaining) = some q) ∧
      waiting.settings.childReserve < waiting.freeRecords ∧
      waiting.freshCount < waiting.settings.infeed ∧ NextFree waiting 4 ∧
      (let s : State := { waiting with settings := { waiting.settings with infeed := 2 } };
        ¬ ((∃ q ∈ s.pallets, 0 < q.remaining) ∧ s.settings.childReserve < s.freeRecords ∧
          s.freshCount < s.settings.infeed)) ∧
      (let s : State := { stocked with pallets := [palletOf 5] };
        ¬ ((∃ q ∈ s.pallets, 0 < q.remaining) ∧ s.settings.childReserve < s.freeRecords ∧
          s.freshCount < s.settings.infeed)) := by
  refine ⟨rfl, by decide, rfl, ⟨_, rfl⟩, by decide, by decide, ?_, by decide, by decide⟩
  unfold NextFree
  decide

theorem witness_JoggerAndTurnerTakeTheHead :
    waiting.Up ∧ (Selects waiting .jog ∧ waiting.jogQueue = 0 :: [] ∧ ∃ p, waiting.pile 0 = some p) ∧
      (Selects waiting .turn ∧ waiting.turnQueue = 1 :: [] ∧ ∃ p, waiting.pile 1 = some p) ∧
      (let s : State := { waiting with jogQueue := [], turnQueue := [] };
        Selects s .jog ∧ s.jogQueue = [] ∧ Selects s .turn ∧ s.turnQueue = []) := by
  refine ⟨up_waiting, ⟨selects_waiting .jog, rfl, _, rfl⟩, ⟨selects_waiting .turn, rfl, _, rfl⟩, ?_⟩
  unfold Selects Admits
  decide

/-- `waiting` with the pile under the knife at a step of the four-up program. -/
def atStep (cursor : Nat) (gauge : Edge) (depth : Nat) : State :=
  { waiting with
    piles := put waiting.piles 2
      (some { pileIn .atKnife with
        cursor := cursor, gauge := gauge, depth := depth, started := true }) }

/-- `atStep` with a step in place of the program's step 0. -/
def withStep (w : PackedStep) : State :=
  { atStep 0 .n 45000 with
    nv := { stocked.nv with
      blocks := put stocked.nv.blocks 0 { header := some (1, 0), steps := w :: fourUp.drop 1 } } }

theorem witness_KnifeSelectionServesAndHolds :
    (let s : State := { waiting with knifePile := none };
      s.knifePile = none ∧ s.returnLane = [] ∧ s.returnStack = [] ∧ s.knifeQueue = 3 :: []) ∧
    (let s := atStep 0 .n 42500;
      ∃ p, s.knifePile = some 2 ∧ s.pile 2 = some p ∧
        s.stepAt p = some (.cut p.gauge 42500 false 0) ∧ p.depth ≤ 42500) ∧
    (let s : State := { atStep 2 .s 20001 with returnStack := List.replicate 12 5 };
      ∃ p, s.knifePile = some 2 ∧ s.pile 2 = some p ∧
        s.stepAt p = some (.cut p.gauge 20000 true 3) ∧ 20000 < p.depth ∧
        (s.freeRecords < 1 ∨ s.freeSlots < 1)) ∧
    ([0x00000000, 0x3fffffff, 0x40000000, 0x60000000, 0x80000000, 0xa0000000] : List PackedStep).map
      (fun w => w.toNat / 2 ^ 29) = [0, 1, 2, 3, 4, 5] ∧
    edgeCode .w = (0x3fffffff : PackedStep).toNat / 2 ^ 27 % 4 := by
  refine ⟨⟨rfl, rfl, rfl, rfl⟩, ⟨_, rfl, rfl, by decide, by decide⟩, ⟨_, rfl, rfl, ?_, ?_, ?_⟩, ?_, ?_⟩ <;>
    decide

theorem witness_CutJobsCarrySetpointsAndReserve :
    let s := atStep 2 .s 20001;
    s.Up ∧ Selects s .knife ∧ s.knifePile = some 2 ∧ ∃ p, s.pile 2 = some p ∧
      s.stepAt p = some (.cut p.gauge 20000 true 3) ∧ 20000 < p.depth ∧
      1 ≤ s.freeRecords ∧ 1 ≤ s.freeSlots := by
  refine ⟨up_waiting, selects_waiting .knife, rfl, _, rfl, ?_, ?_, ?_, ?_⟩ <;> decide

theorem witness_OtherStepsTransferOrDeliver :
    (∃ p, (atStep 1 .n 42500).pile 2 = some p ∧
      (atStep 1 .n 42500).stepAt p = some (.cut .s 40000 false 0) ∧ Edge.s ≠ p.gauge ∧
      Edge.s ≠ layEdge p.gauge p.face ∧ Edge.s ≠ rightEdge p.gauge p.face) ∧
    (∃ p, (withStep 0x40000000).pile 2 = some p ∧ (withStep 0x40000000).stepAt p = some .flip) ∧
    (∃ p, (withStep 0x60000000).pile 2 = some p ∧ (withStep 0x60000000).stepAt p = some .jog) ∧
    (∃ p, (atStep 6 .e 30000).pile 2 = some p ∧ (atStep 6 .e 30000).stepAt p = some .fin) ∧
    (∀ cursor gauge depth, (atStep cursor gauge depth).Up ∧ Selects (atStep cursor gauge depth) .knife ∧
      (atStep cursor gauge depth).knifePile = some 2) := by
  refine ⟨⟨_, rfl, ?_, ?_, ?_, ?_⟩, ⟨_, rfl, ?_⟩, ⟨_, rfl, ?_⟩, ⟨_, rfl, ?_⟩, fun _ _ _ =>
    ⟨up_waiting, selects_waiting .knife, rfl⟩⟩ <;> decide

/-! ### Witnesses: DONE, ABORT, EXTEND -/

theorem witness_StrayReportsAreToldApart :
    working.Up ∧ (33 : TagField).toNat = 33 ∧
      ¬ ((working.ctx .jog).busy = true ∧ (working.ctx .jog).tag = some 4) ∧
      (let s := working.putCtx .jog { working.ctx .jog with lastExpired := some 4 };
        (5 : TagField).toNat = tagNum 4 ∧
          ¬ ((s.ctx .jog).busy = true ∧ (s.ctx .jog).tag = some 4) ∧
          (s.ctx .jog).lastExpired = some 4) ∧
      ((32 : TagField).toNat = tagNum 31 ∧ (working.ctx .jog).lastExpired ≠ some 31 ∧
        working.pile 31 = none) ∧
      ((working.ctx .jog).lastExpired ≠ some 4 ∧ working.pile 4 ≠ none) := by
  refine ⟨up_working, ?_, ?_, ?_, ?_, ?_⟩ <;> decide

theorem witness_LiftDoneMeasuresTheHeight :
    working.Up ∧ (∃ p, InFlight working .lift 0 p) ∧
      (working.ctx .lift).job = .lift 963 11075 1 1 0 ∧
      16500 < (16501 : Data).toNat ∧ (16500 : Data).toNat ≤ 16500 :=
  ⟨up_working, flies_working .lift, rfl, by decide, by decide⟩

theorem witness_JogDoneClassifiesTheSkew :
    working.Up ∧ (∃ p, InFlight working .jog 1 p ∧ p.attempt = 0 ∧
      (working.stock p.cls).thr = 10 ∧ (working.stock p.cls).lim = 80) ∧
      (let s := working.putPile 1 (some { pileIn .jogging with attempt := 3 });
        s.Up ∧ ∃ p, InFlight s .jog 1 p ∧ p.attempt = 3) := by
  refine ⟨up_working, ⟨pileIn .jogging, ?_, rfl, by decide, by decide⟩, up_working,
    { pileIn .jogging with attempt := 3 }, ?_, rfl⟩ <;>
  · unfold InFlight
    decide

theorem witness_CutDoneKeepsOrWastesTheOffcut :
    (working.Up ∧ ∃ p, InFlight working .knife 2 p ∧
      working.stepAt p = some (.cut .s 20000 true 3)) ∧
    working.knifePile = some 2 ∧
    (∃ j, (working.ctx .knife).job = .knife j ∧ j.kind = .cut ∧ j.keep = true) ∧
    NextFree working 5 ∧
    (let s := working.putCtx .knife (inFlight 2 (knifeJobOf .cut false));
      s.Up ∧ (∃ p, InFlight s .knife 2 p ∧ s.stepAt p = some (.cut .s 20000 true 3)) ∧
        ∃ j, (s.ctx .knife).job = .knife j ∧ j.kind = .cut ∧ j.keep = false) := by
  refine ⟨⟨up_working, _, ⟨?_, ?_, rfl⟩, ?_⟩, rfl, ⟨_, rfl, rfl, rfl⟩, ?_, up_working,
    ⟨_, ⟨?_, ?_, rfl⟩, ?_⟩, ⟨_, rfl, rfl, rfl⟩⟩
  case refine_4 => unfold NextFree; decide
  all_goals decide

theorem witness_TransferAndDeliveryDone (kind : KnifeKind) :
    let s := working.putCtx .knife (inFlight 2 (knifeJobOf kind false));
    s.Up ∧ (∃ p, InFlight s .knife 2 p) ∧ ∃ j, (s.ctx .knife).job = .knife j ∧ j.kind = kind :=
  ⟨up_working, ⟨_, rfl, rfl, rfl⟩, _, rfl, rfl⟩

theorem witness_FreeingARecordSettlesItsAccounts :
    (∃ p q, working.pile 4 = some p ∧ working.palletOf p.pallet = some q ∧
      ¬ (q.remaining = 0 ∧ q.live - 1 = 0)) ∧
    (let s : State := { working with pallets := [{ palletOf 5 with live := 1 }] };
      ∃ p q, s.pile 4 = some p ∧ s.palletOf p.pallet = some q ∧ q.remaining = 0 ∧ q.live - 1 = 0) := by
  refine ⟨⟨_, _, rfl, rfl, by decide⟩, _, _, rfl, rfl, by decide, by decide⟩

theorem witness_TurnDoneAppliesTheTurn (turn : Turn) :
    let s := working.putPile 3 (some { pileIn .turning with pendingTurn := some turn });
    s.Up ∧ ∃ p, InFlight s .turn 3 p ∧ p.pendingTurn = some turn :=
  ⟨up_working, _, ⟨rfl, rfl, rfl⟩, rfl⟩

theorem witness_FailedJobsHoldThePile (st : Station) : working.Up ∧ ∃ t p, InFlight working st t p :=
  ⟨up_working, _, flies_working st⟩

theorem witness_AbortUndoesTheJob : working.Up ∧ (∃ p, InFlight working .lift 0 p) ∧
    (∃ p, InFlight working .jog 1 p) ∧ (∃ p, InFlight working .knife 2 p) ∧
    (∃ p, InFlight working .turn 3 p) :=
  ⟨up_working, flies_working .lift, flies_working .jog, flies_working .knife, flies_working .turn⟩

theorem witness_ExtendAndJobReadServeTheJob :
    working.Up ∧ (∃ p, InFlight working .jog 1 p) ∧
      (4 ≤ (4 : BitVec 4).toNat ∧ (14 : BitVec 4).toNat ≤ 14) ∧ (3 : BitVec 4).toNat = (3 : Fin 4).val ∧
      ((15 : BitVec 4).toNat = 15 ∧ (1 : Fin 4) = (working.ctx .jog).pointer) :=
  ⟨up_working, flies_working .jog, by decide, by decide, by decide⟩

theorem witness_TimersCountDownAndExpire :
    (let s := working.putCtx .turn { working.ctx .turn with remaining := 1 };
      (∃ p, (s.ctx .turn).running = true ∧ (s.ctx .turn).remaining ≤ 1 ∧ s.halt = false ∧
        (s.ctx .turn).tag = some 3 ∧ s.pile 3 = some p) ∧
      (∀ other, other ≠ Station.turn → ¬ ((s.ctx other).running = true ∧ (s.ctx other).remaining ≤ 1))) ∧
    1 < (working.ctx .lift).remaining ∧
    (∀ st, ¬ ((working.ctx st).running = true ∧ (working.ctx st).remaining ≤ 1)) ∧
    ({ working with halt := true } : State).halt = true ∧
    (let s := (working.putCtx .turn { working.ctx .turn with remaining := 1 }).putCtx .lift
        { working.ctx .lift with remaining := 1 };
      s.halt = false ∧
        ([.lift, .jog, .knife, .turn].filter fun st =>
          (s.ctx st).running && decide ((s.ctx st).remaining ≤ 1)) = [.lift, .turn]) := by
  refine ⟨⟨⟨_, rfl, by decide, rfl, rfl, rfl⟩, fun other h => ?_⟩, by decide, fun st => ?_, rfl, rfl,
    by decide⟩
  · cases other <;> first | decide | exact absurd rfl h
  · cases st <;> decide

theorem witness_HaltFollowsItsInput :
    working.halt = false ∧ ({ working with halt := true } : State).halt = true := ⟨rfl, rfl⟩

/-! ### Witnesses: Line Control, reports and pallets -/

theorem witness_LineStatesFollowTheirRequests :
    working.Up ∧ working.line = .run ∧
      (let s : State := { working with line := .stopped };
        s.Up ∧ s.line ≠ .run) ∧ Drained stocked ∧ ¬ Drained working := by
  unfold Drained State.Up
  refine ⟨by decide, rfl, by decide, ⟨fun st => ?_, by decide⟩, fun h => ?_⟩
  · cases st <;> decide
  · exact absurd (h.1 .lift) (by decide)

theorem witness_LineResetClearsTheLine : working.Up := up_working

theorem witness_ConfigWriteChecksAndWrites :
    SettingRef.warn ≠ .knot 0 ∧ SettingRef.warn ≠ .knot 8 ∧ working.Up ∧
      settingRef 7 0 0 = none ∧ settingRef 2 8 0 = some (.knot 8) ∧ settingRef 2 0 0 = some (.knot 0) ∧
      settingRef 2 1 0 = some (.knot 1) ∧ settingRef 6 0 0 = some .warn ∧ settingRef 6 0 1 = some .limit ∧
      settingRef 1 15 5 = some (.stock 15 .thr) ∧ settingRef 1 15 6 = some (.stock 15 .lim) ∧
      (¬ ((79 : Data).toNat ≥ (settingRange (.knot 1)).1) ∧
        (80 : Data).toNat = (settingRange (.knot 1)).1 ∧
        knotValue working.settings (1 - 1) ≤ 80 ∧ 240 = knotValue working.settings (1 + 1)) ∧
      (working.settings.warn ≤ 40000 ∧ ¬ working.settings.warn ≤ 39999) := by
  refine ⟨by decide, by decide, up_working, ?_⟩
  decide

theorem witness_ReadsAnswerAndChangeNothing :
    working.Up ∧ (8 : BitVec 4).toNat = 8 ∧ ((1 : TagField).toNat = tagNum 0 ∧ ∃ x, working.pile 0 = some x) ∧
      ((32 : TagField).toNat = tagNum 31 ∧ working.pile 31 = none) ∧
      settingRef 4 3 0 = some (.preset .turn) ∧ settingRef 4 4 0 = none ∧
      ((1 : TagField).toNat = progNum 0 ∧ (working.entry 0).state ≠ .empty ∧
        (working.entry 0).count ≤ (7 : BitVec 8).toNat ∧ (6 : BitVec 8).toNat < (working.entry 0).count) ∧
      ((48 : TagField).toNat = progNum 47 ∧ (working.entry 47).state = .empty) ∧
      ((working.entry 0).blocks[6 / 48]? = some 0 ∧
        (look working.nv.blocks 0).steps[6 % 48]? = some 0x80000000) := by
  refine ⟨up_working, by decide, ⟨by decide, _, rfl⟩, ?_⟩
  decide

theorem witness_SnapshotsAreTakenAndRead :
    (∀ st, (working.ctx st).busy = (working.ctx st).tag.isSome) ∧ working.Up ∧
      (20 ≤ (20 : BitVec 5).toNat ∧ (30 : BitVec 5).toNat ≠ 31) ∧
      (19 : BitVec 5).toNat = (19 : Fin 20).val ∧
      ((31 : BitVec 5).toNat = 31 ∧ (0 : Fin 20) = (working.port .lift).snapPtr) :=
  ⟨places_working.busy, up_working, by decide, by decide, by decide⟩

theorem witness_EventQueueIsFirstInFirstOut :
    working.Up ∧ working.events = .bladeWarn :: [] ∧ stocked.Up ∧ stocked.events = [] ∧
      (let s : State := { working with events := List.replicate 31 .haltOn };
        s.events.length < 32) ∧
      (let s : State := { working with events := List.replicate 32 .haltOn };
        32 ≤ s.events.length) :=
  ⟨up_working, rfl, up_waiting, rfl, by decide, by decide⟩

theorem witness_PalletFieldWritesOneField :
    working.Up ∧ ¬ DraftRange 8 0 ∧ ¬ DraftRange 2 0 ∧ DraftRange 2 1 ∧ DraftRange 2 65535 ∧
      ¬ DraftRange 3 601 ∧ DraftRange 4 145000 ∧ DraftRange 0 48 ∧ ¬ DraftRange 0 49 := by
  refine ⟨up_working, ?_⟩
  unfold DraftRange
  omega

/-- `working` with a Draft that names a program. -/
def drafted (p : Option ProgNo) (sheets : Nat) : State :=
  { working with
    draft := { Draft.reset with program := p, sheets := sheets, extentNS := 5000, extentEW := 145000 } }

theorem witness_PalletQueueCreatesARecord :
    (working.pallets.length ≤ 4 ∧ working.seqCounter ≤ 255) ∧ (drafted (some 0) 1).Up ∧
      (drafted none 1).draft.program = none ∧ ¬ 1 ≤ (drafted (some 0) 0).draft.sheets ∧
      (let s := drafted (some 0) 65535;
        s.draft.program = some 0 ∧ (1 ≤ s.draft.sheets ∧ s.draft.sheets ≤ 65535 ∧ 30 ≤ s.draft.caliper ∧
          s.draft.caliper ≤ 600 ∧ 5000 ≤ s.draft.extentNS ∧ s.draft.extentNS ≤ 145000 ∧
          5000 ≤ s.draft.extentEW ∧ s.draft.extentEW ≤ 145000) ∧
        (s.entry 0).state = .valid ∧ s.session = none ∧ s.progOp = none ∧ s.pallets.length < 4) ∧
      ((drafted (some 1) 1).entry 1).state ≠ .valid := by
  refine ⟨by decide, up_working, rfl, by decide, ?_, by decide⟩
  decide

theorem witness_PalletCancelMovesTheRest :
    waiting.Up ∧ (∀ q ∈ waiting.pallets, q.seq ≠ (2 : BitVec 8).toNat) ∧
      (∃ q, (1 : BitVec 8).toNat ≠ 0 ∧ waiting.palletOf (1 : BitVec 8).toNat = some q ∧ q.live ≠ 0) ∧
      (let s : State := { stocked with pallets := [freshPallet] };
        ∃ q, s.palletOf (1 : BitVec 8).toNat = some q ∧ q.live = 0) := by
  refine ⟨up_waiting, by decide, ⟨_, by decide, rfl, by decide⟩, _, rfl, by decide⟩

/-! ### Witnesses: the Program Store -/

/-- A load session of program 2, so many of its two steps received. -/
def loading (n : Nat) (steps : List PackedStep) : State :=
  { stocked with session := some { program := 1, count := 2, buffer := steps, pointer := n } }

theorem witness_LoadSessionsOpenFillAndClose :
    stocked.Up ∧ (2 : TagField).toNat = progNum 1 ∧ (255 : BitVec 8).toNat ≠ 0 ∧
      (loading 0 [0, 0]).session ≠ none ∧ stocked.session = none ∧ stocked.progOp = none ∧
      (0 < waiting.useCount 0 ∧ (1 : TagField).toNat = progNum 0) ∧
      (stocked.useCount 1 = 0 ∧ 6 ≤ (freeBlocks stocked.work).length) ∧
      (let s : State := { stocked with
          work := { stocked.work with blocks := Vector.replicate 64 .used } };
        s.useCount 1 = 0 ∧ (freeBlocks s.work).length < 6) ∧
      (∃ x, (loading 2 [0, 0]).session = some x ∧ x.pointer = x.count) ∧
      (∃ x, (loading 1 [0, 0]).session = some x ∧ x.pointer ≠ x.count) := by
  refine ⟨up_waiting, ?_, ?_, ?_, rfl, rfl, ?_, ?_, ?_, ⟨_, rfl, rfl⟩, _, rfl, ?_⟩ <;> decide

theorem witness_LoadEndChecksAndHandsOver :
    stocked.Up ∧ stocked.session = none ∧
      (∃ x, (loading 1 [0, 0]).session = some x ∧ (1 : BitVec 4).toNat ≤ 1 ∧ x.pointer < x.count) ∧
      (∃ x, (loading 2 [0, 0x80000000]).session = some x ∧ x.count ≤ x.pointer ∧
        x.buffer[0]? = some 0 ∧ stepValid x.buffer.length 0 0 = false) ∧
      (∃ x, (loading 2 [0x60000000, 0x80000000]).session = some x ∧ x.count ≤ x.pointer ∧
        (∀ k v, x.buffer[k]? = some v → stepValid x.buffer.length k v = true) ∧
        programCheck x.buffer ≠ 0) := by
  refine ⟨up_waiting, rfl, ⟨_, rfl, by decide, by decide⟩, ⟨_, rfl, by decide, rfl, by decide⟩,
    _, rfl, by decide, fun k v h => ?_, by decide +kernel⟩
  match k with
  | 0 => cases h; decide
  | 1 => cases h; decide
  | n + 2 => simp at h

theorem witness_ProgEraseHandsOver :
    stocked.Up ∧ (1 : TagField).toNat = progNum 0 ∧ (loading 0 [0, 0]).session ≠ none ∧
      (stocked.session = none ∧ stocked.progOp = none ∧ stocked.useCount 0 = 0) ∧
      (waiting.session = none ∧ waiting.progOp = none ∧ 0 < waiting.useCount 0) := by
  refine ⟨up_waiting, by decide, by decide, ?_⟩
  decide

/-- The Store Controller with an operation on program 1 in a stage, and a write. -/
def storing (kind : OpKind) (stage : OpStage) (w : NvWrite) : State :=
  { stocked with progOp := some { program := 0, kind := kind, stage := stage }, storeWrite := w }

theorem witness_StoreControllerStartsOneWriteAtATime :
    (storing .erase .eraseWrite .idle).storeWrite = .idle ∧
      (let s := { storing .erase .pending .idle with bladeSave := true };
        s.storeWrite = .idle ∧ s.scan = .off ∧ (∀ op, s.progOp = some op → op.stage = .pending) ∧
          s.bladeSave = true) ∧
      (let s := storing .erase .pending .idle;
        s.storeWrite = .idle ∧ s.scan = .off ∧ (∀ op, s.progOp = some op → op.stage = .pending) ∧
          s.bladeSave = false ∧ ∃ op, s.progOp = some op ∧ op.kind = .erase) ∧
      (let s := storing (.commit fourUp 0x02c5) .pending .idle;
        s.storeWrite = .idle ∧ s.scan = .off ∧ (∀ op, s.progOp = some op → op.stage = .pending) ∧
          s.bladeSave = false ∧ ∃ op, s.progOp = some op ∧ op.kind = .commit fourUp 0x02c5) ∧
      fourUp ≠ [] ∧ ([1, 2] : List BlockNo)[1]? = some 2 ∧ (fourUp.length + 47) / 48 ≤
        ((List.finRange 64).filter fun b => look stocked.work.blocks b = .free).length := by
  refine ⟨rfl, ⟨rfl, rfl, ?_, rfl⟩, ⟨rfl, rfl, ?_, rfl, _, rfl, rfl⟩, ⟨rfl, rfl, ?_, rfl, _, rfl, rfl⟩,
    by decide, rfl, by decide⟩ <;>
  · intro op h
    cases h
    rfl

theorem witness_BlockWritesLeadToTheCommitPoint :
    (∀ blocks position,
      let s := storing (.commit fourUp 0x02c5) (.blockWrites blocks position) (.block 1);
      s.storeWrite = .block 1 ∧ ∃ op, s.progOp = some op ∧ op.kind = .commit fourUp 0x02c5 ∧
        op.stage = .blockWrites blocks position) ∧
      0 + 1 < ([1, 2] : List BlockNo).length ∧ ([1, 2] : List BlockNo).length ≤ 1 + 1 ∧
      (∀ b, stocked.storeWrite ≠ .block b) :=
  ⟨fun _ _ => ⟨rfl, _, rfl, rfl, rfl⟩, by decide, by decide, fun _ h => nomatch h⟩

theorem witness_DirectoryWritesTakeEffectOrDoNot (purpose : DirPurpose) (second : Bool) (stage : OpStage) :
    let s := storing .erase stage (.directory .b 2 stocked.work purpose second);
    s.storeWrite = .directory .b 2 stocked.work purpose second ∧
      ∃ op, s.progOp = some op ∧ op.stage = stage ∧ (look s.work.entries op.program).state = .valid ∧
        (look s.work.entries 1).state = .empty :=
  ⟨rfl, _, rfl, rfl, rfl, rfl⟩

/-! ### Witnesses: RELEASE, the Blade Monitor, reset and the setpoints -/

/-- `working` with the held pile at a station and a cursor. -/
def holding (r : HoldReason) (st : Station) (cursor : Nat) (line : LineState) : State :=
  { working.putPile 4 (some { heldAt r st with cursor := cursor }) with line := line }

theorem witness_ReleasePutsBackOrFrees :
    (∀ r st cursor line, line ≠ .starting → (holding r st cursor line).Up ∧
      ∃ p h, (holding r st cursor line).pile 4 = some p ∧ p.residency = .held ∧ p.hold = some h ∧
        h.station = st) ∧
      (5 : TagField).toNat = tagNum 4 ∧ (∀ p, working.pile 0 = some p → p.residency ≠ .held) ∧
      (∃ p, (holding .cutBeyond .knife 6 .run).pile 4 = some p ∧
        (holding .cutBeyond .knife 6 .run).stepAt p = some .fin) ∧
      (∃ p, (holding .cutBeyond .knife 0 .stopped).pile 4 = some p ∧
        (holding .cutBeyond .knife 0 .stopped).stepAt p ≠ some .fin) := by
  refine ⟨fun r st cursor line h => ⟨h, _, _, rfl, rfl, rfl, rfl⟩, by decide, ?_, ⟨_, rfl, ?_⟩, _, rfl, ?_⟩
  · intro p h
    cases h
    decide
  · decide
  · decide

theorem witness_BladeIsCountedAndChanged :
    working.Up ∧ working.blade.counter < 999999 ∧
      (let s : State := { working with
          blade := { counter := 999998, warnLatch := true, overdueLatch := true } };
        s.blade.counter < 999999) ∧
      (let s : State := { working with
          blade := { counter := 999999, warnLatch := true, overdueLatch := true } };
        999999 ≤ s.blade.counter) :=
  ⟨up_working, by decide, by decide, by decide⟩

theorem witness_HardwareResetBeginsTheScan :
    (let nv : NvMemory := { working.nv with copyA := { working.nv.copyA with checkOk := false } };
      copyValid nv.copyA = false ∧ copyValid nv.copyB = false) ∧
    (latestCopy working.nv = some .a ∧ damagedPrograms working.nv working.nv.copyA.dir = [] ∧
      strayBlocks (markDamaged working.nv.copyA.dir []) = []) ∧
    (let nv : NvMemory := { working.nv with blocks := put working.nv.blocks 0 { header := none, steps := [] } };
      latestCopy nv = some .a ∧ damagedPrograms nv nv.copyA.dir = [0]) ∧
    (let dir : Directory :=
        { working.nv.copyA.dir with blocks := put working.nv.copyA.dir.blocks 63 .used };
      let nv : NvMemory := { working.nv with copyA := { working.nv.copyA with dir := dir } };
      latestCopy nv = some .a ∧ damagedPrograms nv dir = [] ∧
        strayBlocks (markDamaged dir []) = [63]) := by
  refine ⟨by decide, ⟨by decide, by decide +kernel, by decide +kernel⟩, ⟨by decide, by decide +kernel⟩,
    by decide, by decide +kernel, by decide +kernel⟩

theorem witness_ScanChoosesTheLatestCopyAndEnds :
    (let nv (a b : Nat) : NvMemory :=
        { working.nv with
          copyA := { working.nv.copyA with generation := a }
          copyB := { working.nv.copyA with generation := b } };
      copyValid (nv 1 65535).copyA = true ∧ copyValid (nv 1 65535).copyB = true ∧
        copyValid working.nv.copyB = false) ∧
    (State.reset.line = .starting ∧ State.reset.scan = .ending) ∧ working.scan ≠ .ending := by decide

theorem witness_LiftAndJogSetpoints : 1 ≤ 65535 ∧ 1000 ≤ 1000 ∧ 1000 ≤ 16500 ∧ 30 ≤ 600 ∧ 600 ≤ 600 ∧
    (1 ≤ 255 ∧ 255 ≤ 255 ∧ 3 ≤ 3) := by omega

theorem witness_CutSetpointsStayInRange : 255 ≤ 255 ∧ 16500 ≤ 16500 ∧
    (let s : State := { waiting with settings := { waiting.settings with ocode := 0 } };
      (s.cutJobOf (pileIn .atKnife) 2000 false).limited = true) := by decide

theorem witness_ClampCurveRisesThroughItsKnots : settingsOk Settings.reset := settings_default

/-! ### The worked figures of chapters 3, 9 and 11 -/

/-- "Worked figures: dividing a pallet" and "Hmax changed part-way" (chapter 3). -/
theorem test_lift_sizes : nMax 12000 115 = 1043 ∧ nMax 9000 115 = 782 ∧
    [4813, 3850, 2887, 1924, 962].map (fun r => liftSize r 1043) = [963, 963, 963, 962, 962] ∧
    liftSize 1044 1043 = 522 ∧ liftSize 2887 782 = 722 ∧ expectedHeight 963 115 = 11075 := by decide

/-- "Worked figures: durations and classification" (chapter 3). -/
theorem test_jog_durations : [0, 1, 2, 3].map (jogDuration 25) = [25, 37, 50, 62] ∧
    [0, 1, 2, 3].map (jogDuration 103) = [103, 154, 206, 255] := by decide

/-- "Worked figures: targets" (chapter 3). -/
theorem test_targets : rawTarget 41250 121 5300 96 = 41267 ∧ rawTarget 2000 100 1500 40 = 1948 ∧
    limitTarget 1948 = 2000 ∧ rawTarget 132000 128 12000 64 = 132047 ∧ limitTarget 132047 = 132000 ∧
    rawTarget 20000 128 0 64 = 20000 ∧ rawTarget 20000 128 128 64 = 20001 := by decide

/-- "Worked figures: clamp force" (chapter 3). -/
theorem test_clamp_force : [0, 1000, 4000, 5300, 11190, 15000, 16500].map
      (clampForce (knotValue Settings.reset)) = [80, 120, 240, 292, 591, 900, 1000] ∧
    scaledForce 378 166 = 490 ∧ limitForce (scaledForce 1000 200) = 1023 := by decide

/-- Every step of the four-up program is valid and decodes to the line of section 2.7's table. -/
theorem test_four_up : fourUp.map decodeStep =
      [some (.cut .n 42500 false 0), some (.cut .s 40000 false 0), some (.cut .s 20000 true 3),
        some (.cut .w 62000 false 0), some (.cut .e 60000 false 0), some (.cut .e 30000 true 6),
        some .fin] ∧
    firstInvalid fourUp = none := by decide

/-- "Example: reported indices" (section 2.6): the changes of its table, row by row. -/
theorem test_first_invalid :
    [fourUp.set 5 0x2c753005, fourUp.set 2 0x344e2007, fourUp.set 0 0x2005dc00, fourUp.set 3 0x38f23004,
      fourUp.set 6 0x404e2000, (fourUp.set 1 0x3222e000).set 4 0x28ea6006, fourUp.take 6,
      (fourUp.take 6).set 5 0x28753000].map firstInvalid =
    [some 5, some 2, some 0, some 3, some 6, some 1, some 5, some 5] := by decide

/-! ### Frames -/

/-- A BAD_COMMAND carries a code that its port does not admit. -/
theorem test_ill_formed_refused : (Instr.badCommand .lift 8 0).wellFormed = false ∧
    (Instr.badCommand .plan 33 0).wellFormed = false ∧ (Instr.badCommand .turn 63 0).wellFormed = true ∧
    (Instr.badCommand .plan 8 0).wellFormed = true := by decide

/-- Frames written out from section 11.4: code in 47..42, tag 41..36, argument 35..8, check 7..0. -/
theorem test_decode_station_frames :
    decodeFrame .jog true 48 0x0000000000e7 = .nop .jog ∧
    decodeFrame .turn true 48 0x20000000007a = .next .turn ∧
    decodeFrame .lift true 48 0x2454002bb69c = .done .lift 5 1 11190 ∧
    decodeFrame .lift true 48 0x6005000006b2 = .badCommand .lift 24 0 ∧
    decodeFrame .knife true 48 0x340000000049 = .bladeChanged .knife 0 := by decide +kernel

theorem test_decode_plan_frames :
    decodeFrame .plan true 48 0x4c1550006492 = .configWrite 1 5 5 100 ∧
    decodeFrame .plan true 48 0x68344e20031a = .loadStep 0 0x344e2003 ∧
    decodeFrame .plan true 48 0x783000010260 = .progRead 3 1 2 ∧
    decodeFrame .plan true 48 0x8070000002fe = .release 7 2 ∧
    decodeFrame .plan true 48 0x6005000006b2 = .palletRead 0 5 6 ∧
    decodeFrame .plan true 48 0x840000000027 = .eventRead 0 := by decide +kernel

theorem test_discards : decodeFrame .plan true 47 0x0000000000e7 = .frameDiscarded .plan .wrongCount ∧
    decodeFrame .plan true 48 0x0000000000e6 = .frameDiscarded .plan .badCheck ∧
    decodeFrame .plan false 48 0x0000000000e7 = .frameDiscarded .plan .shortGap := by decide +kernel

/-- The generator and initial value of R136 over the ASCII characters 1 to 8, the sum computed by hand outside
the model. -/
theorem test_program_check : programCheck [0x31323334, 0x35363738] = 0xa12b := by decide +kernel

/-! ### Single commands, expected from the rules named -/

/-- R87, R88: the first lift of the worked pallet is of 963 sheets, its height expected at 11075. -/
theorem test_next_lift :
    after (.next .lift) { stocked with pallets := [freshPallet] }
      (fun t => (waits .lift t, jobWord (t.ctx .lift).job 1, (t.pile 0).map (·.residency))) =
    some (some (.job, 1, 963), 11075, some .lifting) := by decide

/-- R42, R43 with the worked caliper check: 11460 deviates by +385, 11421 does not. -/
theorem test_done_lift_deviates :
    after (.done .lift 1 1 11460) working (fun t => (t.events, t.jogQueue)) =
      some ([.bladeWarn, .caliperDev 0 385], [0]) ∧
    after (.done .lift 1 1 11421) working (·.events) = some [.bladeWarn] := by decide

/-- R97: skew 45 at attempt 0 is answered RETRY with the longer duration in w0 (30, amplitude 3, air 1). -/
theorem test_done_jog_retries :
    after (.done .jog 2 1 45) working (waits .jog) = some (some (.retry, 2, 2846)) := by decide

/-- R107, R112 and pile A of section 2.7: step 1 on S, lying N UP, turns HALF: w0 = 2 + 3 × 8. -/
theorem test_next_knife_turns :
    after (.next .knife) (atStep 1 .n 42500) (waits .knife) = some (some (.job, 3, 26)) := by decide

/-- R113 and pile B of section 2.7: D 40000 cut at 20000, the strip kept with cursor 3. -/
theorem test_done_knife_keeps :
    after (.done .knife 3 1 0) working (fun t => ((t.pile 2).map fun p => [p.depth, p.cursor], t.returnStack)) =
      some (some [20000, 3], [5]) ∧
    after (.done .knife 3 1 0) working (fun t => (t.pile 5).map fun p => [p.depth, p.width, p.cursor]) =
      some (some [20000, 64000, 3]) := by decide

/-- R49, R128: CW brings the lay edge W to the gauge and exchanges D and W. -/
theorem test_done_turner_turns :
    after (.done .turn 4 1 0) working (fun t =>
      ((t.pile 3).map fun p => (p.gauge, [p.depth, p.width]), t.returnLane)) =
    some (some (.w, [64000, 45000]), [3]) := by decide

/-- R92: the lift's ABORT frees the record and gives its sheets back. -/
theorem test_abort_lift :
    after (.abort .lift 1) working (fun t => (t.pile 0, t.pallets.map (·.remaining), t.useCount 0)) =
    some (none, [963], 5) := by decide

/-- R68, R69: EXTEND answers the preset; the word at the pointer is read and the pointer moves on. -/
theorem test_extend_and_job_read :
    after (.extend .knife 3) working (fun t => (waits .knife t, (t.ctx .knife).remaining)) =
      some (some (.ok, 3, 1200), 1200) ∧
    after (.jobRead .knife 0 15) working (fun t => (waits .knife t, (t.ctx .knife).pointer)) =
      some (some (.ok, 3, 20044), 2) := by decide

/-- R70, R166: the current tag, BUSY in bit 12 and the 9 tenths left; on PLAN RUN and one event. -/
theorem test_status :
    after (.status .turn) working (waits .turn) = some (some (.ok, 4, 4105)) ∧
    after (.status .plan) working (waits .plan) = some (some (.ok, 0, 18)) := by decide

/-- R153: the delivery of the line's last pile while DRAINING stops the line. -/
theorem test_last_delivery_stops_the_line :
    after (.done .knife 3 1 0)
      { stocked.putPile 2 (some (pileIn .knifeJob)) with
        line := .draining, knifePile := some 2, pallets := [palletOf 1]
        contexts := put stocked.contexts 2 (inFlight 2 (knifeJobOf .deliver false)) }
      (fun t => (t.line, t.pallets.map (·.delivered), t.pile 2)) = some (.stopped, [963], none) := by decide

/-- R72: the timer's last tenth holds the pile with TIMEOUT and frees the station. -/
theorem test_timer_expires :
    after .timebaseTick (working.putCtx .jog { working.ctx .jog with remaining := 1 })
      (fun t => ((t.ctx .jog).lastExpired, t.events, (t.ctx .lift).remaining)) =
    some (some 1, [.bladeWarn, .held 1 .timeout .jog], 8) := by decide

/-- R158, R159: warn above limit is BAD_ARG; a warn at the counter sets the latch and raises its event. -/
theorem test_config_write_blade :
    after (.configWrite 6 0 0 50001) working (waits .plan) = some (some (.badArg, 6, 0)) ∧
    after (.configWrite 6 0 0 9)
      { stocked with blade := { counter := 9, warnLatch := false, overdueLatch := false } }
      (fun t => (t.blade.warnLatch, t.events)) = some (true, [.bladeWarn]) := by decide

/-- R161, R163: a discarded frame at level 56 sets NOISY with its event, at 55 it does not. -/
theorem test_frame_discarded_noise :
    after (.frameDiscarded .jog .badCheck) (stocked.putPort .jog { PortUnit.reset with level := 56 })
      (fun t => ((t.port .jog).level, (t.port .jog).noisy, t.events)) =
      some (64, true, [.portNoisy .jog]) ∧
    after (.frameDiscarded .jog .badCheck) (stocked.putPort .jog { PortUnit.reset with level := 55 })
      (fun t => ((t.port .jog).level, (t.port .jog).noisy)) = some (63, false) := by decide

/-- R142: the block read back, the controller goes on to the commit point, naming the block. -/
theorem test_block_write_done :
    after (.blockWriteDone true)
      (storing (.commit [0x60000000, 0x80000000] 0) (.blockWrites [1] 0) (.block 1))
      (fun t => (look t.nv.blocks 1, match t.storeWrite with
        | .directory _ generation image _ _ => (generation, (look image.entries 0).blocks)
        | _ => (0, []))) =
    some ({ header := some (1, 0), steps := [0x60000000, 0x80000000] }, (2, [1])) := by decide

/-- R135: a directory write read back with a difference is made again, then abandoned; R144: STORE_FAILED. -/
theorem test_directory_write_done :
    after (.directoryWriteDone false)
      (storing .erase .eraseWrite (.directory .b 2 stocked.work .operation false)) (·.storeWrite) =
      some (.directory .b 2 stocked.work .operation true) ∧
    after (.directoryWriteDone false)
      (storing .erase .eraseWrite (.directory .b 2 stocked.work .operation true))
      (fun t => (t.storeWrite, t.progOp, t.events)) = some (.idle, none, [.storeFailed (some 0)]) := by
  decide

/-- R147: with no valid copy the store is formatted; with one that is in order nothing is written. -/
theorem test_hardware_reset :
    after (.hardwareReset false) { working with nv :=
        { working.nv with copyA := { working.nv.copyA with checkOk := false } } }
      (fun t => (t.events, t.scan, t.piles.toList.all (·.isNone))) =
      some ([.storeFormatted], .writing, true) ∧
    after (.hardwareReset false) State.reset id = some State.reset := by decide

/-- R150: the end of the scan makes the line CONFIG. -/
theorem test_scan_end : after .scanEnd State.reset (·.line) = some .config := by decide

/-- R19: RELEASE SKIP at KNIFE advances the cursor and sends the pile to the Return Lane. -/
theorem test_release_skip :
    after (.release 5 2) working (fun t => (t.returnLane, (t.pile 4).map (·.cursor))) =
    some ([4], some 1) := by decide

/-- R138, R139: program 1 in use; the second of two steps received. -/
theorem test_load :
    after (.loadBegin 1 7) working (waits .plan) = some (some (.inUse, 1, 0)) ∧
    after (.loadStep 0 0x80000000) (loading 1 [0, 0])
      (fun t => (waits .plan t, t.session.map (·.buffer))) =
      some (some (.ok, 2, 2), some [0, 0x80000000]) := by decide

/-- Step and queue: the command in front is taken, the rest waits; an empty queue idles (log entry 1). -/
theorem test_step_takes_the_front :
    (match step { working with pending := [.haltAsserted, .haltReleased] } with
      | .next t => (t.halt, t.pending)
      | _ => (false, [])) = (true, [.haltReleased]) ∧
    (match step working with
      | .next t => decide (t = working)
      | _ => false) = true := by decide

end Sys2Proof.Machine.Tests
end

section
/-! The edges of an orientation and the turns between them (R7, R48, R49): the four edges of an orientation are
distinct, which decides the comparison of R48, and two quarter turns compose as turns of the table do. -/

namespace Sys2Proof.Machine

/-! ### Neighbouring and opposite edges -/

@[simp] theorem edgeBefore_ne_self (g : Edge) : edgeBefore g ≠ g := by cases g <;> decide

@[simp] theorem edgeAfter_ne_self (g : Edge) : edgeAfter g ≠ g := by cases g <;> decide

@[simp] theorem edgeOpposite_ne_self (g : Edge) : edgeOpposite g ≠ g := by cases g <;> decide

@[simp] theorem edgeAfter_ne_edgeBefore (g : Edge) : edgeAfter g ≠ edgeBefore g := by
  cases g <;> decide

@[simp] theorem edgeOpposite_ne_edgeBefore (g : Edge) : edgeOpposite g ≠ edgeBefore g := by
  cases g <;> decide

@[simp] theorem edgeOpposite_ne_edgeAfter (g : Edge) : edgeOpposite g ≠ edgeAfter g := by
  cases g <;> decide

@[simp] theorem edgeAfter_edgeBefore (g : Edge) : edgeAfter (edgeBefore g) = g := by cases g <;> rfl

@[simp] theorem edgeBefore_edgeAfter (g : Edge) : edgeBefore (edgeAfter g) = g := by cases g <;> rfl

@[simp] theorem edgeBefore_edgeBefore (g : Edge) : edgeBefore (edgeBefore g) = edgeOpposite g := by
  cases g <;> rfl

@[simp] theorem edgeAfter_edgeAfter (g : Edge) : edgeAfter (edgeAfter g) = edgeOpposite g := by
  cases g <;> rfl

/-! ### The four edges of an orientation (R7) -/

section
variable (g : Edge) (f : Face)

@[simp] theorem layEdge_ne_gauge : layEdge g f ≠ g := by cases f <;> simp [layEdge]

@[simp] theorem rightEdge_ne_gauge : rightEdge g f ≠ g := by cases f <;> simp [rightEdge]

@[simp] theorem frontEdge_ne_gauge : frontEdge g ≠ g := edgeOpposite_ne_self g

@[simp] theorem rightEdge_ne_layEdge : rightEdge g f ≠ layEdge g f := by
  cases f with
  | up => exact edgeAfter_ne_edgeBefore g
  | down => exact (edgeAfter_ne_edgeBefore g).symm

@[simp] theorem frontEdge_ne_layEdge : frontEdge g ≠ layEdge g f := by
  cases f with
  | up => exact edgeOpposite_ne_edgeBefore g
  | down => exact edgeOpposite_ne_edgeAfter g

@[simp] theorem frontEdge_ne_rightEdge : frontEdge g ≠ rightEdge g f := by
  cases f with
  | up => exact edgeOpposite_ne_edgeAfter g
  | down => exact edgeOpposite_ne_edgeBefore g

@[simp] theorem layEdge_layEdge : layEdge (layEdge g f) f = frontEdge g := by
  cases f with
  | up => exact edgeBefore_edgeBefore g
  | down => exact edgeAfter_edgeAfter g

@[simp] theorem rightEdge_layEdge : rightEdge (layEdge g f) f = g := by
  cases f with
  | up => exact edgeAfter_edgeBefore g
  | down => exact edgeBefore_edgeAfter g

/-! ### The turn that brings an edge to the gauge (R48) -/

@[simp] theorem turnFor_gauge : turnFor g f g = none := by simp [turnFor]

@[simp] theorem turnFor_layEdge : turnFor g f (layEdge g f) = some .cw := by simp [turnFor]

@[simp] theorem turnFor_rightEdge : turnFor g f (rightEdge g f) = some .ccw := by simp [turnFor]

@[simp] theorem turnFor_frontEdge : turnFor g f (frontEdge g) = some .half := by simp [turnFor]

/-! ### The orientation after a turn (R49) -/

@[simp] theorem turnedGauge_cw : turnedGauge .cw g f = layEdge g f := rfl

@[simp] theorem turnedGauge_ccw : turnedGauge .ccw g f = rightEdge g f := rfl

@[simp] theorem turnedGauge_half : turnedGauge .half g f = frontEdge g := rfl

@[simp] theorem turnedGauge_flip : turnedGauge .flip g f = g := rfl

theorem turnedGauge_cw_cw : turnedGauge .cw (turnedGauge .cw g f) f = turnedGauge .half g f := by
  simp

theorem turnedGauge_ccw_cw : turnedGauge .ccw (turnedGauge .cw g f) f = g := by simp

@[simp] theorem turnedFace_of_ne_flip {t : Turn} (h : t ≠ .flip) : turnedFace t f = f := by
  cases t with
  | flip => exact absurd rfl h
  | cw | ccw | half => rfl

@[simp] theorem turnedFace_flip_ne_self : turnedFace .flip f ≠ f := by cases f <;> decide

end

/-- Settles O57: R7's table is read off the definitions; R48 follows from the four edges of an orientation being
distinct, R49 from the equation of each turn. -/
theorem edgesAndTurnsFollowTheTables : Obligations.EdgesAndTurnsFollowTheTables := by
  refine ⟨?edges, ?front, ?select, ?gauge, ?face⟩
  case edges => decide
  case front => decide
  case select =>
    exact fun g f =>
      ⟨turnFor_gauge g f, turnFor_layEdge g f, turnFor_rightEdge g f, turnFor_frontEdge g f⟩
  case gauge =>
    exact fun g f =>
      ⟨turnedGauge_cw g f, turnedGauge_ccw g f, turnedGauge_half g f, turnedGauge_flip g f,
        turnedGauge_cw_cw g f, turnedGauge_ccw_cw g f⟩
  case face =>
    exact fun f =>
      ⟨turnedFace_of_ne_flip f (by decide), turnedFace_of_ne_flip f (by decide),
        turnedFace_of_ne_flip f (by decide), turnedFace_flip_ne_self f⟩

end Sys2Proof.Machine
end

section
/-! The lift size, the expected height and the jog duration (R38, R39, R41, R44). A quotient rounded up is the
least number whose product reaches the dividend, which gives the bounds of the lift size. -/

namespace Sys2Proof.Machine

/-! ### Quotients rounded up -/

theorem ceilDiv_le_iff {a b c : Nat} (hb : 0 < b) : ceilDiv a b ≤ c ↔ a ≤ b * c :=
  ceilDiv_le_iff_le_mul (α := Nat) hb

theorem le_mul_ceilDiv (a : Nat) {b : Nat} (hb : 0 < b) : a ≤ b * ceilDiv a b :=
  (ceilDiv_le_iff hb).1 le_rfl

theorem ceilDiv_pos {a b : Nat} (ha : 1 ≤ a) (hb : 0 < b) : 1 ≤ ceilDiv a b := by
  by_contra h
  have := (ceilDiv_le_iff (a := a) (c := 0) hb).1 (by omega)
  omega

/-- One less than the quotient does not reach the dividend. -/
theorem mul_pred_ceilDiv_lt {a b : Nat} (ha : 1 ≤ a) (hb : 0 < b) : b * (ceilDiv a b - 1) < a := by
  have hpos := ceilDiv_pos ha hb
  by_contra h
  have := (ceilDiv_le_iff hb).2 (Nat.le_of_not_lt h)
  omega

/-! ### The lift (R38, R39, R41) -/

/-- Within the ranges of Hmax and of the caliper the quotient of R38 is above its floor of 16. -/
theorem nMax_eq_div {hmax caliper : Nat} (hh : 1000 ≤ hmax) (hc : 30 ≤ caliper) (hc' : caliper ≤ 600) :
    nMax hmax caliper = hmax * 10 / caliper ∧ 16 ≤ hmax * 10 / caliper := by
  have h16 : 16 ≤ hmax * 10 / caliper := (Nat.le_div_iff_mul_le (by omega)).2 (by omega)
  exact ⟨max_eq_right h16, h16⟩

section
variable {remaining nmax : Nat} (hr : 1 ≤ remaining) (hn : 0 < nmax)
include hr hn

theorem liftSize_pos : 1 ≤ liftSize remaining nmax := ceilDiv_pos hr (ceilDiv_pos hr hn)

theorem liftSize_le_nMax : liftSize remaining nmax ≤ nmax :=
  (ceilDiv_le_iff (ceilDiv_pos hr hn)).2 (by
    rw [Nat.mul_comm]
    exact le_mul_ceilDiv remaining hn)

theorem liftSize_le_remaining : liftSize remaining nmax ≤ remaining :=
  (ceilDiv_le_iff (ceilDiv_pos hr hn)).2 (Nat.le_mul_of_pos_left _ (ceilDiv_pos hr hn))

/-- The lifts after this one hold at most as many sheets each as it, and at least one fewer (R39). -/
theorem liftSize_remainder :
    (ceilDiv remaining nmax - 1) * (liftSize remaining nmax - 1) ≤ remaining - liftSize remaining nmax ∧
      remaining - liftSize remaining nmax ≤ (ceilDiv remaining nmax - 1) * liftSize remaining nmax := by
  have hl := ceilDiv_pos hr hn
  have hn1 := liftSize_pos hr hn
  have hup : remaining ≤ ceilDiv remaining nmax * liftSize remaining nmax := le_mul_ceilDiv _ hl
  have hlow : ceilDiv remaining nmax * (liftSize remaining nmax - 1) < remaining :=
    mul_pred_ceilDiv_lt hr hl
  generalize ceilDiv remaining nmax = lifts at *
  generalize liftSize remaining nmax = n at *
  have hsplit : lifts * (n - 1) = lifts * n - lifts := Nat.mul_sub_one ..
  rw [Nat.sub_mul, Nat.sub_mul]
  omega

end

theorem expectedHeight_ge_three {n caliper : Nat} (hn : 1 ≤ n) (hc : 30 ≤ caliper) :
    3 ≤ expectedHeight n caliper := by
  have : 1 * 30 ≤ n * caliper := Nat.mul_le_mul hn hc
  unfold expectedHeight
  omega

/-- A lift of at most Hmax × 10 / caliper sheets is expected no higher than Hmax. -/
theorem expectedHeight_le_hmax {n hmax caliper : Nat} (hn : n ≤ hmax * 10 / caliper) :
    expectedHeight n caliper ≤ hmax := by
  have : n * caliper ≤ hmax * 10 := (Nat.mul_le_mul_right _ hn).trans (Nat.div_mul_le_self _ _)
  unfold expectedHeight
  omega

/-! ### The jog (R44) -/

theorem jogDuration_of_le {base attempt : Nat} (h : base * (2 + attempt) / 2 ≤ 255) :
    jogDuration base attempt = base * (2 + attempt) / 2 := min_eq_right h

theorem jogDuration_of_gt {base attempt : Nat} (h : 255 < base * (2 + attempt) / 2) :
    jogDuration base attempt = 255 := min_eq_left h.le

theorem jogDuration_zero {base : Nat} (h : base ≤ 255) : jogDuration base 0 = base := by
  rw [jogDuration_of_le (by omega)]
  omega

theorem jogDuration_pos {base : Nat} (attempt : Nat) (h : 1 ≤ base) : 1 ≤ jogDuration base attempt := by
  have : 1 * 2 ≤ base * (2 + attempt) := Nat.mul_le_mul h (by omega)
  unfold jogDuration
  omega

/-- Settles O58: the number of lifts and the lift size are quotients rounded up, so each is the least that
reaches its dividend; the expected height follows from n ≤ Hmax × 10 / caliper. -/
theorem liftAndJogSetpoints : Obligations.LiftAndJogSetpoints := by
  refine ⟨fun remaining hmax caliper hr hh _ hc hc' => ?lift, fun base attempt hb hb' _ => ?jog⟩
  case lift =>
    obtain ⟨hmaxEq, h16⟩ := nMax_eq_div hh hc hc'
    have hpos : 0 < nMax hmax caliper := by omega
    have hle := liftSize_le_nMax hr hpos
    have hrest := liftSize_remainder hr hpos
    refine ⟨hmaxEq, hmaxEq ▸ h16, liftSize_pos hr hpos, hle, liftSize_le_remaining hr hpos, ?_, ?_,
      hrest.1, hrest.2, expectedHeight_ge_three (liftSize_pos hr hpos) hc,
      expectedHeight_le_hmax (hmaxEq ▸ hle)⟩
    · rw [Nat.mul_comm]
      exact le_mul_ceilDiv remaining hpos
    · rw [Nat.mul_comm]
      exact mul_pred_ceilDiv_lt hr hpos
  case jog =>
    exact ⟨jogDuration_zero hb', jogDuration_pos attempt hb, jogDuration_of_le, jogDuration_of_gt⟩

end Sys2Proof.Machine
end

section
/-! The setpoints of a CUT job (R51 to R56): each limited value by the range its unlimited value lies in. -/

namespace Sys2Proof.Machine

theorem dataOf_toNat {n : Nat} (h : n < 2 ^ 20) : (dataOf n).toNat = n :=
  (BitVec.toNat_ofNat n 20).trans (Nat.mod_eq_of_lt h)

/-! ### Blade offset and draw compensation (R51, R52) -/

theorem bladeOffset_bounds {ocode : Nat} (h : ocode ≤ 255) :
    -256 ≤ bladeOffset ocode ∧ bladeOffset ocode ≤ 254 := by
  unfold bladeOffset
  omega

theorem drawComp_le {height kd : Nat} (hh : height ≤ 16500) (hk : kd ≤ 255) : drawComp height kd ≤ 257 := by
  have : height * kd ≤ 16500 * 255 := Nat.mul_le_mul hh hk
  unfold drawComp
  omega

/-! ### The target (R53) -/

section
variable {t : Int}

theorem limitTarget_of_lt (h : t < 2000) : limitTarget t = 2000 := by
  unfold limitTarget
  omega

theorem limitTarget_of_gt (h : 132000 < t) : limitTarget t = 132000 := by
  unfold limitTarget
  omega

theorem limitTarget_of_mem (h : 2000 ≤ t) (h' : t ≤ 132000) : (limitTarget t : Int) = t := by
  unfold limitTarget
  omega

theorem limitTarget_le (t : Int) : limitTarget t ≤ 132000 := by
  unfold limitTarget
  omega

theorem targetLimited_iff : targetLimited t = true ↔ t < 2000 ∨ 132000 < t := by simp [targetLimited]

end

/-! ### The clamp force code (R56) -/

section
variable {f : Nat}

theorem limitForce_of_lt (h : f < 40) : limitForce f = 40 := by
  unfold limitForce
  omega

theorem limitForce_of_gt (h : 1023 < f) : limitForce f = 1023 := by
  unfold limitForce
  omega

theorem limitForce_of_mem (h : 40 ≤ f) (h' : f ≤ 1023) : limitForce f = f := by
  unfold limitForce
  omega

theorem limitForce_le (f : Nat) : limitForce f ≤ 1023 := by
  unfold limitForce
  omega

theorem forceCapped_iff : forceCapped f = true ↔ 1023 < f := decide_eq_true_iff

end

/-! ### The job record's words (R112) -/

theorem jobWord_knife_target {j : KnifeJob} (h : j.target ≤ 132000) :
    (jobWord (.knife j) 1).toNat = j.target := dataOf_toNat (by omega)

theorem jobWord_knife_force {j : KnifeJob} (h : j.force ≤ 1023) :
    (jobWord (.knife j) 2).toNat = j.force := dataOf_toNat (by omega)

/-- Settles O59: the ranges of O and comp are linear arithmetic; target and force of the job are the limited
values of R53 and R56, which fit the 20 bits of their words. -/
theorem cutSetpointsStayInRange : Obligations.CutSetpointsStayInRange := by
  refine ⟨fun ocode h => ⟨rfl, bladeOffset_bounds h⟩, fun height kd hh hk => ⟨rfl, drawComp_le hh hk⟩,
    fun s p distance keep => ?_⟩
  exact ⟨limitTarget_of_lt, limitTarget_of_gt, limitTarget_of_mem, targetLimited_iff,
    jobWord_knife_target (limitTarget_le _), limitForce_of_lt, limitForce_of_gt, limitForce_of_mem,
    forceCapped_iff, jobWord_knife_force (limitForce_le _)⟩

end Sys2Proof.Machine
end

section
/-! The clamp curve (R54). Over knots that do not decrease the curve lies above every knot to its left and below
every knot to its right; two heights with no knot between them are in one segment, where the line rises. -/

namespace Sys2Proof.Machine

/-! ### The knots -/

@[simp] theorem knotValue_zero (cfg : Settings) : knotValue cfg 0 = 80 := rfl

theorem knotValue_of_ge (cfg : Settings) {k : Nat} (h : 8 ≤ k) : knotValue cfg k = 1000 := by
  rw [knotValue, if_neg (by omega), dif_neg (by omega)]

@[simp] theorem knotValue_eight (cfg : Settings) : knotValue cfg 8 = 1000 := knotValue_of_ge cfg le_rfl

/-- From F8 on the knots are constant, so R159 for the nine knots makes them monotone altogether. -/
theorem knotValue_monotone {cfg : Settings} (h : ∀ k, k < 8 → knotValue cfg k ≤ knotValue cfg (k + 1)) :
    Monotone (knotValue cfg) := by
  refine monotone_nat_of_le_succ fun k => ?_
  by_cases hk : k < 8
  · exact h k hk
  · rw [knotValue_of_ge cfg (by omega), knotValue_of_ge cfg (by omega)]

/-! ### The curve over any knots -/

section
variable (knot : Nat → Nat)

theorem clampForce_of_ge {height : Nat} (h : 16000 ≤ height) : clampForce knot height = knot 8 :=
  if_neg (by omega)

theorem clampForce_of_lt {height : Nat} (h : height < 16000) :
    clampForce knot height = knot (height / 2000) +
      (knot (height / 2000 + 1) - knot (height / 2000)) * (height - 2000 * (height / 2000)) / 2000 :=
  if_pos h

/-- On segment k, at `x` above its left end. -/
theorem clampForce_segment {k x : Nat} (hk : k < 8) (hx : x < 2000) :
    clampForce knot (2000 * k + x) = knot k + (knot (k + 1) - knot k) * x / 2000 := by
  rw [clampForce_of_lt knot (by omega), show (2000 * k + x) / 2000 = k by omega, Nat.add_sub_cancel_left]

theorem clampForce_knot {k : Nat} (hk : k ≤ 8) : clampForce knot (2000 * k) = knot k := by
  rcases Nat.lt_or_eq_of_le hk with hlt | rfl
  · simpa using clampForce_segment knot hlt (x := 0) (by omega)
  · exact clampForce_of_ge knot le_rfl

end

/-! ### The curve over knots that do not decrease -/

section
variable {knot : Nat → Nat} (hm : Monotone knot)
include hm

/-- A segment does not leave the range between its two knots. -/
theorem clampForce_segment_bounds {k x : Nat} (hk : k < 8) (hx : x < 2000) :
    knot k ≤ clampForce knot (2000 * k + x) ∧ clampForce knot (2000 * k + x) ≤ knot (k + 1) := by
  have hrise : (knot (k + 1) - knot k) * x / 2000 ≤ knot (k + 1) - knot k :=
    Nat.div_le_of_le_mul (by rw [Nat.mul_comm]; exact Nat.mul_le_mul_right _ hx.le)
  have hstep : knot k ≤ knot (k + 1) := hm k.le_succ
  rw [clampForce_segment knot hk hx]
  omega

theorem knot_le_clampForce {k height : Nat} (hk : k ≤ 8) (h : 2000 * k ≤ height) :
    knot k ≤ clampForce knot height := by
  by_cases hh : height < 16000
  · have hseg := clampForce_segment_bounds hm (k := height / 2000) (x := height % 2000) (by omega) (by omega)
    rw [Nat.div_add_mod] at hseg
    exact (hm (by omega)).trans hseg.1
  · rw [clampForce_of_ge knot (by omega)]
    exact hm hk

theorem clampForce_le_knot {k height : Nat} (hk : k ≤ 8) (h : height ≤ 2000 * k) :
    clampForce knot height ≤ knot k := by
  rcases Nat.lt_or_eq_of_le h with hlt | rfl
  · have hseg := clampForce_segment_bounds hm (k := height / 2000) (x := height % 2000) (by omega) (by omega)
    rw [Nat.div_add_mod] at hseg
    exact hseg.2.trans (hm (by omega))
  · exact (clampForce_knot knot hk).le

/-- The heights either have a knot between them, or stand on one segment, or are both past F8. -/
theorem clampForce_monotone : Monotone (clampForce knot) := by
  intro low high hle
  by_cases hpast : 16000 ≤ low
  · rw [clampForce_of_ge knot hpast, clampForce_of_ge knot (hpast.trans hle)]
  by_cases hknot : 2000 * (low / 2000 + 1) ≤ high
  · calc clampForce knot low
      _ ≤ knot (low / 2000 + 1) := clampForce_le_knot hm (by omega) (by omega)
      _ ≤ clampForce knot high := knot_le_clampForce hm (by omega) hknot
  · have hseg : high / 2000 = low / 2000 := by omega
    rw [clampForce_of_lt knot (by omega), clampForce_of_lt knot (by omega), hseg]
    exact Nat.add_le_add_left (Nat.div_le_div_right (Nat.mul_le_mul_left _ (by omega))) _

end

/-- Settles O60: a write reaches no knot but F1..F7; over valid settings the knots are monotone, and so is the curve
that runs through them. -/
theorem clampCurveRisesThroughItsKnots : Obligations.ClampCurveRisesThroughItsKnots := by
  refine ⟨fun cfg r v => ⟨knotValue_zero _, knotValue_eight _⟩, ⟨Tests.settings_default, by decide⟩,
    fun cfg hcfg => ?_⟩
  obtain ⟨_, _, hknots, _⟩ := hcfg
  have hm : Monotone (knotValue cfg) := knotValue_monotone hknots
  have past : ∀ height, 16000 ≤ height → clampForce (knotValue cfg) height = 1000 := fun height h =>
    (clampForce_of_ge _ h).trans (knotValue_eight cfg)
  refine ⟨knotValue_zero cfg, knotValue_eight cfg, hknots, fun k hk => clampForce_knot _ hk.le, past,
    fun height => clampForce_of_lt _, fun height => ⟨?low, ?high⟩, fun _ _ h => clampForce_monotone hm h⟩
  case low => exact knot_le_clampForce hm (k := 0) (by omega) (by omega)
  case high =>
    by_cases h : height ≤ 16000
    · exact (clampForce_le_knot hm (k := 8) le_rfl h).trans_eq (knotValue_eight cfg)
    · exact (past height (by omega)).le

end Sys2Proof.Machine
end

section
/-! The lift's completion with a measured height (R42, R43, R89, R90). A DONE COMPLETE for the job in flight is its
station's completion followed by the drain test, which a pile that waits in a queue leaves without effect. -/

namespace Sys2Proof.Machine

/-! ### DONE COMPLETE of the job in flight -/

/-- The report passes R64's checks as the job's own and leads to the completion (R65). -/
theorem doneAction_complete {s : State} {st : Station} {t : Tag} {p : Pile} (h : InFlight s st t p)
    (value : Data) :
    doneAction st (tagField t) 1 value s = withDrain (complete st t (tagField t) value.toNat) s := by
  obtain ⟨hbusy, htag, _⟩ := h
  have hout : doneOutcome 1 = some .complete := rfl
  simp only [doneAction, hout, Option.isSome_some, State.reportVerdict_current hbusy htag]

/-- What a DONE COMPLETE comes to at every station: the completion, the drain test made after it, and its answer. -/
theorem done_complete_answers {s u : State} {st : Station} {t : Tag} {p : Pile} {value : Data} {r : Result}
    {d : Data} (hup : s.Up) (h : InFlight s st t p)
    (hc : complete st t (tagField t) value.toNat s = .ok (u, { result := r, tag := tagField t, data := d })) :
    ∃ v, exec (.done st (tagField t) 1 value) s = .next v ∧ DrainTested s u v ∧
      Answered s v st.port 9 r (tagField t) d :=
  drain_answers hup (doneAction_complete (s := s.acceptFrame st.port) h value)
    (complete_settled s st t (tagField t) value.toNat hc) rfl

/-- A pile in the Jogger Queue keeps the drain from being complete (R153). -/
theorem DrainTested.onlyPorts_of_jogQueue {s u t : State} (h : DrainTested s u t) (hq : u.jogQueue ≠ []) :
    OnlyPorts u t := by
  refine h.1 ?_
  rintro ⟨_, _, _, hempty, _⟩
  exact hq hempty

/-! ### The caliper check (R42, R43) -/

/-- The clipped detail of CALIPER_DEV by its three ranges. -/
theorem caliperDetail_eq (measured expected : Nat) :
    caliperDetail measured expected =
      if (measured : Int) - expected < -8191 then -8191 else
        if 8191 < (measured : Int) - expected then 8191 else (measured : Int) - expected := by
  unfold caliperDetail
  split
  · omega
  · split <;> omega

/-! ### The lift's completion -/

theorem complete_lift {s : State} {t : Tag} {p : Pile} (hp : s.pile t = some p) (tag : TagField)
    (value : Nat) :
    complete .lift t tag value s = .ok (s.completeLift t p value, { result := .ok, tag := tag, data := 0 }) := by
  simp only [complete, hp]

theorem State.liftExpected_of_job {s : State} {n he q k : Nat} {cls : ClassNo}
    (h : (s.ctx .lift).job = .lift n he q k cls) : s.liftExpected = he := by
  simp only [State.liftExpected, h]

/-- A pile measured above 16500 is held (R89). -/
theorem State.completeLift_overheight {s : State} {t : Tag} {p : Pile} {measured : Nat}
    (hp : s.pile t = some p) (h : 16500 < measured) :
    s.completeLift t p measured = heldOff s .lift t p .overheight (s.ctx .lift).lastExpired := by
  rw [State.completeLift, if_pos h]
  exact State.failJob_eq s .lift t .overheight hp

/-- Any other pile joins the Jogger Queue, its deviation recorded, and CALIPER_DEV is raised for it (R43, R90). -/
theorem State.completeLift_measured {s : State} {t : Tag} {p : Pile} {measured he : Nat}
    (hm : measured ≤ 16500) (he' : s.liftExpected = he) :
    let deviates := caliperDeviates measured he (s.stock p.cls).tol
    let s1 : State :=
      { s with
        piles := put s.piles t (some { p with
          height := measured, attempt := 0, residency := .jogWait, caliperDev := p.caliperDev || deviates })
        jogQueue := s.jogQueue ++ [t]
        contexts := put s.contexts Station.lift.ix (endedContext (s.ctx .lift)) }
    s.completeLift t p measured =
      if deviates then s1.raise (.caliperDev t (caliperDetail measured he)) else s1 := by
  subst he'
  intro deviates s1
  rw [State.completeLift, if_neg (by omega)]
  change State.endJob (if deviates = true then _ else _) .lift = _
  split
  · rw [State.raise_fields, State.raise_fields]
    rfl
  · rfl

/-- Settles O26: the completion is the hold of R89 or the entry into the Jogger Queue of R90; in the second case
the drain cannot be complete. -/
theorem liftDoneMeasuresTheHeight : Obligations.LiftDoneMeasuresTheHeight := by
  intro s tag p value n he q k cls hup hfly hjob
  have ⟨_, _, hp⟩ := hfly
  obtain ⟨t, hexec, hdrain, hanswer⟩ := done_complete_answers hup hfly (complete_lift hp _ _)
  refine ⟨fun habove => ⟨t, hexec, hanswer, ?above⟩, fun hm => ⟨t, hexec, hanswer, ?measured⟩⟩
  case above =>
    rwa [State.completeLift_overheight hp habove] at hdrain
  case measured =>
    rw [State.completeLift_measured hm (State.liftExpected_of_job hjob), caliperDetail_eq] at hdrain
    refine hdrain.onlyPorts_of_jogQueue ?_
    split <;> simp

end Sys2Proof.Machine
end

section
/-! NEXT and its answers in the order of R60. Each answer but the station's selection leaves the blocks as they
were; a job issued makes its station BUSY, so that the drain test made after the selection finds nothing. -/

namespace Sys2Proof.Machine

/-! ### The line states in which a station has jobs -/

theorem State.lineAdmits_iff (s : State) (st : Station) : s.lineAdmits st = true ↔ Admits st s.line := by
  cases st <;> simp [State.lineAdmits, Admits]

theorem Admits.up {st : Station} {s : State} (h : Admits st s.line) : s.Up := by
  intro hstarting
  rcases h with hline | ⟨_, hline⟩ <;> exact absurd (hline.symm.trans hstarting) (by decide)

/-! ### The answers of R60 -/

section
variable {s : State} {st : Station}

theorem nextAction_busy (h : (s.ctx st).busy = true) :
    nextAction st s =
      .ok (s, { result := .busy, tag := tagFieldOf (s.ctx st).tag, data := jobWord (s.ctx st).job 0 }) := by
  simp only [nextAction, h, if_true]

theorem nextAction_notRunning (hbusy : (s.ctx st).busy = false) (hline : ¬ Admits st s.line) :
    nextAction st s = .ok (s, { result := .notRunning, tag := 0, data := 0 }) := by
  have hadmit : s.lineAdmits st = false := by rwa [← s.lineAdmits_iff, Bool.not_eq_true] at hline
  simp [nextAction, hbusy, hadmit]

theorem nextAction_halt (hbusy : (s.ctx st).busy = false) (hline : Admits st s.line) (hhalt : s.halt = true) :
    nextAction st s = .ok (s, { result := .wait, tag := 0, data := 0 }) := by
  simp [nextAction, hbusy, (s.lineAdmits_iff st).2 hline, hhalt]

theorem nextAction_selects (h : Selects s st) : nextAction st s = withDrain (serve st) s := by
  obtain ⟨hbusy, hline, hhalt⟩ := h
  simp [nextAction, hbusy, (s.lineAdmits_iff st).2 hline, hhalt]

/-! ### What a NEXT comes to -/

/-- A NEXT whose action answers at once leaves the blocks as they were. -/
theorem next_answers {r : Result} {tag : TagField} {d : Data} (hup : s.Up)
    (h : nextAction st (s.acceptFrame st.port) =
      .ok (s.acceptFrame st.port, { result := r, tag := tag, data := d })) :
    ∃ t, exec (.next st) s = .next t ∧ OnlyPorts s t ∧ Answered s t st.port 8 r tag d :=
  request_answers hup h rfl rfl rfl

/-- A NEXT that comes to the selection is answered as the selection has it, the drain test made after it. -/
theorem next_served {u : State} {r : Result} {tag : TagField} {d : Data} (h : Selects s st)
    (hserve : Settled (serve st) s u { result := r, tag := tag, data := d }) :
    ∃ t, exec (.next st) s = .next t ∧ DrainTested s u t ∧ Answered s t st.port 8 r tag d :=
  have ⟨_, hline, _⟩ := h
  drain_answers hline.up (nextAction_selects (s := s.acceptFrame st.port) h) hserve rfl

end

/-! ### The issue (R61) -/

theorem State.issue_eq (s : State) (st : Station) (tag : Tag) (j : Job) :
    s.issue st tag j = s.putCtx st (issuedContext (s.ctx st) tag j (s.preset st)) := rfl

/-- A selection leaves the presets as they were. -/
theorem SelectionFrame.preset {s u : State} (h : SelectionFrame s u) (st : Station) :
    u.preset st = s.preset st := by
  rw [h]
  rfl

/-- A BUSY station keeps the drain from being complete (R153). -/
theorem DrainTested.onlyPorts_of_busy {s u t : State} {st : Station} (h : DrainTested s u t)
    (hbusy : (u.ctx st).busy = true) : OnlyPorts u t := by
  refine h.1 ?_
  rintro ⟨_, hidle, _⟩
  exact absurd (hbusy.symm.trans (hidle st)) (by decide)

/-- Settles O19: R60's answers in turn; a selection that finds a job issues it with the preset that stood before
the selection, and the job in flight keeps the drain test from stopping the line. -/
theorem nextIsAnsweredInOrder : Obligations.NextIsAnsweredInOrder := by
  intro st s
  refine ⟨fun hstarting => ?starting, fun hup hbusy => next_answers hup (nextAction_busy hbusy),
    fun hup hbusy hline => next_answers hup (nextAction_notRunning hbusy hline),
    fun hbusy hline hhalt => next_answers hline.up (nextAction_halt hbusy hline hhalt),
    fun hsel => ⟨fun u hu => next_served hsel (serve_wait s st hu), fun u tag j hu => ?job⟩⟩
  case starting =>
    exact ⟨_, request_starting hstarting, rfl, State.reply_answered s _ st.port 8 _ rfl⟩
  case job =>
    obtain ⟨t, hexec, hdrain, hanswer⟩ := next_served hsel (serve_job s st hu)
    rw [State.issue_eq, (State.select_frame hu).preset] at hdrain
    exact ⟨t, hexec, hdrain.onlyPorts_of_busy (st := st) (by rw [State.putCtx_ctx]; rfl), hanswer⟩

end Sys2Proof.Machine
end

section
/-! DONE FAILED of the job in flight (R66): the station's failure followed by the drain test. -/

namespace Sys2Proof.Machine

/-- The report passes R64's checks as the job's own and leads to the failure (R66). -/
theorem doneAction_failed {s : State} {st : Station} {t : Tag} {p : Pile} (h : InFlight s st t p)
    (value : Data) :
    doneAction st (tagField t) 2 value s = withDrain (failed st t (tagField t)) s := by
  obtain ⟨hbusy, htag, _⟩ := h
  have hout : doneOutcome 2 = some .failed := rfl
  simp only [doneAction, hout, Option.isSome_some, State.reportVerdict_current hbusy htag]

/-- A failure does the same whatever surrounds the blocks. -/
theorem failed_settled (s : State) (st : Station) (t : Tag) (tag : TagField) :
    Settled (failed st t tag) s (s.failJob st t .machine) { result := .ok, tag := tag, data := 0 } :=
  (State.failJob_dresses s st t .machine).settled _

/-- Settles O32: the failure ends the job with its pile held, at each station as `State.failJob_eq` says. -/
theorem failedJobsHoldThePile : Obligations.FailedJobsHoldThePile := by
  intro st s tag p value hup hfly
  have ⟨_, _, hp⟩ := hfly
  obtain ⟨t, hexec, hdrain, hanswer⟩ := drain_answers (code := 9) hup
    (doneAction_failed (s := s.acceptFrame st.port) hfly value) (failed_settled s st tag (tagField tag)) rfl
  rw [State.failJob_eq s st tag .machine hp] at hdrain
  exact ⟨t, hexec, hanswer, hdrain⟩

end Sys2Proof.Machine
end

section
/-! EXTEND and JOB_READ (R68, R69): the context each leaves and the word it answers. -/

namespace Sys2Proof.Machine

/-! ### EXTEND (R68) -/

theorem extendAction_current {s : State} {st : Station} {t : Tag} {p : Pile} (h : InFlight s st t p) :
    extendAction st (tagField t) s =
      (s.loadTimer st, { result := .ok, tag := tagField t, data := dataOf (s.preset st) }) := by
  obtain ⟨hbusy, htag, _⟩ := h
  simp only [extendAction, State.reportVerdict_current hbusy htag]

theorem extend_answers {s : State} {st : Station} {t : Tag} {p : Pile} (hup : s.Up) (h : InFlight s st t p) :
    ∃ u, exec (.extend st (tagField t)) s = .next u ∧
      OnlyPorts (s.putCtx st { s.ctx st with running := true, remaining := s.preset st }) u ∧
      Answered s u st.port 11 .ok (tagField t) (dataOf (s.preset st)) :=
  plainRequest_answers hup (extendAction_current (s := s.acceptFrame st.port) h) rfl rfl rfl

/-! ### JOB_READ (R69) -/

theorem jobReadWord_none {pointer : Fin 4} {word : BitVec 4} (hlo : 4 ≤ word.toNat) (hhi : word.toNat ≤ 14) :
    jobReadWord pointer word = none := by
  rw [jobReadWord, if_neg (by omega), dif_neg (by omega)]

theorem jobReadWord_some {pointer i : Fin 4} {word : BitVec 4}
    (h : word.toNat = i.val ∨ (word.toNat = 15 ∧ i = pointer)) : jobReadWord pointer word = some i := by
  rcases h with hindex | ⟨h15, rfl⟩
  · have hlt := i.isLt
    simp only [jobReadWord, hindex, if_neg (show ¬ i.val = 15 by omega), dif_pos hlt]
  · rw [jobReadWord, if_pos h15]

/-- The pointer of four words passes from 3 to 0. -/
theorem pointer_succ (i : Fin 4) : i + 1 = if i = 3 then 0 else i + 1 := by
  split
  · next h => rw [h]; rfl
  · rfl

section
variable {s : State} {st : Station} {word : BitVec 4}

theorem jobReadAction_none (tag : TagField) (hlo : 4 ≤ word.toNat) (hhi : word.toNat ≤ 14) :
    jobReadAction st tag word s = (s, { result := .badArg, tag := tag, data := 0 }) := by
  simp only [jobReadAction, jobReadWord_none hlo hhi]

theorem jobReadAction_some (tag : TagField) {i : Fin 4}
    (h : word.toNat = i.val ∨ (word.toNat = 15 ∧ i = (s.ctx st).pointer)) :
    jobReadAction st tag word s =
      (s.putCtx st { s.ctx st with pointer := if i = 3 then 0 else i + 1 },
        { result := .ok, tag := tagFieldOf (s.ctx st).recordTag, data := jobWord (s.ctx st).job i }) := by
  rw [← pointer_succ]
  simp only [jobReadAction, jobReadWord_some h]

theorem jobRead_badArg (tag : TagField) (hup : s.Up) (hlo : 4 ≤ word.toNat) (hhi : word.toNat ≤ 14) :
    ∃ t, exec (.jobRead st tag word) s = .next t ∧ OnlyPorts s t ∧ Answered s t st.port 12 .badArg tag 0 :=
  plainRequest_answers hup (jobReadAction_none (s := s.acceptFrame st.port) tag hlo hhi) rfl rfl rfl

theorem jobRead_answers (tag : TagField) {i : Fin 4} (hup : s.Up)
    (h : word.toNat = i.val ∨ (word.toNat = 15 ∧ i = (s.ctx st).pointer)) :
    ∃ t, exec (.jobRead st tag word) s = .next t ∧
      OnlyPorts (s.putCtx st { s.ctx st with pointer := if i = 3 then 0 else i + 1 }) t ∧
      Answered s t st.port 12 .ok (tagFieldOf (s.ctx st).recordTag) (jobWord (s.ctx st).job i) :=
  plainRequest_answers hup (jobReadAction_some (s := s.acceptFrame st.port) tag h) rfl rfl rfl

end

/-- Settles O34: the words by the station the record is of, at the knife by the kind of job; EXTEND by the verdict
on the job in flight; JOB_READ by the word its index names. -/
theorem extendAndJobReadServeTheJob : Obligations.ExtendAndJobReadServeTheJob := by
  refine ⟨⟨rfl, fun _ _ _ _ _ => rfl, fun _ _ _ _ _ _ => rfl, fun _ _ _ _ => rfl, fun j => ?knife, rfl⟩,
    fun st s tag p hup hfly => extend_answers hup hfly,
    fun st tag word s hup => ⟨jobRead_badArg tag hup, fun i h => jobRead_answers tag hup h⟩⟩
  case knife =>
    obtain ⟨kind, _⟩ := j
    cases kind <;> rfl

end Sys2Proof.Machine
end

section
/-! The jogger's completion with a measured skew (R46, R96, R97, R98): one equation for each band of R46, and what
keeps the drain from being complete after it, the pile in its next place or the job issued again. -/

namespace Sys2Proof.Machine

/-! ### The bands of R46 -/

section
variable {thr lim attempt skew : Nat}

theorem classifySkew_aligned (h : skew ≤ thr) : classifySkew thr lim attempt skew = .aligned := if_pos h

theorem classifySkew_rejog (hthr : thr < skew) (hlim : skew ≤ lim) (ha : attempt < 3) :
    classifySkew thr lim attempt skew = .rejog := by
  rw [classifySkew, if_neg (Nat.not_le.2 hthr), if_pos hlim, if_pos ha]

theorem classifySkew_tooMany (hthr : thr < skew) (hlim : skew ≤ lim) (ha : 3 ≤ attempt) :
    classifySkew thr lim attempt skew = .tooMany := by
  rw [classifySkew, if_neg (Nat.not_le.2 hthr), if_pos hlim, if_neg (Nat.not_lt.2 ha)]

theorem classifySkew_rejected (hthr : thr < skew) (hlim : lim < skew) :
    classifySkew thr lim attempt skew = .rejected := by
  rw [classifySkew, if_neg (Nat.not_le.2 hthr), if_neg (Nat.not_le.2 hlim)]

end

/-! ### The aligned pile (R96) -/

theorem State.jogAligned_eq (s : State) (t : Tag) (p : Pile) :
    s.jogAligned t p =
      { s with
        piles := put s.piles t
          (some { p with residency := if p.started then .returnWait else .knifeWait })
        returnLane := if p.started then s.returnLane ++ [t] else s.returnLane
        knifeQueue := if p.started then s.knifeQueue else s.knifeQueue ++ [t]
        contexts := put s.contexts Station.jog.ix (endedContext (s.ctx .jog)) } := by
  unfold State.jogAligned
  cases p.started <;> rfl

/-- The pile waits in the Return Lane or in the Knife Queue, so the drain is not complete (R153). -/
theorem State.jogAligned_not_drained (s : State) (t : Tag) (p : Pile) : ¬ Drained (s.jogAligned t p) := by
  rw [State.jogAligned_eq]
  rintro ⟨_, _, _, hknifeQueue, hreturnLane, _⟩
  cases hstarted : p.started with
  | true => simp [hstarted] at hreturnLane
  | false => simp [hstarted] at hknifeQueue

/-! ### The re-jog (R97) -/

/-- The record of the job issued again: the attempt raised, the duration of R44 for it. -/
theorem State.rejog_eq (s : State) (t : Tag) (p : Pile) :
    let c := s.stock p.cls
    let dur := min 255 (c.jogBase * (2 + (p.attempt + 1)) / 2)
    s.rejog t p =
      ({ s with
          piles := put s.piles t (some { p with attempt := p.attempt + 1 })
          contexts := put s.contexts Station.jog.ix
            (issuedContext (s.ctx .jog) t
              (.jog dur c.amplitude c.air p.sheets p.height (p.attempt + 1)) (s.preset .jog)) },
        dataOf (dur + c.amplitude * 256 + c.air * 2048)) := rfl

theorem State.rejog_busy (s : State) (t : Tag) (p : Pile) : ((s.rejog t p).1.ctx .jog).busy = true := by
  rw [State.rejog, State.issue_eq, State.putCtx_ctx]
  rfl

/-! ### The completion by its band -/

section
variable {s : State} {t : Tag} {p : Pile} {tag : TagField} {skew : Nat}

theorem complete_jog (hp : s.pile t = some p) :
    complete .jog t tag skew s = .ok (s.completeJog t p tag skew) := by
  simp only [complete, hp]

theorem State.completeJog_aligned (h : skew ≤ (s.stock p.cls).thr) :
    s.completeJog t p tag skew = (s.jogAligned t p, { result := .ok, tag := tag, data := 0 }) := by
  simp only [State.completeJog, classifySkew_aligned h]

theorem State.completeJog_rejog (hthr : (s.stock p.cls).thr < skew) (hlim : skew ≤ (s.stock p.cls).lim)
    (ha : p.attempt < 3) :
    s.completeJog t p tag skew =
      ((s.rejog t p).1, { result := .retry, tag := tag, data := (s.rejog t p).2 }) := by
  simp only [State.completeJog, classifySkew_rejog hthr hlim ha]

theorem State.completeJog_tooMany (hp : s.pile t = some p) (hthr : (s.stock p.cls).thr < skew)
    (hlim : skew ≤ (s.stock p.cls).lim) (ha : 3 ≤ p.attempt) :
    s.completeJog t p tag skew =
      (heldOff s .jog t p .jogRetries (s.ctx .jog).lastExpired, { result := .ok, tag := tag, data := 0 }) := by
  simp only [State.completeJog, classifySkew_tooMany hthr hlim ha, ← State.failJob_eq s .jog t _ hp,
    State.failJob]

theorem State.completeJog_rejected (hp : s.pile t = some p) (hthr : (s.stock p.cls).thr < skew)
    (hlim : (s.stock p.cls).lim < skew) :
    s.completeJog t p tag skew =
      (heldOff s .jog t p .jogReject (s.ctx .jog).lastExpired, { result := .ok, tag := tag, data := 0 }) := by
  simp only [State.completeJog, classifySkew_rejected hthr hlim, ← State.failJob_eq s .jog t _ hp,
    State.failJob]

end

/-- What a jogger's DONE COMPLETE comes to: its completion by the skew, the drain test made after it. -/
theorem jogDone_answers {s u : State} {tag : Tag} {p : Pile} {value : Data} {r : Result} {d : Data}
    (hup : s.Up) (hfly : InFlight s .jog tag p)
    (hc : s.completeJog tag p (tagField tag) value.toNat =
      (u, { result := r, tag := tagField tag, data := d })) :
    ∃ t, exec (.done .jog (tagField tag) 1 value) s = .next t ∧
      Answered s t .jog 9 r (tagField tag) d ∧ DrainTested s u t := by
  have ⟨_, _, hp⟩ := hfly
  obtain ⟨t, hexec, hdrain, hanswer⟩ :=
    done_complete_answers hup hfly ((complete_jog hp).trans (congrArg Except.ok hc))
  exact ⟨t, hexec, hanswer, hdrain⟩

/-- Settles O27: one completion for each band of R46; a pile that is aligned or jogged again keeps the drain from
being complete, while a pile held may be the last the drain waited for. -/
theorem jogDoneClassifiesTheSkew : Obligations.JogDoneClassifiesTheSkew := by
  intro s tag p value hup hfly
  have ⟨_, _, hp⟩ := hfly
  refine ⟨fun h => ?aligned, fun hthr hlim ha => ?rejog,
    fun hthr hlim ha => jogDone_answers hup hfly (State.completeJog_tooMany hp hthr hlim ha),
    fun hthr hlim => jogDone_answers hup hfly (State.completeJog_rejected hp hthr hlim)⟩
  case aligned =>
    obtain ⟨t, hexec, hanswer, hdrain⟩ := jogDone_answers hup hfly (State.completeJog_aligned h)
    have honly := hdrain.1 fun hd => s.jogAligned_not_drained tag p hd.2
    rw [State.jogAligned_eq] at honly
    exact ⟨t, hexec, hanswer, honly⟩
  case rejog =>
    obtain ⟨t, hexec, hanswer, hdrain⟩ := jogDone_answers hup hfly (State.completeJog_rejog hthr hlim ha)
    have honly := hdrain.onlyPorts_of_busy (s.rejog_busy tag p)
    rw [State.rejog_eq] at hanswer honly
    exact ⟨t, hexec, hanswer, honly⟩

end Sys2Proof.Machine
end

section
/-! The knife's completions (R113, R114, R115, R116): one equation for each kind of job, and what keeps the drain
from being complete after it, the pile still under the knife or in the next queue. Only a delivery may be the last
that a drain waited for. -/

namespace Sys2Proof.Machine

/-! ### What keeps the drain from being complete (R153) -/

theorem DrainTested.onlyPorts_of_knifePile {s u t : State} {tag : Tag} (h : DrainTested s u t)
    (hk : u.knifePile = some tag) : OnlyPorts u t := by
  refine h.1 ?_
  rintro ⟨_, _, hnone, _⟩
  exact Option.some_ne_none tag (hk.symm.trans hnone)

theorem DrainTested.onlyPorts_of_turnQueue {s u t : State} (h : DrainTested s u t) (hq : u.turnQueue ≠ []) :
    OnlyPorts u t := by
  refine h.1 ?_
  rintro ⟨_, _, _, _, _, _, hempty, _⟩
  exact hq hempty

/-! ### What a blade rise and a freed record leave unchanged -/

@[simp] theorem State.bladeRise_knifePile (s : State) : s.bladeRise.knifePile = s.knifePile := by
  rw [State.bladeRise_frame]

@[simp] theorem State.bladeRise_ctx (s : State) (st : Station) : s.bladeRise.ctx st = s.ctx st := by
  rw [State.bladeRise_frame]
  rfl

@[simp] theorem State.freeRecord_contexts (s : State) (t : Tag) (account : Nat → Pallet → Pallet) :
    (s.freeRecord t account).contexts = s.contexts := by
  rw [State.freeRecord_frame]

/-! ### The kept offcut (R2, R15) -/

/-- The reservation becomes the child pile, under the tag that R8 allocates. -/
theorem State.makeChild_of_nextFree {s : State} {child : Tag} (h : NextFree s child) (t : Tag) (p : Pile)
    (distance entry : Nat) :
    s.makeChild t p distance entry =
      .ok { s with
        piles := put s.piles child (some (childPile t p distance entry))
        allocPtr := some child
        returnStack := child :: s.returnStack
        useCounts := put s.useCounts p.program (s.useCount p.program + 1)
        pallets := s.pallets.map fun q => if q.seq = p.pallet then { q with live := q.live + 1 } else q
        reservedRecords := 0
        reservedSlots := 0 } := by
  simp only [State.makeChild, State.nextTag_of_nextFree h]
  rfl

/-! ### The completion by the kind of job -/

/-- The record of a pile whose cut at a distance is done (R113). -/
def State.cutRecord (s : State) (p : Pile) (distance : Nat) : Pile :=
  { p with depth := distance, cursor := s.advanced p, residency := .atKnife }

section
variable {s : State} {t : Tag} {p : Pile} {j : KnifeJob}

theorem State.completeCut_waste {edge : Edge} {distance entry : Nat} {kept : Bool}
    (hstep : s.stepAt p = some (.cut edge distance kept entry)) :
    s.completeCut t p false =
      .ok ((s.putPile t (some (s.cutRecord p distance))).bladeRise.endJob .knife) := by
  simp only [State.completeCut, hstep]
  rfl

theorem State.completeCut_keep {s1 : State} {edge : Edge} {distance entry : Nat} {kept : Bool}
    (hstep : s.stepAt p = some (.cut edge distance kept entry))
    (hchild : s.makeChild t p distance entry = .ok s1) :
    s.completeCut t p true =
      .ok ((s1.putPile t (some (s.cutRecord p distance))).bladeRise.endJob .knife) := by
  simp only [State.completeCut, hstep, if_true, hchild]
  rfl

theorem State.completeKnife_cut (hjob : (s.ctx .knife).job = .knife j) (hkind : j.kind = .cut) :
    s.completeKnife t p = s.completeCut t p j.keep := by
  simp only [State.completeKnife, State.knifeJob, hjob, hkind]

theorem State.completeKnife_transferTurn {turn : Turn} (hjob : (s.ctx .knife).job = .knife j)
    (hkind : j.kind = .transferTurn turn) :
    s.completeKnife t p =
      .ok { s with
        piles := put s.piles t (some { p with residency := .turnWait })
        turnQueue := s.turnQueue ++ [t], knifePile := none
        contexts := put s.contexts Station.knife.ix (endedContext (s.ctx .knife)) } := by
  simp only [State.completeKnife, State.knifeJob, hjob, hkind]
  rfl

theorem State.completeKnife_transferJog (hjob : (s.ctx .knife).job = .knife j)
    (hkind : j.kind = .transferJog) :
    s.completeKnife t p =
      .ok { s with
        piles := put s.piles t (some { p with
          cursor := s.advanced p, attempt := 0, residency := .jogWait })
        jogQueue := s.jogQueue ++ [t], knifePile := none
        contexts := put s.contexts Station.knife.ix (endedContext (s.ctx .knife)) } := by
  simp only [State.completeKnife, State.knifeJob, hjob, hkind]
  rfl

theorem State.completeKnife_deliver (hjob : (s.ctx .knife).job = .knife j) (hkind : j.kind = .deliver) :
    s.completeKnife t p =
      .ok { s.freeRecord t accountDelivered with
        knifePile := none
        contexts := put s.contexts Station.knife.ix (endedContext (s.ctx .knife)) } := by
  simp only [State.completeKnife, State.knifeJob, hjob, hkind, State.endJob_eq]
  rw [← State.freeRecord_contexts s t accountDelivered, ← State.freeRecord_ctx s t accountDelivered]
  rfl

end

/-! ### The reports -/

section
variable {s : State} {tag : Tag} {p : Pile}

/-- What a knife's DONE COMPLETE comes to: its completion, the drain test made after it. -/
theorem knifeDone_answers {u : State} (value : Data) (hup : s.Up) (hfly : InFlight s .knife tag p)
    (hc : s.completeKnife tag p = .ok u) :
    ∃ t, exec (.done .knife (tagField tag) 1 value) s = .next t ∧
      Answered s t .knife 9 .ok (tagField tag) 0 ∧ DrainTested s u t := by
  have ⟨_, _, hp⟩ := hfly
  have hcomplete : complete .knife tag (tagField tag) value.toNat s =
      .ok (u, { result := .ok, tag := tagField tag, data := 0 }) := by
    simp only [complete, hp, hc]
  obtain ⟨t, hexec, hdrain, hanswer⟩ := done_complete_answers hup hfly hcomplete
  exact ⟨t, hexec, hanswer, hdrain⟩

/-- A completion that ends with the blade's rise and leaves a knife pile changes, but for the ports, what it wrote
before the rise, the rise's own blocks, and the knife's context. -/
theorem cutDone_answers {s1 : State} (value : Data) (hup : s.Up) (hfly : InFlight s .knife tag p)
    (hc : s.completeKnife tag p = .ok (s1.bladeRise.endJob .knife)) (hctx : s1.ctx .knife = s.ctx .knife)
    (hk : s1.knifePile = some tag) :
    ∃ t, exec (.done .knife (tagField tag) 1 value) s = .next t ∧
      Answered s t .knife 9 .ok (tagField tag) 0 ∧
      OnlyPorts (s1.bladeRise.putCtx .knife (endedContext (s.ctx .knife))) t := by
  obtain ⟨t, hexec, hanswer, hdrain⟩ := knifeDone_answers value hup hfly hc
  have honly := hdrain.onlyPorts_of_knifePile ((s1.bladeRise_knifePile).trans hk)
  rw [State.endJob_eq, State.bladeRise_ctx, hctx] at honly
  exact ⟨t, hexec, hanswer, honly⟩

end

/-- Settles O28: the cut's record is written over the state of a wasted offcut, or over the one in which the
reservation became the child pile; the pile still under the knife keeps the drain from being complete. -/
theorem cutDoneKeepsOrWastesTheOffcut : Obligations.CutDoneKeepsOrWastesTheOffcut := by
  intro s tag p value j edge distance entry kept hup hfly hpile hjob hkind hstep
  have hcut := State.completeKnife_cut (t := tag) (p := p) hjob hkind
  refine ⟨fun hwaste => ?waste, fun child hkeep hfree => ?keep⟩
  case waste =>
    rw [hwaste, State.completeCut_waste hstep] at hcut
    exact cutDone_answers value hup hfly hcut rfl hpile
  case keep =>
    have hchild := State.makeChild_of_nextFree hfree tag p distance entry
    rw [hkeep, State.completeCut_keep hstep hchild] at hcut
    exact cutDone_answers value hup hfly hcut rfl hpile

/-- Settles O29: the completion of each kind; a pile in the Turner Queue or the Jogger Queue keeps the drain from
being complete, a delivery may complete it. -/
theorem transferAndDeliveryDone : Obligations.TransferAndDeliveryDone := by
  intro s tag p value j hup hfly hjob
  refine ⟨fun ⟨turn, hkind⟩ => ?turn, fun hkind => ?jog, fun hkind =>
    knifeDone_answers value hup hfly (State.completeKnife_deliver hjob hkind)⟩
  case turn =>
    obtain ⟨t, hexec, hanswer, hdrain⟩ :=
      knifeDone_answers value hup hfly (State.completeKnife_transferTurn hjob hkind)
    exact ⟨t, hexec, hanswer, hdrain.onlyPorts_of_turnQueue (by simp)⟩
  case jog =>
    obtain ⟨t, hexec, hanswer, hdrain⟩ :=
      knifeDone_answers value hup hfly (State.completeKnife_transferJog hjob hkind)
    exact ⟨t, hexec, hanswer, hdrain.onlyPorts_of_jogQueue (by simp)⟩

end Sys2Proof.Machine
end

section
/-! The turner's completion (R49, R128, R129): the turn in the terms of R49, and the turned pile in the Return Lane,
which keeps the drain from being complete. -/

namespace Sys2Proof.Machine

/-! ### The turn applied (R49, R129) -/

theorem turnedFace_eq (turn : Turn) (f : Face) :
    turnedFace turn f = if turn = .flip then (if f = .up then .down else .up) else f := by
  by_cases h : turn = .flip
  · rw [if_pos h, h]
    cases f <;> rfl
  · rw [if_neg h, turnedFace_of_ne_flip f h]

theorem turnExchanges_iff (turn : Turn) : turnExchanges turn = true ↔ turn = .cw ∨ turn = .ccw := by
  cases turn <;> decide

/-- The cursor advances for a FLIP alone, and not past the program's last step (R4). -/
theorem State.flipAdvanced_eq (s : State) (p : Pile) (turn : Turn) :
    (if turn = .flip then s.advanced p else p.cursor) =
      if turn = .flip ∧ p.cursor + 1 < (s.entry p.program).count then p.cursor + 1 else p.cursor := by
  rw [State.advanced, ite_and]

theorem State.turned_eq {p : Pile} {turn : Turn} (s : State) (h : p.pendingTurn = some turn) :
    s.turned p =
      { p with
        pendingTurn := none
        gauge := turnedGauge turn p.gauge p.face
        face := if turn = .flip then (if p.face = .up then .down else .up) else p.face
        depth := if turn = .cw ∨ turn = .ccw then p.width else p.depth
        width := if turn = .cw ∨ turn = .ccw then p.depth else p.width
        cursor := if turn = .flip ∧ p.cursor + 1 < (s.entry p.program).count then p.cursor + 1
          else p.cursor } := by
  simp only [State.turned, h, turnedFace_eq, turnExchanges_iff, State.flipAdvanced_eq]

/-! ### The completion (R128) -/

theorem State.completeTurn_eq (s : State) (t : Tag) (p : Pile) :
    s.completeTurn t p =
      { s with
        piles := put s.piles t (some { s.turned p with residency := .returnWait })
        returnLane := s.returnLane ++ [t]
        contexts := put s.contexts Station.turn.ix (endedContext (s.ctx .turn)) } := rfl

theorem complete_turn {s : State} {t : Tag} {p : Pile} (hp : s.pile t = some p) (tag : TagField)
    (value : Nat) :
    complete .turn t tag value s = .ok (s.completeTurn t p, { result := .ok, tag := tag, data := 0 }) := by
  simp only [complete, hp]

theorem DrainTested.onlyPorts_of_returnLane {s u t : State} (h : DrainTested s u t) (hq : u.returnLane ≠ []) :
    OnlyPorts u t := by
  refine h.1 ?_
  rintro ⟨_, _, _, _, _, hempty, _⟩
  exact hq hempty

/-- Settles O31: the completion writes the turned record and ends the job; the pile it puts in the Return Lane keeps
the drain from being complete. -/
theorem turnDoneAppliesTheTurn : Obligations.TurnDoneAppliesTheTurn := by
  intro s tag p value turn hup hfly hturn
  have ⟨_, _, hp⟩ := hfly
  obtain ⟨t, hexec, hdrain, hanswer⟩ :=
    done_complete_answers hup hfly (complete_turn hp (tagField tag) value.toNat)
  have honly := hdrain.onlyPorts_of_returnLane (by simp [State.completeTurn_eq])
  rw [State.completeTurn_eq, s.turned_eq hturn] at honly
  exact ⟨t, hexec, hanswer, honly⟩

end Sys2Proof.Machine
end

section
/-! STATUS (R70, R166): the answer is read before the flags it shows are cleared, so the reply has both as they
stood. -/

namespace Sys2Proof.Machine

/-! ### What STATUS clears -/

theorem State.statusClear_station (s : State) (st : Station) :
    s.statusClear st.port = s.putPort st.port { s.port st.port with restarted := false } := by
  cases st <;> rfl

theorem State.statusClear_plan (s : State) :
    s.statusClear .plan = { s.putPort .plan { s.port .plan with restarted := false } with dropped := false } :=
  rfl

theorem State.statusClear_ports (s : State) (p : Port) :
    (s.statusClear p).ports = (s.putPort p { s.port p with restarted := false }).ports := by
  unfold State.statusClear
  split <;> rfl

theorem State.statusClear_port (s : State) (p : Port) :
    (s.statusClear p).port p = { s.port p with restarted := false } := by
  rw [State.port, State.statusClear_ports]
  exact State.putPort_port s p _

theorem State.statusClear_other {s : State} {p q : Port} (h : q ≠ p) :
    (s.statusClear p).port q = s.port q := by
  rw [State.port, State.statusClear_ports]
  exact State.putPort_other s p q _ h

/-! ### What STATUS shows -/

theorem State.statusAnswer_station (s : State) (st : Station) :
    s.statusAnswer st.port =
      { result := .ok, tag := tagFieldOf (s.ctx st).tag
        data := dataOf ((s.ctx st).remaining + (s.ctx st).busy.toNat * 4096) } := by
  cases st <;> rfl

theorem State.statusAnswer_plan (s : State) :
    s.statusAnswer .plan =
      { result := .ok, tag := 0
        data := dataOf (lineCode s.line + s.dropped.toNat * 8 + s.events.length * 16 +
          storeStateCode s.storeWrite * 1024) } :=
  rfl

/-! ### The request -/

/-- What a STATUS comes to in any line state, when what it clears beside port units leaves `e`. -/
theorem status_answers {s e : State} {p : Port} {tag : TagField} {d : Data}
    (ha : (s.acceptFrame p).statusAnswer p = { result := .ok, tag := tag, data := d })
    (he : ((s.acceptFrame p).statusClear p) =
      e.withLines ((s.acceptFrame p).statusClear p).ports ((s.acceptFrame p).statusClear p).pins) :
    ∃ t, exec (.status p) s = .next t ∧ OnlyPorts e t ∧ OtherPorts s t p ∧
      t.port p = answeredUnit (s.port p) t p 1 .ok tag d (s.port p).restarted false (s.port p).snapPtr := by
  have hexec : exec (.status p) s = .next (((s.acceptFrame p).statusClear p).respond p 1 (s.port p).restarted
      { result := .ok, tag := tag, data := d }) := by
    rw [← ha, show (s.port p).restarted = ((s.acceptFrame p).port p).restarted by rw [State.acceptFrame_port]]
    rfl
  refine ⟨_, hexec, ?only, fun q hq => ?other, ?own⟩
  case only =>
    rw [State.onlyPorts_iff]
    generalize (s.acceptFrame p).statusClear p = u at he ⊢
    rw [he]
    rfl
  case other =>
    rw [State.respond_other _ _ _ _ _ _ hq, State.statusClear_other hq, State.acceptFrame_other _ _ _ hq]
  case own =>
    refine State.respond_unit s _ p 1 _ false _ _ ?_
    rw [State.statusClear_port, State.acceptFrame_port]

/-- Settles O35: one request lemma for every port, the answer and what is cleared by the kind of port. -/
theorem statusShowsThenClears : Obligations.StatusShowsThenClears := by
  intro s
  refine ⟨fun st => status_answers ?answer ?cleared, status_answers (State.statusAnswer_plan _) ?plan⟩
  case answer => exact State.statusAnswer_station _ st
  case cleared => rw [State.statusClear_station]; rfl
  case plan => rw [State.statusClear_plan]; rfl

end Sys2Proof.Machine
end

section
/-! SNAPSHOT and SNAP_READ (R169, R170): the counts among the status words as counts of records, the station words
where BUSY and the current tag agree (R59), and the word a SNAP_READ names. -/

namespace Sys2Proof.Machine

/-! ### Counts of the Pile Table (R14, R16, R86) -/

section
variable (s : State)

theorem State.inUse_eq : s.inUse = (s.tagsWith fun _ => true).length := by
  refine congrArg List.length (List.filter_congr fun t _ => ?_)
  cases s.pile t <;> rfl

theorem State.heldSet_eq : s.heldSet = s.tagsWith fun x => x.residency = .held := by
  refine List.filter_congr fun t _ => ?_
  unfold State.resides
  cases s.pile t <;> rfl

theorem pileFresh_eq (x : Pile) :
    pileFresh x = (!x.started && (x.residency = .lifting || x.residency = .jogWait ||
      x.residency = .jogging || x.residency = .knifeWait)) := by
  unfold pileFresh
  cases x.residency <;> rfl

theorem State.freshCount_eq :
    s.freshCount = (s.tagsWith fun x => !x.started && (x.residency = .lifting || x.residency = .jogWait ||
      x.residency = .jogging || x.residency = .knifeWait)).length := by
  simp only [← pileFresh_eq]
  rfl

/-! ### The station words (R169) -/

/-- An IDLE context has no current tag. -/
theorem State.contextWord_eq {st : Station} (h : (s.ctx st).busy = (s.ctx st).tag.isSome) :
    s.contextWord st =
      dataOf (tagNumOf (if (s.ctx st).busy then (s.ctx st).tag else none) + (s.ctx st).busy.toNat * 64) := by
  have htag : (if (s.ctx st).busy then (s.ctx st).tag else none) = (s.ctx st).tag := by
    rw [h]
    cases (s.ctx st).tag <;> rfl
  rw [htag]
  rfl

theorem State.knifeWord_eq :
    s.knifeWord =
      dataOf (tagNumOf (if (s.ctx .knife).busy then (s.ctx .knife).tag else s.knifePile) +
        (s.ctx .knife).busy.toNat * 64) := by
  unfold State.knifeWord State.contextWord
  cases h : (s.ctx .knife).busy with
  | false => rfl
  | true => simp only [h, if_true]; rfl

end

/-! ### Requests that move the read pointer -/

/-- What a request comes to whose action sets its own port's read pointer and touches nothing else of the port
units. -/
theorem request_setsPointer {s e u : State} {p : Port} {code c : BitVec 6} {nr tag : TagField}
    {f : State → State × Answer} {r : Result} {d : Data} {ptr : Fin 20} (hup : s.Up)
    (hf : f (s.acceptFrame p) = (u, { result := r, tag := tag, data := d }))
    (hu : u.ports = ((s.acceptFrame p).putPort p { (s.acceptFrame p).port p with snapPtr := ptr }).ports)
    (he : u = e.withLines u.ports u.pins) (hc : replyCode code = c) :
    ∃ t, plainRequest p code nr f s = .next t ∧ OnlyPorts e t ∧ OtherPorts s t p ∧
      t.port p = answeredUnit (s.port p) t p c r tag d (s.port p).restarted (s.port p).restarted ptr := by
  have hport (q : Port) : u.port q =
      ((s.acceptFrame p).putPort p { (s.acceptFrame p).port p with snapPtr := ptr }).port q := by
    simp only [State.port, hu]
  refine request_unit hup (congrArg Except.ok hf) ?own (fun q hq => ?other) he hc
  case own =>
    rw [hport, State.putPort_port, State.acceptFrame_port]
  case other =>
    rw [hport, State.putPort_other _ _ _ _ hq, State.acceptFrame_other _ _ _ hq]

/-! ### SNAPSHOT (R169) -/

theorem snapshot_answers {s : State} (p : Port) (tag : TagField) (hup : s.Up) :
    ∃ t, exec (.snapshot p tag) s = .next t ∧
      OnlyPorts { s with snapWords := s.statusWords, snapSeq := snapAfter s.snapSeq } t ∧ OtherPorts s t p ∧
      t.port p = answeredUnit (s.port p) t p 2 .ok (BitVec.ofNat 6 (snapAfter s.snapSeq)) 0
        (s.port p).restarted (s.port p).restarted 0 :=
  request_setsPointer (f := fun s => (s.snapshot p, { result := .ok, tag := _, data := 0 })) hup rfl rfl rfl rfl

/-! ### SNAP_READ (R170) -/

theorem snapReadWord_none {pointer : Fin 20} {word : BitVec 5} (hlo : 20 ≤ word.toNat) (h31 : word.toNat ≠ 31) :
    snapReadWord pointer word = none := by
  rw [snapReadWord, if_neg h31, dif_neg (by omega)]

theorem snapReadWord_some {pointer i : Fin 20} {word : BitVec 5}
    (h : word.toNat = i.val ∨ (word.toNat = 31 ∧ i = pointer)) : snapReadWord pointer word = some i := by
  rcases h with hindex | ⟨h31, rfl⟩
  · have hlt := i.isLt
    simp only [snapReadWord, hindex, if_neg (show ¬ i.val = 31 by omega), dif_pos hlt]
  · rw [snapReadWord, if_pos h31]

/-- The pointer of twenty words passes from 19 to 0. -/
theorem snapPtr_succ (i : Fin 20) : i + 1 = if i = 19 then 0 else i + 1 := by
  split
  · next h => rw [h]; rfl
  · rfl

section
variable {s : State} {p : Port} {word : BitVec 5}

theorem snapReadAction_none (tag : TagField) (hlo : 20 ≤ word.toNat) (h31 : word.toNat ≠ 31) :
    snapReadAction p tag word s = (s, { result := .badArg, tag := tag, data := 0 }) := by
  simp only [snapReadAction, snapReadWord_none hlo h31]

theorem snapReadAction_some (tag : TagField) {i : Fin 20}
    (h : word.toNat = i.val ∨ (word.toNat = 31 ∧ i = (s.port p).snapPtr)) :
    snapReadAction p tag word s =
      (s.putPort p { s.port p with snapPtr := if i = 19 then 0 else i + 1 },
        { result := .ok, tag := BitVec.ofNat 6 s.snapSeq, data := look s.snapWords i }) := by
  rw [← snapPtr_succ]
  simp only [snapReadAction, snapReadWord_some h]

theorem snapRead_badArg (tag : TagField) (hup : s.Up) (hlo : 20 ≤ word.toNat) (h31 : word.toNat ≠ 31) :
    ∃ t, exec (.snapRead p tag word) s = .next t ∧ OnlyPorts s t ∧ Answered s t p 3 .badArg tag 0 :=
  plainRequest_answers hup (snapReadAction_none (s := s.acceptFrame p) tag hlo h31) rfl rfl rfl

theorem snapRead_answers (tag : TagField) {i : Fin 20} (hup : s.Up)
    (h : word.toNat = i.val ∨ (word.toNat = 31 ∧ i = (s.port p).snapPtr)) :
    ∃ t, exec (.snapRead p tag word) s = .next t ∧ OnlyPorts s t ∧ OtherPorts s t p ∧
      t.port p = answeredUnit (s.port p) t p 3 .ok (BitVec.ofNat 6 s.snapSeq) (look s.snapWords i)
        (s.port p).restarted (s.port p).restarted (if i = 19 then 0 else i + 1) := by
  have hptr : ((s.acceptFrame p).port p).snapPtr = (s.port p).snapPtr := by rw [State.acceptFrame_port]
  have haction := snapReadAction_some (s := s.acceptFrame p) tag (hptr ▸ h)
  exact request_setsPointer hup haction rfl rfl rfl

end

/-- Settles O42: the counts and station words as R169's table has them; SNAPSHOT and SNAP_READ as requests that
move their own port's pointer. -/
theorem snapshotsAreTakenAndRead : Obligations.SnapshotsAreTakenAndRead := by
  refine ⟨fun s => ⟨s.inUse_eq, rfl, rfl, s.freshCount_eq, fun hbusy => ?words⟩,
    fun p tag word s hup =>
      ⟨snapshot_answers p tag hup, snapRead_badArg tag hup, fun i h => snapRead_answers tag hup h⟩⟩
  case words =>
    rw [State.statusWords, State.heldSet_eq, s.contextWord_eq (hbusy .lift), s.contextWord_eq (hbusy .jog),
      s.contextWord_eq (hbusy .turn), State.knifeWord_eq]
    rfl

end Sys2Proof.Machine
end

section
/-! EVENT_READ and the Event Queue (R167, R168): an event's fields by its kind, and the oldest event taken. -/

namespace Sys2Proof.Machine

/-! ### The fields of an event record (R167) -/

/-- The hold reason stands above the two bits of the station. -/
theorem eventDetail_held (t : Tag) (reason : HoldReason) (st : Station) :
    eventDetail (.held t reason st) = BitVec.ofNat 14 (reasonCode reason * 4 + st.ix.val) := by
  rw [Nat.add_comm]
  rfl

/-- An erase is marked in bit 6, above the program number. -/
theorem eventDetail_storeDone (p : ProgNo) (erase : Bool) :
    eventDetail (.storeDone p erase) = BitVec.ofNat 14 (progNum p + (if erase then 64 else 0)) := by
  cases erase <;> rfl

/-! ### Joining the queue (R167) -/

theorem State.raise_of_lt {s : State} (ev : Event) (h : s.events.length < 32) :
    s.raise ev = { s with events := s.events ++ [ev] } := if_pos h

theorem State.raise_of_ge {s : State} (ev : Event) (h : 32 ≤ s.events.length) :
    s.raise ev = { s with dropped := true } := if_neg (by omega)

/-! ### EVENT_READ (R168) -/

theorem eventReadAction_nil {s : State} (h : s.events = []) :
    eventReadAction s = (s, { result := .wait, tag := 0, data := 0 }) := by
  simp only [eventReadAction, h]

theorem eventReadAction_cons {s : State} {ev : Event} {rest : List Event} (h : s.events = ev :: rest) :
    eventReadAction s =
      ({ s with events := rest },
        { result := .ok, tag := eventTag ev, data := BitVec.ofNat 6 (eventKind ev) ++ eventDetail ev }) := by
  simp only [eventReadAction, h, eventData]

theorem eventRead_nil {s : State} (tag : TagField) (hup : s.Up) (h : s.events = []) :
    ∃ t, exec (.eventRead tag) s = .next t ∧ OnlyPorts s t ∧ Answered s t .plan 33 .wait 0 0 :=
  plainRequest_answers hup (eventReadAction_nil (s := s.acceptFrame .plan) h) rfl rfl rfl

theorem eventRead_cons {s : State} (tag : TagField) {ev : Event} {rest : List Event} (hup : s.Up)
    (h : s.events = ev :: rest) :
    ∃ t, exec (.eventRead tag) s = .next t ∧ OnlyPorts { s with events := rest } t ∧
      Answered s t .plan 33 .ok (eventTag ev) (BitVec.ofNat 6 (eventKind ev) ++ eventDetail ev) :=
  plainRequest_answers hup (eventReadAction_cons (s := s.acceptFrame .plan) h) rfl rfl rfl

/-- Settles O43: the fields by the kind of event, a raise by the room in the queue, EVENT_READ by its head. -/
theorem eventQueueIsFirstInFirstOut : Obligations.EventQueueIsFirstInFirstOut := by
  refine ⟨fun ev => ?fields, fun s ev => ⟨State.raise_of_lt ev, State.raise_of_ge ev⟩,
    fun tag s hup => ⟨eventRead_nil tag hup, fun ev rest => eventRead_cons tag hup⟩⟩
  case fields =>
    cases ev with
    | held t reason st => rw [eventDetail_held]; rfl
    | storeDone p erase => rw [eventDetail_storeDone]; rfl
    | storeFailed p => cases p <;> rfl
    | _ => rfl

end Sys2Proof.Machine
end

section
/-! What a command can do, said once: every next state is reached by pieces, each one named operation of the model
with the checks that let it happen. Laws that every step keeps are proved piece by piece. -/

namespace Sys2Proof.Machine

open Relation (ReflTransGen)

/-! ### The pieces -/

/-- What becomes of port units and output lines around a command's effect. -/
inductive LinePiece : State → State → Prop where
  | accepted (s : State) (p : Port) : LinePiece s (s.acceptFrame p)
  | answered (s : State) (p : Port) (code : BitVec 6) (shown : Bool) (a : Answer) :
      LinePiece s (s.respond p code shown a)
  | shown (s : State) : LinePiece s s.settle
  | cleared (s : State) (p : Port) : LinePiece s (s.putPort p { s.port p with restarted := false })
  | pointed (s : State) (p : Port) (i : Fin 20) : LinePiece s (s.putPort p { s.port p with snapPtr := i })

/-- The effects that the drain test of R153 follows, the job in flight and the selection as the checks of R60 and
R64 leave them. -/
inductive JobEffect : State → State → Prop where
  | nothing (s : State) : JobEffect s s
  | begun {s : State} : s.line = .run → JobEffect s { s with line := .draining }
  | waited {s u : State} {st : Station} : Selects s st → s.select st = .ok (u, none) → JobEffect s u
  | issued {s u : State} {st : Station} {t : Tag} {j : Job} : Selects s st →
      s.select st = .ok (u, some (t, j)) → JobEffect s (u.issue st t j)
  | liftDone {s : State} {t : Tag} {p : Pile} (value : Nat) : InFlight s .lift t p →
      JobEffect s (s.completeLift t p value)
  | jogDone {s : State} {t : Tag} {p : Pile} (tag : TagField) (value : Nat) : InFlight s .jog t p →
      JobEffect s (s.completeJog t p tag value).1
  | knifeDone {s u : State} {t : Tag} {p : Pile} : InFlight s .knife t p → s.completeKnife t p = .ok u →
      JobEffect s u
  | turnDone {s : State} {t : Tag} {p : Pile} : InFlight s .turn t p → JobEffect s (s.completeTurn t p)
  | failed {s : State} {st : Station} {t : Tag} (r : HoldReason) : (s.ctx st).busy = true →
      (s.ctx st).tag = some t → JobEffect s (s.failJob st t r)
  | aborted {s : State} {st : Station} {t : Tag} : (s.ctx st).busy = true → (s.ctx st).tag = some t →
      JobEffect s (s.abortJob st t)
  | expired (s : State) (st : Station) : JobEffect s (s.expireJob st)

/-- What a command with a drain test does: its effect with the test, and the timers that a tick lowers. -/
inductive DrainPiece : State → State → Prop where
  | line {s t : State} : LinePiece s t → DrainPiece s t
  | tested {s u t : State} : JobEffect s u → DrainTested s u t → t.ports = u.ports → t.pins = u.pins →
      DrainPiece s t
  | lowered (s : State) (st : Station) (n : Nat) : DrainPiece s (s.putCtx st { s.ctx st with remaining := n })

/-- What a command without a drain test does. -/
inductive PlainPiece : State → State → Prop where
  | line {s t : State} : LinePiece s t → PlainPiece s t
  | discarded (s : State) (p : Port) (cause : DiscardCause) : PlainPiece s (s.discardFrame p cause)
  | droppedShown (s : State) : PlainPiece s { s with dropped := false }
  | snapped (s : State) :
      PlainPiece s { s with snapWords := s.statusWords, snapSeq := snapAfter s.snapSeq }
  | eventTaken {s : State} {ev : Event} {rest : List Event} : s.events = ev :: rest →
      PlainPiece s { s with events := rest }
  | extended (s : State) (st : Station) : PlainPiece s (s.loadTimer st)
  | wordRead (s : State) (st : Station) (i : Fin 4) :
      PlainPiece s (s.putCtx st { s.ctx st with pointer := i })
  | bladeChanged (s : State) : PlainPiece s s.changeBlade
  | started {s : State} : s.Up → PlainPiece s { s with line := .run }
  | lineReset (s : State) : PlainPiece s s.lineReset
  | configured {s : State} {r : SettingRef} {v : Nat} : settingWritable r = true →
      (settingRange r).1 ≤ v → v ≤ (settingRange r).2 → settingFits s.settings r v = true →
      PlainPiece s { s with settings := settingWrite s.settings r v }
  | retested (s : State) : PlainPiece s s.bladeRetest
  | drafted (s : State) (d : Draft) : PlainPiece s { s with draft := d }
  | queued {s : State} {p : ProgNo} : (s.entry p).state = .valid → s.loading p = false →
      s.operating p = false → s.pallets.length < 4 → PlainPiece s (s.queuePallet p)
  | cancelled {s : State} {n : Nat} {q : Pallet} : s.palletOf n = some q →
      PlainPiece s ((s.modifyPallet n accountCancelled).finishTest n)
  | sessionOpened {s : State} {x : Session} : s.storeBusy x.program = none →
      PlainPiece s { s with session := some x }
  | sessionFilled {s : State} {x y : Session} : s.session = some x → y.program = x.program →
      PlainPiece s { s with session := some y }
  | sessionClosed (s : State) : PlainPiece s { s with session := none }
  | commitHanded {s : State} {x : Session} : s.session = some x → PlainPiece s (s.handCommit x)
  | eraseHanded {s : State} {p : ProgNo} : s.storeBusy p = none →
      PlainPiece s { s with progOp := some { program := p, kind := .erase, stage := .pending } }.startNext
  | released {s : State} {t : Tag} {p : Pile} {h : Hold} {a : ReleaseAction} : s.pile t = some p →
      p.residency = .held → p.hold = some h → releaseAllowed h.station a = true →
      PlainPiece s (s.releasePile t p h.station a)
  | haltAsserted (s : State) : PlainPiece s s.assertHalt
  | haltReleased (s : State) : PlainPiece s s.releaseHalt
  | hardwareReset (s : State) (haltInput : Bool) : PlainPiece s (s.hardwareReset haltInput)
  | scanFinished (s : State) : PlainPiece s s.scanFinish
  | blockWriteEnded (s : State) (isMatch : Bool) : PlainPiece s (s.blockWriteEnd isMatch)
  | dirWriteEnded (s : State) (isMatch : Bool) : PlainPiece s (s.dirWriteEnd isMatch)

/-- The next states of a command: pieces without drain tests, or pieces of a command that makes them. -/
def Reaches (s t : State) : Prop := ReflTransGen PlainPiece s t ∨ ReflTransGen DrainPiece s t

/-! ### The drain test as a piece -/

/-- An effect with its drain test comes to what the effect comes to by itself, tested. -/
theorem withDrain_cases {α : Type} {effect : State → Except Fault (State × α)} {s t : State} {a : α}
    (hs : ∀ u, effect s = .ok (u, a) → Settled effect s u a) (h : withDrain effect s = .ok (t, a)) :
    ∃ u, effect s = .ok (u, a) ∧ DrainTested s u t ∧ t.ports = u.ports ∧ t.pins = u.pins := by
  have hok : ∃ u, effect s = .ok (u, a) := by
    unfold withDrain at h
    split at h
    · cases h
    · rename_i u b hu
      refine ⟨u, ?_⟩
      split at h <;> (injection h with h; injection h with _ h; rw [hu, h])
  obtain ⟨u, hu⟩ := hok
  obtain ⟨_, evs, ha⟩ := hs u hu
  obtain ⟨v, hv, hd, hports, hpins⟩ := withDrain_spec ha
  have hvt : v = t := by
    rw [h] at hv
    injection hv with hv
    injection hv with hv _
    exact hv.symm
  have hafter := Settled.after hu ha
  rw [hafter] at hd
  subst hvt
  refine ⟨u, hu, hd, ?_, ?_⟩
  · rw [hports, ← hafter]; exact (Outside.pushAll_ports s.outside evs).symm
  · rw [hpins, ← hafter]; exact (Outside.pushAll_pins s.outside evs).symm

/-- The drain test either leaves the effect as it is, or stops the line with LINE_STOPPED raised or DROPPED set. -/
theorem DrainTested.cases {s u t : State} (h : DrainTested s u t) (hports : t.ports = u.ports)
    (hpins : t.pins = u.pins) :
    (¬ (u.line = .draining ∧ Drained u) ∧ t = u) ∨
    ((u.line = .draining ∧ Drained u) ∧
      t = { u with line := .stopped, events := t.events, dropped := t.dropped, freeCtr := u.freeCtr + 1 } ∧
      (.lineStopped ∈ t.events ∨ t.dropped = true) ∧ (u.events.length ≤ 32 → t.events.length ≤ 32)) := by
  by_cases hd : u.line = .draining ∧ Drained u
  · obtain ⟨ht, hfits, hfull⟩ := h.2 hd
    rw [hports, hpins] at ht
    refine .inr ⟨hd, ht, ?_⟩
    by_cases hl : u.events.length < 32
    · obtain ⟨_, a, b, hu, _, htev⟩ := hfits hl
      have hlen : t.events.length = u.events.length + 1 := by rw [htev, hu]; simp; omega
      exact ⟨.inl (by rw [htev]; simp), fun _ => by omega⟩
    · obtain ⟨hdrop, hlen⟩ := hfull (by omega)
      exact ⟨.inr hdrop, fun hle => by omega⟩
  · have ht := h.1 hd
    unfold OnlyPorts at ht
    rw [hports, hpins] at ht
    exact .inl ⟨hd, ht⟩

/-! ### Requests and events -/

/-- A request's next state is its action's, between the frame accepted and the reply formed. -/
theorem request_plain {p : Port} {code : BitVec 6} {tag : TagField} {f : State → Except Fault (State × Answer)}
    {s t : State} (hf : ∀ s u a, s.Up → f s = .ok (u, a) → ReflTransGen PlainPiece s u)
    (h : request p code tag f s = .next t) : Reaches s t := by
  have haccept : PlainPiece s (s.acceptFrame p) := .line (.accepted s p)
  rcases request_cases h with ⟨_, rfl⟩ | ⟨hup, u, a, hu, rfl⟩
  · exact .inl ((ReflTransGen.single haccept).tail (.line (.answered _ _ _ _ _)))
  · exact .inl (((ReflTransGen.single haccept).trans (hf _ _ _ hup hu)).tail (.line (.answered _ _ _ _ _)))

theorem plainRequest_plain {p : Port} {code : BitVec 6} {tag : TagField} {f : State → State × Answer}
    {s t : State} (hf : ∀ s, s.Up → ReflTransGen PlainPiece s (f s).1)
    (h : plainRequest p code tag f s = .next t) : Reaches s t := by
  refine request_plain (fun s u a hup hu => ?_) h
  injection hu with hu
  have := hf s hup
  rwa [hu] at this

theorem readRequest_plain {p : Port} {code : BitVec 6} {tag : TagField} {f : State → Answer} {s t : State}
    (h : readRequest p code tag f s = .next t) : Reaches s t :=
  plainRequest_plain (fun _ _ => .refl) h

theorem request_drain {p : Port} {code : BitVec 6} {tag : TagField} {f : State → Except Fault (State × Answer)}
    {s t : State} (hf : ∀ s u a, s.Up → f s = .ok (u, a) → ReflTransGen DrainPiece s u)
    (h : request p code tag f s = .next t) : Reaches s t := by
  have haccept : DrainPiece s (s.acceptFrame p) := .line (.accepted s p)
  rcases request_cases h with ⟨_, rfl⟩ | ⟨hup, u, a, hu, rfl⟩
  · exact .inr ((ReflTransGen.single haccept).tail (.line (.answered _ _ _ _ _)))
  · exact .inr (((ReflTransGen.single haccept).trans (hf _ _ _ hup hu)).tail (.line (.answered _ _ _ _ _)))

theorem event_plain {s u t : State} (hu : PlainPiece s u) (h : event (.ok (u, ())) = .next t) :
    Reaches s t := by
  obtain ⟨v, x, hv, rfl⟩ := event_cases h
  injection hv with hv
  injection hv with hv _
  subst hv
  exact .inl ((ReflTransGen.single hu).tail (.line (.shown _)))

/-! ### Commands with a drain test -/

theorem serve_settled {s u : State} {st : Station} {a : Answer} (h : serve st s = .ok (u, a)) :
    Settled (serve st) s u a := by
  unfold serve at h
  split at h
  · cases h
  · rename_i x hx
    injection h with h; injection h with h1 h2; subst h1 h2
    exact serve_wait s st hx
  · rename_i x tag j hx
    injection h with h; injection h with h1 h2; subst h1 h2
    exact serve_job s st hx

theorem serve_pieces {s u : State} {st : Station} {a : Answer} (hs : Selects s st)
    (h : withDrain (serve st) s = .ok (u, a)) : DrainPiece s u := by
  obtain ⟨v, hv, hd, hports, hpins⟩ := withDrain_cases (fun _ => serve_settled) h
  unfold serve at hv
  split at hv
  · cases hv
  · rename_i x hx
    injection hv with hv; injection hv with h1 h2; subst h1
    exact .tested (.waited hs hx) hd hports hpins
  · rename_i x tag j hx
    injection hv with hv; injection hv with h1 h2; subst h1
    exact .tested (.issued hs hx) hd hports hpins

theorem nextAction_pieces {s u : State} {st : Station} {a : Answer} (h : nextAction st s = .ok (u, a)) :
    ReflTransGen DrainPiece s u := by
  by_cases hbusy : (s.ctx st).busy = true
  · rw [nextAction_busy hbusy] at h
    injection h with h; injection h with h _; subst h; exact .refl
  rw [Bool.not_eq_true] at hbusy
  by_cases hline : Admits st s.line
  · by_cases hhalt : s.halt = true
    · rw [nextAction_halt hbusy hline hhalt] at h
      injection h with h; injection h with h _; subst h; exact .refl
    · rw [Bool.not_eq_true] at hhalt
      rw [nextAction_selects ⟨hbusy, hline, hhalt⟩] at h
      exact .single (serve_pieces ⟨hbusy, hline, hhalt⟩ h)
  · rw [nextAction_notRunning hbusy hline] at h
    injection h with h; injection h with h _; subst h; exact .refl

/-- The report is the job in flight's only where R64 finds it so. -/
theorem State.reportVerdict_eq_current {s : State} {st : Station} {tag : TagField} {known : Bool} {t : Tag}
    (h : s.reportVerdict st tag known = .current t) : (s.ctx st).busy = true ∧ (s.ctx st).tag = some t := by
  unfold State.reportVerdict at h
  split at h
  · cases h
  · rename_i t0 _
    split at h
    · cases h
    · split at h
      · rename_i hc
        injection h with h
        subst h
        simpa using hc
      · split at h
        · cases h
        · split at h <;> cases h

/-- The completion of the job in flight by its station (R65). -/
theorem complete_effect {s u : State} {st : Station} {t : Tag} {tag : TagField} {value : Nat} {a : Answer}
    (hb : (s.ctx st).busy = true) (ht : (s.ctx st).tag = some t)
    (h : complete st t tag value s = .ok (u, a)) : JobEffect s u := by
  unfold complete at h
  split at h
  · cases h
  · rename_i p hp
    have hfly : InFlight s st t p := ⟨hb, ht, hp⟩
    cases st with
    | lift => injection h with h; injection h with h _; subst h; exact .liftDone value hfly
    | jog =>
      injection h with h
      have h' : (s.completeJog t p tag value).1 = u := congrArg Prod.fst h
      subst h'
      exact .jogDone tag value hfly
    | knife =>
      dsimp only at h
      split at h
      · cases h
      · rename_i v hv
        injection h with h; injection h with h _; subst h; exact .knifeDone hfly hv
    | turn => injection h with h; injection h with h _; subst h; exact .turnDone hfly

theorem doneAction_pieces {s u : State} {st : Station} {tag : TagField} {outcome : BitVec 2} {value : Data}
    {a : Answer} (h : doneAction st tag outcome value s = .ok (u, a)) : ReflTransGen DrainPiece s u := by
  unfold doneAction at h
  split at h
  · injection h with h; injection h with h _; subst h; exact .refl
  · rename_i t hv
    obtain ⟨hb, ht⟩ := State.reportVerdict_eq_current hv
    split at h
    · obtain ⟨v, hv, hd, hports, hpins⟩ :=
        withDrain_cases (fun v hv => complete_settled s st t tag value.toNat hv) h
      exact .single (.tested (complete_effect hb ht hv) hd hports hpins)
    · obtain ⟨v, hv, hd, hports, hpins⟩ := withDrain_cases (fun v hv => by
        injection hv with hv; injection hv with h1 h2; subst h1 h2; exact failed_settled s st t tag) h
      injection hv with hv; injection hv with hv _; subst hv
      exact .single (.tested (.failed .machine hb ht) hd hports hpins)
    · injection h with h; injection h with h _; subst h; exact .refl

theorem abortAction_pieces {s u : State} {st : Station} {tag : TagField} {a : Answer}
    (h : abortAction st tag s = .ok (u, a)) : ReflTransGen DrainPiece s u := by
  unfold abortAction at h
  split at h
  · injection h with h; injection h with h _; subst h; exact .refl
  · rename_i t hv
    obtain ⟨hb, ht⟩ := State.reportVerdict_eq_current hv
    obtain ⟨v, hv, hd, hports, hpins⟩ := withDrain_cases (fun v hv => by
      injection hv with hv; injection hv with h1 h2; subst h1 h2
      exact (State.abortJob_dresses s st t).settled _) h
    injection hv with hv; injection hv with hv _; subst hv
    exact .single (.tested (.aborted hb ht) hd hports hpins)

theorem expire_pieces {s u : State} {st : Station} (h : expire st s = .ok (u, ())) : DrainPiece s u := by
  obtain ⟨v, hv, hd, hports, hpins⟩ := withDrain_cases (fun v hv => by
    injection hv with hv; injection hv with h1 h2; subst h1
    exact (State.expireJob_dresses s st).settled _) h
  injection hv with hv; injection hv with hv _; subst hv
  exact .tested (.expired s st) hd hports hpins

theorem tickStation_pieces {s u : State} {st : Station} (h : tickStation st s = .ok (u, ())) :
    ReflTransGen DrainPiece s u := by
  unfold tickStation at h
  dsimp only at h
  split at h
  · split at h
    · exact .single (expire_pieces h)
    · injection h with h; injection h with h _; subst h
      exact .single (.lowered s st _)
  · injection h with h; injection h with h _; subst h; exact .refl

theorem tickStations_pieces {l : List Station} {s u : State} (h : tickStations l s = .ok (u, ())) :
    ReflTransGen DrainPiece s u := by
  induction l generalizing s with
  | nil => injection h with h; injection h with h _; subst h; exact .refl
  | cons st rest ih =>
    rw [tickStations] at h
    split at h
    · cases h
    · rename_i v hv
      exact (tickStation_pieces hv).trans (ih h)

theorem drainBegin_pieces {s u : State} (hrun : s.line = .run) (h : s.drainBegin = .ok (u, ())) :
    DrainPiece s u := by
  obtain ⟨v, hv, hd, hports, hpins⟩ := withDrain_cases (fun v hv => by
    injection hv with hv; injection hv with h1 h2; subst h1
    exact (Dresses.quiet (f := fun s => { s with line := .draining }) fun _ => rfl).settled _) h
  injection hv with hv; injection hv with hv _; subst hv
  exact .tested (.begun hrun) hd hports hpins

theorem lineStopAction_pieces {s u : State} {tag : TagField} {a : Answer}
    (h : lineStopAction tag s = .ok (u, a)) : ReflTransGen DrainPiece s u := by
  unfold lineStopAction at h
  split at h
  · rename_i hrun
    split at h
    · cases h
    · rename_i v hv
      injection h with h; injection h with h _; subst h
      exact .single (drainBegin_pieces hrun hv)
  · injection h with h; injection h with h _; subst h; exact .refl

theorem event_drain {s t : State} {r : Except Fault (State × Unit)} (h : event r = .next t)
    (hr : ∀ u, r = .ok (u, ()) → ReflTransGen DrainPiece s u) : Reaches s t := by
  obtain ⟨u, x, hu, rfl⟩ := event_cases h
  exact .inr ((hr u hu).tail (.line (.shown _)))

/-! ### Commands without a drain test -/

section
variable {s : State}

theorem configWriteAction_pieces (table : TagField) (index setting : BitVec 4) (value : Data) :
    ReflTransGen PlainPiece s (configWriteAction table index setting value s).1 := by
  unfold configWriteAction
  dsimp only
  split
  · exact .refl
  · rename_i r _
    split
    · exact .refl
    · rename_i hw
      split
      · exact .refl
      · split
        · exact .refl
        · rename_i hrange
          split
          · exact .refl
          · rename_i hfits
            simp only [Bool.or_eq_true, decide_eq_true_eq, not_or, Nat.not_lt] at hrange
            have hset := PlainPiece.configured (s := s) (by simpa using hw) hrange.1 hrange.2 (by simpa using hfits)
            dsimp only
            split
            · exact (ReflTransGen.single hset).tail (.retested _)
            · exact .single hset

theorem palletFieldAction_pieces (tag : TagField) (field : BitVec 4) (value : Data) :
    ReflTransGen PlainPiece s (palletFieldAction tag field value s).1 := by
  unfold palletFieldAction
  split
  · exact .refl
  · exact .single (.drafted s _)

theorem palletQueueAction_pieces (tag : TagField) :
    ReflTransGen PlainPiece s (palletQueueAction tag s).1 := by
  unfold palletQueueAction
  dsimp only
  split
  · exact .refl
  · split
    · exact .refl
    · split
      · exact .refl
      · rename_i hvalid
        split
        · exact .refl
        · rename_i hfree
          split
          · exact .refl
          · rename_i hroom
            simp only [Bool.or_eq_true, not_or, Bool.not_eq_true] at hfree
            exact .single (.queued (not_not.1 hvalid) hfree.1 hfree.2 (by omega))

theorem palletCancelAction_pieces (tag : TagField) (seq : BitVec 8) :
    ReflTransGen PlainPiece s (palletCancelAction tag seq s).1 := by
  unfold palletCancelAction
  dsimp only
  split
  · exact .refl
  · split
    · exact .refl
    · rename_i q hq
      exact .single (.cancelled hq)

theorem loadBeginAction_pieces (program : TagField) (count : BitVec 8) :
    ReflTransGen PlainPiece s (loadBeginAction program count s).1 := by
  unfold loadBeginAction
  dsimp only
  split
  · exact .refl
  · split
    · exact .refl
    · split
      · exact .refl
      · rename_i hbusy
        split
        · exact .refl
        · exact .single (.sessionOpened hbusy)

theorem loadStepAction_pieces (top : BitVec 2) (step : PackedStep) :
    ReflTransGen PlainPiece s (loadStepAction top step s).1 := by
  unfold loadStepAction
  dsimp only
  split
  · exact .refl
  · rename_i x hx
    split
    · exact .refl
    · exact .single (.sessionFilled hx rfl)

theorem loadEndAction_pieces (tag : TagField) (mode : BitVec 4) (check : BitVec 16) :
    ReflTransGen PlainPiece s (loadEndAction tag mode check s).1 := by
  unfold loadEndAction
  dsimp only
  split
  · exact .refl
  · rename_i x hx
    split
    · exact .refl
    · split
      · exact .refl
      · split
        · exact .single (.sessionClosed s)
        · split
          · exact .single (.sessionClosed s)
          · exact .single (.commitHanded hx)

theorem loadAbortAction_pieces : ReflTransGen PlainPiece s (loadAbortAction s).1 := by
  unfold loadAbortAction
  split
  · exact .refl
  · exact .single (.sessionClosed s)

theorem progEraseAction_pieces (program : TagField) :
    ReflTransGen PlainPiece s (progEraseAction program s).1 := by
  unfold progEraseAction
  dsimp only
  split
  · exact .refl
  · split
    · exact .refl
    · rename_i hbusy
      exact .single (.eraseHanded hbusy)

/-- A RELEASE that passes its checks names a held pile and an action that R19 allows at its station. -/
theorem State.releaseCheck_ok {tag : TagField} {action : BitVec 4} {t : Tag} {p : Pile} {st : Station}
    {a : ReleaseAction} (h : s.releaseCheck tag action = .ok (t, p, st, a)) :
    s.pile t = some p ∧ p.residency = .held ∧ ∃ hold, p.hold = some hold ∧ hold.station = st ∧
      releaseAllowed st a = true := by
  unfold State.releaseCheck at h
  split at h
  · cases h
  · split at h
    · cases h
    · rename_i p' hp
      split at h
      · rename_i hold a' hres hhold _
        split at h
        · cases h
        · rename_i hallowed
          split at h
          · cases h
          · split at h
            · cases h
            · injection h with h
              simp only [Prod.mk.injEq] at h
              obtain ⟨rfl, rfl, rfl, rfl⟩ := h
              exact ⟨hp, hres, hold, hhold, rfl, by simpa using hallowed⟩
      · cases h

theorem releaseRequest_pieces (tag : TagField) (action : BitVec 4) :
    ReflTransGen PlainPiece s (releaseRequest tag action s).1 := by
  unfold releaseRequest
  split
  · exact .refl
  · rename_i t p st a hcheck
    obtain ⟨hp, hres, hold, hhold, rfl, hallowed⟩ := State.releaseCheck_ok hcheck
    exact .single (.released hp hres hhold hallowed)

theorem eventReadAction_pieces : ReflTransGen PlainPiece s (eventReadAction s).1 := by
  unfold eventReadAction
  split
  · exact .refl
  · rename_i ev rest hev
    exact .single (.eventTaken hev)

theorem extendAction_pieces (st : Station) (tag : TagField) :
    ReflTransGen PlainPiece s (extendAction st tag s).1 := by
  unfold extendAction
  split
  · exact .refl
  · exact .single (.extended s st)

theorem jobReadAction_pieces (st : Station) (tag : TagField) (word : BitVec 4) :
    ReflTransGen PlainPiece s (jobReadAction st tag word s).1 := by
  unfold jobReadAction
  dsimp only
  split
  · exact .refl
  · exact .single (.wordRead s st _)

theorem snapReadAction_pieces (p : Port) (tag : TagField) (word : BitVec 5) :
    ReflTransGen PlainPiece s (snapReadAction p tag word s).1 := by
  unfold snapReadAction
  split
  · exact .refl
  · exact .single (.line (.pointed s p _))

theorem snapshot_pieces (p : Port) : ReflTransGen PlainPiece s (s.snapshot p) :=
  (ReflTransGen.single (.snapped s)).tail (.line (.pointed _ p 0))

theorem statusClear_pieces (p : Port) : ReflTransGen PlainPiece s (s.statusClear p) := by
  have hport : ReflTransGen PlainPiece s (s.putPort p { s.port p with restarted := false }) :=
    .single (.line (.cleared s p))
  unfold State.statusClear
  dsimp only
  split
  · exact hport.tail (.droppedShown _)
  · exact hport

end

/-- Every next state of a command is reached by the pieces. -/
theorem exec_reaches {c : Instr} {s t : State} (h : exec c s = .next t) : Reaches s t := by
  cases c with
  | nop p | badCommand p code tag =>
    injection h with h; subst h
    exact .inl ((ReflTransGen.single (.line (.accepted s p))).tail (.line (.answered _ _ _ _ _)))
  | status p =>
    injection h with h; subst h
    exact .inl (((ReflTransGen.single (.line (.accepted s p))).trans (statusClear_pieces p)).tail
      (.line (.answered _ _ _ _ _)))
  | snapshot p tag =>
    exact plainRequest_plain (f := fun s => (s.snapshot p, _)) (fun _ _ => snapshot_pieces p) h
  | snapRead p tag word => exact plainRequest_plain (fun _ _ => snapReadAction_pieces p tag word) h
  | pileRead p tag word => exact readRequest_plain (f := fun s => s.pileReadAnswer tag word) h
  | configRead table index setting =>
    exact readRequest_plain (f := fun s => s.configReadAnswer table index setting) h
  | palletRead tag source word => exact readRequest_plain (f := fun s => s.palletReadAnswer tag source word) h
  | progRead program half index =>
    exact readRequest_plain (f := fun s => s.progReadAnswer program half index) h
  | progInfo program item => exact readRequest_plain (f := fun s => s.progInfoAnswer program item) h
  | next st => exact request_drain (fun _ _ _ _ => nextAction_pieces) h
  | done st tag outcome value => exact request_drain (fun _ _ _ _ => doneAction_pieces) h
  | abort st tag => exact request_drain (fun _ _ _ _ => abortAction_pieces) h
  | extend st tag => exact plainRequest_plain (fun _ _ => extendAction_pieces st tag) h
  | jobRead st tag word => exact plainRequest_plain (fun _ _ => jobReadAction_pieces st tag word) h
  | bladeChanged p tag =>
    exact plainRequest_plain (f := fun s => (s.changeBlade, _)) (fun s _ => .single (.bladeChanged s)) h
  | lineStart tag =>
    exact plainRequest_plain (f := lineStartAction tag) (fun _ hup => .single (.started hup)) h
  | lineStop tag => exact request_drain (fun _ _ _ _ => lineStopAction_pieces) h
  | lineReset tag =>
    exact plainRequest_plain (f := fun s => (s.lineReset, _)) (fun s _ => .single (.lineReset s)) h
  | configWrite table index setting value =>
    exact plainRequest_plain (fun _ _ => configWriteAction_pieces table index setting value) h
  | palletField tag field value =>
    exact plainRequest_plain (fun _ _ => palletFieldAction_pieces tag field value) h
  | palletQueue tag => exact plainRequest_plain (fun _ _ => palletQueueAction_pieces tag) h
  | palletCancel tag seq => exact plainRequest_plain (fun _ _ => palletCancelAction_pieces tag seq) h
  | loadBegin program count => exact plainRequest_plain (fun _ _ => loadBeginAction_pieces program count) h
  | loadStep top step => exact plainRequest_plain (fun _ _ => loadStepAction_pieces top step) h
  | loadEnd tag mode check => exact plainRequest_plain (fun _ _ => loadEndAction_pieces tag mode check) h
  | loadAbort tag => exact plainRequest_plain (fun _ _ => loadAbortAction_pieces) h
  | progErase program => exact plainRequest_plain (fun _ _ => progEraseAction_pieces program) h
  | release tag action => exact plainRequest_plain (fun _ _ => releaseRequest_pieces tag action) h
  | eventRead tag => exact plainRequest_plain (fun _ _ => eventReadAction_pieces) h
  | frameDiscarded p cause =>
    injection h with h; subst h
    exact .inl ((ReflTransGen.single (.discarded s p cause)).tail (.line (.shown _)))
  | haltAsserted => exact event_plain (.haltAsserted s) h
  | haltReleased => exact event_plain (.haltReleased s) h
  | hardwareReset haltInput => exact event_plain (.hardwareReset s haltInput) h
  | scanEnd => exact event_plain (.scanFinished s) h
  | timebaseTick => exact event_drain h fun _ => tickStations_pieces
  | responseTimerExpiry st =>
    refine event_drain h fun u hu => ?_
    split at hu
    · exact .single (expire_pieces hu)
    · injection hu with hu; injection hu with hu _; subst hu; exact .refl
  | blockWriteDone isMatch => exact event_plain (.blockWriteEnded s isMatch) h
  | directoryWriteDone isMatch => exact event_plain (.dirWriteEnded s isMatch) h
  | drainComplete =>
    refine event_drain h fun u hu => ?_
    obtain ⟨v, hv, hd, hports, hpins⟩ := withDrain_cases (fun v hv => by
      injection hv with hv; injection hv with h1 h2; subst h1
      exact (Dresses.quiet (f := fun s => s) fun _ => rfl).settled _) hu
    injection hv with hv; injection hv with hv _; subst hv
    exact .single (.tested (.nothing s) hd hports hpins)

/-- A law that every piece keeps is kept by every command. -/
theorem exec_keeps {P : State → Prop} (hplain : ∀ s t, PlainPiece s t → P s → P t)
    (hdrain : ∀ s t, DrainPiece s t → P s → P t) {c : Instr} {s t : State} (h : exec c s = .next t)
    (hs : P s) : P t := by
  have hreach := exec_reaches h
  clear h
  rcases hreach with hpath | hpath
  · induction hpath with
    | refl => exact hs
    | tail _ hpiece ih => exact hplain _ _ hpiece ih
  · induction hpath with
    | refl => exact hs
    | tail _ hpiece ih => exact hdrain _ _ hpiece ih

/-- A law that does not read the queue of waiting commands and that every piece keeps is kept by every step. -/
theorem step_keeps {P : State → Prop} (hrest : ∀ s rest, P s → P { s with pending := rest })
    (hplain : ∀ s t, PlainPiece s t → P s → P t) (hdrain : ∀ s t, DrainPiece s t → P s → P t) {s t : State}
    (h : step s = .next t) (hs : P s) : P t := by
  unfold step at h
  split at h
  · injection h with h; subst h; exact hs
  · exact exec_keeps hplain hdrain h (hrest _ _ hs)

end Sys2Proof.Machine
end

section
/-! Three groups of the state's fields, by what commands change them: the panel (line state, settings, port units,
output lines, snapshot, waiting commands), the flow (piles, their places, jobs and accounts), and the Program Store.
For each group: which pieces of a command leave it as it was. -/

namespace Sys2Proof.Machine

/-! ### The groups -/

structure Panel where
  line : LineState
  settings : Settings
  ports : Vector PortUnit 5
  pins : Pins
  snapSeq : Nat
  pending : List Instr

def State.panel (s : State) : Panel :=
  { line := s.line, settings := s.settings, ports := s.ports, pins := s.pins, snapSeq := s.snapSeq
    pending := s.pending }

/-- Of a station context the flow has BUSY, the current tag and the job record. -/
structure Flow where
  piles : Vector (Option Pile) 32
  jogQueue : List Tag
  knifeQueue : List Tag
  returnLane : List Tag
  turnQueue : List Tag
  returnStack : List Tag
  reservedRecords : Nat
  reservedSlots : Nat
  knifePile : Option Tag
  pallets : List Pallet
  seqCounter : Nat
  useCounts : Vector Nat 48
  busy : Station → Bool
  tag : Station → Option Tag
  job : Station → Job

def State.flow (s : State) : Flow :=
  { piles := s.piles, jogQueue := s.jogQueue, knifeQueue := s.knifeQueue, returnLane := s.returnLane
    turnQueue := s.turnQueue, returnStack := s.returnStack, reservedRecords := s.reservedRecords
    reservedSlots := s.reservedSlots, knifePile := s.knifePile, pallets := s.pallets
    seqCounter := s.seqCounter, useCounts := s.useCounts
    busy := fun st => (s.ctx st).busy, tag := fun st => (s.ctx st).tag, job := fun st => (s.ctx st).job }

structure Store where
  work : Directory
  session : Option Session
  storeWrite : NvWrite
  progOp : Option ProgOp

def State.store (s : State) : Store :=
  { work := s.work, session := s.session, storeWrite := s.storeWrite, progOp := s.progOp }

/-! ### Events and the drain test -/

section
variable (s : State) (ev : Event)

@[simp] theorem State.raise_panel : (s.raise ev).panel = s.panel := by rw [State.raise_frame]; rfl
@[simp] theorem State.raise_flow : (s.raise ev).flow = s.flow := by rw [State.raise_frame]; rfl
@[simp] theorem State.raise_store : (s.raise ev).store = s.store := by rw [State.raise_frame]; rfl

end

/-- A context written with its BUSY, current tag and job record kept leaves the flow. -/
theorem State.putCtx_flow {s : State} {st : Station} {c : Context} (hb : c.busy = (s.ctx st).busy)
    (ht : c.tag = (s.ctx st).tag) (hj : c.job = (s.ctx st).job) : (s.putCtx st c).flow = s.flow := by
  have key {β : Type} (g : Context → β) (hg : g c = g (s.ctx st)) :
      (fun st' => g ((s.putCtx st c).ctx st')) = fun st' => g (s.ctx st') := by
    funext st'
    by_cases e : st = st'
    · subst e; rw [State.putCtx_ctx, hg]
    · rw [State.putCtx_ctx_other _ _ e]
  simp only [State.flow, key Context.busy hb, key Context.tag ht, key Context.job hj]
  rfl

/-! ### The jobs' effects -/

section
variable {s : State}

theorem State.endJob_panel (st : Station) : (s.endJob st).panel = s.panel := rfl
theorem State.endJob_store (st : Station) : (s.endJob st).store = s.store := rfl

theorem SelectionFrame.panel {u : State} (h : SelectionFrame s u) : u.panel = s.panel := by
  rw [h]; rfl

theorem SelectionFrame.store {u : State} (h : SelectionFrame s u) : u.store = s.store := by
  rw [h]; rfl

theorem State.holdPile_panel (t : Tag) (r : HoldReason) (st : Station) :
    (s.holdPile t r st).panel = s.panel := State.raise_panel _ _

theorem State.holdPile_store (t : Tag) (r : HoldReason) (st : Station) :
    (s.holdPile t r st).store = s.store := State.raise_store _ _

theorem State.freeRecord_panel (t : Tag) (account : Nat → Pallet → Pallet) :
    (s.freeRecord t account).panel = s.panel := by
  rw [State.freeRecord_frame]; rfl

theorem State.freeRecord_store (t : Tag) (account : Nat → Pallet → Pallet) :
    (s.freeRecord t account).store = s.store := by
  rw [State.freeRecord_frame]; rfl

theorem State.failJob_panel (st : Station) (t : Tag) (r : HoldReason) :
    (s.failJob st t r).panel = s.panel := by
  rw [State.failJob_frame]; rfl

theorem State.failJob_store (st : Station) (t : Tag) (r : HoldReason) :
    (s.failJob st t r).store = s.store := by
  rw [State.failJob_frame]; rfl

theorem State.bladeRise_panel : s.bladeRise.panel = s.panel := by
  rw [State.bladeRise_frame]; rfl

theorem State.bladeRise_flow : s.bladeRise.flow = s.flow := by
  rw [State.bladeRise_frame]; rfl

theorem State.startNext_panel : s.startNext.panel = s.panel := by
  rw [State.startNext_frame]; rfl

theorem State.startNext_flow : s.startNext.flow = s.flow := by
  rw [State.startNext_frame]; rfl

theorem State.dropKnifeTurn_panel (t : Tag) : (s.dropKnifeTurn t).panel = s.panel := by
  rw [State.dropKnifeTurn_eq]; split <;> rfl

theorem State.dropKnifeTurn_store (t : Tag) : (s.dropKnifeTurn t).store = s.store := by
  rw [State.dropKnifeTurn_eq]; split <;> rfl

theorem State.abortJob_panel (st : Station) (t : Tag) : (s.abortJob st t).panel = s.panel := by
  cases st with
  | lift => exact State.freeRecord_panel t accountReturned
  | knife => exact State.dropKnifeTurn_panel t
  | jog | turn => rfl

theorem State.abortJob_store (st : Station) (t : Tag) : (s.abortJob st t).store = s.store := by
  cases st with
  | lift => exact State.freeRecord_store t accountReturned
  | knife => exact State.dropKnifeTurn_store t
  | jog | turn => rfl

theorem State.expireJob_panel (st : Station) : (s.expireJob st).panel = s.panel := by
  unfold State.expireJob
  split
  · rfl
  · exact State.failJob_panel st _ .timeout

theorem State.expireJob_store (st : Station) : (s.expireJob st).store = s.store := by
  unfold State.expireJob
  split
  · rfl
  · exact State.failJob_store st _ .timeout

theorem State.completeLift_panel (t : Tag) (p : Pile) (measured : Nat) :
    (s.completeLift t p measured).panel = s.panel := by
  by_cases h : 16500 < measured
  · rw [State.completeLift, if_pos h, State.endJob_panel, State.holdPile_panel]
  · rw [State.completeLift_measured (by omega) rfl]
    split
    · rw [State.raise_panel]; rfl
    · rfl

theorem State.completeLift_store (t : Tag) (p : Pile) (measured : Nat) :
    (s.completeLift t p measured).store = s.store := by
  by_cases h : 16500 < measured
  · rw [State.completeLift, if_pos h, State.endJob_store, State.holdPile_store]
  · rw [State.completeLift_measured (by omega) rfl]
    split
    · rw [State.raise_store]; rfl
    · rfl

/-- The jogger's completion is one of three effects (R46). -/
theorem State.completeJog_cases (t : Tag) (p : Pile) (tag : TagField) (skew : Nat) :
    (s.completeJog t p tag skew).1 = s.jogAligned t p ∨ (s.completeJog t p tag skew).1 = (s.rejog t p).1 ∨
      ∃ r, (s.completeJog t p tag skew).1 = s.failJob .jog t r := by
  unfold State.completeJog
  dsimp only
  split
  · exact .inl rfl
  · exact .inr (.inl rfl)
  · exact .inr (.inr ⟨.jogRetries, rfl⟩)
  · exact .inr (.inr ⟨.jogReject, rfl⟩)

theorem State.completeJog_panel (t : Tag) (p : Pile) (tag : TagField) (skew : Nat) :
    (s.completeJog t p tag skew).1.panel = s.panel := by
  rcases s.completeJog_cases t p tag skew with h | h | ⟨r, h⟩
  · rw [h, State.jogAligned_eq]; rfl
  · rw [h]; rfl
  · rw [h, State.failJob_panel]

theorem State.completeJog_store (t : Tag) (p : Pile) (tag : TagField) (skew : Nat) :
    (s.completeJog t p tag skew).1.store = s.store := by
  rcases s.completeJog_cases t p tag skew with h | h | ⟨r, h⟩
  · rw [h, State.jogAligned_eq]; rfl
  · rw [h]; rfl
  · rw [h, State.failJob_store]

/-- A kept offcut as `State.makeChild_of_nextFree` has it, the tag found. -/
theorem State.makeChild_cases {t : Tag} {p : Pile} {distance entry : Nat} {u : State}
    (h : s.makeChild t p distance entry = .ok u) :
    ∃ child, NextFree s child ∧ u = { s with
        piles := put s.piles child (some (childPile t p distance entry))
        allocPtr := some child
        returnStack := child :: s.returnStack
        useCounts := put s.useCounts p.program (s.useCount p.program + 1)
        pallets := s.pallets.map fun q => if q.seq = p.pallet then { q with live := q.live + 1 } else q
        reservedRecords := 0
        reservedSlots := 0 } := by
  cases hn : s.nextTag with
  | none => simp only [State.makeChild, hn] at h; cases h
  | some child =>
    have hfree := State.nextFree_of_nextTag hn
    rw [State.makeChild_of_nextFree hfree] at h
    injection h with h
    exact ⟨child, hfree, h.symm⟩

/-- The completion of a cut: the offcut kept or wasted, then the pile's record, the blade's rise and the job's end
(R113). -/
theorem State.completeCut_cases {t : Tag} {p : Pile} {keep : Bool} {u : State}
    (h : s.completeCut t p keep = .ok u) :
    ∃ edge distance kept entry v, s.stepAt p = some (.cut edge distance kept entry) ∧
      (keep = true ∧ s.makeChild t p distance entry = .ok v ∨ keep = false ∧ v = s) ∧
      u = (v.putPile t (some (s.cutRecord p distance))).bladeRise.endJob .knife := by
  cases hstep : s.stepAt p with
  | none => simp only [State.completeCut, hstep] at h; cases h
  | some step =>
    cases step with
    | cut edge distance kept entry =>
      cases keep with
      | false =>
        rw [State.completeCut_waste hstep] at h
        injection h with h
        exact ⟨edge, distance, kept, entry, s, rfl, .inr ⟨rfl, rfl⟩, h.symm⟩
      | true =>
        cases hchild : s.makeChild t p distance entry with
        | error f => simp only [State.completeCut, hstep, hchild, if_true] at h; cases h
        | ok v =>
          rw [State.completeCut_keep hstep hchild] at h
          injection h with h
          exact ⟨edge, distance, kept, entry, v, rfl, .inl ⟨rfl, hchild⟩, h.symm⟩
    | flip | jog | fin => simp only [State.completeCut, hstep] at h; cases h

theorem State.completeCut_panel {t : Tag} {p : Pile} {keep : Bool} {u : State}
    (h : s.completeCut t p keep = .ok u) : u.panel = s.panel := by
  obtain ⟨_, _, _, _, v, _, hv, rfl⟩ := State.completeCut_cases h
  rw [State.endJob_panel, State.bladeRise_panel]
  rcases hv with ⟨_, hv⟩ | ⟨_, rfl⟩
  · obtain ⟨child, _, rfl⟩ := State.makeChild_cases hv
    rfl
  · rfl

/-- The completion of a knife job by its kind (R113 to R116). -/
theorem State.completeKnife_cases {t : Tag} {p : Pile} {u : State} (h : s.completeKnife t p = .ok u) :
    ∃ j, (s.ctx .knife).job = .knife j ∧
      ((j.kind = .cut ∧ s.completeCut t p j.keep = .ok u) ∨
        ((∃ turn, j.kind = .transferTurn turn) ∧
          u = { s.putPile t (some { p with residency := .turnWait }) with
            turnQueue := s.turnQueue ++ [t], knifePile := none }.endJob .knife) ∨
        (j.kind = .transferJog ∧
          u = { s.putPile t (some { p with cursor := s.advanced p, attempt := 0, residency := .jogWait }) with
            jogQueue := s.jogQueue ++ [t], knifePile := none }.endJob .knife) ∨
        (j.kind = .deliver ∧ u = { s.freeRecord t accountDelivered with knifePile := none }.endJob .knife)) := by
  cases hjob : (s.ctx .knife).job with
  | knife j =>
    have hk : s.knifeJob = some j := by simp only [State.knifeJob, hjob]
    simp only [State.completeKnife, hk] at h
    refine ⟨j, rfl, ?_⟩
    cases hkind : j.kind with
    | cut => simp only [hkind] at h; exact .inl ⟨rfl, h⟩
    | transferTurn turn => simp only [hkind, Except.ok.injEq] at h; exact .inr (.inl ⟨⟨turn, rfl⟩, h.symm⟩)
    | transferJog => simp only [hkind, Except.ok.injEq] at h; exact .inr (.inr (.inl ⟨rfl, h.symm⟩))
    | deliver => simp only [hkind, Except.ok.injEq] at h; exact .inr (.inr (.inr ⟨rfl, h.symm⟩))
  | none | lift | jog | turn => simp only [State.completeKnife, State.knifeJob, hjob] at h; cases h

theorem State.completeKnife_panel {t : Tag} {p : Pile} {u : State} (h : s.completeKnife t p = .ok u) :
    u.panel = s.panel := by
  obtain ⟨j, _, ⟨_, h⟩ | ⟨_, rfl⟩ | ⟨_, rfl⟩ | ⟨_, rfl⟩⟩ := State.completeKnife_cases h
  · exact State.completeCut_panel h
  · rfl
  · rfl
  · exact State.freeRecord_panel t accountDelivered

/-- A job's effect leaves the panel, but for the line that begins to drain. -/
theorem JobEffect.panel {u : State} (h : JobEffect s u) :
    u.panel = s.panel ∨ (s.line = .run ∧ u = { s with line := .draining }) := by
  cases h with
  | nothing => exact .inl rfl
  | begun hrun => exact .inr ⟨hrun, rfl⟩
  | waited _ hsel => exact .inl (State.select_frame hsel).panel
  | issued _ hsel => exact .inl (State.select_frame hsel).panel
  | liftDone value _ => exact .inl (State.completeLift_panel _ _ value)
  | jogDone tag value _ => exact .inl (State.completeJog_panel _ _ tag value)
  | knifeDone _ hk => exact .inl (State.completeKnife_panel hk)
  | turnDone _ => exact .inl rfl
  | failed r _ _ => exact .inl (State.failJob_panel _ _ r)
  | aborted _ _ => exact .inl (State.abortJob_panel _ _)
  | expired st => exact .inl (State.expireJob_panel st)

end

/-! ### The pieces without a drain test -/

section
variable {s t : State}

theorem LinePiece.eq (h : LinePiece s t) : t = s.withLines t.ports t.pins := by
  cases h <;> rfl

theorem LinePiece.flow (h : LinePiece s t) : t.flow = s.flow := by rw [h.eq]; rfl

theorem LinePiece.store (h : LinePiece s t) : t.store = s.store := by rw [h.eq]; rfl

theorem State.bladeRetest_frame (s : State) :
    s.bladeRetest = { s with
      blade := s.bladeRetest.blade, events := s.bladeRetest.events, dropped := s.bladeRetest.dropped } := by
  unfold State.bladeRetest
  rw [State.bladeTest_frame]

theorem State.discardFrame_frame (s : State) (p : Port) (cause : DiscardCause) :
    s.discardFrame p cause = { s with
      ports := (s.discardFrame p cause).ports, events := (s.discardFrame p cause).events
      dropped := (s.discardFrame p cause).dropped } := by
  unfold State.discardFrame
  dsimp only
  split
  · rw [State.raise_fields]; rfl
  · rfl

theorem State.assertHalt_frame (s : State) :
    s.assertHalt = { s with
      halt := s.assertHalt.halt, events := s.assertHalt.events, dropped := s.assertHalt.dropped } := by
  unfold State.assertHalt
  split
  · rfl
  · rw [State.raise_fields]

theorem State.reloadRunning_panel (st : Station) : (s.reloadRunning st).panel = s.panel := by
  unfold State.reloadRunning; split <;> rfl

theorem State.reloadRunning_store (st : Station) : (s.reloadRunning st).store = s.store := by
  unfold State.reloadRunning; split <;> rfl

theorem State.reloadRunning_flow (st : Station) : (s.reloadRunning st).flow = s.flow := by
  unfold State.reloadRunning
  split
  · exact State.putCtx_flow rfl rfl rfl
  · rfl

theorem State.releaseHalt_panel : s.releaseHalt.panel = s.panel := by
  unfold State.releaseHalt
  split
  · simp only [State.reloadRunning_panel, State.raise_panel]; rfl
  · rfl

theorem State.releaseHalt_store : s.releaseHalt.store = s.store := by
  unfold State.releaseHalt
  split
  · simp only [State.reloadRunning_store, State.raise_store]; rfl
  · rfl

theorem State.releaseHalt_flow : s.releaseHalt.flow = s.flow := by
  unfold State.releaseHalt
  split
  · simp only [State.reloadRunning_flow, State.raise_flow]; rfl
  · rfl

/-- A RELEASE frees the record or puts the pile, its hold cleared, at the tail of a queue (R19). -/
theorem State.releasePile_cases {tag : Tag} {p : Pile} {st : Station} {a : ReleaseAction}
    (ha : releaseAllowed st a = true) :
    (∃ account, (account = accountScrapped ∨ (st = .lift ∧ account = accountReturned)) ∧
      s.releasePile tag p st a = s.freeRecord tag account) ∨
    (∃ n, s.releasePile tag p st a =
      { s.putPile tag (some { p with hold := none, cursor := n, residency := .returnWait }) with
        returnLane := s.returnLane ++ [tag] }) ∨
    (s.releasePile tag p st a =
      { s.putPile tag (some { p with hold := none, attempt := 0, residency := .jogWait }) with
        jogQueue := s.jogQueue ++ [tag] }) ∨
    (s.releasePile tag p st a =
      { s.putPile tag (some { p with hold := none, residency := .turnWait }) with
        turnQueue := s.turnQueue ++ [tag] }) := by
  cases a with
  | scrap => exact .inl ⟨_, .inl rfl, rfl⟩
  | returnLift =>
    cases st with
    | lift => exact .inl ⟨_, .inr ⟨rfl, rfl⟩, rfl⟩
    | jog | knife | turn => cases ha
  | skip => exact .inr (.inl ⟨_, rfl⟩)
  | retry =>
    cases st with
    | lift => cases ha
    | jog => exact .inr (.inr (.inl rfl))
    | knife => exact .inr (.inl ⟨p.cursor, rfl⟩)
    | turn => exact .inr (.inr (.inr rfl))

theorem State.releasePile_panel {tag : Tag} {p : Pile} {st : Station} {a : ReleaseAction}
    (ha : releaseAllowed st a = true) : (s.releasePile tag p st a).panel = s.panel := by
  rcases State.releasePile_cases (s := s) (tag := tag) (p := p) ha with ⟨_, _, h⟩ | ⟨_, h⟩ | h | h <;> rw [h]
  · exact State.freeRecord_panel _ _
  all_goals rfl

theorem State.releasePile_store {tag : Tag} {p : Pile} {st : Station} {a : ReleaseAction}
    (ha : releaseAllowed st a = true) : (s.releasePile tag p st a).store = s.store := by
  rcases State.releasePile_cases (s := s) (tag := tag) (p := p) ha with ⟨_, _, h⟩ | ⟨_, h⟩ | h | h <;> rw [h]
  · exact State.freeRecord_store _ _
  all_goals rfl

theorem State.finishTest_panel (n : Nat) : (s.finishTest n).panel = s.panel := by
  rw [State.finishTest_frame]; rfl

theorem State.finishTest_store (n : Nat) : (s.finishTest n).store = s.store := by
  rw [State.finishTest_frame]; rfl

theorem State.startBlockWrite_panel (op : ProgOp) (blocks : List BlockNo) (n : Nat) :
    (s.startBlockWrite op blocks n).panel = s.panel := by
  unfold State.startBlockWrite; split <;> rfl

theorem State.startBlockWrite_flow (op : ProgOp) (blocks : List BlockNo) (n : Nat) :
    (s.startBlockWrite op blocks n).flow = s.flow := by
  unfold State.startBlockWrite; split <;> rfl

theorem State.blockWriteEnd_panel (isMatch : Bool) : (s.blockWriteEnd isMatch).panel = s.panel := by
  unfold State.blockWriteEnd
  split
  · split
    · split
      · unfold State.blockWritten
        dsimp only
        split
        · rw [State.startBlockWrite_panel]; rfl
        · rfl
      · rfl
    · rfl
  · rfl

theorem State.blockWriteEnd_flow (isMatch : Bool) : (s.blockWriteEnd isMatch).flow = s.flow := by
  unfold State.blockWriteEnd
  split
  · split
    · split
      · unfold State.blockWritten
        dsimp only
        split
        · rw [State.startBlockWrite_flow]; rfl
        · rfl
      · rfl
    · rfl
  · rfl

theorem State.opEnd_panel (ev : Event) : (s.opEnd ev).panel = s.panel := by
  rw [State.opEnd, State.startNext_panel, State.raise_panel]; rfl

theorem State.opEnd_flow (ev : Event) : (s.opEnd ev).flow = s.flow := by
  rw [State.opEnd, State.startNext_flow, State.raise_flow]; rfl

theorem State.opWriteEnd_panel (op : ProgOp) (completed : Bool) (old : Entry) :
    (s.opWriteEnd op completed old).panel = s.panel := by
  unfold State.opWriteEnd
  split
  · split
    · exact State.opEnd_panel _
    · split
      · exact State.opEnd_panel _
      · rfl
  · exact State.opEnd_panel _
  · exact State.opEnd_panel _
  · exact State.opEnd_panel _
  · rfl
  · rfl

theorem State.opWriteEnd_flow (op : ProgOp) (completed : Bool) (old : Entry) :
    (s.opWriteEnd op completed old).flow = s.flow := by
  unfold State.opWriteEnd
  split
  · split
    · exact State.opEnd_flow _
    · split
      · exact State.opEnd_flow _
      · rfl
  · exact State.opEnd_flow _
  · exact State.opEnd_flow _
  · exact State.opEnd_flow _
  · rfl
  · rfl

theorem State.dirWriteFollow_panel (purpose : DirPurpose) (completed : Bool) (before : Directory) :
    (s.dirWriteFollow purpose completed before).panel = s.panel := by
  unfold State.dirWriteFollow
  split
  · rfl
  · rw [State.startNext_panel]; split
    · rfl
    · exact State.raise_panel _ _
  · split
    · rfl
    · exact State.opWriteEnd_panel _ _ _

theorem State.dirWriteFollow_flow (purpose : DirPurpose) (completed : Bool) (before : Directory) :
    (s.dirWriteFollow purpose completed before).flow = s.flow := by
  unfold State.dirWriteFollow
  split
  · rfl
  · rw [State.startNext_flow]; split
    · rfl
    · exact State.raise_flow _ _
  · split
    · rfl
    · exact State.opWriteEnd_flow _ _ _

theorem State.dirWriteEnd_panel (isMatch : Bool) : (s.dirWriteEnd isMatch).panel = s.panel := by
  unfold State.dirWriteEnd
  split
  · split
    · rw [State.dirWriteFollow_panel]; rfl
    · split
      · rfl
      · rw [State.dirWriteFollow_panel]; rfl
  · rfl

theorem State.dirWriteEnd_flow (isMatch : Bool) : (s.dirWriteEnd isMatch).flow = s.flow := by
  unfold State.dirWriteEnd
  split
  · split
    · rw [State.dirWriteFollow_flow]; rfl
    · split
      · rfl
      · rw [State.dirWriteFollow_flow]; rfl
  · rfl

theorem State.scanFinish_flow : s.scanFinish.flow = s.flow := by
  unfold State.scanFinish; split <;> rfl

theorem State.scanFinish_store : s.scanFinish.store = s.store := by
  unfold State.scanFinish; split <;> rfl

/-- The flow after a piece without a drain test: as it was, cleared, or changed by one of the pallet's and pile's own
commands. -/
theorem PlainPiece.flow (h : PlainPiece s t) :
    t.flow = s.flow ∨ t = s.lineReset ∨ (∃ haltInput, t = s.hardwareReset haltInput) ∨
    (∃ p, s.pallets.length < 4 ∧ t = s.queuePallet p) ∨
    (∃ n q, s.palletOf n = some q ∧ t = (s.modifyPallet n accountCancelled).finishTest n) ∨
    (∃ tag p hold a, s.pile tag = some p ∧ p.residency = .held ∧ p.hold = some hold ∧
      releaseAllowed hold.station a = true ∧ t = s.releasePile tag p hold.station a) := by
  cases h with
  | line h => exact .inl h.flow
  | discarded p cause => left; rw [State.discardFrame_frame]; rfl
  | extended st => exact .inl (State.putCtx_flow rfl rfl rfl)
  | wordRead st i => exact .inl (State.putCtx_flow rfl rfl rfl)
  | bladeChanged => exact .inl State.startNext_flow
  | retested => left; rw [State.bladeRetest_frame]; rfl
  | commitHanded _ => exact .inl State.startNext_flow
  | eraseHanded _ => exact .inl State.startNext_flow
  | haltAsserted => left; rw [State.assertHalt_frame]; rfl
  | haltReleased => exact .inl State.releaseHalt_flow
  | scanFinished => exact .inl State.scanFinish_flow
  | blockWriteEnded isMatch => exact .inl (State.blockWriteEnd_flow isMatch)
  | dirWriteEnded isMatch => exact .inl (State.dirWriteEnd_flow isMatch)
  | lineReset => exact .inr (.inl rfl)
  | hardwareReset haltInput => exact .inr (.inr (.inl ⟨haltInput, rfl⟩))
  | queued _ _ _ hroom => exact .inr (.inr (.inr (.inl ⟨_, hroom, rfl⟩)))
  | cancelled hq => exact .inr (.inr (.inr (.inr (.inl ⟨_, _, hq, rfl⟩))))
  | released hp hres hhold ha => exact .inr (.inr (.inr (.inr (.inr ⟨_, _, _, _, hp, hres, hhold, ha, rfl⟩))))
  | droppedShown | snapped | eventTaken | started | configured | drafted | sessionOpened | sessionFilled
  | sessionClosed => exact .inl rfl

/-- The panel after a piece without a drain test: as it was, or one of its fields changed by that field's own
command. -/
theorem PlainPiece.panel (h : PlainPiece s t) :
    t.panel = s.panel ∨ LinePiece s t ∨ (∃ p cause, t = s.discardFrame p cause) ∨
    t = { s with snapWords := s.statusWords, snapSeq := snapAfter s.snapSeq } ∨ (s.Up ∧ t = { s with line := .run }) ∨
    t = s.lineReset ∨ (∃ haltInput, t = s.hardwareReset haltInput) ∨
    (∃ r v, settingWritable r = true ∧ (settingRange r).1 ≤ v ∧ v ≤ (settingRange r).2 ∧
      settingFits s.settings r v = true ∧ t = { s with settings := settingWrite s.settings r v }) ∨
    t = s.scanFinish := by
  cases h with
  | line h => exact .inr (.inl h)
  | discarded p cause => exact .inr (.inr (.inl ⟨p, cause, rfl⟩))
  | snapped => exact .inr (.inr (.inr (.inl rfl)))
  | started hup => exact .inr (.inr (.inr (.inr (.inl ⟨hup, rfl⟩))))
  | lineReset => exact .inr (.inr (.inr (.inr (.inr (.inl rfl)))))
  | hardwareReset haltInput => exact .inr (.inr (.inr (.inr (.inr (.inr (.inl ⟨haltInput, rfl⟩))))))
  | configured hw hlo hhi hf =>
    exact .inr (.inr (.inr (.inr (.inr (.inr (.inr (.inl ⟨_, _, hw, hlo, hhi, hf, rfl⟩)))))))
  | scanFinished => exact .inr (.inr (.inr (.inr (.inr (.inr (.inr (.inr rfl)))))))
  | bladeChanged => exact .inl State.startNext_panel
  | retested => left; rw [State.bladeRetest_frame]; rfl
  | cancelled _ => exact .inl (State.finishTest_panel _)
  | commitHanded _ => exact .inl State.startNext_panel
  | eraseHanded _ => exact .inl State.startNext_panel
  | released _ _ _ ha => exact .inl (State.releasePile_panel ha)
  | haltAsserted => left; rw [State.assertHalt_frame]; rfl
  | haltReleased => exact .inl State.releaseHalt_panel
  | blockWriteEnded isMatch => exact .inl (State.blockWriteEnd_panel isMatch)
  | dirWriteEnded isMatch => exact .inl (State.dirWriteEnd_panel isMatch)
  | droppedShown | eventTaken | extended | wordRead | drafted | queued | sessionOpened | sessionFilled
  | sessionClosed => exact .inl rfl

end

end Sys2Proof.Machine
end

section
/-! The two resets: what each leaves of the state before it. -/

namespace Sys2Proof.Machine

theorem State.raiseAll_frame (evs : List Event) (s : State) :
    s.raiseAll evs = { s with events := (s.raiseAll evs).events, dropped := (s.raiseAll evs).dropped } := by
  induction evs generalizing s with
  | nil => rfl
  | cons e evs ih =>
    rw [show s.raiseAll (e :: evs) = (s.raise e).raiseAll evs from rfl, ih, State.raise_frame]

/-- The scan changes the Program Store and the Event Queue. -/
theorem State.scanStart_frame (s : State) :
    s.scanStart = { s with
      nv := s.scanStart.nv, work := s.scanStart.work, latest := s.scanStart.latest
      storeWrite := s.scanStart.storeWrite, bladeSave := s.scanStart.bladeSave, scan := s.scanStart.scan
      events := s.scanStart.events, dropped := s.scanStart.dropped } := by
  unfold State.scanStart
  split
  · rw [State.raise_frame]; rfl
  · dsimp only
    split
    · rw [State.raiseAll_frame]
    · rw [State.raiseAll_frame]; rfl

/-- A hardware reset keeps the nonvolatile memory, the waiting commands and the count of free choices; beside the
Program Store and the Event Queue all else is at its reset value. -/
theorem State.hardwareReset_frame (s : State) (haltInput : Bool) :
    s.hardwareReset haltInput = { State.volatileReset s.nv s.pending s.freeCtr with
      halt := haltInput
      nv := (s.hardwareReset haltInput).nv, work := (s.hardwareReset haltInput).work
      latest := (s.hardwareReset haltInput).latest
      storeWrite := (s.hardwareReset haltInput).storeWrite
      bladeSave := (s.hardwareReset haltInput).bladeSave, scan := (s.hardwareReset haltInput).scan
      events := (s.hardwareReset haltInput).events, dropped := (s.hardwareReset haltInput).dropped } := by
  unfold State.hardwareReset
  cases haltInput <;> (dsimp only; rw [State.scanStart_frame]; rfl)

end Sys2Proof.Machine
end

section
/-! The queue of waiting commands: the step takes its front, and no command changes it. -/

namespace Sys2Proof.Machine

/-- Settles O1: the step takes the front of the queue by its definition. -/
theorem stepTakesTheFrontCommand : Obligations.StepTakesTheFrontCommand := fun _ _ _ => rfl

theorem LinePiece.pending {s t : State} (h : LinePiece s t) : t.pending = s.pending := by rw [h.eq]; rfl

theorem PlainPiece.pending {s t : State} (h : PlainPiece s t) : t.pending = s.pending := by
  rcases h.panel with h | h | ⟨p, cause, rfl⟩ | rfl | ⟨_, rfl⟩ | rfl | ⟨haltInput, rfl⟩ |
    ⟨_, _, _, _, _, _, rfl⟩ | rfl
  · exact congrArg Panel.pending h
  · exact h.pending
  · rw [State.discardFrame_frame]
  · rfl
  · rfl
  · rfl
  · rw [State.hardwareReset_frame]; rfl
  · rfl
  · unfold State.scanFinish; split <;> rfl

theorem JobEffect.pending {s u : State} (h : JobEffect s u) : u.pending = s.pending := by
  rcases h.panel with h | ⟨_, rfl⟩
  · exact congrArg Panel.pending h
  · rfl

theorem DrainPiece.pending {s t : State} (h : DrainPiece s t) : t.pending = s.pending := by
  cases h with
  | line h => exact h.pending
  | tested hjob htest hports hpins =>
    rcases htest.cases hports hpins with ⟨_, rfl⟩ | ⟨_, ht, _⟩
    · exact hjob.pending
    · rw [ht]; exact hjob.pending
  | lowered => rfl

/-- Settles O2: no piece of a command changes the queue. -/
theorem commandsKeepTheQueue : Obligations.CommandsKeepTheQueue := fun _ s _ h =>
  exec_keeps (P := fun t => t.pending = s.pending) (fun _ _ hp h => hp.pending.trans h)
    (fun _ _ hp h => hp.pending.trans h) h rfl

end Sys2Proof.Machine
end

section
/-! R163: every piece of a command keeps the link error levels in bounds. -/

namespace Sys2Proof.Machine

theorem look_map {α β : Type} {n : Nat} (f : α → β) (v : Vector α n) (i : Fin n) :
    look (v.map f) i = f (look v i) := by
  simp [look]

theorem noisyAfter_ok {level : Nat} (noisy : Bool) (h : level ≤ 255) {u : PortUnit} (hl : u.level = level)
    (hn : u.noisy = noisyAfter level noisy) : portOk u := by
  subst hl
  refine ⟨h, fun hhi => ?_, fun hlo => ?_⟩
  · rw [hn, noisyAfter, if_pos hhi]
  · rw [hn, noisyAfter, if_neg (by omega), if_pos hlo]

theorem State.LinkInv.of_ports {s t : State} (hs : s.LinkInv) (h : t.ports = s.ports) : t.LinkInv := by
  intro p
  rw [State.port, h]
  exact hs p

/-- The law is kept where one port unit is written that meets it. -/
theorem State.LinkInv.putPort {s : State} (hs : s.LinkInv) (p : Port) {u : PortUnit} (hu : portOk u) :
    (s.putPort p u).LinkInv := by
  intro q
  by_cases hq : q = p
  · rw [hq, State.putPort_port]; exact hu
  · rw [State.putPort_other _ _ _ _ hq]; exact hs q

theorem State.LinkInv.line {s t : State} (hs : s.LinkInv) (h : LinePiece s t) : t.LinkInv := by
  cases h with
  | accepted p =>
    obtain ⟨hlevel, _⟩ := hs p
    exact hs.putPort p (noisyAfter_ok (level := (s.port p).level - 1) _ (by omega) rfl rfl)
  | answered p code shown a =>
    exact (hs.putPort p (u := { s.port p with slot := some (s.replyOf p code shown a) }) (hs p)).of_ports rfl
  | shown => exact hs
  | cleared p => exact hs.putPort p (hs p)
  | pointed p i => exact hs.putPort p (hs p)

theorem State.LinkInv.discardFrame {s : State} (hs : s.LinkInv) (p : Port) (cause : DiscardCause) :
    (s.discardFrame p cause).LinkInv := by
  have hput := hs.putPort p (u := { s.port p with
    slot := none
    sdo := some (if cause = .shortGap then noReply else slotFrame (s.port p).slot)
    level := min 255 ((s.port p).level + 8)
    noisy := noisyAfter (min 255 ((s.port p).level + 8)) (s.port p).noisy })
    (noisyAfter_ok _ (Nat.min_le_left _ _) rfl rfl)
  unfold State.discardFrame
  dsimp only
  split
  · exact hput.of_ports (by rw [State.raise_frame])
  · exact hput

theorem PlainPiece.linkInv {s t : State} (h : PlainPiece s t) (hs : s.LinkInv) : t.LinkInv := by
  rcases h.panel with h | h | ⟨p, cause, rfl⟩ | rfl | ⟨_, rfl⟩ | rfl | ⟨haltInput, rfl⟩ |
    ⟨_, _, _, _, _, _, rfl⟩ | rfl
  · exact hs.of_ports (congrArg Panel.ports h)
  · exact hs.line h
  · exact hs.discardFrame p cause
  · exact hs
  · exact hs
  · intro p
    show portOk (look (s.ports.map _) p.ix)
    rw [look_map]
    exact hs p
  · intro p
    rw [State.hardwareReset_frame]
    show portOk (look (Vector.replicate 5 PortUnit.reset) p.ix)
    rw [look_replicate]
    exact ⟨by decide, by decide, by decide⟩
  · exact hs
  · exact hs.of_ports (by unfold State.scanFinish; split <;> rfl)

theorem JobEffect.ports {s u : State} (h : JobEffect s u) : u.ports = s.ports := by
  rcases h.panel with h | ⟨_, rfl⟩
  · exact congrArg Panel.ports h
  · rfl

theorem DrainPiece.linkInv {s t : State} (h : DrainPiece s t) (hs : s.LinkInv) : t.LinkInv := by
  cases h with
  | line h => exact hs.line h
  | tested hjob _ hports _ => exact hs.of_ports (hports.trans hjob.ports)
  | lowered => exact hs

/-- Settles O10: a frame accepted lowers one level, a frame discarded raises one, and NOISY follows either. -/
theorem linkErrorLevelsStayInBounds : Obligations.LinkErrorLevelsStayInBounds := fun _ _ hs h =>
  step_keeps (P := State.LinkInv) (fun _ _ h => h) (fun _ _ h => h.linkInv) (fun _ _ h => h.linkInv) h hs

end Sys2Proof.Machine
end

section
/-! R157 and R159: a setting that CONFIG_WRITE admits keeps every setting in its range and within its neighbours. -/

namespace Sys2Proof.Machine

/-! ### Reading a setting after a write -/

theorem classValue_classWrite (c : StockClass) (k k' : ClassSetting) (v : Nat) :
    classValue (classWrite c k v) k' = if k' = k then v else classValue c k' := by
  cases k <;> cases k' <;> rfl

theorem knotValue_of_knot (cfg : Settings) {k : Nat} (h : 1 ≤ k ∧ k ≤ 7) :
    knotValue cfg k = look cfg.knots ⟨k - 1, by omega⟩ := by
  rw [knotValue, if_neg (by omega), dif_pos (by omega)]

/-- A knot written is read back, and the others are as they were. -/
theorem knotValue_settingWrite (cfg : Settings) {k : Fin 9} (v n : Nat) (hk : 1 ≤ k.val ∧ k.val ≤ 7) :
    knotValue (settingWrite cfg (.knot k) v) n = if n = k.val then v else knotValue cfg n := by
  have hw : settingWrite cfg (.knot k) v =
      { cfg with knots := put cfg.knots ⟨k.val - 1, by omega⟩ v } := by
    rw [settingWrite, dif_pos hk]
  rw [hw]
  by_cases hn : 1 ≤ n ∧ n ≤ 7
  · rw [knotValue_of_knot _ hn, look_put]
    by_cases he : n = k.val
    · subst he; simp
    · rw [if_neg he, if_neg (by rw [Fin.mk.injEq]; omega), knotValue_of_knot _ hn]
  · rw [if_neg (by omega)]
    unfold knotValue
    split
    · rfl
    · rw [dif_neg (by omega), dif_neg (by omega)]

/-- A setting written is read back, and every other keeps its value. -/
theorem settingValue_settingWrite (cfg : Settings) {r : SettingRef} (x : SettingRef) (v : Nat)
    (hr : settingWritable r = true) :
    settingValue (settingWrite cfg r v) x = if x = r then v else settingValue cfg x := by
  cases r with
  | stock c k =>
    cases x with
    | stock c' k' =>
      show classValue (look (put cfg.classes c _) c') k' = _
      rw [look_put]
      by_cases hc : c = c'
      · subst hc
        rw [if_pos rfl, classValue_classWrite]
        simp [settingValue]
      · rw [if_neg hc, if_neg (by simp [Ne.symm hc])]
        rfl
    | _ => rfl
  | knot k =>
    have hk : 1 ≤ k.val ∧ k.val ≤ 7 := by simpa [settingWritable] using hr
    cases x with
    | knot k' =>
      show knotValue _ _ = _
      rw [knotValue_settingWrite cfg v _ hk]
      by_cases he : k' = k
      · subst he; simp
      · rw [if_neg (fun e => he (Fin.ext e)), if_neg (by simp [he])]
        rfl
    | _ => rw [settingWrite, dif_pos hk]; rfl
  | preset st =>
    cases x with
    | preset st' =>
      show look (put cfg.presets st.ix v) st'.ix = _
      by_cases hst : st = st'
      · subst hst; simp
      · rw [look_put_other _ _ (Station.ix_ne hst), if_neg (by simp [Ne.symm hst])]
        rfl
    | _ => rfl
  | hmax | ocode | infeed | childReserve | warn | limit => cases x <;> rfl

/-! ### The constraints between neighbours (R159) -/

/-- The constraints between knots keep to the knots beside the one written. -/
theorem knots_settingWrite {cfg : Settings} (h : ∀ k, k < 8 → knotValue cfg k ≤ knotValue cfg (k + 1))
    {k : Fin 9} {v : Nat} (hk : 1 ≤ k.val ∧ k.val ≤ 7) (hlo : knotValue cfg (k.val - 1) ≤ v)
    (hhi : v ≤ knotValue cfg (k.val + 1)) {n : Nat} (hn : n < 8) :
    knotValue (settingWrite cfg (.knot k) v) n ≤ knotValue (settingWrite cfg (.knot k) v) (n + 1) := by
  rw [knotValue_settingWrite cfg v _ hk, knotValue_settingWrite cfg v _ hk]
  by_cases h1 : n = k.val
  · rw [if_pos h1, if_neg (by omega), h1]; exact hhi
  · by_cases h2 : n + 1 = k.val
    · rw [if_neg h1, if_pos h2, show n = k.val - 1 by omega]; exact hlo
    · rw [if_neg h1, if_neg h2]; exact h n hn

/-- A class written with its neighbour's constraint met keeps thr within lim. -/
theorem thr_le_lim_settingWrite {cfg : Settings} (h : ∀ c, (look cfg.classes c).thr ≤ (look cfg.classes c).lim)
    {c : ClassNo} {k : ClassSetting} {v : Nat} (hf : settingFits cfg (.stock c k) v = true) (c' : ClassNo) :
    (look (settingWrite cfg (.stock c k) v).classes c').thr ≤
      (look (settingWrite cfg (.stock c k) v).classes c').lim := by
  show (look (put cfg.classes c _) c').thr ≤ (look (put cfg.classes c _) c').lim
  rw [look_put]
  by_cases hc : c = c'
  · rw [if_pos hc]
    cases k with
    | thr | lim => simpa [settingFits, classWrite] using hf
    | _ => exact h c
  · rw [if_neg hc]; exact h c'

theorem settingsOk_settingWrite {cfg : Settings} {r : SettingRef} {v : Nat} (h : settingsOk cfg)
    (hw : settingWritable r = true) (hlo : (settingRange r).1 ≤ v) (hhi : v ≤ (settingRange r).2)
    (hf : settingFits cfg r v = true) : settingsOk (settingWrite cfg r v) := by
  obtain ⟨hrange, hclass, hknots, hblade⟩ := h
  refine ⟨fun x => ?range, ?others⟩
  case range =>
    rw [settingValue_settingWrite cfg x v hw]
    by_cases hx : x = r
    · subst hx; rw [if_pos rfl]; exact ⟨hlo, hhi⟩
    · rw [if_neg hx]; exact hrange x
  case others =>
    cases r with
    | stock c k => exact ⟨thr_le_lim_settingWrite hclass hf, hknots, hblade⟩
    | knot k =>
      have hk : 1 ≤ k.val ∧ k.val ≤ 7 := by simpa [settingWritable] using hw
      have hf' : knotValue cfg (k.val - 1) ≤ v ∧ v ≤ knotValue cfg (k.val + 1) := by
        simpa [settingFits] using hf
      refine ⟨?_, fun n => knots_settingWrite hknots hk hf'.1 hf'.2, ?_⟩
      · rw [settingWrite, dif_pos hk]; exact hclass
      · rw [settingWrite, dif_pos hk]; exact hblade
    | warn => exact ⟨hclass, hknots, of_decide_eq_true hf⟩
    | limit => exact ⟨hclass, hknots, of_decide_eq_true hf⟩
    | hmax | ocode | preset | infeed | childReserve => exact ⟨hclass, hknots, hblade⟩

/-- The defaults of R157 meet the law. -/
theorem settingsOk_reset : settingsOk Settings.reset := by
  refine ⟨fun r => ?_, fun c => ?_, by decide, by decide⟩
  · cases r with
    | stock c k =>
      simp only [settingValue, show look Settings.reset.classes c = StockClass.reset from look_replicate _ c]
      cases k <;> (simp only [settingRange]; decide)
    | knot k => revert k; decide
    | preset st => cases st <;> decide
    | hmax | ocode | infeed | childReserve | warn | limit => decide
  · rw [show look Settings.reset.classes c = StockClass.reset from look_replicate _ c]
    decide

/-! ### The law -/

theorem LinePiece.settings {s t : State} (h : LinePiece s t) : t.settings = s.settings := by rw [h.eq]; rfl

theorem PlainPiece.settingsInv {s t : State} (h : PlainPiece s t) (hs : s.SettingsInv) : t.SettingsInv := by
  have keep {u : State} (hu : u.settings = s.settings) : u.SettingsInv := by
    unfold State.SettingsInv; rw [hu]; exact hs
  rcases h.panel with h | h | ⟨p, cause, rfl⟩ | rfl | ⟨_, rfl⟩ | rfl | ⟨haltInput, rfl⟩ |
    ⟨r, v, hw, hlo, hhi, hf, rfl⟩ | rfl
  · exact keep (congrArg Panel.settings h)
  · exact keep h.settings
  · exact keep (by rw [State.discardFrame_frame])
  · exact hs
  · exact hs
  · exact hs
  · rw [State.hardwareReset_frame]; exact settingsOk_reset
  · exact settingsOk_settingWrite hs hw hlo hhi hf
  · exact keep (by unfold State.scanFinish; split <;> rfl)

theorem JobEffect.settings {s u : State} (h : JobEffect s u) : u.settings = s.settings := by
  rcases h.panel with h | ⟨_, rfl⟩
  · exact congrArg Panel.settings h
  · rfl

theorem DrainPiece.settings {s t : State} (h : DrainPiece s t) : t.settings = s.settings := by
  cases h with
  | line h => exact h.settings
  | tested hjob htest hports hpins =>
    rcases htest.cases hports hpins with ⟨_, rfl⟩ | ⟨_, ht, _⟩
    · exact hjob.settings
    · rw [ht]; exact hjob.settings
  | lowered => rfl

/-- Settles O12: the checks of R158 are those the law needs, and nothing but CONFIG_WRITE and a hardware reset
changes a setting. -/
theorem settingsStayValid : Obligations.SettingsStayValid := fun _ _ hs h =>
  step_keeps (P := State.SettingsInv) (fun _ _ h => h) (fun _ _ h => h.settingsInv)
    (fun _ _ h hs => by unfold State.SettingsInv; rw [h.settings]; exact hs) h hs

end Sys2Proof.Machine
end

section
/-! The ranges of R121, R134, R167 and R169: the Event Queue never holds more than 32 records, and a blade count is
saved only as the counter stands. -/

namespace Sys2Proof.Machine

/-! ### The Event Queue -/

theorem Outside.push_le {o : Outside} (ev : Event) (h : o.events.length ≤ 32) :
    (o.push ev).events.length ≤ 32 := by
  unfold Outside.push
  split
  · simp; omega
  · exact h

theorem Outside.pushAll_le {o : Outside} (evs : List Event) (h : o.events.length ≤ 32) :
    (o.pushAll evs).events.length ≤ 32 := by
  induction evs generalizing o with
  | nil => exact h
  | cons e evs ih => exact ih (Outside.push_le e h)

theorem State.raise_le {s : State} (ev : Event) (h : s.events.length ≤ 32) :
    (s.raise ev).events.length ≤ 32 := by
  rw [State.raise_eq]
  exact Outside.push_le (o := s.outside) ev h

/-- An operation that adds its events by raising them keeps the queue within 32. -/
theorem Dresses.events_le {f : State → State} {s : State} (h : Dresses f s) (hs : s.events.length ≤ 32) :
    (f s).events.length ≤ 32 := by
  obtain ⟨evs, h⟩ := h
  have h0 : f s = (f s).dress (s.outside.pushAll evs) := h s.outside
  rw [h0]
  exact Outside.pushAll_le (o := s.outside) evs hs

theorem Settled.events_le {α : Type} {effect : State → Except Fault (State × α)} {s u : State} {a : α}
    (h : Settled effect s u a) (hs : s.events.length ≤ 32) : u.events.length ≤ 32 := by
  obtain ⟨hu, evs, ha⟩ := h
  rw [← Settled.after hu ha]
  exact Outside.pushAll_le (o := s.outside) evs hs

/-! ### Operations that leave the blade and the store -/

section
variable {s : State}

/-- The law is kept where the blade, the store and the snapshot number are, and the queue stays within 32. -/
theorem State.RangesInv.of_eq {u : State} (hs : s.RangesInv) (hev : u.events.length ≤ 32)
    (hblade : u.blade = s.blade) (hstore : u.store = s.store) (hseq : u.snapSeq = s.snapSeq) : u.RangesInv := by
  obtain ⟨_, h2, h3, h4, h5⟩ := hs
  have hwork : u.work = s.work := congrArg Store.work hstore
  have hwrite : u.storeWrite = s.storeWrite := congrArg Store.storeWrite hstore
  unfold State.RangesInv
  rw [hblade, hwork, hwrite, hseq]
  exact ⟨hev, h2, h3, h4, h5⟩

theorem State.RangesInv.raise (hs : s.RangesInv) (ev : Event) : (s.raise ev).RangesInv :=
  hs.of_eq (State.raise_le ev hs.1) (by simp) (by simp) (by simp)

theorem SelectionFrame.blade {u : State} (h : SelectionFrame s u) : u.blade = s.blade := by
  rw [h]

theorem State.RangesInv.failJob (hs : s.RangesInv) (st : Station) (t : Tag) (r : HoldReason) :
    (s.failJob st t r).RangesInv :=
  hs.of_eq ((State.failJob_dresses s st t r).events_le hs.1) (by rw [State.failJob_frame])
    (State.failJob_store st t r) (congrArg Panel.snapSeq (State.failJob_panel st t r))

theorem State.RangesInv.freeRecord (hs : s.RangesInv) (t : Tag) (account : Nat → Pallet → Pallet) :
    (s.freeRecord t account).RangesInv :=
  hs.of_eq ((State.freeRecord_dresses s t account).events_le hs.1) (by rw [State.freeRecord_frame])
    (State.freeRecord_store t account) (congrArg Panel.snapSeq (State.freeRecord_panel t account))

theorem State.dropKnifeTurn_blade (t : Tag) : (s.dropKnifeTurn t).blade = s.blade := by
  rw [State.dropKnifeTurn_eq]; split <;> rfl

theorem State.abortJob_blade (st : Station) (t : Tag) : (s.abortJob st t).blade = s.blade := by
  cases st with
  | lift => show (s.freeRecord t accountReturned).blade = _; rw [State.freeRecord_frame]
  | knife => exact State.dropKnifeTurn_blade t
  | jog | turn => rfl

theorem State.expireJob_blade (st : Station) : (s.expireJob st).blade = s.blade := by
  unfold State.expireJob
  split
  · rfl
  · show (s.failJob st _ .timeout).blade = _; rw [State.failJob_frame]

theorem State.completeLift_blade (t : Tag) (p : Pile) (measured : Nat) :
    (s.completeLift t p measured).blade = s.blade := by
  by_cases h : 16500 < measured
  · rw [State.completeLift, if_pos h]
    exact State.raise_blade _ _
  · rw [State.completeLift_measured (by omega) rfl]
    split
    · rw [State.raise_blade]
    · rfl

/-! ### The store's writes -/

/-- A directory write saves a blade count in range. -/
theorem State.RangesInv.startDirWrite (hs : s.RangesInv) {image : Directory} (purpose : DirPurpose)
    (h : image.savedBlade ≤ 999999) : (s.startDirWrite image purpose).RangesInv := by
  obtain ⟨h1, h2, h3, _, h5⟩ := hs
  exact ⟨h1, h2, h3, h, h5⟩

theorem State.RangesInv.startBlockWrite (hs : s.RangesInv) (op : ProgOp) (blocks : List BlockNo)
    (position : Nat) : (s.startBlockWrite op blocks position).RangesInv := by
  obtain ⟨h1, h2, h3, h4, h5⟩ := hs
  unfold State.startBlockWrite
  split
  · exact ⟨h1, h2, h3, h4, h5⟩
  · exact ⟨h1, h2, h3, Nat.zero_le _, h5⟩

theorem State.RangesInv.startOp (hs : s.RangesInv) (op : ProgOp) : (s.startOp op).RangesInv := by
  unfold State.startOp
  split
  · exact State.RangesInv.startDirWrite (s := { s with progOp := some { op with stage := .eraseWrite } }) hs
      .operation hs.2.1
  · dsimp only
    split
    · exact hs
    · exact hs.startBlockWrite op _ 0

theorem State.RangesInv.startNext (hs : s.RangesInv) : s.startNext.RangesInv := by
  have hsave : (s.startDirWrite (s.bladeImage s.work) .bladeSave).RangesInv := hs.startDirWrite _ hs.2.1
  unfold State.startNext
  split
  · split
    · split
      · split
        · exact hsave
        · exact hs.startOp _
      · exact hs
    · split
      · exact hsave
      · exact hs
  · exact hs

theorem State.RangesInv.warnTest (hs : s.RangesInv) : s.warnTest.RangesInv := by
  unfold State.warnTest
  split
  · exact State.RangesInv.raise (s := { s with blade := { s.blade with warnLatch := true } }) hs _
  · exact hs

theorem State.RangesInv.overdueTest (hs : s.RangesInv) : s.overdueTest.RangesInv := by
  unfold State.overdueTest
  split
  · exact State.RangesInv.raise (s := { s with blade := { s.blade with overdueLatch := true } }) hs _
  · exact hs

theorem State.RangesInv.bladeTest (hs : s.RangesInv) : s.bladeTest.RangesInv := hs.warnTest.overdueTest

theorem State.RangesInv.bladeRise (hs : s.RangesInv) : s.bladeRise.RangesInv := by
  unfold State.bladeRise
  split
  · exact hs
  · rename_i hlt
    have hup : { s with blade := { s.blade with counter := s.blade.counter + 1 } }.RangesInv :=
      ⟨hs.1, by show s.blade.counter + 1 ≤ 999999; omega, hs.2.2⟩
    dsimp only
    split
    · exact State.RangesInv.bladeTest (State.RangesInv.startNext (s := { s with
        blade := { s.blade with counter := s.blade.counter + 1 }, bladeSave := true }) hup)
    · exact hup.bladeTest

theorem State.RangesInv.blockWriteEnd (hs : s.RangesInv) (isMatch : Bool) :
    (s.blockWriteEnd isMatch).RangesInv := by
  have ⟨h1, h2, h3, _, h5⟩ := hs
  have hidle (nv : NvMemory) (op : Option ProgOp) :
      { s with nv := nv, storeWrite := .idle, progOp := op }.RangesInv := ⟨h1, h2, h3, Nat.zero_le _, h5⟩
  unfold State.blockWriteEnd
  split
  · split
    · split
      · unfold State.blockWritten
        dsimp only
        split
        · exact (hidle _ s.progOp).startBlockWrite _ _ _
        · exact (hidle _ _).startDirWrite .operation h2
      · exact (hidle s.nv _).startDirWrite .operation h2
    · exact hs
  · exact hs

theorem State.RangesInv.opEnd (hs : s.RangesInv) (ev : Event) : (s.opEnd ev).RangesInv :=
  (State.RangesInv.raise (s := { s with progOp := none }) hs ev).startNext

theorem State.RangesInv.opWriteEnd (hs : s.RangesInv) (op : ProgOp) (completed : Bool) (old : Entry) :
    (s.opWriteEnd op completed old).RangesInv := by
  unfold State.opWriteEnd
  split
  · split
    · exact hs.opEnd _
    · split
      · exact hs.opEnd _
      · exact State.RangesInv.startDirWrite
          (s := { s with progOp := some { op with stage := .releaseOld old.blocks } }) hs .operation hs.2.1
  · exact hs.opEnd _
  · exact hs.opEnd _
  · exact hs.opEnd _
  · exact hs
  · exact hs

theorem State.RangesInv.dirWriteFollow (hs : s.RangesInv) (purpose : DirPurpose) (completed : Bool)
    (before : Directory) : (s.dirWriteFollow purpose completed before).RangesInv := by
  unfold State.dirWriteFollow
  split
  · exact hs
  · split
    · exact hs.startNext
    · exact (hs.raise _).startNext
  · split
    · exact hs
    · exact hs.opWriteEnd _ _ _

theorem State.RangesInv.dirWriteEnd (hs : s.RangesInv) (isMatch : Bool) :
    (s.dirWriteEnd isMatch).RangesInv := by
  obtain ⟨h1, h2, h3, h4, h5⟩ := hs
  unfold State.dirWriteEnd
  split
  · rename_i target generation image purpose second hw
    have himage : image.savedBlade ≤ 999999 := by rw [hw] at h4; exact h4
    split
    · refine State.RangesInv.dirWriteFollow ?_ _ _ _
      exact ⟨h1, h2, himage, Nat.zero_le _, h5⟩
    · split
      · exact ⟨h1, h2, h3, himage, h5⟩
      · refine State.RangesInv.dirWriteFollow ?_ _ _ _
        exact ⟨h1, h2, h3, Nat.zero_le _, h5⟩
  · exact ⟨h1, h2, h3, h4, h5⟩

/-! ### The start-up scan -/

theorem State.RangesInv.raiseAll (hs : s.RangesInv) (evs : List Event) : (s.raiseAll evs).RangesInv := by
  induction evs generalizing s with
  | nil => exact hs
  | cons e evs ih => exact ih (hs.raise e)

/-- The latest copy is a valid one. -/
theorem latestCopy_valid {nv : NvMemory} {i : CopyId} (h : latestCopy nv = some i) :
    copyValid (nvCopy nv i) = true := by
  unfold latestCopy at h
  dsimp only at h
  split at h
  · rename_i ha
    split at h
    · rename_i hb
      split at h
      · cases h; exact ha
      · split at h
        · cases h; exact hb
        · split at h <;> cases h
          · exact hb
          · exact ha
    · cases h; exact ha
  · split at h
    · rename_i hb
      cases h; exact hb
    · cases h

theorem copyValid_savedBlade {c : DirCopy} (h : copyValid c = true) : c.dir.savedBlade ≤ 999999 := by
  simp only [copyValid, Bool.and_eq_true, decide_eq_true_eq] at h
  obtain ⟨⟨_, hblade⟩, _⟩ := h
  exact hblade

theorem State.RangesInv.scanStart (hs : s.RangesInv) : s.scanStart.RangesInv := by
  obtain ⟨h1, h2, _, h4, h5⟩ := hs
  unfold State.scanStart
  split
  · refine State.RangesInv.raise ?_ _
    exact ⟨h1, h2, Nat.zero_le _, Nat.zero_le _, h5⟩
  · rename_i i hi
    have hsaved := copyValid_savedBlade (latestCopy_valid hi)
    have hfound := State.RangesInv.raiseAll (s := { s with
      work := freeStrays (markDamaged (nvCopy s.nv i).dir (damagedPrograms s.nv (nvCopy s.nv i).dir))
      latest := some i }) ⟨h1, h2, hsaved, h4, h5⟩
      ((damagedPrograms s.nv (nvCopy s.nv i).dir).map .programDamaged)
    dsimp only
    split
    · exact hfound
    · exact hfound.startDirWrite .scan hsaved

theorem State.RangesInv.hardwareReset (s : State) (haltInput : Bool) : (s.hardwareReset haltInput).RangesInv := by
  have hfresh : (State.volatileReset s.nv s.pending s.freeCtr).RangesInv :=
    ⟨Nat.zero_le _, Nat.zero_le _, Nat.zero_le _, Nat.zero_le _, Nat.zero_le _⟩
  unfold State.hardwareReset
  cases haltInput with
  | false => exact hfresh.scanStart
  | true => exact (State.RangesInv.raise (s := { State.volatileReset s.nv s.pending s.freeCtr with
      halt := true }) hfresh .haltOn).scanStart

/-! ### The pieces -/

theorem snapAfter_le {n : Nat} (h : n ≤ 63) : snapAfter n ≤ 63 := by
  unfold snapAfter; split <;> omega

theorem State.RangesInv.line {t : State} (hs : s.RangesInv) (h : LinePiece s t) : t.RangesInv := by
  rw [h.eq]; exact hs

theorem State.RangesInv.reloadRunning (hs : s.RangesInv) (st : Station) : (s.reloadRunning st).RangesInv := by
  unfold State.reloadRunning
  split
  · exact hs
  · exact hs

theorem PlainPiece.rangesInv {t : State} (h : PlainPiece s t) (hs : s.RangesInv) : t.RangesInv := by
  have ⟨h1, h2, h3, h4, h5⟩ := hs
  cases h with
  | line h => exact hs.line h
  | discarded p cause =>
    unfold State.discardFrame
    dsimp only
    split
    · exact State.RangesInv.raise (s := s.putPort p _) hs _
    · exact hs
  | snapped => exact ⟨h1, h2, h3, h4, snapAfter_le h5⟩
  | eventTaken hev => exact ⟨by rw [hev] at h1; exact Nat.le_of_succ_le h1, h2, h3, h4, h5⟩
  | bladeChanged => exact State.RangesInv.startNext ⟨h1, Nat.zero_le _, h3, h4, h5⟩
  | lineReset => exact ⟨Nat.zero_le _, h2, h3, h4, Nat.zero_le _⟩
  | retested => exact State.RangesInv.bladeTest hs
  | cancelled _ =>
    exact State.RangesInv.of_eq (s := s.modifyPallet _ _) hs ((State.finishTest_dresses _ _).events_le h1)
      (by rw [State.finishTest_frame]) (State.finishTest_store _)
      (congrArg Panel.snapSeq (State.finishTest_panel _))
  | commitHanded _ => exact State.RangesInv.startNext hs
  | eraseHanded _ => exact State.RangesInv.startNext hs
  | released _ _ _ ha =>
    rename_i tag p hold a _ _ _
    rcases State.releasePile_cases (s := s) (tag := tag) (p := p) ha with ⟨_, _, h⟩ | ⟨_, h⟩ | h | h <;> rw [h]
    · exact hs.freeRecord _ _
    all_goals exact hs
  | haltAsserted =>
    unfold State.assertHalt
    split
    · exact hs
    · exact State.RangesInv.raise (s := { s with halt := true }) hs _
  | haltReleased =>
    unfold State.releaseHalt
    split
    · exact ((((State.RangesInv.raise (s := { s with halt := false }) hs _).reloadRunning _).reloadRunning
        _).reloadRunning _).reloadRunning _
    · exact hs
  | hardwareReset haltInput => exact State.RangesInv.hardwareReset s haltInput
  | scanFinished =>
    unfold State.scanFinish
    split
    · exact ⟨h1, h3, h3, h4, h5⟩
    · exact hs
  | blockWriteEnded isMatch => exact hs.blockWriteEnd isMatch
  | dirWriteEnded isMatch => exact hs.dirWriteEnd isMatch
  | droppedShown | extended | wordRead | started | configured | drafted | queued | sessionOpened
  | sessionFilled | sessionClosed => exact hs

theorem State.RangesInv.completeKnife {t : Tag} {p : Pile} {u : State} (hs : s.RangesInv)
    (h : s.completeKnife t p = .ok u) : u.RangesInv := by
  obtain ⟨j, _, ⟨_, h⟩ | ⟨_, rfl⟩ | ⟨_, rfl⟩ | ⟨_, rfl⟩⟩ := State.completeKnife_cases h
  · obtain ⟨_, distance, _, entry, v, _, hv, rfl⟩ := State.completeCut_cases h
    have hvr : v.RangesInv := by
      rcases hv with ⟨_, hv⟩ | ⟨_, rfl⟩
      · obtain ⟨child, _, rfl⟩ := State.makeChild_cases hv
        exact hs
      · exact hs
    exact State.RangesInv.bladeRise (s := v.putPile t _) hvr
  · exact hs
  · exact hs
  · exact hs.freeRecord t accountDelivered

theorem JobEffect.rangesInv {u : State} (h : JobEffect s u) (hs : s.RangesInv) : u.RangesInv := by
  have hselect {st : Station} {v : State} {r : Option (Tag × Job)} (hv : s.select st = .ok (v, r)) :
      v.RangesInv :=
    have hf := State.select_frame hv
    hs.of_eq ((State.select_settled s st hv).events_le hs.1) hf.blade hf.store (congrArg Panel.snapSeq hf.panel)
  cases h with
  | nothing => exact hs
  | begun _ => exact hs
  | waited _ hv => exact hselect hv
  | issued _ hv => exact (hselect hv : State.RangesInv _)
  | liftDone value _ =>
    exact hs.of_eq ((State.completeLift_dresses s _ _ value).events_le hs.1) (State.completeLift_blade _ _ value)
      (State.completeLift_store _ _ value) (congrArg Panel.snapSeq (State.completeLift_panel _ _ value))
  | jogDone tag value _ =>
    rename_i t p _
    rcases s.completeJog_cases t p tag value with h | h | ⟨r, h⟩ <;> rw [h]
    · rw [State.jogAligned_eq]; exact hs
    · exact hs
    · exact hs.failJob .jog t r
  | knifeDone _ hk => exact hs.completeKnife hk
  | turnDone _ => exact hs
  | failed r _ _ => exact hs.failJob _ _ r
  | aborted _ _ =>
    exact hs.of_eq ((State.abortJob_dresses s _ _).events_le hs.1) (State.abortJob_blade _ _)
      (State.abortJob_store _ _) (congrArg Panel.snapSeq (State.abortJob_panel _ _))
  | expired st =>
    exact hs.of_eq ((State.expireJob_dresses s st).events_le hs.1) (State.expireJob_blade st)
      (State.expireJob_store st) (congrArg Panel.snapSeq (State.expireJob_panel st))

theorem DrainPiece.rangesInv {t : State} (h : DrainPiece s t) (hs : s.RangesInv) : t.RangesInv := by
  cases h with
  | line h => exact hs.line h
  | tested hjob htest hports hpins =>
    have hu := hjob.rangesInv hs
    rcases htest.cases hports hpins with ⟨_, rfl⟩ | ⟨_, ht, _, hlen⟩
    · exact hu
    · exact hu.of_eq (hlen hu.1) (by rw [ht]) (by rw [ht]; rfl) (by rw [ht])
  | lowered => exact hs

end

/-- Settles O11: events join by raising them, a blade count is saved as the counter stands or read back from a valid
copy, and LINE_STOPPED joins as any event does. -/
theorem countersStayInRange : Obligations.CountersStayInRange := fun _ _ hs h =>
  step_keeps (P := State.RangesInv) (fun _ _ h => h) (fun _ _ h => h.rangesInv) (fun _ _ h => h.rangesInv) h hs

end Sys2Proof.Machine
end

section
/-! R153: the drain test stands in every event that can complete a drain. -/

namespace Sys2Proof.Machine

/-- A completed drain in DRAINING. -/
def State.Waits (s : State) : Prop := s.line = .draining ∧ Drained s

/-- A stopped line has its drain complete and its event raised or lost. -/
def State.StoppedByTest (s : State) : Prop :=
  s.line = .stopped → Drained s ∧ (.lineStopped ∈ s.events ∨ s.dropped = true)

section
variable {s t : State}

/-- The drain looks at the flow alone. -/
theorem Drained.of_flow (h : t.flow = s.flow) (ht : Drained t) : Drained s := by
  have hbusy (st : Station) : (t.ctx st).busy = (s.ctx st).busy := congrFun (congrArg Flow.busy h) st
  obtain ⟨hctx, hunder, hjog, hknife, hlane, hturn, hstack⟩ := ht
  exact ⟨fun st => (hbusy st).symm.trans (hctx st), (congrArg Flow.knifePile h).symm.trans hunder,
    (congrArg Flow.jogQueue h).symm.trans hjog, (congrArg Flow.knifeQueue h).symm.trans hknife,
    (congrArg Flow.returnLane h).symm.trans hlane, (congrArg Flow.turnQueue h).symm.trans hturn,
    (congrArg Flow.returnStack h).symm.trans hstack⟩

theorem State.Waits.of_flow (hline : t.line = s.line) (h : t.flow = s.flow) (ht : t.Waits) : s.Waits :=
  ⟨hline.symm.trans ht.1, ht.2.of_flow h⟩

/-! ### Commands without a drain test -/

/-- A RELEASE empties no place that the drain looks at. -/
theorem Drained.of_releasePile {tag : Tag} {p : Pile} {st : Station} {a : ReleaseAction}
    (ha : releaseAllowed st a = true) (h : Drained (s.releasePile tag p st a)) : Drained s := by
  rcases State.releasePile_cases (s := s) (tag := tag) (p := p) ha with ⟨_, _, he⟩ | ⟨_, he⟩ | he | he <;>
    rw [he] at h
  · rw [State.freeRecord_frame] at h; exact h
  · obtain ⟨_, _, _, _, hlane, _⟩ := h
    simp at hlane
  · obtain ⟨_, _, hjog, _⟩ := h
    simp at hjog
  · obtain ⟨_, _, _, _, _, hturn, _⟩ := h
    simp at hturn

theorem LinePiece.line (h : LinePiece s t) : t.line = s.line := by rw [h.eq]; rfl

/-- Of the pieces without a drain test none comes to STOPPED. -/
theorem PlainPiece.line_stopped (h : PlainPiece s t) (ht : t.line = .stopped) : s.line = .stopped := by
  rcases h.panel with h | h | ⟨p, cause, rfl⟩ | rfl | ⟨_, rfl⟩ | rfl | ⟨haltInput, rfl⟩ |
    ⟨_, _, _, _, _, _, rfl⟩ | rfl
  · exact (congrArg Panel.line h).symm.trans ht
  · exact h.line.symm.trans ht
  · rw [State.discardFrame_frame] at ht; exact ht
  · exact ht
  · cases ht
  · cases ht
  · rw [State.hardwareReset_frame] at ht; cases ht
  · exact ht
  · unfold State.scanFinish at ht
    split at ht
    · cases ht
    · exact ht

theorem PlainPiece.line_draining (h : PlainPiece s t) (ht : t.line = .draining) : s.line = .draining := by
  rcases h.panel with h | h | ⟨p, cause, rfl⟩ | rfl | ⟨_, rfl⟩ | rfl | ⟨haltInput, rfl⟩ |
    ⟨_, _, _, _, _, _, rfl⟩ | rfl
  · exact (congrArg Panel.line h).symm.trans ht
  · exact h.line.symm.trans ht
  · rw [State.discardFrame_frame] at ht; exact ht
  · exact ht
  · cases ht
  · cases ht
  · rw [State.hardwareReset_frame] at ht; cases ht
  · exact ht
  · unfold State.scanFinish at ht
    split at ht
    · cases ht
    · exact ht

/-- Of the pieces without a drain test none completes a drain. -/
theorem PlainPiece.waits (h : PlainPiece s t) (ht : t.Waits) : s.Waits := by
  have hline := h.line_draining ht.1
  refine ⟨hline, ?_⟩
  have hdrained := ht.2
  rcases h.flow with hflow | rfl | ⟨haltInput, rfl⟩ | ⟨p, _, rfl⟩ | ⟨n, q, _, rfl⟩ | ⟨_, _, _, _, _, _, _, ha, rfl⟩
  · exact hdrained.of_flow hflow
  · cases ht.1
  · have := ht.1
    rw [State.hardwareReset_frame] at this
    cases this
  · exact hdrained
  · rw [State.finishTest_frame] at hdrained; exact hdrained
  · exact hdrained.of_releasePile ha

/-! ### Commands with a drain test -/

/-- An event once raised stays among the events that operations add to, and DROPPED stays set. -/
theorem Outside.push_keeps {o : Outside} {ev : Event} (e : Event) (h : ev ∈ o.events ∨ o.dropped = true) :
    ev ∈ (o.push e).events ∨ (o.push e).dropped = true := by
  unfold Outside.push
  split
  · rcases h with h | h
    · exact .inl (by simp [h])
    · exact .inr h
  · exact .inr rfl

theorem Outside.pushAll_keeps {o : Outside} {ev : Event} (evs : List Event)
    (h : ev ∈ o.events ∨ o.dropped = true) : ev ∈ (o.pushAll evs).events ∨ (o.pushAll evs).dropped = true := by
  induction evs generalizing o with
  | nil => exact h
  | cons e evs ih => exact ih (Outside.push_keeps e h)

/-- An expiry fills no place that the drain looks at. -/
theorem Drained.expireJob (h : Drained s) (st : Station) : Drained (s.expireJob st) := by
  obtain ⟨hctx, hunder, hjog, hknife, hlane, hturn, hstack⟩ := h
  have hbusy (other : Station) : ((s.expireJob st).ctx other).busy = false := by
    by_cases he : st = other
    · subst he
      unfold State.expireJob
      split
      · rw [State.endJob_eq, State.putCtx_ctx]; rfl
      · rw [State.putCtx_ctx]
        show ((s.failJob st _ .timeout).ctx st).busy = false
        cases st <;> (simp only [State.failJob]; rw [State.endJob_eq]; simp [State.putCtx, State.ctx, endedContext])
    · rw [State.expireJob_ctx_other s he]; exact hctx other
  have hrest : (s.expireJob st).knifePile = none ∧ (s.expireJob st).jogQueue = s.jogQueue ∧
      (s.expireJob st).knifeQueue = s.knifeQueue ∧ (s.expireJob st).returnLane = s.returnLane ∧
      (s.expireJob st).turnQueue = s.turnQueue ∧ (s.expireJob st).returnStack = s.returnStack := by
    unfold State.expireJob
    split
    · exact ⟨hunder, rfl, rfl, rfl, rfl, rfl⟩
    · refine ⟨?_, ?_⟩
      · cases st with
        | knife => rfl
        | lift | jog | turn => simpa [State.failJob] using hunder
      · show (s.failJob st _ .timeout).jogQueue = _ ∧ (s.failJob st _ .timeout).knifeQueue = _ ∧
          (s.failJob st _ .timeout).returnLane = _ ∧ (s.failJob st _ .timeout).turnQueue = _ ∧
          (s.failJob st _ .timeout).returnStack = _
        rw [State.failJob_frame]
        exact ⟨rfl, rfl, rfl, rfl, rfl⟩
  obtain ⟨e1, e2, e3, e4, e5, e6⟩ := hrest
  exact ⟨hbusy, e1, e2.trans hjog, e3.trans hknife, e4.trans hlane, e5.trans hturn, e6.trans hstack⟩

theorem State.StoppedByTest.line (hs : s.StoppedByTest) (h : LinePiece s t) : t.StoppedByTest := by
  rw [h.eq]; exact hs

/-- In STOPPED with the drain complete only a timer's expiry is left, of an IDLE station. -/
theorem State.StoppedByTest.jobEffect (hs : s.StoppedByTest) (h : JobEffect s t) : t.StoppedByTest := by
  intro ht
  have hline : s.line = .stopped := by
    rcases h.panel with h | ⟨_, rfl⟩
    · exact (congrArg Panel.line h).symm.trans ht
    · cases ht
  obtain ⟨hdrained, hev⟩ := hs hline
  have noSelect {st : Station} (h : Selects s st) : False := by
    obtain ⟨_, hadmit, _⟩ := h
    rcases hadmit with h | ⟨_, h⟩ <;> (rw [hline] at h; cases h)
  have notBusy {st : Station} (h : (s.ctx st).busy = true) : False := by
    rw [hdrained.1 st] at h; cases h
  cases h with
  | nothing => exact ⟨hdrained, hev⟩
  | begun hrun => rw [hline] at hrun; cases hrun
  | waited hsel _ | issued hsel _ => exact (noSelect hsel).elim
  | liftDone _ hfly | jogDone _ _ hfly | knifeDone hfly _ | turnDone hfly => exact (notBusy hfly.1).elim
  | failed _ hb _ | aborted hb _ => exact (notBusy hb).elim
  | expired st =>
    obtain ⟨evs, he⟩ := State.expireJob_dresses s st
    have h0 : s.expireJob st = (s.expireJob st).dress (s.outside.pushAll evs) := he s.outside
    refine ⟨hdrained.expireJob st, ?_⟩
    rw [h0]
    exact Outside.pushAll_keeps (o := s.outside) evs hev

theorem State.lowered_flow (st : Station) (n : Nat) :
    (s.putCtx st { s.ctx st with remaining := n }).flow = s.flow := State.putCtx_flow rfl rfl rfl

/-- The drain test leaves no completed drain. -/
theorem DrainPiece.waits (h : DrainPiece s t) (ht : t.Waits) : s.Waits := by
  cases h with
  | line h => exact ht.of_flow h.line h.flow
  | tested _ htest hports hpins =>
    rcases htest.cases hports hpins with ⟨hnot, rfl⟩ | ⟨_, hstop, _⟩
    · exact absurd ht hnot
    · have hline := ht.1
      rw [hstop] at hline
      cases hline
  | lowered st n => exact ⟨ht.1, ht.2.of_flow (State.lowered_flow st n)⟩

/-- The drain test stops the line with its event. -/
theorem DrainPiece.stoppedByTest (h : DrainPiece s t) (hs : s.StoppedByTest) : t.StoppedByTest := by
  cases h with
  | line h => exact hs.line h
  | tested hjob htest hports hpins =>
    rcases htest.cases hports hpins with ⟨_, rfl⟩ | ⟨⟨_, hdrained⟩, ht, hev, _⟩
    · exact hs.jobEffect hjob
    · exact fun _ => ⟨by rw [ht]; exact hdrained, hev⟩
  | lowered st n =>
    intro hline
    obtain ⟨hdrained, hev⟩ := hs hline
    exact ⟨hdrained.of_flow (State.lowered_flow st n).symm, hev⟩

/-- The law of the drain over one command. -/
theorem exec_drainLaw {c : Instr} (hs : ¬ s.Waits) (h : exec c s = .next t) :
    ¬ t.Waits ∧ (s.line ≠ .stopped → t.StoppedByTest) := by
  refine ⟨exec_keeps (P := fun x => ¬ x.Waits) (fun _ _ hp h => mt hp.waits h) (fun _ _ hp h => mt hp.waits h)
    h hs, fun hne => ?_⟩
  have hreach := exec_reaches h
  clear h
  rcases hreach with hpath | hpath
  · have key : t.line = .stopped → s.line = .stopped := by
      induction hpath with
      | refl => exact id
      | tail _ hpiece ih => exact fun hl => ih (hpiece.line_stopped hl)
    exact fun hl => absurd (key hl) hne
  · induction hpath with
    | refl => exact fun hl => absurd hl hne
    | tail _ hpiece ih => exact hpiece.stoppedByTest ih

/-- Settles O18: no piece leaves a completed drain waiting, and only a drain test comes to STOPPED. -/
theorem completeDrainsNeverWait : Obligations.CompleteDrainsNeverWait := by
  intro s t hs h
  unfold step at h
  split at h
  · injection h with h
    subst h
    exact ⟨hs, fun hne hl => absurd hl hne⟩
  · rename_i c rest _
    exact exec_drainLaw (s := { s with pending := rest }) hs h

end

end Sys2Proof.Machine
end

section
/-! The flow alone: piles, their places, jobs and accounts. Every command changes it by the steps below, each one
pile that goes from one place to another or one pallet's accounts, or by a pallet queued; the laws of the flow are
proved step by step. -/

namespace Sys2Proof.Machine

open Relation (ReflTransGen)

/-! ### Operations on the flow -/

/-- The lists in which piles stand between jobs: the four queues and the Return Stack (section 1.5). -/
inductive Lane where
  | jog | knife | back | turn | stack
  deriving DecidableEq

/-- The residency of the piles in a list (R11). -/
def Lane.residency : Lane → Residency
  | .jog => .jogWait
  | .knife => .knifeWait
  | .back => .returnWait
  | .turn => .turnWait
  | .stack => .stacked

/-- Two records of one pile whose sheets and accounts are the same. -/
def SameStock (p p' : Pile) : Prop := p'.program = p.program ∧ p'.pallet = p.pallet ∧ p'.sheets = p.sheets

/-- A knife job that reserves a record and a stack slot (R15). -/
def KnifeJob.keeps (j : KnifeJob) : Bool := j.kind = .cut && j.keep

namespace Flow

def pile (f : Flow) (t : Tag) : Option Pile := look f.piles t

def setPile (f : Flow) (t : Tag) (x : Option Pile) : Flow := { f with piles := put f.piles t x }

def queue (f : Flow) : Lane → List Tag
  | .jog => f.jogQueue
  | .knife => f.knifeQueue
  | .back => f.returnLane
  | .turn => f.turnQueue
  | .stack => f.returnStack

def setQueue (f : Flow) (k : Lane) (l : List Tag) : Flow :=
  match k with
  | .jog => { f with jogQueue := l }
  | .knife => { f with knifeQueue := l }
  | .back => { f with returnLane := l }
  | .turn => { f with turnQueue := l }
  | .stack => { f with returnStack := l }

def setCtx (f : Flow) (st : Station) (busy : Bool) (tag : Option Tag) (job : Job) : Flow :=
  { f with
    busy := Function.update f.busy st busy, tag := Function.update f.tag st tag
    job := Function.update f.job st job }

/-- The context IDLE, the job record kept (R65). -/
def endJob (f : Flow) (st : Station) : Flow := f.setCtx st false none (f.job st)

/-- The job issued (R61). -/
def issue (f : Flow) (st : Station) (t : Tag) (j : Job) : Flow := f.setCtx st true (some t) j

/-- The knife pile cleared where it is the knife that its pile leaves. -/
def leave (f : Flow) (st : Station) : Flow :=
  { f with knifePile := if st = .knife then none else f.knifePile }

def dropReservation (f : Flow) : Flow := { f with reservedRecords := 0, reservedSlots := 0 }

/-- The reservation released where the knife's job ends (R15). -/
def release (f : Flow) (st : Station) : Flow :=
  { f with
    reservedRecords := if st = .knife then 0 else f.reservedRecords
    reservedSlots := if st = .knife then 0 else f.reservedSlots }

/-- A KEEP cut job is in flight at the knife. -/
def keeps (f : Flow) : Bool :=
  f.busy .knife && (match f.job .knife with
    | .knife j => j.keeps
    | _ => false)

def inUse (f : Flow) : Nat := (allTags.filter fun t => (f.pile t).isSome).length

def freeRecords (f : Flow) : Nat := 32 - f.inUse - f.reservedRecords

def freeSlots (f : Flow) : Nat := 12 - f.returnStack.length - f.reservedSlots

def addUse (f : Flow) (p : ProgNo) : Flow := { f with useCounts := put f.useCounts p (look f.useCounts p + 1) }

def dropUse (f : Flow) (p : ProgNo) : Flow := { f with useCounts := put f.useCounts p (look f.useCounts p - 1) }

def modifyPallet (f : Flow) (n : Nat) (g : Pallet → Pallet) : Flow :=
  { f with pallets := f.pallets.map fun q => if q.seq = n then g q else q }

def palletOf (f : Flow) (n : Nat) : Option Pallet := f.pallets.find? fun q => q.seq = n

/-- The finish of R83. -/
def finish (f : Flow) (n : Nat) : Flow :=
  match f.palletOf n with
  | none => f
  | some q =>
    if palletFinished q then { f with pallets := f.pallets.filter fun x => x.seq ≠ n }.dropUse q.program else f

/-- A record freed with its accounts (R9). -/
def free (f : Flow) (t : Tag) (account : Nat → Pallet → Pallet) : Flow :=
  match f.pile t with
  | none => f
  | some p =>
    (((f.setPile t none).dropUse p.program).modifyPallet p.pallet fun q =>
      account p.sheets { q with live := q.live - 1 }).finish p.pallet

/-- A pallet created at the end of the table (R79). -/
def queued (f : Flow) (d : Draft) (p : ProgNo) : Flow :=
  { f with
    pallets := f.pallets ++ [queuedPallet d p (freeSeqFrom (f.pallets.map Pallet.seq) 255 f.seqCounter)]
    seqCounter := freeSeqFrom (f.pallets.map Pallet.seq) 255 f.seqCounter }.addUse p

/-- The flow with no pile and no pallet. -/
def clear (f : Flow) : Flow :=
  { f with
    piles := Vector.replicate 32 none
    jogQueue := [], knifeQueue := [], returnLane := [], turnQueue := [], returnStack := []
    reservedRecords := 0, reservedSlots := 0, knifePile := none
    pallets := [], seqCounter := 0, useCounts := Vector.replicate 48 0
    busy := fun _ => false, tag := fun _ => none, job := fun _ => .none }

end Flow

/-- The record of a pile that a failed or expired job holds. -/
def heldRecord (f : Flow) (st : Station) (r : HoldReason) (p : Pile) : Pile :=
  { p with
    residency := .held
    hold := some { reason := r, station := st }
    pendingTurn := if st = .knife ∧ isTransferTurn (f.job .knife) = true then none else p.pendingTurn }

/-! ### The steps -/

/-- What a command can do to the flow, but for PALLET_QUEUE. -/
inductive Flow.Step (f : Flow) : Flow → Prop where
  /-- A lift issued from a pallet (R87). -/
  | lifted {q : Pallet} {n : Nat} {t : Tag} {j : Job} : q ∈ f.pallets → n ≤ q.remaining → 1 ≤ f.freeRecords →
      f.busy .lift = false → f.pile t = none →
      Step f ((((f.modifyPallet q.seq (accountLifted n)).setPile t (some (liftedPile q n))).addUse
        q.program).issue .lift t j)
  /-- The head of the jogger's or the turner's queue taken as its job (R94, R126). -/
  | taken {st : Station} {k : Lane} {t : Tag} {rest : List Tag} {p : Pile} {j : Job} :
      st = .jog ∧ k = .jog ∨ st = .turn ∧ k = .turn → f.busy st = false → f.queue k = t :: rest →
      f.pile t = some p →
      Step f (((f.setQueue k rest).setPile t (some { p with residency := jobResidency st })).issue st t j)
  /-- The arbiter's choice put under the knife (R105). -/
  | placed {k : Lane} {t : Tag} {rest : List Tag} : k = .back ∨ k = .stack ∨ k = .knife → f.knifePile = none →
      f.queue k = t :: rest →
      Step f { (f.setQueue k rest).setPile t
        ((f.pile t).map fun p => { p with residency := .atKnife, started := true }) with knifePile := some t }
  /-- A hold taken during dispatch (R108). -/
  | knifeHeld {t : Tag} {p : Pile} (r : HoldReason) : f.busy .knife = false → f.knifePile = some t →
      f.pile t = some p →
      Step f { f.setPile t (some { p with residency := .held, hold := some { reason := r, station := .knife } }) with
        knifePile := none }
  /-- A knife job issued, a KEEP cut with its reservation (R15, R108 to R111). -/
  | knifeIssued {t : Tag} {p p' : Pile} {j : KnifeJob} : f.busy .knife = false → f.knifePile = some t →
      f.pile t = some p → SameStock p p' → p'.residency = .knifeJob →
      (j.keeps = true → 1 ≤ f.freeRecords ∧ 1 ≤ f.freeSlots) →
      Step f ({ f.setPile t (some p') with
        reservedRecords := if j.keeps then 1 else f.reservedRecords
        reservedSlots := if j.keeps then 1 else f.reservedSlots }.issue .knife t (.knife j))
  /-- A job that ends with its pile in a queue: a completion or an ABORT. -/
  | jobQueued {st : Station} {k : Lane} {t : Tag} {g : Pile → Pile} {l : List Tag} : f.tag st = some t →
      (∀ p, SameStock p (g p) ∧ (g p).residency = k.residency) → k ≠ .stack → l.Perm (t :: f.queue k) →
      (st = .knife → f.keeps = false) →
      Step f ((((f.setPile t ((f.pile t).map g)).setQueue k l).leave st).endJob st)
  /-- A job that ends with its pile held (R66, R72, R89, R98). -/
  | jobHeld {st : Station} {t : Tag} (r : HoldReason) : f.tag st = some t →
      Step f ((((f.setPile t ((f.pile t).map (heldRecord f st r))).leave st).release st).endJob st)
  /-- A re-jog (R97). -/
  | rejogged {t : Tag} {p : Pile} {n : Nat} {j : Job} : f.busy .jog = true → f.tag .jog = some t →
      f.pile t = some p → Step f ((f.setPile t (some { p with attempt := n })).issue .jog t j)
  /-- A cut whose offcut is wasted (R113). -/
  | cutWasted {t : Tag} {p p' : Pile} : f.tag .knife = some t → f.pile t = some p → SameStock p p' →
      p'.residency = .atKnife → f.keeps = false → Step f ((f.setPile t (some p')).endJob .knife)
  /-- A cut whose offcut becomes a pile on the Return Stack (R2, R113). -/
  | cutKept {t child : Tag} {p p' c : Pile} : f.tag .knife = some t → f.pile t = some p → SameStock p p' →
      p'.residency = .atKnife → f.keeps = true → f.pile child = none → SameStock p c →
      c.residency = .stacked →
      Step f ((((((f.setPile child (some c)).setQueue .stack (child :: f.returnStack)).addUse
        p.program).modifyPallet p.pallet fun q => { q with live := q.live + 1 }).dropReservation.setPile t
          (some p')).endJob .knife)
  /-- A knife job aborted (R118). -/
  | knifeAborted {t : Tag} {g : Pile → Pile} : f.tag .knife = some t →
      (∀ p, SameStock p (g p) ∧ (g p).residency = .atKnife) →
      Step f ((f.setPile t ((f.pile t).map g)).dropReservation.endJob .knife)
  /-- A job that ends with its record freed: a delivery, or a lift aborted (R92, R116). -/
  | jobFreed {st : Station} {t : Tag} {account : Nat → Pallet → Pallet} : f.tag st = some t →
      st = .knife ∧ account = accountDelivered ∧ f.keeps = false ∨ st = .lift ∧ account = accountReturned →
      Step f (((f.free t account).leave st).endJob st)
  /-- The expiry of a timer that runs for no job. -/
  | idled {st : Station} : f.tag st = none → Step f (f.endJob st)
  /-- A RELEASE that puts its pile back into a queue (R19). -/
  | putBack {k : Lane} {t : Tag} {p p' : Pile} : f.pile t = some p → p.residency = .held → SameStock p p' →
      p'.residency = k.residency → k ≠ .stack →
      Step f ((f.setPile t (some p')).setQueue k (f.queue k ++ [t]))
  /-- A RELEASE that frees its record (R19). -/
  | discarded {t : Tag} {p : Pile} {account : Nat → Pallet → Pallet} : f.pile t = some p → p.residency = .held →
      account = accountScrapped ∨
        (∃ hold, p.hold = some hold ∧ hold.station = .lift) ∧ account = accountReturned →
      Step f (f.free t account)
  /-- A pallet cancelled (R82). -/
  | palletCancelled (n : Nat) : Step f ((f.modifyPallet n accountCancelled).finish n)
  /-- A line reset or a hardware reset (R154). -/
  | cleared : Step f f.clear

/-! ### The operations of the model as operations on the flow -/

section
variable {s : State}

theorem State.putCtx_flow_eq (st : Station) (c : Context) :
    (s.putCtx st c).flow = s.flow.setCtx st c.busy c.tag c.job := by
  have key {β : Type} (g : Context → β) :
      (fun st' => g ((s.putCtx st c).ctx st')) = Function.update (fun st' => g (s.ctx st')) st (g c) := by
    funext st'
    by_cases e : st' = st
    · subst e; rw [State.putCtx_ctx, Function.update_self]
    · rw [State.putCtx_ctx_other _ _ (Ne.symm e), Function.update_of_ne e]
  simp only [State.flow, key Context.busy, key Context.tag, key Context.job]
  rfl

theorem State.endJob_flow (st : Station) : (s.endJob st).flow = s.flow.endJob st := State.putCtx_flow_eq st _

theorem State.issue_flow (st : Station) (t : Tag) (j : Job) : (s.issue st t j).flow = s.flow.issue st t j :=
  State.putCtx_flow_eq st _

theorem State.modifyPile_flow (t : Tag) (g : Pile → Pile) :
    (s.modifyPile t g).flow = s.flow.setPile t ((s.flow.pile t).map g) := rfl

theorem State.holdPile_flow (t : Tag) (r : HoldReason) (st : Station) :
    (s.holdPile t r st).flow = s.flow.setPile t ((s.flow.pile t).map fun p =>
      { p with residency := .held, hold := some { reason := r, station := st } }) := by
  rw [State.holdPile, State.raise_flow]; rfl

theorem State.failJob_flow (st : Station) (t : Tag) (r : HoldReason) :
    (s.failJob st t r).flow = (((s.flow.setPile t ((s.flow.pile t).map (heldRecord s.flow st r))).leave
      st).release st).endJob st := by
  cases st with
  | lift | jog | turn => rw [State.failJob, State.endJob_flow, State.holdPile_flow]; rfl
  | knife =>
    show (((s.dropKnifeTurn t).holdPile t r .knife).dropReservation.endJob .knife).flow.leave .knife = _
    rw [State.endJob_flow]
    show ((((s.dropKnifeTurn t).holdPile t r .knife).flow.dropReservation).endJob .knife).leave .knife = _
    rw [State.holdPile_flow, State.dropKnifeTurn_eq]
    unfold heldRecord
    by_cases hturn : isTransferTurn (s.ctx .knife).job = true
    · have hturn' : isTransferTurn (s.flow.job .knife) = true := hturn
      simp only [hturn, hturn', and_self, if_true, State.modifyPile_flow]
      unfold Flow.setPile Flow.pile
      simp only [look_put_same, put_put, Option.map_map]
      rfl
    · have hturn' : ¬ isTransferTurn (s.flow.job .knife) = true := hturn
      simp only [hturn, hturn']
      rfl

theorem State.finishTest_flow (n : Nat) : (s.finishTest n).flow = s.flow.finish n := by
  cases hq : s.palletOf n with
  | none => simp only [State.finishTest, Flow.finish, hq, show s.flow.palletOf n = none from hq]
  | some q =>
    simp only [State.finishTest, Flow.finish, hq, show s.flow.palletOf n = some q from hq]
    split
    · show ((({ s with pallets := s.pallets.filter (fun q => q.seq ≠ n), lastReport := some q } : State).raise
        (.palletDone n)).flow).dropUse q.program = _
      rw [State.raise_flow]
      rfl
    · rfl

theorem State.freeRecord_flow (t : Tag) (account : Nat → Pallet → Pallet) :
    (s.freeRecord t account).flow = s.flow.free t account := by
  cases hp : s.pile t with
  | none => simp only [State.freeRecord, Flow.free, hp, show s.flow.pile t = none from hp]
  | some p =>
    simp only [State.freeRecord, Flow.free, hp, show s.flow.pile t = some p from hp, State.finishTest_flow]
    rfl

end

end Sys2Proof.Machine
end

section
/-! Every command changes the flow by the steps of `Flow.Step`. -/

namespace Sys2Proof.Machine

open Relation (ReflTransGen)

variable {s u : State}

/-! ### The knife's selection (R105, R108) -/

/-- What one round of the knife's search looks at: the knife pile, or the arbiter's choice put under the knife. -/
theorem State.chosen_cases {t : Tag} {s1 : State} (h : s.chosen = some (t, s1)) :
    s1.knifePile = some t ∧ (s1 = s ∨ (s.knifePile = none ∧ ∃ k rest, (k = .back ∨ k = .stack ∨ k = .knife) ∧
      s.flow.queue k = t :: rest ∧
      s1.flow = { (s.flow.setQueue k rest).setPile t
        ((s.flow.pile t).map fun p => { p with residency := .atKnife, started := true }) with
        knifePile := some t })) := by
  unfold State.chosen at h
  split at h
  · rename_i t' hk
    injection h with h; injection h with h1 h2; subst h1 h2
    exact ⟨hk, .inl rfl⟩
  · rename_i hk
    unfold State.arbiter at h
    split at h
    · rename_i t' rest hq
      injection h with h; injection h with h1 h2; subst h1 h2
      exact ⟨rfl, .inr ⟨hk, .back, rest, .inl rfl, hq, rfl⟩⟩
    · split at h
      · rename_i t' rest hq
        injection h with h; injection h with h1 h2; subst h1 h2
        exact ⟨rfl, .inr ⟨hk, .stack, rest, .inr (.inl rfl), hq, rfl⟩⟩
      · split at h
        · rename_i t' rest hq
          injection h with h; injection h with h1 h2; subst h1 h2
          exact ⟨rfl, .inr ⟨hk, .knife, rest, .inr (.inr rfl), hq, rfl⟩⟩
        · cases h

theorem State.chosen_steps {t : Tag} {s1 : State} (h : s.chosen = some (t, s1)) :
    ReflTransGen Flow.Step s.flow s1.flow := by
  obtain ⟨_, rfl | ⟨hk, k, rest, hkind, hq, hflow⟩⟩ := State.chosen_cases h
  · exact .refl
  · rw [hflow]; exact .single (.placed hkind hk hq)

/-- A dispatch holds the pile, issues a job that is no cut, or a cut with room for what it keeps (R107 to R111). -/
theorem State.dispatch_cases {t : Tag} {p : Pile} {d : Dispatched} (h : s.dispatch t p = .ok d) :
    (∃ r, d = .held (s.dispatchHold t r)) ∨
    (∃ kind pending, kind ≠ .cut ∧
      d = .job (s.putPile t (some { p with residency := .knifeJob, pendingTurn := pending })) t
        (plainKnifeJob kind p)) ∨
    (∃ distance keep, (keep = true → 1 ≤ s.freeRecords ∧ 1 ≤ s.freeSlots) ∧
      d = .job (s.cutIssue t p (s.cutJobOf p distance keep)) t (.knife (s.cutJobOf p distance keep))) := by
  unfold State.dispatch at h
  split at h
  · cases h
  · split at h
    · injection h with h; subst h
      exact .inr (.inl ⟨_, _, by simp, rfl⟩)
    · split at h
      · injection h with h; subst h; exact .inl ⟨_, rfl⟩
      · split at h
        · injection h with h; subst h; exact .inl ⟨_, rfl⟩
        · rename_i hroom
          injection h with h; subst h
          refine .inr (.inr ⟨_, _, fun hk => ?_, rfl⟩)
          simp only [hk, Bool.true_and, Bool.or_eq_true, decide_eq_true_eq] at hroom
          omega
  · injection h with h; subst h; exact .inr (.inl ⟨_, _, by simp, rfl⟩)
  · injection h with h; subst h; exact .inr (.inl ⟨.transferJog, p.pendingTurn, by simp, rfl⟩)
  · injection h with h; subst h; exact .inr (.inl ⟨.deliver, p.pendingTurn, by simp, rfl⟩)

theorem State.dispatchHold_flow (t : Tag) (r : HoldReason) :
    (s.dispatchHold t r).flow = { s.flow.setPile t ((s.flow.pile t).map fun p =>
      { p with residency := .held, hold := some { reason := r, station := .knife } }) with knifePile := none } :=
  congrArg (fun f : Flow => { f with knifePile := none }) (State.holdPile_flow t r .knife)

theorem State.cutIssue_flow (t : Tag) (p : Pile) (j : KnifeJob) :
    (s.cutIssue t p j).flow = { s.flow.setPile t (some { p with
        residency := .knifeJob, limitedSeen := p.limitedSeen || j.limited }) with
      reservedRecords := if j.keep then 1 else s.flow.reservedRecords
      reservedSlots := if j.keep then 1 else s.flow.reservedSlots } := by
  have hraise (x : State) :
      (if j.limited then x.raise (.targetLimited t p.cursor) else x).flow = x.flow := by
    split
    · exact State.raise_flow _ _
    · rfl
  unfold State.cutIssue
  dsimp only
  rw [hraise]
  cases j.keep <;> rfl

/-- One round that takes a hold. -/
theorem State.held_step {t : Tag} {p : Pile} (hb : (s.ctx .knife).busy = false) (hk : s.knifePile = some t)
    (hp : s.pile t = some p) (r : HoldReason) : Flow.Step s.flow (s.dispatchHold t r).flow := by
  rw [State.dispatchHold_flow, show s.flow.pile t = some p from hp]
  exact .knifeHeld r hb hk hp

/-- A knife job that is no cut reserves nothing. -/
theorem plainKnifeJob_eq (kind : KnifeKind) (p : Pile) :
    ∃ j, plainKnifeJob kind p = .knife j ∧ j.keeps = false := ⟨_, rfl, Bool.and_false _⟩

/-- The round that issues a job. -/
theorem State.dispatch_step {t t' : Tag} {p : Pile} {s2 : State} {j : Job} (hb : (s.ctx .knife).busy = false)
    (hk : s.knifePile = some t) (hp : s.pile t = some p) (h : s.dispatch t p = .ok (.job s2 t' j)) :
    Flow.Step s.flow (s2.issue .knife t' j).flow := by
  rw [State.issue_flow]
  rcases State.dispatch_cases h with ⟨r, hd⟩ | ⟨kind, pending, hkind, hd⟩ | ⟨distance, keep, hroom, hd⟩
  · cases hd
  · obtain ⟨j', hj, hkeeps⟩ := plainKnifeJob_eq kind p
    rw [hj] at hd
    injection hd with h1 h2 h3; subst h1 h2 h3
    have hstep := Flow.Step.knifeIssued (f := s.flow) (p' := { p with residency := .knifeJob, pendingTurn := pending }) hb hk hp
      ⟨rfl, rfl, rfl⟩ rfl (fun hk => by rw [hkeeps] at hk; cases hk)
    rw [hkeeps] at hstep
    exact hstep
  · injection hd with h1 h2 h3; subst h1 h2 h3
    rw [State.cutIssue_flow]
    exact Flow.Step.knifeIssued (f := s.flow) (j := s.cutJobOf p distance keep) hb hk hp ⟨rfl, rfl, rfl⟩ rfl hroom

theorem State.knifeSearch_steps (fuel : Nat) : ∀ {s u : State} {r : Option (Tag × Job)},
    (s.ctx .knife).busy = false → State.knifeSearch fuel s = .ok (u, r) →
    (r = none → ReflTransGen Flow.Step s.flow u.flow) ∧
      ∀ t j, r = some (t, j) → ReflTransGen Flow.Step s.flow (u.issue .knife t j).flow := by
  induction fuel with
  | zero =>
    intro s u r _ h
    injection h with h; injection h with h1 h2; subst h1 h2
    exact ⟨fun _ => .refl, fun _ _ h => by cases h⟩
  | succ n ih =>
    intro s u r hb h
    rw [State.knifeSearch_succ] at h
    split at h
    · injection h with h; injection h with h1 h2; subst h1 h2
      exact ⟨fun _ => .refl, fun _ _ h => by cases h⟩
    · rename_i t s1 hc
      have hsteps := State.chosen_steps hc
      obtain ⟨hk, _⟩ := State.chosen_cases hc
      have hb1 : (s1.ctx .knife).busy = false := by
        rw [State.chosen_frame hc]; exact hb
      split at h
      · cases h
      · rename_i p hp
        split at h
        · cases h
        · rename_i s2 t2 j hd
          injection h with h; injection h with h1 h2; subst h1 h2
          refine ⟨fun h => (by cases h), fun t' j' hr => ?_⟩
          injection hr with hr; injection hr with h1 h2; subst h1 h2
          exact hsteps.tail (State.dispatch_step hb1 hk hp hd)
        · rename_i s2 hd
          have hheld : ∃ r, s2 = s1.dispatchHold t r := by
            rcases State.dispatch_cases hd with ⟨r, hd⟩ | ⟨_, _, _, hd⟩ | ⟨_, _, _, hd⟩
            · injection hd with hd; exact ⟨r, hd⟩
            · cases hd
            · cases hd
          obtain ⟨r', rfl⟩ := hheld
          have hstep := hsteps.tail (State.held_step hb1 hk hp r')
          have hb2 : ((s1.dispatchHold t r').ctx .knife).busy = false := by
            rw [State.dispatchHold_frame s1 t r']; exact hb1
          obtain ⟨hnone, hsome⟩ := ih hb2 h
          exact ⟨fun hr => hstep.trans (hnone hr), fun t' j' hr => hstep.trans (hsome t' j' hr)⟩

/-! ### The other selections -/

/-- A station that is IDLE finds no job but by steps. -/
theorem State.select_none_steps {st : Station} (hb : (s.ctx st).busy = false) (h : s.select st = .ok (u, none)) :
    ReflTransGen Flow.Step s.flow u.flow := by
  cases st with
  | lift =>
    simp only [State.select, State.selectLift] at h
    split at h
    · split at h
      · injection h with h; injection h with h1 h2; cases h2
      · injection h with h; injection h with h1 h2; subst h1; exact .refl
    · injection h with h; injection h with h1 h2; subst h1; exact .refl
  | jog =>
    simp only [State.select, State.selectJog] at h
    split at h
    · injection h with h; injection h with h1 h2; subst h1; exact .refl
    · split at h
      · cases h
      · injection h with h; injection h with h1 h2; cases h2
  | knife => exact (State.knifeSearch_steps _ hb h).1 rfl
  | turn =>
    simp only [State.select, State.selectTurn] at h
    split at h
    · injection h with h; injection h with h1 h2; subst h1; exact .refl
    · split at h
      · cases h
      · injection h with h; injection h with h1 h2; cases h2

/-- A station that is IDLE takes its job by steps. -/
theorem State.select_some_steps {st : Station} {t : Tag} {j : Job} (hb : (s.ctx st).busy = false)
    (h : s.select st = .ok (u, some (t, j))) : ReflTransGen Flow.Step s.flow (u.issue st t j).flow := by
  cases st with
  | lift =>
    simp only [State.select, State.selectLift] at h
    split at h
    · rename_i q t' hq ht
      split at h
      · rename_i hadmit
        injection h with h; injection h with h1 h2; injection h2 with h2; injection h2 with h2 h3
        subst h1 h2 h3
        have hpos : 0 < q.remaining := by
          unfold State.liftSource at hq
          simpa using List.find?_some hq
        have hfree : s.pile t' = none := (State.nextFree_of_nextTag ht).1
        have hroom : 1 ≤ s.freeRecords := by
          simp only [State.liftAdmits, Bool.and_eq_true, decide_eq_true_eq] at hadmit
          omega
        have hn : liftSize q.remaining (nMax s.settings.hmax q.caliper) ≤ q.remaining :=
          liftSize_le_remaining hpos (le_trans (by decide) (Nat.le_max_left 16 _))
        rw [State.issue_flow]
        exact .single (.lifted (by unfold State.liftSource at hq; exact List.mem_of_find?_eq_some hq) hn hroom hb hfree)
      · injection h with h; injection h with h1 h2; cases h2
    · injection h with h; injection h with h1 h2; cases h2
  | jog =>
    simp only [State.select, State.selectJog] at h
    split at h
    · injection h with h; injection h with h1 h2; cases h2
    · rename_i t' rest hq
      split at h
      · cases h
      · rename_i p hp
        injection h with h; injection h with h1 h2; injection h2 with h2; injection h2 with h2 h3
        subst h1 h2 h3
        rw [State.issue_flow]
        exact .single (.taken (k := .jog) (.inl ⟨rfl, rfl⟩) hb hq hp)
  | knife => exact (State.knifeSearch_steps _ hb h).2 t j rfl
  | turn =>
    simp only [State.select, State.selectTurn] at h
    split at h
    · injection h with h; injection h with h1 h2; cases h2
    · rename_i t' rest hq
      split at h
      · cases h
      · rename_i p hp
        injection h with h; injection h with h1 h2; injection h2 with h2; injection h2 with h2 h3
        subst h1 h2 h3
        rw [State.issue_flow]
        exact .single (.taken (k := .turn) (.inr ⟨rfl, rfl⟩) hb hq hp)

/-! ### Jobs that end -/

theorem perm_append_single (t : Tag) (l : List Tag) : (l ++ [t]).Perm (t :: l) := List.perm_append_singleton t l

theorem State.failJob_step {st : Station} {t : Tag} (r : HoldReason) (ht : (s.ctx st).tag = some t) :
    Flow.Step s.flow (s.failJob st t r).flow := by
  rw [State.failJob_flow]
  exact .jobHeld r ht

theorem State.completeLift_step {t : Tag} {p : Pile} (value : Nat) (h : InFlight s .lift t p) :
    Flow.Step s.flow (s.completeLift t p value).flow := by
  obtain ⟨_, ht, hp⟩ := h
  by_cases hv : 16500 < value
  · rw [State.completeLift, if_pos hv]
    exact State.failJob_step .overheight ht
  · rw [State.completeLift_measured (by omega) rfl]
    have hstep := Flow.Step.jobQueued (f := s.flow) (st := .lift) (k := .jog) (t := t)
      (g := fun p => { p with
        height := value, attempt := 0, residency := .jogWait
        caliperDev := p.caliperDev || caliperDeviates value s.liftExpected (s.stock p.cls).tol })
      ht (fun _ => ⟨⟨rfl, rfl, rfl⟩, rfl⟩) (by decide) (perm_append_single t _) (by intro h; cases h)
    rw [show s.flow.pile t = some p from hp] at hstep
    split <;> (try rw [State.raise_flow]) <;>
      exact (State.putCtx_flow_eq .lift (endedContext (s.ctx .lift)) (s := { s with
        piles := put s.piles t _, jogQueue := s.jogQueue ++ [t] })) ▸ hstep

theorem State.jogAligned_step {t : Tag} {p : Pile} (h : InFlight s .jog t p) :
    Flow.Step s.flow (s.jogAligned t p).flow := by
  obtain ⟨_, ht, hp⟩ := h
  unfold State.jogAligned
  dsimp only
  rw [State.endJob_flow]
  split
  · have hstep := Flow.Step.jobQueued (f := s.flow) (st := .jog) (k := .back) (t := t)
      (g := fun p => { p with residency := .returnWait }) ht (fun _ => ⟨⟨rfl, rfl, rfl⟩, rfl⟩) (by decide)
      (perm_append_single t _) (by intro h; cases h)
    rw [show s.flow.pile t = some p from hp] at hstep
    exact hstep
  · have hstep := Flow.Step.jobQueued (f := s.flow) (st := .jog) (k := .knife) (t := t)
      (g := fun p => { p with residency := .knifeWait }) ht (fun _ => ⟨⟨rfl, rfl, rfl⟩, rfl⟩) (by decide)
      (perm_append_single t _) (by intro h; cases h)
    rw [show s.flow.pile t = some p from hp] at hstep
    exact hstep

theorem State.completeJog_step {t : Tag} {p : Pile} (tag : TagField) (value : Nat) (h : InFlight s .jog t p) :
    Flow.Step s.flow (s.completeJog t p tag value).1.flow := by
  rcases s.completeJog_cases t p tag value with hc | hc | ⟨r, hc⟩
  · rw [hc]; exact State.jogAligned_step h
  · obtain ⟨hb, ht, hp⟩ := h
    rw [hc, show (s.rejog t p).1 = (s.putPile t (some { p with attempt := p.attempt + 1 })).issue .jog t
      (s.jogJobOf { p with attempt := p.attempt + 1 }) from rfl, State.issue_flow]
    exact .rejogged hb ht hp
  · rw [hc]; exact State.failJob_step r h.2.1

theorem State.completeTurn_step {t : Tag} {p : Pile} (h : InFlight s .turn t p) :
    Flow.Step s.flow (s.completeTurn t p).flow := by
  obtain ⟨_, ht, hp⟩ := h
  rw [State.completeTurn, State.endJob_flow]
  have hstep := Flow.Step.jobQueued (f := s.flow) (st := .turn) (k := .back) (t := t)
    (g := fun p => { s.turned p with residency := .returnWait }) ht (fun p => by
      refine ⟨?_, rfl⟩
      unfold State.turned
      split <;> exact ⟨rfl, rfl, rfl⟩) (by decide) (perm_append_single t _) (by intro h; cases h)
  rw [show s.flow.pile t = some p from hp] at hstep
  exact hstep

/-- Only a KEEP cut in flight reserves. -/
theorem State.flow_keeps_of_job {j : KnifeJob} (hb : (s.ctx .knife).busy = true)
    (hj : (s.ctx .knife).job = .knife j) : s.flow.keeps = j.keeps := by
  simp only [Flow.keeps, State.flow, hb, hj, Bool.true_and]

theorem State.completeCut_step {t : Tag} {p : Pile} {j : KnifeJob} (hfly : InFlight s .knife t p)
    (hj : (s.ctx .knife).job = .knife j) (hkind : j.kind = .cut) (h : s.completeCut t p j.keep = .ok u) :
    Flow.Step s.flow u.flow := by
  obtain ⟨hb, ht, hp⟩ := hfly
  have hkeeps : s.flow.keeps = j.keep := by
    rw [State.flow_keeps_of_job hb hj, KnifeJob.keeps, hkind]; simp
  obtain ⟨_, distance, _, entry, v, _, hv, rfl⟩ := State.completeCut_cases h
  rw [State.endJob_flow, State.bladeRise_flow]
  rcases hv with ⟨hk, hv⟩ | ⟨hk, rfl⟩
  · obtain ⟨child, hfree, rfl⟩ := State.makeChild_cases hv
    exact .cutKept (c := childPile t p distance entry) ht hp ⟨rfl, rfl, rfl⟩ rfl (hkeeps.trans hk) hfree.1
      ⟨rfl, rfl, rfl⟩ rfl
  · exact .cutWasted (p' := v.cutRecord p distance) ht hp ⟨rfl, rfl, rfl⟩ rfl (hkeeps.trans hk)

theorem State.completeKnife_step {t : Tag} {p : Pile} (hfly : InFlight s .knife t p)
    (h : s.completeKnife t p = .ok u) : Flow.Step s.flow u.flow := by
  obtain ⟨j, hj, hcases⟩ := State.completeKnife_cases h
  have hplain (hkind : j.kind ≠ .cut) : s.flow.keeps = false := by
    rw [State.flow_keeps_of_job hfly.1 hj, KnifeJob.keeps, decide_eq_false hkind, Bool.false_and]
  obtain ⟨_, ht, hp⟩ := id hfly
  rcases hcases with ⟨hkind, h⟩ | ⟨⟨turn, hkind⟩, rfl⟩ | ⟨hkind, rfl⟩ | ⟨hkind, rfl⟩
  · exact State.completeCut_step hfly hj hkind h
  · rw [State.endJob_flow]
    have hstep := Flow.Step.jobQueued (f := s.flow) (st := .knife) (k := .turn) (t := t)
      (g := fun p => { p with residency := .turnWait }) ht (fun _ => ⟨⟨rfl, rfl, rfl⟩, rfl⟩) (by decide)
      (perm_append_single t _) (fun _ => hplain (by simp [hkind]))
    rw [show s.flow.pile t = some p from hp] at hstep
    exact hstep
  · rw [State.endJob_flow]
    have hstep := Flow.Step.jobQueued (f := s.flow) (st := .knife) (k := .jog) (t := t)
      (g := fun p => { p with cursor := s.advanced p, attempt := 0, residency := .jogWait }) ht
      (fun _ => ⟨⟨rfl, rfl, rfl⟩, rfl⟩) (by decide) (perm_append_single t _)
      (fun _ => hplain (by simp [hkind]))
    rw [show s.flow.pile t = some p from hp] at hstep
    exact hstep
  · rw [State.endJob_flow]
    have hstep := Flow.Step.jobFreed (f := s.flow) (st := .knife) (account := accountDelivered) ht
      (.inl ⟨rfl, rfl, hplain (by simp [hkind])⟩)
    rw [← State.freeRecord_flow] at hstep
    exact hstep

theorem State.abortJob_step {st : Station} {t : Tag} (ht : (s.ctx st).tag = some t) :
    Flow.Step s.flow (s.abortJob st t).flow := by
  cases st with
  | lift =>
    rw [State.abortJob, State.endJob_flow, State.freeRecord_flow]
    exact .jobFreed ht (.inr ⟨rfl, rfl⟩)
  | jog =>
    rw [State.abortJob, State.endJob_flow]
    exact .jobQueued (f := s.flow) (st := .jog) (k := .jog) (g := fun p => { p with residency := .jogWait }) ht
      (fun _ => ⟨⟨rfl, rfl, rfl⟩, rfl⟩) (by decide) (.refl _) (by intro h; cases h)
  | turn =>
    rw [State.abortJob, State.endJob_flow]
    exact .jobQueued (f := s.flow) (st := .turn) (k := .turn) (g := fun p => { p with residency := .turnWait }) ht
      (fun _ => ⟨⟨rfl, rfl, rfl⟩, rfl⟩) (by decide) (.refl _) (by intro h; cases h)
  | knife =>
    rw [State.abortJob, State.endJob_flow, State.dropKnifeTurn_eq]
    split
    · have hstep := Flow.Step.knifeAborted (f := s.flow)
        (g := fun p => { p with pendingTurn := none, residency := .atKnife }) ht (fun _ => ⟨⟨rfl, rfl, rfl⟩, rfl⟩)
      have heq : ((s.modifyPile t fun p => { p with pendingTurn := none }).modifyPile t fun p =>
          { p with residency := .atKnife }).flow =
            s.flow.setPile t ((s.flow.pile t).map fun p => { p with pendingTurn := none, residency := .atKnife }) := by
        rw [State.modifyPile_flow, State.modifyPile_flow]
        simp only [Flow.setPile, Flow.pile, look_put_same, put_put, Option.map_map]
        rfl
      rw [← heq] at hstep
      exact hstep
    · exact .knifeAborted (g := fun p => { p with residency := .atKnife }) ht (fun _ => ⟨⟨rfl, rfl, rfl⟩, rfl⟩)

theorem State.expireJob_step (st : Station) : Flow.Step s.flow (s.expireJob st).flow := by
  unfold State.expireJob
  split
  · rename_i ht
    rw [State.endJob_flow]
    exact .idled ht
  · rename_i t ht
    dsimp only
    have hflow : ((s.failJob st t .timeout).putCtx st
        { (s.failJob st t .timeout).ctx st with lastExpired := some t }).flow = (s.failJob st t .timeout).flow :=
      State.putCtx_flow rfl rfl rfl
    rw [hflow]
    exact State.failJob_step .timeout ht

/-! ### Every command -/

theorem JobEffect.steps (h : JobEffect s u) : ReflTransGen Flow.Step s.flow u.flow := by
  cases h with
  | nothing => exact .refl
  | begun _ => exact .refl
  | waited hs hsel => exact State.select_none_steps hs.1 hsel
  | issued hs hsel => exact State.select_some_steps hs.1 hsel
  | liftDone value hfly => exact .single (State.completeLift_step value hfly)
  | jogDone tag value hfly => exact .single (State.completeJog_step tag value hfly)
  | knifeDone hfly hk => exact .single (State.completeKnife_step hfly hk)
  | turnDone hfly => exact .single (State.completeTurn_step hfly)
  | failed r _ ht => exact .single (State.failJob_step r ht)
  | aborted _ ht => exact .single (State.abortJob_step ht)
  | expired st => exact .single (State.expireJob_step st)

theorem DrainTested.flow {t : State} (h : DrainTested s u t) (hports : t.ports = u.ports)
    (hpins : t.pins = u.pins) : t.flow = u.flow := by
  rcases h.cases hports hpins with ⟨_, rfl⟩ | ⟨_, ht, _⟩
  · rfl
  · rw [ht]; rfl

theorem DrainPiece.steps (h : DrainPiece s u) : ReflTransGen Flow.Step s.flow u.flow := by
  cases h with
  | line h => rw [h.flow]
  | tested he hd hports hpins => rw [hd.flow hports hpins]; exact he.steps
  | lowered st n =>
    have hflow : (s.putCtx st { s.ctx st with remaining := n }).flow = s.flow := State.putCtx_flow rfl rfl rfl
    rw [hflow]

/-- Contexts that are all as reset. -/
theorem State.flow_of_contexts_reset (h : s.contexts = Vector.replicate 4 Context.reset) :
    (fun st => (s.ctx st).busy) = (fun _ => false) ∧ (fun st => (s.ctx st).tag) = (fun _ => none) ∧
      (fun st => (s.ctx st).job) = fun _ => Job.none := by
  have hctx (st : Station) : s.ctx st = Context.reset := by
    rw [State.ctx, h]; cases st <;> rfl
  refine ⟨?_, ?_, ?_⟩ <;> funext st <;> rw [hctx] <;> rfl

theorem State.lineReset_flow : s.lineReset.flow = s.flow.clear := by
  obtain ⟨hb, ht, hj⟩ := State.flow_of_contexts_reset (s := s.lineReset) rfl
  simp only [State.flow, Flow.clear, hb, ht, hj]
  rfl

theorem State.volatileReset_flow (nv : NvMemory) (pending : List Instr) (n : Nat) :
    (State.volatileReset nv pending n).flow = s.flow.clear := by
  obtain ⟨hb, ht, hj⟩ := State.flow_of_contexts_reset (s := State.volatileReset nv pending n) rfl
  simp only [State.flow, Flow.clear, hb, ht, hj]
  rfl

theorem State.releasePile_step {t : Tag} {p : Pile} {hold : Hold} {a : ReleaseAction} (hp : s.pile t = some p)
    (hres : p.residency = .held) (hhold : p.hold = some hold) (ha : releaseAllowed hold.station a = true) :
    Flow.Step s.flow (s.releasePile t p hold.station a).flow := by
  rcases State.releasePile_cases (s := s) (tag := t) (p := p) ha with ⟨account, hacc, h⟩ | ⟨n, h⟩ | h | h <;> rw [h]
  · rw [State.freeRecord_flow]
    refine .discarded hp hres (hacc.imp_right fun ⟨hst, hacc⟩ => ⟨⟨hold, hhold, hst⟩, hacc⟩)
  · exact .putBack (k := .back) (p' := { p with hold := none, cursor := n, residency := .returnWait }) hp hres
      ⟨rfl, rfl, rfl⟩ rfl (by decide)
  · exact .putBack (k := .jog) (p' := { p with hold := none, attempt := 0, residency := .jogWait }) hp hres
      ⟨rfl, rfl, rfl⟩ rfl (by decide)
  · exact .putBack (k := .turn) (p' := { p with hold := none, residency := .turnWait }) hp hres
      ⟨rfl, rfl, rfl⟩ rfl (by decide)

theorem PlainPiece.steps (h : PlainPiece s u) : ReflTransGen Flow.Step s.flow u.flow ∨
    ∃ p, s.pallets.length < 4 ∧ u.flow = s.flow.queued s.draft p := by
  rcases h.flow with h | rfl | ⟨haltInput, rfl⟩ | ⟨p, hroom, rfl⟩ | ⟨n, q, _, rfl⟩ |
    ⟨t, p, hold, a, hp, hres, hhold, ha, rfl⟩
  · left; rw [h]
  · left; rw [State.lineReset_flow]; exact .single .cleared
  · have hflow : (s.hardwareReset haltInput).flow = s.flow.clear := by
      rw [State.hardwareReset_frame]; exact State.volatileReset_flow s.nv s.pending s.freeCtr
    left; rw [hflow]; exact .single .cleared
  · exact .inr ⟨p, hroom, rfl⟩
  · left; rw [State.finishTest_flow]; exact .single (.palletCancelled n)
  · exact .inl (.single (State.releasePile_step hp hres hhold ha))

/-- A law of the flow that every step keeps is kept along a path of steps. -/
theorem Flow.Step.path_keeps {P : Flow → Prop} (hstep : ∀ f g, Flow.Step f g → P f → P g) {f g : Flow}
    (h : ReflTransGen Flow.Step f g) (hf : P f) : P g := by
  induction h with
  | refl => exact hf
  | tail _ hlast ih => exact hstep _ _ hlast ih

/-- A law of the flow that every step of the flow and a pallet queued keep is kept by every step of the machine. -/
theorem step_keeps_flow {P : Flow → Prop} (hstep : ∀ f g, Flow.Step f g → P f → P g)
    (hqueued : ∀ f d p, f.pallets.length < 4 → P f → P (f.queued d p)) {t : State} (h : step s = .next t)
    (hs : P s.flow) : P t.flow := by
  refine step_keeps (P := fun s => P s.flow) (fun _ _ h => h) (fun s u hpiece hs => ?_)
    (fun _ _ h => Flow.Step.path_keeps hstep h.steps) h hs
  rcases hpiece.steps with hpath | ⟨p, hroom, hq⟩
  · exact Flow.Step.path_keeps hstep hpath hs
  · rw [hq]; exact hqueued _ _ p hroom hs

end Sys2Proof.Machine
end

section
/-! Where piles stand (R11, R59): each place holds the piles whose residency names it. -/

namespace Sys2Proof.Machine

/-! ### Places -/

/-- A place of a pile: a list, under the knife, or a station's current tag. -/
inductive Place where
  | lane (k : Lane)
  | under
  | job (st : Station)
  deriving DecidableEq

/-- How often a place names a tag. -/
def Flow.spots (f : Flow) (pl : Place) (t : Tag) : Nat :=
  match pl with
  | .lane k => (f.queue k).count t
  | .under => (decide (f.knifePile = some t)).toNat
  | .job st => (decide (f.tag st = some t)).toNat

/-- How often a place ought to name a tag in a residency, none where the tag is not in use. -/
def due (x : Option Residency) (pl : Place) : Nat :=
  match pl with
  | .lane k => (decide (x = some k.residency)).toNat
  | .under => (decide (x = some .atKnife ∨ x = some .knifeJob)).toNat
  | .job st => (decide (x = some (jobResidency st))).toNat

/-- The residency of a tag, none where it is not in use. -/
def Flow.residence (f : Flow) (t : Tag) : Option Residency := (f.pile t).map Pile.residency

/-- `State.PlaceInv` over the flow. -/
structure Flow.Placed (f : Flow) : Prop where
  spots : ∀ pl t, f.spots pl t = due (f.residence t) pl
  busy : ∀ st, f.busy st = (f.tag st).isSome

theorem State.resides_eq (s : State) (t : Tag) (r : Residency) :
    s.resides t r = decide (s.flow.residence t = some r) := by
  have hp : s.flow.residence t = (s.pile t).map Pile.residency := rfl
  unfold State.resides
  rw [hp]
  cases s.pile t <;> simp

theorem decide_toNat_eq_iff {p q : Prop} [Decidable p] [Decidable q] :
    (decide p).toNat = (decide q).toNat ↔ (p ↔ q) := by
  by_cases hp : p <;> by_cases hq : q <;> simp [hp, hq]

theorem State.placeInv_iff (s : State) : s.PlaceInv ↔ s.flow.Placed := by
  constructor
  · intro h
    refine ⟨fun pl t => ?_, h.busy⟩
    cases pl with
    | lane k =>
      cases k with
      | jog => exact (h.jog t).trans (congrArg Bool.toNat (s.resides_eq t _))
      | knife => exact (h.knife t).trans (congrArg Bool.toNat (s.resides_eq t _))
      | back => exact (h.lane t).trans (congrArg Bool.toNat (s.resides_eq t _))
      | turn => exact (h.turn t).trans (congrArg Bool.toNat (s.resides_eq t _))
      | stack => exact (h.stack t).trans (congrArg Bool.toNat (s.resides_eq t _))
    | under =>
      refine decide_toNat_eq_iff.2 ((h.under t).trans ?_)
      simp only [State.resides_eq, decide_eq_true_eq]
    | job st =>
      refine decide_toNat_eq_iff.2 ((h.job st t).trans ?_)
      simp only [State.resides_eq, decide_eq_true_eq]
  · intro h
    have hlane (k : Lane) : Holds s (s.flow.queue k) k.residency := fun t =>
      (h.spots (.lane k) t).trans (congrArg Bool.toNat (s.resides_eq t _).symm)
    refine ⟨hlane .jog, hlane .knife, hlane .back, hlane .turn, hlane .stack, fun t => ?_, fun st t => ?_, h.busy⟩
    · simp only [State.resides_eq, decide_eq_true_eq]
      exact decide_toNat_eq_iff.1 (h.spots .under t)
    · simp only [State.resides_eq, decide_eq_true_eq]
      exact decide_toNat_eq_iff.1 (h.spots (.job st) t)

/-! ### What each operation does to the places -/

namespace Flow
section
variable (f : Flow) (t u : Tag) (x : Option Pile) (k : Lane) (l : List Tag) (st : Station) (pl : Place)

theorem pile_setPile : (f.setPile t x).pile u = if u = t then x else f.pile u := by
  unfold pile setPile
  split
  · rename_i h; subst h; exact look_put_same _ _ _
  · rename_i h; exact look_put_other _ _ (Ne.symm h)

@[simp] theorem residence_setPile :
    (f.setPile t x).residence u = if u = t then x.map Pile.residency else f.residence u := by
  unfold residence
  rw [pile_setPile]
  split <;> rfl

@[simp] theorem spots_setPile : (f.setPile t x).spots pl u = f.spots pl u := by
  rcases pl with k | _ | _
  · cases k <;> rfl
  · rfl
  · rfl

theorem queue_setQueue (k' : Lane) : (f.setQueue k l).queue k' = if k' = k then l else f.queue k' := by
  cases k <;> cases k' <;> rfl

@[simp] theorem spots_setQueue :
    (f.setQueue k l).spots pl u = if pl = .lane k then l.count u else f.spots pl u := by
  rcases pl with k' | _ | st'
  · simp only [spots, queue_setQueue, Place.lane.injEq]
    split <;> rfl
  · cases k <;> rfl
  · cases k <;> rfl

@[simp] theorem residence_setQueue : (f.setQueue k l).residence u = f.residence u := by cases k <;> rfl
@[simp] theorem tag_setQueue : (f.setQueue k l).tag = f.tag := by cases k <;> rfl
@[simp] theorem busy_setQueue : (f.setQueue k l).busy = f.busy := by cases k <;> rfl

/-- The flow with another knife pile. -/
def under (f : Flow) (y : Option Tag) : Flow := { f with knifePile := y }

@[simp] theorem spots_under (y : Option Tag) :
    (f.under y).spots pl u = if pl = .under then (decide (y = some u)).toNat else f.spots pl u := by
  rcases pl with k | _ | _
  · cases k <;> rfl
  · rfl
  · rfl

@[simp] theorem spots_setCtx (b : Bool) (y : Option Tag) (j : Job) :
    (f.setCtx st b y j).spots pl u = if pl = .job st then (decide (y = some u)).toNat else f.spots pl u := by
  rcases pl with k | _ | st'
  · cases k <;> rfl
  · rfl
  · simp only [spots, setCtx, Place.job.injEq, Function.update_apply]
    split <;> rfl

end

/-- A flow whose lists, knife pile and current tags are another's names the same tags. -/
theorem spots_congr {f g : Flow} (hq : ∀ k, g.queue k = f.queue k) (hk : g.knifePile = f.knifePile)
    (ht : g.tag = f.tag) (pl : Place) (u : Tag) : g.spots pl u = f.spots pl u := by
  cases pl <;> simp only [spots, hq, hk, ht]

theorem finish_frame (f : Flow) (n : Nat) :
    f.finish n = { f with pallets := (f.finish n).pallets, useCounts := (f.finish n).useCounts } := by
  unfold finish
  split
  · rfl
  · split <;> rfl

/-- Freeing a record changes the piles, the pallets and the use counts. -/
theorem free_frame (f : Flow) (t : Tag) (account : Nat → Pallet → Pallet) :
    f.free t account = { f.setPile t none with
      pallets := (f.free t account).pallets, useCounts := (f.free t account).useCounts } := by
  unfold free
  split
  · rename_i hp
    have : f.setPile t none = f := by
      unfold setPile
      rw [show (none : Option Pile) = look f.piles t from hp.symm, put_look]
    rw [this]
  · rw [finish_frame]; rfl

end Flow

/-! ### Moves -/

/-- Only the tag `t` may stand elsewhere: what is to be shown of it and of the rest. -/
theorem Flow.Placed.move {f g : Flow} (hf : f.Placed) (t : Tag)
    (hres : ∀ u, u ≠ t → g.residence u = f.residence u)
    (hrest : ∀ u, u ≠ t → ∀ pl, g.spots pl u = f.spots pl u)
    (hmoved : ∀ pl, g.spots pl t = due (g.residence t) pl)
    (hbusy : ∀ st, g.busy st = (g.tag st).isSome) : g.Placed := by
  refine ⟨fun pl u => ?_, hbusy⟩
  by_cases h : u = t
  · subst h; exact hmoved pl
  · rw [hrest u h, hres u h, hf.spots]

/-! ### Residencies and their places -/

section
variable (k k' : Lane) (st st' : Station)

@[simp] theorem Lane.residency_inj : k.residency = k'.residency ↔ k = k' := by
  cases k <;> cases k' <;> decide
@[simp] theorem jobResidency_inj : jobResidency st = jobResidency st' ↔ st = st' := by
  cases st <;> cases st' <;> decide
@[simp] theorem Lane.residency_ne_job : k.residency ≠ jobResidency st := by cases k <;> cases st <;> decide
@[simp] theorem Lane.job_ne_residency : jobResidency st ≠ k.residency := (k.residency_ne_job st).symm
@[simp] theorem Lane.residency_ne_atKnife : k.residency ≠ .atKnife := by cases k <;> decide
@[simp] theorem Lane.residency_ne_knifeJob : k.residency ≠ .knifeJob := by cases k <;> decide
@[simp] theorem Lane.atKnife_ne_residency : .atKnife ≠ k.residency := by cases k <;> decide
@[simp] theorem Lane.knifeJob_ne_residency : .knifeJob ≠ k.residency := by cases k <;> decide
@[simp] theorem Lane.held_ne_residency : .held ≠ k.residency := by cases k <;> decide
@[simp] theorem jobResidency_ne_atKnife : jobResidency st ≠ .atKnife := by cases st <;> decide
@[simp] theorem atKnife_ne_jobResidency : .atKnife ≠ jobResidency st := by cases st <;> decide
@[simp] theorem held_ne_jobResidency : .held ≠ jobResidency st := by cases st <;> decide
@[simp] theorem jobResidency_eq_knifeJob : jobResidency st = .knifeJob ↔ st = .knife := by cases st <;> decide
@[simp] theorem knifeJob_eq_jobResidency : .knifeJob = jobResidency st ↔ .knife = st := by cases st <;> decide

end

/-- What a pile that is in no place is due. -/
theorem due_none (pl : Place) : due none pl = 0 := by cases pl <;> simp [due]

theorem due_held (pl : Place) : due (some .held) pl = 0 := by cases pl <;> simp [due]

theorem due_lane (k : Lane) (pl : Place) : due (some k.residency) pl = if pl = .lane k then 1 else 0 := by
  cases pl <;> simp [due, eq_comm, Bool.toNat]

theorem due_atKnife (pl : Place) : due (some .atKnife) pl = if pl = .under then 1 else 0 := by
  cases pl <;> simp [due]

theorem due_job {st : Station} (h : st ≠ .knife) (pl : Place) :
    due (some (jobResidency st)) pl = if pl = .job st then 1 else 0 := by
  cases pl <;> simp [due, h, eq_comm, Bool.toNat]

theorem due_knifeJob (pl : Place) :
    due (some .knifeJob) pl = if pl = .under ∨ pl = .job .knife then 1 else 0 := by
  cases pl <;> simp [due, Bool.toNat, eq_comm]

/-! ### What the places say of a tag -/

section
variable {f : Flow} {t : Tag}

theorem Flow.spots_job {st : Station} {y : Option Tag} (h : f.tag st = y) (u : Tag) :
    f.spots (.job st) u = (decide (y = some u)).toNat := by rw [spots, h]

theorem Flow.spots_knife {y : Option Tag} (h : f.knifePile = y) (u : Tag) :
    f.spots .under u = (decide (y = some u)).toNat := by rw [spots, h]

theorem Flow.spots_lane {k : Lane} {l : List Tag} (h : f.queue k = l) (u : Tag) :
    f.spots (.lane k) u = l.count u := by rw [spots, h]

theorem Flow.Placed.residence_of_tag (hf : f.Placed) {st : Station} (h : f.tag st = some t) :
    f.residence t = some (jobResidency st) := by
  have hspot := hf.spots (.job st) t
  rw [Flow.spots_job h] at hspot
  exact (decide_toNat_eq_iff.1 hspot).1 rfl

theorem Flow.Placed.tag_none (hf : f.Placed) {st : Station} (h : f.busy st = false) : f.tag st = none := by
  rw [hf.busy] at h
  exact Option.not_isSome_iff_eq_none.1 (by simp [h])

theorem Flow.Placed.residence_of_knife (hf : f.Placed) (h : f.knifePile = some t) (hb : f.busy .knife = false) :
    f.residence t = some .atKnife := by
  have hspot := hf.spots .under t
  rw [Flow.spots_knife h] at hspot
  rcases (decide_toNat_eq_iff.1 hspot).1 rfl with hr | hr
  · exact hr
  · have hjob := hf.spots (.job .knife) t
    rw [Flow.spots_job (hf.tag_none hb), hr] at hjob
    cases hjob

theorem Flow.Placed.residence_of_queue (hf : f.Placed) {k : Lane} {rest : List Tag}
    (h : f.queue k = t :: rest) : f.residence t = some k.residency ∧ rest.count t = 0 := by
  have hspot := hf.spots (.lane k) t
  rw [Flow.spots_lane h, List.count_cons_self] at hspot
  unfold due at hspot
  by_cases hr : f.residence t = some k.residency
  · simp only [hr, decide_true, Bool.toNat_true] at hspot
    exact ⟨hr, by omega⟩
  · simp [hr] at hspot

theorem Flow.residence_some {p : Pile} (h : f.pile t = some p) : f.residence t = some p.residency := by
  rw [residence, h]; rfl

/-- A tag in a residency has a record. -/
theorem Flow.pile_of_residence {r : Residency} (h : f.residence t = some r) :
    ∃ p, f.pile t = some p ∧ p.residency = r := Option.map_eq_some_iff.1 h

end

end Sys2Proof.Machine
end

section
/-! Every step of the flow keeps each pile in the place that its residency names. -/

namespace Sys2Proof.Machine

namespace Flow
section
variable {f g : Flow} {t : Tag}

/-- A change of pallets, use counts, reservations and the sequence counter moves no pile. -/
theorem Placed.congr (hf : f.Placed) (hp : g.piles = f.piles) (hq : ∀ k, g.queue k = f.queue k)
    (hk : g.knifePile = f.knifePile) (ht : g.tag = f.tag) (hb : g.busy = f.busy) : g.Placed := by
  refine ⟨fun pl u => ?_, fun st => ?_⟩
  · rw [spots_congr hq hk ht, hf.spots, residence, residence, pile, pile, hp]
  · rw [hb, ht, hf.busy]

theorem Placed.addUse (hf : f.Placed) (p : ProgNo) : (f.addUse p).Placed :=
  hf.congr rfl (fun k => by cases k <;> rfl) rfl rfl rfl

theorem Placed.modifyPallet (hf : f.Placed) (n : Nat) (h : Pallet → Pallet) : (f.modifyPallet n h).Placed :=
  hf.congr rfl (fun k => by cases k <;> rfl) rfl rfl rfl

theorem Placed.dropReservation (hf : f.Placed) : f.dropReservation.Placed :=
  hf.congr rfl (fun k => by cases k <;> rfl) rfl rfl rfl

theorem Placed.queued (hf : f.Placed) (d : Draft) (p : ProgNo) : (f.queued d p).Placed :=
  hf.congr rfl (fun k => by cases k <;> rfl) rfl rfl rfl

theorem Placed.finish (hf : f.Placed) (n : Nat) : (f.finish n).Placed := by
  rw [finish_frame]
  exact hf.congr rfl (fun k => by cases k <;> rfl) rfl rfl rfl

/-- A context with a job is BUSY under the job's tag, one without is IDLE. -/
theorem Placed.busy_setCtx (hf : f.Placed) (st : Station) (y : Option Tag) (j : Job) (st' : Station) :
    (f.setCtx st y.isSome y j).busy st' = ((f.setCtx st y.isSome y j).tag st').isSome := by
  simp only [setCtx, Function.update_apply]
  split
  · rfl
  · exact hf.busy st'

/-- The tag that a place names is the only one it names there. -/
theorem spots_job_other {st : Station} {u : Tag} (h : f.tag st = some t) (hu : u ≠ t) :
    f.spots (.job st) u = 0 := by
  rw [spots_job h]; simp [hu.symm]

theorem spots_knife_other {u : Tag} (h : f.knifePile = some t) (hu : u ≠ t) : f.spots .under u = 0 := by
  rw [spots_knife h]; simp [hu.symm]

end

section
variable (f : Flow) (u : Tag) (st : Station)

@[simp] theorem residence_setCtx (b : Bool) (y : Option Tag) (j : Job) :
    (f.setCtx st b y j).residence u = f.residence u := rfl
@[simp] theorem residence_under (y : Option Tag) : (f.under y).residence u = f.residence u := rfl
@[simp] theorem tag_setCtx_same (b : Bool) (y : Option Tag) (j : Job) : (f.setCtx st b y j).tag st = y :=
  Function.update_self _ _ _

/-- The knife pile after a pile has left a station. -/
theorem leave_eq : f.leave st = f.under (if st = .knife then none else f.knifePile) := rfl

theorem endJob_eq : f.endJob st = f.setCtx st (none : Option Tag).isSome none (f.job st) := rfl

theorem issue_eq (t : Tag) (j : Job) : f.issue st t j = f.setCtx st (some t).isSome (some t) j := rfl

end

section
variable {f : Flow} {t : Tag} {p : Pile} {k : Lane} {rest l : List Tag} {st : Station}

/-- A job issued at the lift for a tag not in use. -/
theorem Placed.lifted (hf : f.Placed) (hb : f.busy .lift = false) (hp : f.pile t = none)
    (hr : p.residency = .lifting) (j : Job) : ((f.setPile t (some p)).issue .lift t j).Placed := by
  have ht := hf.tag_none hb
  rw [issue_eq]
  refine hf.move t (fun u hu => by simp [hu]) (fun u hu pl => ?_) (fun pl => ?_) (hf.busy_setCtx .lift (some t) j)
  · rw [spots_setCtx, spots_setPile]
    split
    · rename_i h; subst h; rw [spots_job ht]; simp [hu.symm]
    · rfl
  · rw [spots_setCtx, spots_setPile, hf.spots, residence, hp]
    simp only [residence_setCtx, residence_setPile, if_true, Option.map_some, hr]
    rw [show Residency.lifting = jobResidency .lift from rfl, due_job (by decide)]
    simp [due_none]

/-- The head of a queue taken as a station's job. -/
theorem Placed.taken (hf : f.Placed) (hk : st ≠ .knife) (hb : f.busy st = false) (hq : f.queue k = t :: rest)
    (hr : p.residency = jobResidency st) (j : Job) :
    (((f.setQueue k rest).setPile t (some p)).issue st t j).Placed := by
  have ht := hf.tag_none hb
  obtain ⟨hres, hcount⟩ := hf.residence_of_queue hq
  have hbusy : ((f.setQueue k rest).setPile t (some p)).busy = f.busy := busy_setQueue f k rest
  rw [issue_eq]
  refine hf.move t (fun u hu => by simp [hu]) (fun u hu pl => ?_) (fun pl => ?_) (fun st' => ?_)
  · rw [spots_setCtx, spots_setPile, spots_setQueue]
    split
    · rename_i h; subst h; rw [spots_job ht]; simp [hu.symm]
    · split
      · rename_i h; subst h; rw [spots_lane hq, List.count_cons_of_ne hu.symm]
      · rfl
  · rw [spots_setCtx, spots_setPile, spots_setQueue, hf.spots, hres, hcount, due_lane]
    simp only [residence_setCtx, residence_setPile, if_true, Option.map_some, hr]
    rw [due_job hk]
    cases pl <;> simp
  · simp only [setCtx, Function.update_apply]
    split
    · rfl
    · exact (congrFun hbusy st').trans ((hf.busy st').trans (by simp [setPile]))

/-- A pile from a queue put under the knife. -/
theorem Placed.placed (hf : f.Placed) (hk : f.knifePile = none) (hq : f.queue k = t :: rest) (g : Pile → Pile)
    (hg : ∀ p, (g p).residency = .atKnife) :
    (((f.setQueue k rest).setPile t ((f.pile t).map g)).under (some t)).Placed := by
  obtain ⟨hres, hcount⟩ := hf.residence_of_queue hq
  obtain ⟨p, hp, _⟩ := pile_of_residence hres
  refine hf.move t (fun u hu => by simp [hu]) (fun u hu pl => ?_) (fun pl => ?_) (fun st' => ?_)
  · rw [spots_under, spots_setPile, spots_setQueue]
    split
    · rename_i h; subst h; rw [spots_knife hk]; simp [hu.symm]
    · split
      · rename_i h; subst h; rw [spots_lane hq, List.count_cons_of_ne hu.symm]
      · rfl
  · rw [spots_under, spots_setPile, spots_setQueue, hf.spots, hres, hcount, due_lane]
    simp only [residence_under, residence_setPile, if_true, hp, Option.map_some, hg]
    rw [due_atKnife]
    cases pl <;> simp
  · exact (congrFun (busy_setQueue f k rest) st').trans ((hf.busy st').trans (by simp [under, setPile]))

/-- The knife pile held while the knife is IDLE. -/
theorem Placed.knifeHeld (hf : f.Placed) (hb : f.busy .knife = false) (hk : f.knifePile = some t)
    (hr : p.residency = .held) : ((f.setPile t (some p)).under none).Placed := by
  have hres := hf.residence_of_knife hk hb
  refine hf.move t (fun u hu => by simp [hu]) (fun u hu pl => ?_) (fun pl => ?_) hf.busy
  · rw [spots_under, spots_setPile]
    split
    · rename_i h; subst h; rw [spots_knife_other hk hu]; simp
    · rfl
  · rw [spots_under, spots_setPile, hf.spots, hres, due_atKnife]
    simp [hr, due_held]

/-- A knife job issued for the knife pile. -/
theorem Placed.knifeIssued (hf : f.Placed) (hb : f.busy .knife = false) (hk : f.knifePile = some t)
    (hr : p.residency = .knifeJob) (j : Job) : ((f.setPile t (some p)).issue .knife t j).Placed := by
  have ht := hf.tag_none hb
  have hres := hf.residence_of_knife hk hb
  rw [issue_eq]
  refine hf.move t (fun u hu => by simp [hu]) (fun u hu pl => ?_) (fun pl => ?_) (hf.busy_setCtx .knife (some t) j)
  · rw [spots_setCtx, spots_setPile]
    split
    · rename_i h; subst h; rw [spots_job ht]; simp [hu.symm]
    · rfl
  · rw [spots_setCtx, spots_setPile, hf.spots, hres, due_atKnife]
    simp only [residence_setCtx, residence_setPile, if_true, Option.map_some, hr]
    rw [due_knifeJob]
    cases pl <;> simp

/-- What the places say of a pile whose job ends: its job's place and, at the knife, the knife pile name it, and
no list. -/
theorem Placed.jobSpots (hf : f.Placed) (ht : f.tag st = some t) (pl : Place) :
    f.spots pl t = if pl = .job st ∨ st = .knife ∧ pl = .under then 1 else 0 := by
  rw [hf.spots, hf.residence_of_tag ht]
  by_cases hk : st = .knife
  · subst hk
    rw [show jobResidency .knife = .knifeJob from rfl, due_knifeJob]
    simp [or_comm]
  · rw [due_job hk]; simp [hk]

theorem Placed.knife_of_tag (hf : f.Placed) (ht : f.tag .knife = some t) : f.knifePile = some t := by
  have := hf.jobSpots ht .under
  rw [Flow.spots] at this
  simpa using this

/-- A job that ends: its pile is in the list, or in no place. -/
theorem Placed.jobLeft (hf : f.Placed) (ht : f.tag st = some t) (x : Option Pile) {g : Flow}
    (hpile : g.piles = (f.setPile t x).piles) (hknife : g.knifePile = f.knifePile) (htag : g.tag = f.tag)
    (hbusy : g.busy = f.busy) (hqueue : ∀ u, u ≠ t → ∀ k, (g.queue k).count u = (f.queue k).count u)
    (hdue : ∀ k, (g.queue k).count t = due (x.map Pile.residency) (.lane k))
    (hjob : ∀ st, x.map Pile.residency ≠ some (jobResidency st)) (hnot : x.map Pile.residency ≠ some .atKnife) :
    ((g.leave st).endJob st).Placed := by
  have hres (u : Tag) : g.residence u = (f.setPile t x).residence u := by rw [residence, residence, pile, pile, hpile]
  rw [endJob_eq, leave_eq, hknife]
  refine hf.move t (fun u hu => by simp [hres, hu]) (fun u hu pl => ?_) (fun pl => ?_) (fun st' => ?_)
  · rw [spots_setCtx, spots_under]
    split
    · rename_i h; subst h; rw [spots_job_other ht hu]; simp
    · split
      · rename_i h
        subst h
        split
        · rename_i hst; subst hst; rw [spots_knife_other (hf.knife_of_tag ht) hu]; simp
        · rfl
      · rcases pl with k | _ | st'
        · exact hqueue u hu k
        · contradiction
        · rw [Flow.spots, htag]; rfl
  · rw [spots_setCtx, spots_under, residence_setCtx, residence_under, hres, residence_setPile, if_pos rfl]
    rcases pl with k | _ | st'
    · exact hdue k
    · have hspot := hf.jobSpots ht .under
      have hnotJob := hjob .knife
      rw [Flow.spots] at hspot
      simp only [due, hnot, hnotJob, show Residency.knifeJob = jobResidency .knife from rfl, or_self, decide_false,
        reduceCtorEq, if_false, if_true]
      by_cases hst : st = .knife
      · simp [hst]
      · simpa [hst] using hspot
    · have hspot := hf.jobSpots ht (.job st')
      simp only [due, hjob st', decide_false, Place.job.injEq]
      split
      · simp
      · rename_i hst
        rw [if_neg (by simp), Flow.spots, htag]
        rw [Flow.spots] at hspot
        simpa [hst] using hspot
  · simp only [setCtx, Function.update_apply]
    split
    · rfl
    · exact (congrFun hbusy st').trans ((hf.busy st').trans (by rw [← htag]; rfl))

theorem Placed.jobQueued (hf : f.Placed) (ht : f.tag st = some t) {g : Pile → Pile}
    (hg : ∀ p, (g p).residency = k.residency) (hl : l.Perm (t :: f.queue k)) :
    ((((f.setPile t ((f.pile t).map g)).setQueue k l).leave st).endJob st).Placed := by
  obtain ⟨p, hp, _⟩ := pile_of_residence (hf.residence_of_tag ht)
  have hx : ((f.pile t).map g).map Pile.residency = some k.residency := by rw [hp]; exact congrArg some (hg p)
  refine hf.jobLeft ht ((f.pile t).map g) ?_ ?_ (tag_setQueue _ _ _) (busy_setQueue _ _ _) (fun u hu k' => ?_)
    (fun k' => ?_) (fun st' => by simp [hx]) (by simp [hx])
  · cases k <;> rfl
  · cases k <;> rfl
  · rw [queue_setQueue]
    split
    · rename_i h; subst h; rw [hl.count_eq, List.count_cons_of_ne hu.symm]
    · cases k' <;> rfl
  · rw [queue_setQueue, hx, due_lane]
    have hspot := hf.jobSpots ht (.lane k')
    rw [Flow.spots, if_neg (by simp)] at hspot
    split
    · rename_i h; subst h; rw [hl.count_eq, List.count_cons_self, hspot]; simp
    · rename_i h
      simp only [Place.lane.injEq, h, if_false]
      exact Eq.trans (by cases k' <;> rfl) hspot

/-- A job that ends with its pile held or freed. -/
theorem Placed.jobOut (hf : f.Placed) (ht : f.tag st = some t) {x : Option Pile}
    (hx : x.map Pile.residency = none ∨ x.map Pile.residency = some .held) {g : Flow}
    (hpile : g.piles = (f.setPile t x).piles) (hqueue : ∀ k, g.queue k = f.queue k)
    (hknife : g.knifePile = f.knifePile) (htag : g.tag = f.tag) (hbusy : g.busy = f.busy) :
    ((g.leave st).endJob st).Placed := by
  refine hf.jobLeft ht x hpile hknife htag hbusy (fun u _ k => by rw [hqueue]) (fun k => ?_)
    (fun st' => ?_) ?_
  · have hspot := hf.jobSpots ht (.lane k)
    rw [Flow.spots, if_neg (by simp)] at hspot
    rw [hqueue, hspot]
    rcases hx with hx | hx <;> rw [hx] <;> simp [due_none, due_held]
  · rcases hx with hx | hx <;> rw [hx] <;> simp
  · rcases hx with hx | hx <;> rw [hx] <;> simp

theorem Placed.jobHeld (hf : f.Placed) (ht : f.tag st = some t) (r : HoldReason) :
    ((((f.setPile t ((f.pile t).map (heldRecord f st r))).leave st).release st).endJob st).Placed := by
  have hx : ((f.pile t).map (heldRecord f st r)).map Pile.residency = none ∨
      ((f.pile t).map (heldRecord f st r)).map Pile.residency = some .held := by
    cases f.pile t
    · exact .inl rfl
    · exact .inr rfl
  exact hf.jobOut (g := (f.setPile t ((f.pile t).map (heldRecord f st r))).release st) ht hx rfl
    (fun k => by cases k <;> rfl) rfl rfl rfl

theorem Placed.jobFreed (hf : f.Placed) (ht : f.tag st = some t) (account : Nat → Pallet → Pallet) :
    (((f.free t account).leave st).endJob st).Placed := by
  rw [free_frame]
  exact hf.jobOut ht (x := none) (.inl rfl) rfl (fun k => by cases k <;> rfl) rfl rfl rfl

theorem Placed.rejogged (hf : f.Placed) (hb : f.busy st = true) (ht : f.tag st = some t) {q : Pile}
    (hp : f.pile t = some p) (hq : q.residency = p.residency) (j : Job) :
    ((f.setPile t (some q)).issue st t j).Placed := by
  rw [issue_eq]
  have htag : ((f.setPile t (some q)).setCtx st (some t).isSome (some t) j).tag = f.tag :=
    (congrArg (Function.update f.tag st) ht.symm).trans (Function.update_eq_self _ _)
  have hbusy : ((f.setPile t (some q)).setCtx st (some t).isSome (some t) j).busy = f.busy :=
    (congrArg (Function.update f.busy st) hb.symm).trans (Function.update_eq_self _ _)
  refine ⟨fun pl u => ?_, fun st => by rw [hbusy, htag]; exact hf.busy st⟩
  have hspots : ((f.setPile t (some q)).setCtx st (some t).isSome (some t) j).spots pl u = f.spots pl u :=
    spots_congr (g := (f.setPile t (some q)).setCtx st (some t).isSome (some t) j) (f := f)
      (fun k => by cases k <;> rfl) rfl htag pl u
  rw [hspots, hf.spots, residence_setCtx, residence_setPile]
  split
  · rename_i h; subst h; rw [residence_some hp, Option.map_some, hq]
  · rfl

/-- A knife job that ends with its pile under the knife. -/
theorem Placed.knifeEnded (hf : f.Placed) (ht : f.tag .knife = some t) {x : Option Pile}
    (hx : x.map Pile.residency = some .atKnife) : ((f.setPile t x).endJob .knife).Placed := by
  rw [endJob_eq]
  refine hf.move t (fun u hu => by simp [hu]) (fun u hu pl => ?_) (fun pl => ?_)
    (hf.busy_setCtx .knife none ((f.setPile t x).job .knife))
  · rw [spots_setCtx, spots_setPile]
    split
    · rename_i h; subst h; rw [spots_job_other ht hu]; simp
    · rfl
  · rw [spots_setCtx, spots_setPile, hf.jobSpots ht]
    simp only [residence_setCtx, residence_setPile, if_true, hx]
    rw [due_atKnife]
    cases pl <;> simp

/-- A kept offcut put on the Return Stack. -/
theorem Placed.childStacked (hf : f.Placed) (hp : f.pile t = none) (hr : p.residency = .stacked) :
    ((f.setPile t (some p)).setQueue .stack (t :: f.returnStack)).Placed := by
  have hnone : f.residence t = none := by rw [residence, hp]; rfl
  have hcount : f.returnStack.count t = 0 := by
    have := hf.spots (.lane .stack) t
    rwa [hnone, due_none] at this
  refine hf.move t (fun u hu => by simp [hu]) (fun u hu pl => ?_) (fun pl => ?_) hf.busy
  · rw [spots_setQueue, spots_setPile]
    split
    · rename_i h; subst h; rw [List.count_cons_of_ne hu.symm]; rfl
    · rfl
  · rw [spots_setQueue, spots_setPile, hf.spots, hnone, due_none, List.count_cons_self, hcount]
    simp only [residence_setQueue, residence_setPile, if_true, Option.map_some, hr]
    rw [show Residency.stacked = Lane.residency .stack from rfl, due_lane]

theorem Placed.idled (hf : f.Placed) (ht : f.tag st = none) : (f.endJob st).Placed := by
  rw [endJob_eq]
  refine ⟨fun pl u => ?_, hf.busy_setCtx st none _⟩
  rw [spots_setCtx, residence_setCtx, ← hf.spots]
  split
  · rename_i h; subst h; rw [spots_job ht]
  · rfl

/-- A held pile put back into a list. -/
theorem Placed.putBack (hf : f.Placed) {q : Pile} (hq : f.pile t = some q) (hh : q.residency = .held)
    (hr : p.residency = k.residency) : ((f.setPile t (some p)).setQueue k (f.queue k ++ [t])).Placed := by
  have hheld : f.residence t = some .held := by rw [residence_some hq, hh]
  have hcount : (f.queue k).count t = 0 := by
    have := hf.spots (.lane k) t
    rwa [hheld, due_held] at this
  refine hf.move t (fun u hu => by simp [hu]) (fun u hu pl => ?_) (fun pl => ?_) (fun st' => ?_)
  · rw [spots_setQueue, spots_setPile]
    split
    · rename_i h; subst h; simp [Flow.spots, hu.symm]
    · rfl
  · rw [spots_setQueue, spots_setPile, hf.spots, hheld, due_held, List.count_append, hcount]
    simp only [residence_setQueue, residence_setPile, if_true, Option.map_some, hr]
    rw [due_lane]
    simp
  · rw [busy_setQueue, tag_setQueue]; exact hf.busy st'

/-- A held pile's record freed. -/
theorem Placed.discarded (hf : f.Placed) {q : Pile} (hq : f.pile t = some q) (hh : q.residency = .held)
    (account : Nat → Pallet → Pallet) : (f.free t account).Placed := by
  have hheld : f.residence t = some .held := by rw [residence_some hq, hh]
  have hset : (f.setPile t none).Placed := by
    refine hf.move t (fun u hu => by simp [hu]) (fun u hu pl => by rw [spots_setPile]) (fun pl => ?_) hf.busy
    rw [spots_setPile, hf.spots, hheld, due_held, residence_setPile, if_pos rfl, Option.map_none, due_none]
  rw [free_frame]
  exact hset.congr rfl (fun k => by cases k <;> rfl) rfl rfl rfl

theorem Placed.cleared (f : Flow) : f.clear.Placed := by
  refine ⟨fun pl u => ?_, fun _ => rfl⟩
  have hres : f.clear.residence u = none := by simp [residence, pile, clear]
  rw [hres, due_none]
  rcases pl with k | _ | _
  · cases k <;> rfl
  · rfl
  · rfl

end
end Flow

/-- Every step of the flow keeps the places. -/
theorem Flow.Step.keepsPlaces {f g : Flow} (h : Flow.Step f g) (hf : f.Placed) : g.Placed := by
  cases h with
  | @lifted q n t j _ _ _ hb hp =>
    exact ((hf.modifyPallet q.seq (accountLifted n)).lifted (p := liftedPile q n) hb hp rfl j).congr rfl
      (fun k => by cases k <;> rfl) rfl rfl rfl
  | @taken st k t rest p j hst hb hq hp =>
    exact hf.taken (by rcases hst with ⟨rfl, _⟩ | ⟨rfl, _⟩ <;> decide) hb hq rfl j
  | placed _ hk hq => exact hf.placed hk hq _ fun _ => rfl
  | knifeHeld r hb hk hp => exact hf.knifeHeld hb hk rfl
  | @knifeIssued t p p' j hb hk hp _ hr _ =>
    exact (hf.knifeIssued hb hk hr (.knife j)).congr rfl (fun k => by cases k <;> rfl) rfl rfl rfl
  | jobQueued ht hg _ hl _ => exact hf.jobQueued ht (fun p => (hg p).2) hl
  | jobHeld r ht => exact hf.jobHeld ht r
  | @rejogged t p n j hb ht hp => exact hf.rejogged (q := { p with attempt := n }) hb ht hp rfl j
  | cutWasted ht hp _ hr _ => exact hf.knifeEnded ht (congrArg some hr)
  | @cutKept t child p p' c ht hp _ hr _ hc _ hcr =>
    exact ((((hf.childStacked hc hcr).addUse p.program).modifyPallet p.pallet _).dropReservation).knifeEnded ht
      (congrArg some hr)
  | @knifeAborted t g ht hg =>
    obtain ⟨p, hp, _⟩ := Flow.pile_of_residence (hf.residence_of_tag ht)
    refine (hf.knifeEnded (x := (f.pile t).map g) ht ?_).congr rfl (fun k => by cases k <;> rfl) rfl rfl rfl
    rw [hp]; exact congrArg some (hg p).2
  | jobFreed ht _ => exact hf.jobFreed ht _
  | idled ht => exact hf.idled ht
  | putBack hp hh _ hr _ => exact hf.putBack hp hh hr
  | discarded hp hh _ => exact hf.discarded hp hh _
  | palletCancelled n => exact (hf.modifyPallet n _).finish n
  | cleared => exact .cleared f

/-- Settles O13: each step of the flow moves one pile, or a pile and its kept offcut, and the places follow. -/
theorem pilesStayInTheirPlaces : Obligations.PilesStayInTheirPlaces := by
  intro s t hs h
  rw [State.placeInv_iff] at hs ⊢
  exact step_keeps_flow (P := Flow.Placed) (fun _ _ hstep hf => hstep.keepsPlaces hf)
    (fun f d p _ hf => hf.queued d p) h hs

end Sys2Proof.Machine
end

section
/-! Reservations (R13, R15, R16): the two counts follow the KEEP cut in flight, and what is reserved has room. -/

namespace Sys2Proof.Machine

namespace Flow

/-! ### Counts over the Pile Table -/

/-- A number summed over the tags. -/
def total (f : Flow) (h : Option Pile → Nat) : Nat := (allTags.map fun t => h (f.pile t)).sum

/-- One record written changes a total by its own share. -/
theorem total_setPile (f : Flow) (t : Tag) (x : Option Pile) (h : Option Pile → Nat) :
    (f.setPile t x).total h + h (f.pile t) = f.total h + h x := by
  have key (g : Flow) : g.total h = h (g.pile t) + ∑ u ∈ Finset.univ.erase t, h (g.pile u) := by
    rw [Finset.add_sum_erase _ (fun u => h (g.pile u)) (Finset.mem_univ t), Fin.sum_univ_def]
    rfl
  have hrest : ∑ u ∈ Finset.univ.erase t, h ((f.setPile t x).pile u) =
      ∑ u ∈ Finset.univ.erase t, h (f.pile u) :=
    Finset.sum_congr rfl fun u hu => by rw [pile_setPile, if_neg (Finset.ne_of_mem_erase hu)]
  rw [key, key f, hrest, pile_setPile, if_pos rfl]
  omega

theorem length_filter_eq_sum {α : Type} (p : α → Bool) (l : List α) :
    (l.filter p).length = (l.map fun a => (p a).toNat).sum := by
  induction l with
  | nil => rfl
  | cons a l ih =>
    rw [List.filter_cons, List.map_cons, List.sum_cons, ← ih]
    cases p a <;> simp [Nat.add_comm]

theorem inUse_eq (f : Flow) : f.inUse = f.total fun x => x.isSome.toNat := length_filter_eq_sum _ _

theorem inUse_setPile (f : Flow) (t : Tag) (x : Option Pile) :
    (f.setPile t x).inUse + (f.pile t).isSome.toNat = f.inUse + x.isSome.toNat := by
  rw [inUse_eq, inUse_eq]
  exact total_setPile f t x _

/-- A record written over one in use. -/
theorem inUse_setPile_some {f : Flow} {t : Tag} {p : Pile} (h : f.pile t = some p) (p' : Pile) :
    (f.setPile t (some p')).inUse = f.inUse := by
  have := inUse_setPile f t (some p')
  rw [h] at this
  exact Nat.add_right_cancel this

theorem inUse_setPile_map (f : Flow) (t : Tag) (g : Pile → Pile) :
    (f.setPile t ((f.pile t).map g)).inUse = f.inUse := by
  have := inUse_setPile f t ((f.pile t).map g)
  rw [Option.isSome_map] at this
  exact Nat.add_right_cancel this

theorem inUse_setPile_new {f : Flow} {t : Tag} (h : f.pile t = none) (p : Pile) :
    (f.setPile t (some p)).inUse = f.inUse + 1 := by
  have := inUse_setPile f t (some p)
  rw [h] at this
  exact this

theorem inUse_setPile_none (f : Flow) (t : Tag) : (f.setPile t none).inUse ≤ f.inUse := by
  have := inUse_setPile f t none
  simp only [Option.isSome_none, Bool.toNat_false] at this
  omega

/-! ### The law -/

/-- `State.ReserveInv` over the flow. -/
structure Reserved (f : Flow) : Prop where
  records : f.reservedRecords = f.keeps.toNat
  slots : f.reservedSlots = f.keeps.toNat
  stack : f.returnStack.length + f.reservedSlots ≤ 12
  room : f.inUse + f.reservedRecords ≤ 32

end Flow

theorem State.keepInFlight_eq (s : State) : s.keepInFlight = s.flow.keeps := by
  have hb : s.flow.busy .knife = (s.ctx .knife).busy := rfl
  have hj : s.flow.job .knife = (s.ctx .knife).job := rfl
  unfold State.keepInFlight Flow.keeps State.knifeJob
  rw [hb, hj]
  cases (s.ctx .knife).job <;> rfl

theorem State.reserveInv_iff (s : State) : s.ReserveInv ↔ s.flow.Reserved :=
  ⟨fun h => ⟨h.records.trans (by rw [s.keepInFlight_eq]), h.slots.trans (by rw [s.keepInFlight_eq]), h.stack, h.room⟩,
    fun h => ⟨h.records.trans (by rw [s.keepInFlight_eq]), h.slots.trans (by rw [s.keepInFlight_eq]), h.stack, h.room⟩⟩

namespace Flow
section
variable {f g : Flow}

/-- A change that leaves the knife's job and the reservation, and fills neither the stack nor the Pile Table. -/
theorem Reserved.mono (hf : f.Reserved) (hk : g.keeps = f.keeps) (hr : g.reservedRecords = f.reservedRecords)
    (hs : g.reservedSlots = f.reservedSlots) (hl : g.returnStack.length ≤ f.returnStack.length)
    (hu : g.inUse ≤ f.inUse) : g.Reserved := by
  obtain ⟨hrec, hslot, hstack, hroom⟩ := hf
  exact ⟨by rw [hr, hk, hrec], by rw [hs, hk, hslot], by omega, by omega⟩

/-- With no KEEP cut in flight nothing is reserved. -/
theorem Reserved.idle (hk : g.keeps = false) (hr : g.reservedRecords = 0) (hs : g.reservedSlots = 0)
    (hl : g.returnStack.length ≤ 12) (hu : g.inUse ≤ 32) : g.Reserved := by
  exact ⟨by rw [hr, hk]; rfl, by rw [hs, hk]; rfl, by omega, by omega⟩

theorem keeps_of_idle (h : f.busy .knife = false) : f.keeps = false := by rw [keeps, h]; rfl

theorem keeps_setCtx_other {st : Station} (h : st ≠ .knife) (b : Bool) (y : Option Tag) (j : Job) :
    (f.setCtx st b y j).keeps = f.keeps := by
  simp only [keeps, setCtx, Function.update_of_ne h.symm]

theorem keeps_endJob_knife : (f.endJob .knife).keeps = false :=
  keeps_of_idle (by simp only [endJob, setCtx, Function.update_self])

/-- A job that ends, with no KEEP cut in flight or not at the knife. -/
theorem Reserved.ended (hf : f.Reserved) {st : Station} (hst : st = .knife → f.keeps = false)
    (hk : g.keeps = f.keeps) (hr : g.reservedRecords = f.reservedRecords)
    (hs : g.reservedSlots = f.reservedSlots) (hl : g.returnStack.length ≤ f.returnStack.length)
    (hu : g.inUse ≤ f.inUse) : (g.endJob st).Reserved := by
  refine hf.mono ?_ hr hs hl hu
  by_cases h : st = .knife
  · subst h; rw [hst rfl]; exact keeps_endJob_knife
  · exact (keeps_setCtx_other h _ _ _).trans hk

end
end Flow

/-- Every step of the flow that keeps the places keeps the reservations. -/
theorem Flow.Step.keepsReservations {f g : Flow} (h : Flow.Step f g) (hp : f.Placed) (hf : f.Reserved) :
    g.Reserved := by
  obtain ⟨hrec, hslot, hstack, hroom⟩ := id hf
  cases h with
  | @lifted q n t j _ _ hfree hb ht =>
    have huse : ((((f.modifyPallet q.seq (accountLifted n)).setPile t (some (liftedPile q n))).addUse
        q.program).issue .lift t j).inUse = f.inUse + 1 := Flow.inUse_setPile_new (f := f.modifyPallet q.seq _) ht _
    have hk : ((((f.modifyPallet q.seq (accountLifted n)).setPile t (some (liftedPile q n))).addUse
        q.program).issue .lift t j).keeps = f.keeps := Flow.keeps_setCtx_other (by decide) _ _ _
    refine ⟨hrec.trans (by rw [hk]), hslot.trans (by rw [hk]), hstack, ?_⟩
    unfold Flow.freeRecords at hfree
    rw [huse]
    show f.inUse + 1 + f.reservedRecords ≤ 32
    omega
  | @taken st k t rest p j hst hb hq ht =>
    have hst' : st ≠ .knife := by rcases hst with ⟨rfl, _⟩ | ⟨rfl, _⟩ <;> decide
    have hset : (f.setQueue k rest).keeps = f.keeps := by cases k <;> rfl
    have hlen : (f.setQueue k rest).returnStack = f.returnStack := by
      rcases hst with ⟨_, rfl⟩ | ⟨_, rfl⟩ <;> rfl
    have hpile : (f.setQueue k rest).pile t = some p := by cases k <;> exact ht
    refine hf.mono ((Flow.keeps_setCtx_other hst' _ _ _).trans hset) ?_ ?_ (le_of_eq (congrArg List.length hlen)) ?_
    · cases k <;> rfl
    · cases k <;> rfl
    · refine le_of_eq ((Flow.inUse_setPile_some hpile _).trans ?_)
      cases k <;> rfl
  | @placed k t rest hk hn hq =>
    refine hf.mono ?_ ?_ ?_ ?_ ?_
    · cases k <;> rfl
    · cases k <;> rfl
    · cases k <;> rfl
    · cases k with
      | stack =>
        have hq' : f.returnStack = t :: rest := hq
        rw [hq']; exact Nat.le_succ _
      | jog | knife | back | turn => exact le_rfl
    · have huse := Flow.inUse_setPile_map (f.setQueue k rest) t fun p => { p with residency := .atKnife, started := true }
      have hpile : (f.setQueue k rest).pile t = f.pile t := by cases k <;> rfl
      rw [hpile] at huse
      refine le_of_eq (huse.trans ?_)
      cases k <;> rfl
  | knifeHeld r hb hk ht =>
    exact hf.mono rfl rfl rfl le_rfl (le_of_eq (Flow.inUse_setPile_some ht _))
  | @knifeIssued t p p' j hb hk ht _ _ hroom' =>
    have hidle := Flow.keeps_of_idle hb
    have huse := Flow.inUse_setPile_some ht p'
    unfold Flow.freeRecords Flow.freeSlots at hroom'
    rw [hidle] at hrec hslot
    have hkeeps (x : Flow) : (x.issue .knife t (.knife j)).keeps = j.keeps := by
      simp only [Flow.keeps, Flow.issue, Flow.setCtx, Function.update_self, Bool.true_and]
    have hj := hkeeps { f.setPile t (some p') with
      reservedRecords := if j.keeps then 1 else f.reservedRecords
      reservedSlots := if j.keeps then 1 else f.reservedSlots }
    cases hjk : j.keeps with
    | false =>
      rw [hjk] at hj
      exact .idle hj hrec hslot (by show f.returnStack.length ≤ 12; omega) (by
        refine le_trans (le_of_eq huse) ?_
        omega)
    | true =>
      rw [hjk] at hj
      obtain ⟨h1, h2⟩ := hroom' hjk
      refine ⟨by rw [hj]; rfl, by rw [hj]; rfl, ?_, ?_⟩
      · show f.returnStack.length + 1 ≤ 12; omega
      · show (f.setPile t (some p')).inUse + 1 ≤ 32; omega
  | @jobQueued st k t g l ht _ hk _ hst =>
    refine hf.ended hst ?_ ?_ ?_ ?_ ?_
    · cases k <;> rfl
    · cases k <;> rfl
    · cases k <;> rfl
    · cases k with
      | stack => exact absurd rfl hk
      | jog | knife | back | turn => exact le_rfl
    · refine le_of_eq (Eq.trans ?_ (Flow.inUse_setPile_map f t g))
      cases k <;> rfl
  | @jobHeld st t r ht =>
    have huse := Flow.inUse_setPile_map f t (heldRecord f st r)
    by_cases hst : st = .knife
    · subst hst
      exact .idle Flow.keeps_endJob_knife rfl rfl (by show f.returnStack.length ≤ 12; omega) (by
        refine le_trans (le_of_eq huse) ?_
        omega)
    · refine hf.ended (fun h => absurd h hst) rfl ?_ ?_ le_rfl (le_of_eq huse)
      · exact if_neg hst
      · exact if_neg hst
  | rejogged hb ht hp =>
    exact hf.mono (Flow.keeps_setCtx_other (by decide) _ _ _) rfl rfl le_rfl (le_of_eq (Flow.inUse_setPile_some hp _))
  | cutWasted ht hp _ _ hk =>
    exact hf.ended (fun _ => hk) rfl rfl rfl le_rfl (le_of_eq (Flow.inUse_setPile_some hp _))
  | @cutKept t child p p' c ht htp _ _ hk hc _ _ =>
    rw [hk] at hrec hslot
    have hne : t ≠ child := by intro h; subst h; rw [htp] at hc; cases hc
    have hpile : (f.setPile child (some c)).pile t = some p := by rw [Flow.pile_setPile, if_neg hne, htp]
    have huse : ((f.setPile child (some c)).setPile t (some p')).inUse = f.inUse + 1 :=
      (Flow.inUse_setPile_some hpile p').trans (Flow.inUse_setPile_new hc c)
    refine .idle Flow.keeps_endJob_knife rfl rfl ?_ ?_
    · show (child :: f.returnStack).length ≤ 12
      simp only [List.length_cons, Bool.toNat_true] at *
      omega
    · refine le_trans (le_of_eq huse) ?_
      simp only [Bool.toNat_true] at hrec
      omega
  | knifeAborted ht hg =>
    exact .idle Flow.keeps_endJob_knife rfl rfl (by show f.returnStack.length ≤ 12; omega) (by
      refine le_trans (le_of_eq (Flow.inUse_setPile_map f _ _)) ?_
      omega)
  | @jobFreed st t account ht hst =>
    rw [Flow.free_frame]
    refine hf.ended (st := st) ?_ rfl rfl rfl le_rfl (Flow.inUse_setPile_none f t)
    rcases hst with ⟨_, _, hk⟩ | ⟨rfl, _⟩
    · exact fun _ => hk
    · intro h; cases h
  | @idled st ht =>
    refine hf.ended (fun h => ?_) rfl rfl rfl le_rfl le_rfl
    subst h
    exact Flow.keeps_of_idle (by rw [hp.busy, ht]; rfl)
  | @putBack k t p p' ht _ _ _ hk =>
    refine hf.mono ?_ ?_ ?_ ?_ ?_
    · cases k <;> rfl
    · cases k <;> rfl
    · cases k <;> rfl
    · cases k with
      | stack => exact absurd rfl hk
      | jog | knife | back | turn => exact le_rfl
    · refine le_of_eq (Eq.trans ?_ (Flow.inUse_setPile_some ht p'))
      cases k <;> rfl
  | @discarded t p account ht _ _ =>
    rw [Flow.free_frame]
    exact hf.mono rfl rfl rfl le_rfl (Flow.inUse_setPile_none f t)
  | palletCancelled n =>
    rw [Flow.finish_frame]
    exact hf.mono rfl rfl rfl le_rfl le_rfl
  | cleared =>
    have huse : f.clear.inUse = 0 := by
      unfold Flow.inUse Flow.pile Flow.clear
      simp
    exact .idle rfl rfl rfl (Nat.zero_le _) (by rw [huse]; decide)

/-- Settles O14: each step of the flow keeps the reservations, given the places. -/
theorem reservationsFollowKeepCuts : Obligations.ReservationsFollowKeepCuts := by
  intro s t hplace hs h
  rw [State.placeInv_iff] at hplace
  rw [State.reserveInv_iff] at hs ⊢
  exact (step_keeps_flow (P := fun f => f.Placed ∧ f.Reserved)
    (fun _ _ hstep hf => ⟨hstep.keepsPlaces hf.1, hstep.keepsReservations hf.1 hf.2⟩)
    (fun f d p _ hf => ⟨hf.1.queued d p, hf.2.mono rfl rfl rfl le_rfl le_rfl⟩) h ⟨hplace, hs⟩).2

end Sys2Proof.Machine
end

section
/-! The sequence numbers of pallets (R79): the next one is the first number counting on that no record carries. -/

namespace Sys2Proof.Machine

/-- How far a number stands behind the one after the counter, in the rotation of R79. -/
def seqDistance (c n : Nat) : Nat := (n + 254 - c) % 255

theorem seqAfter_bounds {n : Nat} : 1 ≤ seqAfter n ∧ seqAfter n ≤ 255 := by
  unfold seqAfter
  split <;> omega

theorem seqDistance_seqAfter {n : Nat} (hn : n ≤ 255) : seqDistance n (seqAfter n) = 0 := by
  unfold seqDistance seqAfter
  split <;> omega

theorem seqDistance_eq_zero {n m : Nat} (hn : n ≤ 255) (h1 : 1 ≤ m) (h2 : m ≤ 255)
    (h : seqDistance n m = 0) : m = seqAfter n := by
  unfold seqDistance at h
  unfold seqAfter
  split <;> omega

/-- Every other number stands one step nearer once the counter has gone on. -/
theorem seqDistance_succ {n m : Nat} (hn : n ≤ 255) (h1 : 1 ≤ m) (h2 : m ≤ 255) (h : m ≠ seqAfter n) :
    seqDistance n m = seqDistance (seqAfter n) m + 1 := by
  unfold seqDistance
  unfold seqAfter at *
  split at h <;> split <;> omega

/-- The search finds the free number nearest behind the counter, when one is within its reach. -/
theorem freeSeqFrom_spec (taken : List Nat) (fuel : Nat) : ∀ {n : Nat}, n ≤ 255 →
    (∃ m, 1 ≤ m ∧ m ≤ 255 ∧ m ∉ taken ∧ seqDistance n m ≤ fuel) →
    (1 ≤ freeSeqFrom taken fuel n ∧ freeSeqFrom taken fuel n ≤ 255) ∧ freeSeqFrom taken fuel n ∉ taken ∧
      ∀ m, 1 ≤ m → m ≤ 255 → m ∉ taken → seqDistance n (freeSeqFrom taken fuel n) ≤ seqDistance n m := by
  induction fuel with
  | zero =>
    rintro n hn ⟨m, h1, h2, hfree, hd⟩
    have hm := seqDistance_eq_zero hn h1 h2 (Nat.le_zero.1 hd)
    subst hm
    exact ⟨seqAfter_bounds, hfree, fun k _ _ _ => by rw [freeSeqFrom, seqDistance_seqAfter hn]; exact Nat.zero_le _⟩
  | succ fuel ih =>
    rintro n hn ⟨m, h1, h2, hfree, hd⟩
    rw [freeSeqFrom]
    split
    · rename_i htaken
      have htaken : seqAfter n ∈ taken := List.elem_iff.1 htaken
      have hne {k : Nat} (hk : k ∉ taken) : k ≠ seqAfter n := fun h => hk (h ▸ htaken)
      rw [seqDistance_succ hn h1 h2 (hne hfree)] at hd
      obtain ⟨⟨hlo, hhi⟩, hnot, hleast⟩ := ih seqAfter_bounds.2 ⟨m, h1, h2, hfree, Nat.le_of_succ_le_succ hd⟩
      refine ⟨⟨hlo, hhi⟩, hnot, fun k hk1 hk2 hkfree => ?_⟩
      rw [seqDistance_succ hn hlo hhi (hne hnot), seqDistance_succ hn hk1 hk2 (hne hkfree)]
      exact Nat.succ_le_succ (hleast k hk1 hk2 hkfree)
    · rename_i htaken
      refine ⟨seqAfter_bounds, fun h => htaken (List.elem_iff.2 h), fun k _ _ _ => ?_⟩
      rw [seqDistance_seqAfter hn]; exact Nat.zero_le _

/-- Of 255 numbers at most four are taken. -/
theorem exists_free_seq {taken : List Nat} (h : taken.length ≤ 4) : ∃ m, 1 ≤ m ∧ m ≤ 255 ∧ m ∉ taken := by
  have hcard : taken.toFinset.card < (Finset.Icc 1 255).card := by
    rw [Nat.card_Icc]
    exact lt_of_le_of_lt (List.toFinset_card_le taken) (by omega)
  obtain ⟨m, hm, hnot⟩ := Finset.exists_mem_notMem_of_card_lt_card hcard
  obtain ⟨h1, h2⟩ := Finset.mem_Icc.1 hm
  exact ⟨m, h1, h2, fun h => hnot (List.mem_toFinset.2 h)⟩

theorem freeSeqFrom_free {taken : List Nat} (h : taken.length ≤ 4) {n : Nat} (hn : n ≤ 255) :
    (1 ≤ freeSeqFrom taken 255 n ∧ freeSeqFrom taken 255 n ≤ 255) ∧ freeSeqFrom taken 255 n ∉ taken ∧
      ∀ m, 1 ≤ m → m ≤ 255 → m ∉ taken → seqDistance n (freeSeqFrom taken 255 n) ≤ seqDistance n m := by
  obtain ⟨m, h1, h2, hfree⟩ := exists_free_seq h
  exact freeSeqFrom_spec taken 255 hn ⟨m, h1, h2, hfree, by unfold seqDistance; omega⟩

end Sys2Proof.Machine
end

section
/-! Accounts (R78, R80): use counts and live counts number the records that name a program or a pallet. -/

namespace Sys2Proof.Machine

/-- A record's program, pallet and sheets. -/
def stockOf (x : Option Pile) : Option (ProgNo × Nat × Nat) := x.map fun p => (p.program, p.pallet, p.sheets)

theorem SameStock.stockOf_eq {p p' : Pile} (h : SameStock p p') : stockOf (some p') = stockOf (some p) := by
  obtain ⟨h1, h2, h3⟩ := h
  simp only [stockOf, Option.map_some, h1, h2, h3]

theorem SameStock.symm {p p' : Pile} (h : SameStock p p') : SameStock p' p := by
  obtain ⟨h1, h2, h3⟩ := h
  exact ⟨h1.symm, h2.symm, h3.symm⟩

namespace Flow

/-! ### Totals -/

/-- The piles that name a program. -/
def users (f : Flow) (p : ProgNo) : Nat := f.total fun x => (x.any fun y => y.program = p).toNat

/-- The piles that name a pallet. -/
def pieces (f : Flow) (n : Nat) : Nat := f.total fun x => (x.any fun y => y.pallet = n).toNat

theorem total_congr {f g : Flow} {h : Option Pile → Nat} (heq : ∀ t, h (g.pile t) = h (f.pile t)) :
    g.total h = f.total h := by
  unfold total
  rw [List.map_congr_left fun t _ => heq t]

theorem total_piles {f g : Flow} (hp : g.piles = f.piles) (h : Option Pile → Nat) : g.total h = f.total h :=
  total_congr fun t => by rw [pile, pile, hp]

theorem any_program_eq {x y : Option Pile} (h : stockOf x = stockOf y) (p : ProgNo) :
    (x.any fun z => z.program = p) = y.any fun z => z.program = p := by
  cases x <;> cases y <;> simp_all [stockOf]

theorem any_pallet_eq {x y : Option Pile} (h : stockOf x = stockOf y) (n : Nat) :
    (x.any fun z => z.pallet = n) = y.any fun z => z.pallet = n := by
  cases x <;> cases y <;> simp_all [stockOf]

/-- No pile names a pallet of which no piece is counted. -/
theorem pieces_pos {f : Flow} {t : Tag} {x : Pile} (h : f.pile t = some x) : 0 < f.pieces x.pallet := by
  have hmem : ((f.pile t).any fun y => y.pallet = x.pallet).toNat ∈
      allTags.map fun u => ((f.pile u).any fun y => y.pallet = x.pallet).toNat :=
    List.mem_map_of_mem (mem_allTags t)
  have hle := List.single_le_sum (fun _ _ => Nat.zero_le _) _ hmem
  rw [h] at hle
  simp only [Option.any_some, decide_true, Bool.toNat_true] at hle
  exact hle

/-! ### The law -/

/-- `State.AccountsInv` over the flow. -/
structure Accounted (f : Flow) : Prop where
  places : f.pallets.length ≤ 4
  distinct : (f.pallets.map Pallet.seq).Nodup
  numbered : ∀ q ∈ f.pallets, 1 ≤ q.seq ∧ q.seq ≤ 255
  counter : f.seqCounter ≤ 255
  uses : ∀ p, look f.useCounts p = (f.pallets.filter fun q => q.program = p).length + f.users p
  live : ∀ q ∈ f.pallets, q.live = f.pieces q.seq
  named : ∀ t x, f.pile t = some x → ∃ q ∈ f.pallets, q.seq = x.pallet

end Flow

theorem State.tagsWith_length (s : State) (h : Pile → Bool) :
    (s.tagsWith h).length = s.flow.total fun x => (x.any h).toNat := by
  unfold State.tagsWith Flow.total
  rw [Flow.length_filter_eq_sum]
  congr 1
  refine List.map_congr_left fun t _ => ?_
  have hp : s.flow.pile t = s.pile t := rfl
  rw [hp]
  cases s.pile t <;> rfl

theorem State.accountsInv_iff (s : State) : s.AccountsInv ↔ s.flow.Accounted := by
  constructor
  · rintro ⟨h1, h2, h3, h4, h5, h6, h7⟩
    exact ⟨h1, h2, h3, h4, fun p => (h5 p).trans (by rw [s.tagsWith_length]; rfl),
      fun q hq => (h6 q hq).trans (s.tagsWith_length _), h7⟩
  · rintro ⟨h1, h2, h3, h4, h5, h6, h7⟩
    exact ⟨h1, h2, h3, h4, fun p => (h5 p).trans (by rw [s.tagsWith_length]; rfl),
      fun q hq => (h6 q hq).trans (s.tagsWith_length _).symm, h7⟩

namespace Flow

/-! ### Steps that leave the accounts -/

section
variable {f g : Flow}

/-- The accounts read of each record its program, pallet and sheets. -/
theorem Accounted.restocked (hf : f.Accounted) (hstock : ∀ t, stockOf (g.pile t) = stockOf (f.pile t))
    (hp : g.pallets = f.pallets) (hc : g.seqCounter = f.seqCounter) (hu : g.useCounts = f.useCounts) :
    g.Accounted := by
  obtain ⟨h1, h2, h3, h4, h5, h6, h7⟩ := hf
  refine ⟨by rwa [hp], by rwa [hp], by rwa [hp], by rwa [hc], fun p => ?_, fun q hq => ?_, fun t x hx => ?_⟩
  · rw [hu, hp, h5]
    exact congrArg _ (total_congr fun t => by rw [any_program_eq (hstock t)]).symm
  · rw [h6 q (hp ▸ hq)]
    exact (total_congr fun t => by rw [any_pallet_eq (hstock t)]).symm
  · have hs := hstock t
    rw [hx] at hs
    obtain ⟨y, hy, hyx⟩ := Option.map_eq_some_iff.1 hs.symm
    obtain ⟨q, hq, hseq⟩ := h7 t y hy
    refine ⟨q, hp ▸ hq, hseq.trans ?_⟩
    exact congrArg (fun z => z.2.1) hyx

theorem Accounted.congr (hf : f.Accounted) (hpile : g.piles = f.piles) (hp : g.pallets = f.pallets)
    (hc : g.seqCounter = f.seqCounter) (hu : g.useCounts = f.useCounts) : g.Accounted :=
  hf.restocked (fun t => by rw [pile, pile, hpile]) hp hc hu

theorem stockOf_setPile {t : Tag} {x : Option Pile} (h : stockOf x = stockOf (f.pile t)) (u : Tag) :
    stockOf ((f.setPile t x).pile u) = stockOf (f.pile u) := by
  rw [pile_setPile]
  split
  · rename_i hu; subst hu; exact h
  · rfl

theorem stockOf_map {h : Pile → Pile} (hh : ∀ p, SameStock p (h p)) (x : Option Pile) :
    stockOf (x.map h) = stockOf x := by
  cases x with
  | none => rfl
  | some p => exact (hh p).stockOf_eq

/-- A record whose sheets and accounts are kept, and all else but the pallets and the counts free. -/
theorem Accounted.repiled (hf : f.Accounted) {t : Tag} {x : Option Pile} (hx : stockOf x = stockOf (f.pile t))
    (hpile : g.piles = (f.setPile t x).piles) (hp : g.pallets = f.pallets) (hc : g.seqCounter = f.seqCounter)
    (hu : g.useCounts = f.useCounts) : g.Accounted :=
  hf.restocked (fun u => by
    have : g.pile u = (f.setPile t x).pile u := by rw [pile, pile, hpile]
    rw [this, stockOf_setPile hx]) hp hc hu

end

/-! ### Pallet records changed -/

section
variable {h : Pallet → Pallet} {n : Nat} {l : List Pallet}

/-- One pallet's accounts changed. -/
def touch (n : Nat) (h : Pallet → Pallet) (q : Pallet) : Pallet := if q.seq = n then h q else q

theorem touch_seq (hseq : ∀ q, (h q).seq = q.seq) (q : Pallet) : (touch n h q).seq = q.seq := by
  unfold touch; split
  · exact hseq q
  · rfl

theorem touch_program (hprog : ∀ q, (h q).program = q.program) (q : Pallet) :
    (touch n h q).program = q.program := by
  unfold touch; split
  · exact hprog q
  · rfl

theorem map_seq_touch (hseq : ∀ q, (h q).seq = q.seq) :
    (l.map (touch n h)).map Pallet.seq = l.map Pallet.seq := by
  rw [List.map_map]
  exact List.map_congr_left fun q _ => touch_seq hseq q

theorem length_filter_touch (hprog : ∀ q, (h q).program = q.program) (p : ProgNo) :
    ((l.map (touch n h)).filter fun q => q.program = p).length = (l.filter fun q => q.program = p).length := by
  rw [List.filter_map, List.length_map]
  congr 2
  funext q
  simp only [Function.comp, touch_program hprog]

end

section
variable {f : Flow} {t : Tag}

theorem users_setPile (f : Flow) (t : Tag) (x : Option Pile) (p : ProgNo) :
    (f.setPile t x).users p + ((f.pile t).any fun y => y.program = p).toNat =
      f.users p + (x.any fun y => y.program = p).toNat := total_setPile f t x _

theorem pieces_setPile (f : Flow) (t : Tag) (x : Option Pile) (n : Nat) :
    (f.setPile t x).pieces n + ((f.pile t).any fun y => y.pallet = n).toNat =
      f.pieces n + (x.any fun y => y.pallet = n).toNat := total_setPile f t x _

/-- A record allocated for sheets of a pallet: one more use of its program, one more live pile (R87, R113). -/
theorem Accounted.born (hf : f.Accounted) (ht : f.pile t = none) {c : Pile} {q : Pallet} (hq : q ∈ f.pallets)
    (hc : c.pallet = q.seq) {h : Pallet → Pallet} (hseq : ∀ q, (h q).seq = q.seq)
    (hprog : ∀ q, (h q).program = q.program) (hlive : ∀ q, (h q).live = q.live + 1) :
    (((f.modifyPallet q.seq h).setPile t (some c)).addUse c.program).Accounted := by
  obtain ⟨h1, h2, h3, h4, h5, h6, h7⟩ := hf
  have hpallets : (((f.modifyPallet q.seq h).setPile t (some c)).addUse c.program).pallets =
      f.pallets.map (touch q.seq h) := rfl
  have husers (p : ProgNo) := users_setPile f t (some c) p
  have hpieces (n : Nat) := pieces_setPile f t (some c) n
  rw [ht] at husers hpieces
  refine ⟨by rw [hpallets, List.length_map]; exact h1, by rw [hpallets, map_seq_touch hseq]; exact h2,
    fun x hx => ?_, h4, fun p => ?_, fun x hx => ?_, fun u x hx => ?_⟩
  · rw [hpallets] at hx
    obtain ⟨y, hy, rfl⟩ := List.mem_map.1 hx
    rw [touch_seq hseq]
    exact h3 y hy
  · rw [hpallets, length_filter_touch hprog]
    show look (put f.useCounts c.program (look f.useCounts c.program + 1)) p = _ + (f.setPile t (some c)).users p
    have hp := husers p
    simp only [Option.any_none, Bool.toNat_false, Option.any_some] at hp
    rw [look_put]
    split
    · rename_i hcp
      subst hcp
      rw [h5]
      simp only [decide_true, Bool.toNat_true] at hp
      omega
    · rename_i hcp
      rw [h5]
      simp only [hcp, decide_false, Bool.toNat_false] at hp
      omega
  · rw [hpallets] at hx
    obtain ⟨y, hy, rfl⟩ := List.mem_map.1 hx
    rw [touch_seq hseq]
    show (touch q.seq h y).live = (f.setPile t (some c)).pieces y.seq
    have hp := hpieces y.seq
    simp only [Option.any_none, Bool.toNat_false, Option.any_some, hc] at hp
    unfold touch
    split
    · rename_i hyq
      rw [hlive, h6 y hy]
      simp only [hyq, decide_true, Bool.toNat_true] at hp ⊢
      omega
    · rename_i hyq
      rw [h6 y hy]
      simp only [Ne.symm hyq, decide_false, Bool.toNat_false] at hp
      omega
  · have hx' : (f.setPile t (some c)).pile u = some x := hx
    rw [pile_setPile] at hx'
    rw [hpallets]
    split at hx'
    · injection hx' with hx'; subst hx'
      exact ⟨_, List.mem_map_of_mem hq, (touch_seq hseq q).trans hc.symm⟩
    · obtain ⟨y, hy, hseq'⟩ := h7 u x hx'
      exact ⟨_, List.mem_map_of_mem hy, (touch_seq hseq y).trans hseq'⟩

/-- The accounts of the Pallet Table and of the records do not fall out when a pallet is changed but for its number,
program and live count. -/
theorem Accounted.touched (hf : f.Accounted) (n : Nat) {h : Pallet → Pallet} (hseq : ∀ q, (h q).seq = q.seq)
    (hprog : ∀ q, (h q).program = q.program) (hlive : ∀ q, (h q).live = q.live) :
    (f.modifyPallet n h).Accounted := by
  obtain ⟨h1, h2, h3, h4, h5, h6, h7⟩ := hf
  have hpallets : (f.modifyPallet n h).pallets = f.pallets.map (touch n h) := rfl
  refine ⟨by rw [hpallets, List.length_map]; exact h1, by rw [hpallets, map_seq_touch hseq]; exact h2,
    fun x hx => ?_, h4, fun p => ?_, fun x hx => ?_, fun u x hx => ?_⟩
  · rw [hpallets] at hx
    obtain ⟨y, hy, rfl⟩ := List.mem_map.1 hx
    rw [touch_seq hseq]
    exact h3 y hy
  · rw [hpallets, length_filter_touch hprog]
    exact h5 p
  · rw [hpallets] at hx
    obtain ⟨y, hy, rfl⟩ := List.mem_map.1 hx
    rw [touch_seq hseq]
    refine Eq.trans ?_ (h6 y hy)
    unfold touch
    split
    · exact hlive y
    · rfl
  · obtain ⟨y, hy, hy'⟩ := h7 u x hx
    exact ⟨_, List.mem_map_of_mem hy, (touch_seq hseq y).trans hy'⟩

/-- A record freed, before the finish test (R9). -/
theorem Accounted.dropped (hf : f.Accounted) {c : Pile} (ht : f.pile t = some c) {h : Pallet → Pallet}
    (hseq : ∀ q, (h q).seq = q.seq) (hprog : ∀ q, (h q).program = q.program)
    (hlive : ∀ q, (h q).live = q.live - 1) :
    (((f.setPile t none).dropUse c.program).modifyPallet c.pallet h).Accounted := by
  obtain ⟨h1, h2, h3, h4, h5, h6, h7⟩ := hf
  have hpallets : (((f.setPile t none).dropUse c.program).modifyPallet c.pallet h).pallets =
      f.pallets.map (touch c.pallet h) := rfl
  have husers (p : ProgNo) := users_setPile f t none p
  have hpieces (n : Nat) := pieces_setPile f t none n
  rw [ht] at husers hpieces
  refine ⟨by rw [hpallets, List.length_map]; exact h1, by rw [hpallets, map_seq_touch hseq]; exact h2,
    fun x hx => ?_, h4, fun p => ?_, fun x hx => ?_, fun u x hx => ?_⟩
  · rw [hpallets] at hx
    obtain ⟨y, hy, rfl⟩ := List.mem_map.1 hx
    rw [touch_seq hseq]
    exact h3 y hy
  · rw [hpallets, length_filter_touch hprog]
    show look (put f.useCounts c.program (look f.useCounts c.program - 1)) p = _ + (f.setPile t none).users p
    have hp := husers p
    simp only [Option.any_none, Bool.toNat_false, Option.any_some] at hp
    rw [look_put]
    split
    · rename_i hcp
      subst hcp
      rw [h5]
      simp only [decide_true, Bool.toNat_true] at hp
      omega
    · rename_i hcp
      rw [h5]
      simp only [hcp, decide_false, Bool.toNat_false] at hp
      omega
  · rw [hpallets] at hx
    obtain ⟨y, hy, rfl⟩ := List.mem_map.1 hx
    rw [touch_seq hseq]
    show (touch c.pallet h y).live = (f.setPile t none).pieces y.seq
    have hp := hpieces y.seq
    simp only [Option.any_none, Bool.toNat_false, Option.any_some] at hp
    unfold touch
    split
    · rename_i hyc
      rw [hlive, h6 y hy]
      simp only [hyc, decide_true, Bool.toNat_true] at hp ⊢
      omega
    · rename_i hyc
      rw [h6 y hy]
      simp only [Ne.symm hyc, decide_false, Bool.toNat_false] at hp
      omega
  · have hx' : (f.setPile t none).pile u = some x := hx
    rw [pile_setPile] at hx'
    split at hx'
    · cases hx'
    · obtain ⟨y, hy, hy'⟩ := h7 u x hx'
      rw [hpallets]
      exact ⟨_, List.mem_map_of_mem hy, (touch_seq hseq y).trans hy'⟩

theorem palletOf_some {n : Nat} {q : Pallet} (h : f.palletOf n = some q) : q ∈ f.pallets ∧ q.seq = n := by
  unfold palletOf at h
  exact ⟨List.mem_of_find?_eq_some h, by simpa using List.find?_some h⟩

/-- In a table of distinct numbers one record goes when its number is taken out. -/
theorem length_filter_seq_ne {l : List Pallet} (hd : (l.map Pallet.seq).Nodup) {q : Pallet} (hq : q ∈ l)
    (p : ProgNo) :
    (l.filter fun x => x.program = p).length =
      ((l.filter fun x => x.seq ≠ q.seq).filter fun x => x.program = p).length +
        (decide (q.program = p)).toNat := by
  induction l with
  | nil => cases hq
  | cons x l ih =>
    rw [List.map_cons, List.nodup_cons] at hd
    obtain ⟨hx, hd⟩ := hd
    rcases List.mem_cons.1 hq with rfl | hq
    · have hall : (l.filter fun x => x.seq ≠ q.seq) = l := by
        refine List.filter_eq_self.2 fun x hxl => ?_
        simp only [ne_eq, decide_eq_true_eq]
        exact fun h => hx (h ▸ List.mem_map_of_mem hxl)
      have hcons : ((q :: l).filter fun x => x.seq ≠ q.seq) = l :=
        (List.filter_cons_of_neg (by simp)).trans hall
      rw [hcons, List.filter_cons]
      by_cases hp : q.program = p <;> simp [hp]
    · have hne : x.seq ≠ q.seq := fun h => hx (h ▸ List.mem_map_of_mem hq)
      have hcons : ((x :: l).filter fun y => y.seq ≠ q.seq) = x :: l.filter fun y => y.seq ≠ q.seq :=
        List.filter_cons_of_pos (by simpa using hne)
      rw [hcons, List.filter_cons, List.filter_cons]
      split
      · rw [List.length_cons, List.length_cons, ih hd hq]; omega
      · exact ih hd hq

theorem Accounted.finish (hf : f.Accounted) (n : Nat) : (f.finish n).Accounted := by
  unfold Flow.finish
  split
  · exact hf
  · rename_i q hq
    split
    · rename_i hdone
      obtain ⟨hmem, hseq⟩ := palletOf_some hq
      obtain ⟨h1, h2, h3, h4, h5, h6, h7⟩ := hf
      simp only [palletFinished, Bool.and_eq_true, decide_eq_true_eq] at hdone
      have hpallets : ({ f with pallets := f.pallets.filter fun x => x.seq ≠ n }.dropUse q.program).pallets =
          f.pallets.filter fun x => x.seq ≠ n := rfl
      have hsub : List.Sublist (f.pallets.filter fun x => x.seq ≠ n) f.pallets := List.filter_sublist
      refine ⟨le_trans hsub.length_le h1, h2.sublist (hsub.map _), fun x hx => h3 x (hsub.subset hx), h4,
        fun p => ?_, fun x hx => h6 x (hsub.subset hx), fun u x hx => ?_⟩
      · have hlen := length_filter_seq_ne h2 hmem p
        rw [hseq] at hlen
        show look (put f.useCounts q.program (look f.useCounts q.program - 1)) p =
          ((f.pallets.filter fun x => x.seq ≠ n).filter fun x => x.program = p).length + f.users p
        rw [look_put]
        split
        · rename_i hp
          subst hp
          rw [h5, hlen]
          simp only [decide_true, Bool.toNat_true]
          omega
        · rename_i hp
          rw [h5, hlen]
          simp only [hp, decide_false, Bool.toNat_false]
          omega
      · obtain ⟨y, hy, hy'⟩ := h7 u x hx
        refine ⟨y, List.mem_filter.2 ⟨hy, ?_⟩, hy'⟩
        have hpos := pieces_pos (f := f) hx
        rw [← hy'] at hpos
        simp only [ne_eq, decide_eq_true_eq]
        intro hyn
        have hlive := h6 q hmem
        rw [hseq, ← hyn] at hlive
        omega
    · exact hf

/-- What a cause does to a pallet's accounts as its record is freed leaves number, program and live count (R80). -/
def KeepsCounts (account : Nat → Pallet → Pallet) : Prop :=
  ∀ n q, (account n q).seq = q.seq ∧ (account n q).program = q.program ∧ (account n q).live = q.live

theorem Accounted.free (hf : f.Accounted) (t : Tag) {account : Nat → Pallet → Pallet} (ha : KeepsCounts account) :
    (f.free t account).Accounted := by
  unfold Flow.free
  split
  · exact hf
  · rename_i p hp
    exact (hf.dropped hp (h := fun q => account p.sheets { q with live := q.live - 1 }) (fun q => (ha _ _).1)
      (fun q => (ha _ _).2.1) fun q => (ha _ _).2.2).finish _

theorem Accounted.queued (hf : f.Accounted) (d : Draft) (p : ProgNo) (hroom : f.pallets.length < 4) :
    (f.queued d p).Accounted := by
  unfold Flow.queued
  obtain ⟨h1, h2, h3, h4, h5, h6, h7⟩ := hf
  obtain ⟨⟨hlo, hhi⟩, hnew, _⟩ := freeSeqFrom_free (taken := f.pallets.map Pallet.seq)
    (by rw [List.length_map]; exact h1) h4
  generalize freeSeqFrom (f.pallets.map Pallet.seq) 255 f.seqCounter = n at *
  have hfresh : f.pieces n = 0 := by
    refine List.sum_eq_zero fun k hk => ?_
    obtain ⟨u, _, rfl⟩ := List.mem_map.1 hk
    cases hu : f.pile u with
    | none => rfl
    | some x =>
      obtain ⟨y, hy, hy'⟩ := h7 u x hu
      have hne : x.pallet ≠ n := fun h => hnew (h ▸ hy' ▸ List.mem_map_of_mem hy)
      simp [hne]
  refine ⟨by show (f.pallets ++ [_]).length ≤ 4; rw [List.length_append, List.length_singleton]; omega,
    ?_, fun x hx => ?_, hhi, fun q => ?_, fun x hx => ?_, fun u x hx => ?_⟩
  · show ((f.pallets ++ [queuedPallet d p n]).map Pallet.seq).Nodup
    rw [List.map_append]
    refine List.nodup_append.2 ⟨h2, List.nodup_singleton _, fun a ha b hb hab => ?_⟩
    rw [List.map_singleton, List.mem_singleton] at hb
    exact hnew (by rw [show n = b from hb.symm, ← hab]; exact ha)
  · rcases List.mem_append.1 hx with hx | hx
    · exact h3 x hx
    · rw [List.mem_singleton.1 hx]; exact ⟨hlo, hhi⟩
  · show look (put f.useCounts p (look f.useCounts p + 1)) q =
      ((f.pallets ++ [queuedPallet d p n]).filter fun x => x.program = q).length + f.users q
    rw [List.filter_append, List.length_append, look_put]
    split
    · rename_i hpq
      subst hpq
      rw [h5]
      simp [queuedPallet]
      omega
    · rename_i hpq
      rw [h5]
      simp [queuedPallet, hpq]
  · rcases List.mem_append.1 hx with hx | hx
    · exact h6 x hx
    · rw [List.mem_singleton.1 hx]; exact hfresh.symm
  · obtain ⟨y, hy, hy'⟩ := h7 u x hx
    exact ⟨y, List.mem_append_left _ hy, hy'⟩

theorem Accounted.cleared (f : Flow) : f.clear.Accounted := by
  have hpile (t : Tag) : f.clear.pile t = none := by simp [pile, clear]
  refine ⟨Nat.zero_le _, List.nodup_nil, fun q hq => (by cases hq), Nat.zero_le _, fun p => ?_,
    fun q hq => (by cases hq), fun t x hx => (by rw [hpile] at hx; cases hx)⟩
  have husers : f.clear.users p = 0 := by
    refine List.sum_eq_zero fun k hk => ?_
    obtain ⟨u, _, rfl⟩ := List.mem_map.1 hk
    rw [hpile]; rfl
  rw [husers]
  exact look_replicate 0 p

end
end Flow

theorem keepsCounts_delivered : Flow.KeepsCounts accountDelivered := fun _ _ => ⟨rfl, rfl, rfl⟩
theorem keepsCounts_returned : Flow.KeepsCounts accountReturned := fun _ _ => ⟨rfl, rfl, rfl⟩
theorem keepsCounts_scrapped : Flow.KeepsCounts accountScrapped := fun _ _ => ⟨rfl, rfl, rfl⟩

/-- Every step of the flow keeps the accounts. -/
theorem Flow.Step.keepsAccounts {f g : Flow} (h : Flow.Step f g) (hf : f.Accounted) : g.Accounted := by
  cases h with
  | @lifted q n t j hq _ _ _ ht =>
    exact (hf.born ht (c := liftedPile q n) hq rfl (h := accountLifted n) (fun _ => rfl) (fun _ => rfl)
      fun _ => rfl).congr rfl rfl rfl rfl
  | @taken st k t rest p j _ _ _ ht =>
    refine hf.repiled (t := t) (x := some { p with residency := jobResidency st }) ?_ ?_ ?_ ?_ ?_
    · rw [ht]; rfl
    all_goals cases k <;> rfl
  | @placed k t rest _ _ _ =>
    refine hf.repiled (t := t) (x := (f.pile t).map fun p => { p with residency := .atKnife, started := true })
      (Flow.stockOf_map (h := fun p => { p with residency := .atKnife, started := true }) (fun _ => ⟨rfl, rfl, rfl⟩) _) ?_ ?_ ?_ ?_
    all_goals cases k <;> rfl
  | @knifeHeld t p r _ _ ht =>
    exact hf.repiled (t := t)
      (x := some { p with residency := .held, hold := some { reason := r, station := .knife } })
      (by rw [ht]; rfl) rfl rfl rfl rfl
  | @knifeIssued t p p' j _ _ ht hs _ _ =>
    exact hf.repiled (t := t) (x := some p') (by rw [ht]; exact hs.stockOf_eq) rfl rfl rfl rfl
  | @jobQueued st k t g l _ hg _ _ _ =>
    refine hf.repiled (t := t) (x := (f.pile t).map g) (Flow.stockOf_map (fun p => (hg p).1) _) ?_ ?_ ?_ ?_
    all_goals cases k <;> rfl
  | @jobHeld st t r _ =>
    exact hf.repiled (t := t) (x := (f.pile t).map (heldRecord f st r))
      (Flow.stockOf_map (h := heldRecord f st r) (fun _ => ⟨rfl, rfl, rfl⟩) _) rfl rfl rfl rfl
  | @rejogged t p n j _ _ ht =>
    exact hf.repiled (t := t) (x := some { p with attempt := n }) (by rw [ht]; rfl) rfl rfl rfl rfl
  | @cutWasted t p p' _ ht hs _ _ =>
    exact hf.repiled (t := t) (x := some p') (by rw [ht]; exact hs.stockOf_eq) rfl rfl rfl rfl
  | @cutKept t child p p' c _ ht hs _ _ hchild hc _ =>
    obtain ⟨hprog, hpallet, _⟩ := hc
    obtain ⟨q, hq, hseq⟩ := hf.named t p ht
    have hborn := hf.born hchild (c := c) hq (hpallet.trans hseq.symm)
      (h := fun q => { q with live := q.live + 1 }) (fun _ => rfl) (fun _ => rfl) fun _ => rfl
    have hne : t ≠ child := by intro h; subst h; rw [ht] at hchild; cases hchild
    rw [hprog, hseq] at hborn
    refine hborn.repiled (t := t) (x := some p') ?_ rfl rfl rfl rfl
    have hpile : (f.setPile child (some c)).pile t = some p := by rw [Flow.pile_setPile, if_neg hne, ht]
    exact hs.stockOf_eq.trans (congrArg stockOf hpile.symm)
  | @knifeAborted t g _ hg =>
    exact hf.repiled (t := t) (x := (f.pile t).map g) (Flow.stockOf_map (fun p => (hg p).1) _) rfl rfl rfl rfl
  | @jobFreed st t account _ hst =>
    have hacc : Flow.KeepsCounts account := by
      rcases hst with ⟨_, rfl, _⟩ | ⟨_, rfl⟩
      · exact keepsCounts_delivered
      · exact keepsCounts_returned
    exact (hf.free t hacc).congr rfl rfl rfl rfl
  | idled _ => exact hf.congr rfl rfl rfl rfl
  | @putBack k t p p' ht _ hs _ _ =>
    refine hf.repiled (t := t) (x := some p') (by rw [ht]; exact hs.stockOf_eq) ?_ ?_ ?_ ?_
    all_goals cases k <;> rfl
  | @discarded t p account _ _ hst =>
    have hacc : Flow.KeepsCounts account := by
      rcases hst with rfl | ⟨_, rfl⟩
      · exact keepsCounts_scrapped
      · exact keepsCounts_returned
    exact hf.free t hacc
  | palletCancelled n => exact (hf.touched n (h := accountCancelled) (fun _ => rfl) (fun _ => rfl) fun _ => rfl).finish n
  | cleared => exact .cleared f

/-- The accounts are kept by every step of the machine. -/
theorem accounts_kept {s t : State} (hs : s.AccountsInv) (h : step s = .next t) : t.AccountsInv := by
  rw [State.accountsInv_iff] at hs ⊢
  exact step_keeps_flow (fun _ _ hstep hf => hstep.keepsAccounts hf) (fun _ d p hroom hf => hf.queued d p hroom) h hs

end Sys2Proof.Machine
end

section
/-! Sheets (R80): of each pallet remaining, lifted and cancelled make up the declared count, and lifted covers what could
be given back. -/

namespace Sys2Proof.Machine

namespace Flow

/-- The sheets that a record could give back to a pallet. -/
def share (n : Nat) (x : Option Pile) : Nat :=
  match x with
  | none => 0
  | some p => if p.pallet = n && returnable p then p.sheets else 0

/-- `State.SheetsInv` over the flow. -/
def Sheeted (f : Flow) : Prop :=
  ∀ q ∈ f.pallets, q.remaining + q.lifted + q.cancelled = q.declared ∧ f.total (share q.seq) ≤ q.lifted

section
variable {f g : Flow} {t : Tag} {p : Pile} {n : Nat}

@[simp] theorem share_none (n : Nat) : share n none = 0 := rfl

theorem share_of_not (h : returnable p = false) (n : Nat) : share n (some p) = 0 := by simp [share, h]

theorem share_of_residency {r : Residency} (h : p.residency = r) (hl : r ≠ .lifting) (hh : r ≠ .held) (n : Nat) :
    share n (some p) = 0 := share_of_not (by simp [returnable, h, hl, hh]) n

theorem share_of_hold {hold : Hold} (hr : p.residency = .held) (hh : p.hold = some hold)
    (hst : hold.station ≠ .lift) (n : Nat) : share n (some p) = 0 :=
  share_of_not (by simp [returnable, hr, hh, hst]) n

theorem share_of_returnable (h : returnable p = true) (hn : p.pallet = n) : share n (some p) = p.sheets := by
  simp [share, h, hn]

theorem share_other (hn : p.pallet ≠ n) : share n (some p) = 0 := by simp [share, hn]

theorem share_le (n : Nat) : share n (some p) ≤ p.sheets := by
  unfold share
  split
  · exact Nat.zero_le _
  · rename_i h; injection h with h; subst h; split <;> omega

/-! ### Steps that give no record more to give back -/

theorem total_setPile_le {x : Option Pile} {h : Option Pile → Nat} (hx : h x ≤ h (f.pile t)) :
    (f.setPile t x).total h ≤ f.total h := by
  have := total_setPile f t x h
  omega

theorem Sheeted.repiled (hf : f.Sheeted) {x : Option Pile} (hx : ∀ n, share n x ≤ share n (f.pile t))
    (hpile : g.piles = (f.setPile t x).piles) (hp : g.pallets = f.pallets) : g.Sheeted := by
  intro q hq
  rw [hp] at hq
  obtain ⟨hsum, hle⟩ := hf q hq
  refine ⟨hsum, le_trans ?_ hle⟩
  rw [total_piles hpile]
  exact total_setPile_le (hx q.seq)

theorem Sheeted.sub (hf : f.Sheeted) (hpile : g.piles = f.piles) (hp : ∀ q ∈ g.pallets, q ∈ f.pallets) :
    g.Sheeted := by
  intro q hq
  rw [total_piles hpile]
  exact hf q (hp q hq)

theorem Sheeted.finish (hf : f.Sheeted) (n : Nat) : (f.finish n).Sheeted := by
  refine hf.sub (by rw [finish_frame]) fun q hq => ?_
  unfold Flow.finish at hq
  split at hq
  · exact hq
  · split at hq
    · exact (List.mem_filter.1 hq).1
    · exact hq

theorem mem_touch {l : List Pallet} {h : Pallet → Pallet} {q : Pallet} (hq : q ∈ l.map (touch n h)) :
    ∃ y ∈ l, q = touch n h y := by
  obtain ⟨y, hy, rfl⟩ := List.mem_map.1 hq
  exact ⟨y, hy, rfl⟩

/-- One pallet's accounts changed, its sheets in balance. -/
theorem Sheeted.touched (hf : f.Sheeted) {h : Pallet → Pallet} (hseq : ∀ q, (h q).seq = q.seq)
    (hsum : ∀ q, q.remaining + q.lifted + q.cancelled = q.declared →
      (h q).remaining + (h q).lifted + (h q).cancelled = (h q).declared)
    (hlift : ∀ q, q.lifted ≤ (h q).lifted) : (f.modifyPallet n h).Sheeted := by
  intro q hq
  obtain ⟨y, hy, rfl⟩ := mem_touch (h := h) hq
  obtain ⟨hysum, hyle⟩ := hf y hy
  rw [touch_seq hseq]
  unfold touch
  split
  · exact ⟨hsum y hysum, le_trans hyle (hlift y)⟩
  · exact ⟨hysum, hyle⟩

/-! ### Lifts and returns -/

theorem Sheeted.lifted (hf : f.Sheeted) (hd : (f.pallets.map Pallet.seq).Nodup) {q : Pallet} (hq : q ∈ f.pallets)
    {k : Nat} (hk : k ≤ q.remaining) (ht : f.pile t = none) :
    ((f.modifyPallet q.seq (accountLifted k)).setPile t (some (liftedPile q k))).Sheeted := by
  intro x hx
  obtain ⟨y, hy, rfl⟩ := mem_touch (h := accountLifted k) (n := q.seq) hx
  obtain ⟨hysum, hyle⟩ := hf y hy
  have htotal := total_setPile (f.modifyPallet q.seq (accountLifted k)) t (some (liftedPile q k)) (share y.seq)
  have hnone : (f.modifyPallet q.seq (accountLifted k)).pile t = none := ht
  have hsame : (f.modifyPallet q.seq (accountLifted k)).total (share y.seq) = f.total (share y.seq) :=
    total_piles rfl _
  rw [hnone, hsame, share_none] at htotal
  rw [touch_seq (h := accountLifted k) fun _ => rfl]
  unfold touch
  split
  · rename_i hyq
    obtain rfl : y = q := List.inj_on_of_nodup_map hd hy hq hyq
    have hshare := share_le (p := liftedPile y k) y.seq
    simp only [accountLifted, liftedPile] at *
    omega
  · rename_i hyq
    rw [share_other (p := liftedPile q k) (Ne.symm hyq)] at htotal
    exact ⟨hysum, by omega⟩

/-- A record freed whose sheets stay lifted, or go back to its pallet. -/
theorem Sheeted.free (hf : f.Sheeted) (hp : f.pile t = some p) {account : Nat → Pallet → Pallet}
    (ha : account = accountDelivered ∨ account = accountScrapped ∨
      account = accountReturned ∧ returnable p = true) : (f.free t account).Sheeted := by
  have hseq (k : Nat) (q : Pallet) : (account k q).seq = q.seq := by rcases ha with rfl | rfl | ⟨rfl, _⟩ <;> rfl
  unfold Flow.free
  rw [hp]
  refine Sheeted.finish ?_ _
  intro x hx
  obtain ⟨y, hy, rfl⟩ := mem_touch (h := fun q => account p.sheets { q with live := q.live - 1 }) (n := p.pallet) hx
  obtain ⟨hysum, hyle⟩ := hf y hy
  have htotal := total_setPile f t none (share y.seq)
  rw [hp, share_none] at htotal
  have hsame : (((f.setPile t none).dropUse p.program).modifyPallet p.pallet fun q =>
      account p.sheets { q with live := q.live - 1 }).total (share y.seq) = (f.setPile t none).total (share y.seq) :=
    total_piles rfl _
  rw [touch_seq (h := fun q => account p.sheets { q with live := q.live - 1 }) fun q => hseq _ _, hsame]
  unfold touch
  split
  · rename_i hyp
    rcases ha with rfl | rfl | ⟨rfl, hret⟩
    · exact ⟨hysum, by show _ ≤ y.lifted; omega⟩
    · exact ⟨hysum, by show _ ≤ y.lifted; omega⟩
    · rw [share_of_returnable hret hyp.symm] at htotal
      simp only [accountReturned]
      omega
  · exact ⟨hysum, by omega⟩

theorem Sheeted.queued (hf : f.Sheeted) (ha : f.Accounted) (d : Draft) (pr : ProgNo) :
    (f.queued d pr).Sheeted := by
  have hn := (freeSeqFrom_free (taken := f.pallets.map Pallet.seq) (by rw [List.length_map]; exact ha.places)
    ha.counter).2.1
  unfold Flow.queued
  generalize freeSeqFrom (f.pallets.map Pallet.seq) 255 f.seqCounter = n at *
  intro q hq
  have hsame (m : Nat) : ({ f with pallets := f.pallets ++ [queuedPallet d pr n], seqCounter := n }.addUse
      pr).total (share m) = f.total (share m) := total_piles rfl _
  rw [hsame]
  rcases List.mem_append.1 hq with hq | hq
  · exact hf q hq
  · rw [List.mem_singleton.1 hq]
    have hzero : f.total (share n) = 0 := by
      refine List.sum_eq_zero fun k hk => ?_
      obtain ⟨u, _, rfl⟩ := List.mem_map.1 hk
      cases hu : f.pile u with
      | none => rfl
      | some x =>
        obtain ⟨y, hy, hy'⟩ := ha.named u x hu
        exact share_other fun h => hn (h ▸ hy' ▸ List.mem_map_of_mem hy)
    exact ⟨by simp [queuedPallet], by show f.total (share n) ≤ 0; omega⟩

end
end Flow

theorem State.sheetsInv_iff (s : State) : s.SheetsInv ↔ s.flow.Sheeted := by
  have htotal (n : Nat) : s.returnableSheets n = s.flow.total (Flow.share n) := by
    unfold State.returnableSheets Flow.total
    rfl
  have hpallets : s.flow.pallets = s.pallets := rfl
  unfold State.SheetsInv Flow.Sheeted
  simp only [htotal, hpallets]

/-- Every step of the flow that keeps places and accounts keeps the sheets. -/
theorem Flow.Step.keepsSheets {f g : Flow} (h : Flow.Step f g) (hp : f.Placed) (ha : f.Accounted)
    (hf : f.Sheeted) : g.Sheeted := by
  cases h with
  | @lifted q n t j hq hn _ _ ht => exact (hf.lifted ha.distinct hq hn ht).sub rfl fun _ h => h
  | @taken st k t rest p j hst _ _ ht =>
    refine hf.repiled (t := t) (x := some { p with residency := jobResidency st }) (fun n => ?_) ?_ ?_
    · rw [Flow.share_of_residency rfl] <;> rcases hst with ⟨rfl, _⟩ | ⟨rfl, _⟩ <;> simp [jobResidency]
    all_goals cases k <;> rfl
  | @placed k t rest _ _ _ =>
    refine hf.repiled (t := t) (x := (f.pile t).map fun p => { p with residency := .atKnife, started := true })
      (fun n => ?_) ?_ ?_
    · cases f.pile t with
      | none => exact le_rfl
      | some p => rw [Option.map_some, Flow.share_of_residency (r := .atKnife) rfl (by decide) (by decide)]; exact Nat.zero_le _
    all_goals cases k <;> rfl
  | @knifeHeld t p r _ _ ht =>
    refine hf.repiled (t := t)
      (x := some { p with residency := .held, hold := some { reason := r, station := .knife } }) (fun n => ?_) rfl rfl
    rw [Flow.share_of_hold rfl rfl Station.noConfusion]; exact Nat.zero_le _
  | @knifeIssued t p p' j _ _ _ _ hr _ =>
    refine hf.repiled (t := t) (x := some p') (fun n => ?_) rfl rfl
    rw [Flow.share_of_residency hr (by decide) (by decide)]; exact Nat.zero_le _
  | @jobQueued st k t g l _ hg _ _ _ =>
    refine hf.repiled (t := t) (x := (f.pile t).map g) (fun n => ?_) ?_ ?_
    · cases f.pile t with
      | none => exact le_rfl
      | some p =>
        rw [Option.map_some, Flow.share_of_residency (hg p).2 (by cases k <;> decide) (by cases k <;> decide)]
        exact Nat.zero_le _
    all_goals cases k <;> rfl
  | @jobHeld st t r ht =>
    refine hf.repiled (t := t) (x := (f.pile t).map (heldRecord f st r)) (fun n => ?_) rfl rfl
    obtain ⟨p, htp, hres⟩ := Flow.pile_of_residence (hp.residence_of_tag ht)
    rw [htp, Option.map_some]
    by_cases hst : st = .lift
    · subst hst
      refine le_of_eq ?_
      have hp1 : returnable (heldRecord f .lift r p) = true := by simp [returnable, heldRecord]
      have hp2 : returnable p = true := by simp [returnable, hres, jobResidency]
      simp only [Flow.share, hp1, hp2]
      rfl
    · rw [Flow.share_of_hold rfl rfl hst]; exact Nat.zero_le _
  | @rejogged t p n j _ _ ht =>
    refine hf.repiled (t := t) (x := some { p with attempt := n }) (fun k => le_of_eq ?_) rfl rfl
    rw [ht]; rfl
  | @cutWasted t p p' _ _ _ hr _ =>
    refine hf.repiled (t := t) (x := some p') (fun n => ?_) rfl rfl
    rw [Flow.share_of_residency hr (by decide) (by decide)]; exact Nat.zero_le _
  | @cutKept t child p p' c _ ht _ hr _ hchild _ hcr =>
    have hborn : (f.setPile child (some c)).Sheeted := by
      refine hf.repiled (t := child) (x := some c) (fun n => ?_) rfl rfl
      rw [Flow.share_of_residency hcr (by decide) (by decide)]; exact Nat.zero_le _
    refine (hborn.touched (n := p.pallet) (h := fun q => { q with live := q.live + 1 }) (fun _ => rfl)
      (fun _ h => h) fun _ => le_rfl).repiled (t := t) (x := some p') (fun n => ?_) rfl rfl
    rw [Flow.share_of_residency hr (by decide) (by decide)]; exact Nat.zero_le _
  | @knifeAborted t g ht hg =>
    refine hf.repiled (t := t) (x := (f.pile t).map g) (fun n => ?_) rfl rfl
    cases f.pile t with
    | none => exact le_rfl
    | some p =>
      rw [Option.map_some, Flow.share_of_residency (hg p).2 (by decide) (by decide)]; exact Nat.zero_le _
  | @jobFreed st t account ht hst =>
    obtain ⟨p, htp, hres⟩ := Flow.pile_of_residence (hp.residence_of_tag ht)
    refine (hf.free htp ?_).sub rfl fun _ h => h
    rcases hst with ⟨_, rfl, _⟩ | ⟨rfl, rfl⟩
    · exact .inl rfl
    · exact .inr (.inr ⟨rfl, by simp [returnable, hres, jobResidency]⟩)
  | idled _ => exact hf.sub rfl fun _ h => h
  | @putBack k t p p' _ _ _ hr _ =>
    refine hf.repiled (t := t) (x := some p') (fun n => ?_) ?_ ?_
    · rw [Flow.share_of_residency hr (by cases k <;> decide) (by cases k <;> decide)]; exact Nat.zero_le _
    all_goals cases k <;> rfl
  | @discarded t p account ht hres hst =>
    refine hf.free ht ?_
    rcases hst with rfl | ⟨⟨hold, hhold, hlift⟩, rfl⟩
    · exact .inr (.inl rfl)
    · exact .inr (.inr ⟨rfl, by simp [returnable, hres, hhold, hlift]⟩)
  | palletCancelled n =>
    exact (hf.touched (n := n) (h := accountCancelled) (fun _ => rfl)
      (fun q h => by simp only [accountCancelled]; omega) fun _ => le_rfl).finish n
  | cleared => exact fun q hq => by cases hq

theorem sheets_kept {s t : State} (hplace : s.PlaceInv) (haccounts : s.AccountsInv) (hs : s.SheetsInv)
    (h : step s = .next t) : t.SheetsInv := by
  rw [State.placeInv_iff] at hplace
  rw [State.accountsInv_iff] at haccounts
  rw [State.sheetsInv_iff] at hs ⊢
  exact (step_keeps_flow (P := fun f => f.Placed ∧ f.Accounted ∧ f.Sheeted)
    (fun _ _ hstep hf => ⟨hstep.keepsPlaces hf.1, hstep.keepsAccounts hf.2.1,
      hstep.keepsSheets hf.1 hf.2.1 hf.2.2⟩)
    (fun _ d p hroom hf => ⟨hf.1.queued d p, hf.2.1.queued d p hroom, hf.2.2.queued hf.2.1 d p⟩) h
    ⟨hplace, haccounts, hs⟩).2.2

end Sys2Proof.Machine
end

section
/-! Programs in use (R78, R138 to R145): they have neither a load session nor a program operation, and their entries stay
VALID. -/

namespace Sys2Proof.Machine

open Relation (ReflTransGen)

/-! ### The programs that the flow uses -/

/-- A program with a use count above 0. -/
def Flow.used (f : Flow) (p : ProgNo) : Prop := 0 < look f.useCounts p

section
variable {f g : Flow} {p : ProgNo}

theorem Flow.used_of_dropUse {q : ProgNo} (h : (f.dropUse q).used p) : f.used p := by
  unfold Flow.used Flow.dropUse at h
  rw [look_put] at h
  unfold Flow.used
  split at h
  · rename_i hq; subst hq; omega
  · exact h

theorem Flow.used_of_finish {n : Nat} (h : (f.finish n).used p) : f.used p := by
  unfold Flow.finish at h
  split at h
  · exact h
  · split at h
    · exact (Flow.used_of_dropUse (f := { f with pallets := f.pallets.filter fun x => x.seq ≠ n }) h)
    · exact h

theorem Flow.used_of_free {t : Tag} {account : Nat → Pallet → Pallet} (h : (f.free t account).used p) :
    f.used p := by
  unfold Flow.free at h
  split at h
  · exact h
  · rename_i q _
    exact Flow.used_of_dropUse (f := f.setPile t none) (Flow.used_of_finish (f := ((f.setPile t none).dropUse
      q.program).modifyPallet q.pallet fun x => account q.sheets { x with live := x.live - 1 }) h)

theorem Flow.used_of_addUse {q : ProgNo} (h : (f.addUse q).used p) : f.used p ∨ p = q := by
  unfold Flow.used Flow.addUse at h
  rw [look_put] at h
  split at h
  · rename_i hq; exact .inr hq.symm
  · exact .inl h

/-- A program that a pallet or a pile names is used. -/
theorem Flow.Accounted.used_of_pallet (hf : f.Accounted) {q : Pallet} (hq : q ∈ f.pallets) : f.used q.program := by
  unfold Flow.used
  rw [hf.uses]
  have hmem : q ∈ f.pallets.filter fun x => x.program = q.program := List.mem_filter.2 ⟨hq, by simp⟩
  have := List.length_pos_of_mem hmem
  omega

theorem Flow.Accounted.used_of_pile (hf : f.Accounted) {t : Tag} {x : Pile} (hx : f.pile t = some x) :
    f.used x.program := by
  unfold Flow.used
  rw [hf.uses]
  have hmem : ((f.pile t).any fun y => y.program = x.program).toNat ∈
      allTags.map fun u => ((f.pile u).any fun y => y.program = x.program).toNat :=
    List.mem_map_of_mem (mem_allTags t)
  have hle := List.single_le_sum (fun _ _ => Nat.zero_le _) _ hmem
  rw [hx] at hle
  simp only [Option.any_some, decide_true, Bool.toNat_true] at hle
  have : 1 ≤ f.users x.program := hle
  omega

/-- But for PALLET_QUEUE no program comes into use. -/
theorem Flow.Step.used_of (h : Flow.Step f g) (hf : f.Accounted) (hu : g.used p) : f.used p := by
  cases h with
  | @lifted q n t j hq _ _ _ _ =>
    rcases Flow.used_of_addUse
      (f := (f.modifyPallet q.seq (accountLifted n)).setPile t (some (liftedPile q n))) hu with h | rfl
    · exact h
    · exact hf.used_of_pallet hq
  | @cutKept t child p1 p' c _ ht _ _ _ _ _ _ =>
    rcases Flow.used_of_addUse (f := (f.setPile child (some c)).setQueue .stack (child :: f.returnStack)) hu with
      h | rfl
    · exact h
    · exact hf.used_of_pile ht
  | @taken st k t rest p j _ _ _ _ => cases k <;> exact hu
  | @placed k t rest _ _ _ => cases k <;> exact hu
  | @jobQueued st k t g l _ _ _ _ _ => cases k <;> exact hu
  | @putBack k t p p' _ _ _ _ _ => cases k <;> exact hu
  | jobFreed _ _ => exact Flow.used_of_free hu
  | discarded _ _ _ => exact Flow.used_of_free hu
  | palletCancelled n => exact Flow.used_of_finish (f := f.modifyPallet n accountCancelled) hu
  | cleared =>
    have : look f.clear.useCounts p = 0 := look_replicate 0 p
    unfold Flow.used at hu
    omega
  | knifeHeld _ _ _ _ | knifeIssued _ _ _ _ _ _ | jobHeld _ _ | rejogged _ _ _ | cutWasted _ _ _ _ _
  | knifeAborted _ _ | idled _ => exact hu

theorem Flow.Step.path_used (h : ReflTransGen Flow.Step f g) (hf : f.Accounted) :
    g.Accounted ∧ ∀ p, g.used p → f.used p := by
  induction h with
  | refl => exact ⟨hf, fun _ h => h⟩
  | tail _ hlast ih =>
    exact ⟨hlast.keepsAccounts ih.1, fun p hp => ih.2 p (hlast.used_of ih.1 hp)⟩

end

/-! ### The Program Store -/

namespace Store

def entry (x : Store) (p : ProgNo) : Entry := look x.work.entries p

def engaged (x : Store) (p : ProgNo) : Prop := ∃ op, x.progOp = some op ∧ op.program = p

/-- A directory write in progress changes the entry of the operation's program only. -/
def Faithful (x : Store) : Prop :=
  ∀ v, imageEntries x.storeWrite = some v → ∀ p, ¬ x.engaged p → look v p = x.entry p

/-- `State.ProgramsInv` for the programs used. -/
structure Serves (x : Store) (used : ProgNo → Prop) : Prop where
  session : ∀ p, used p → ∀ y, x.session = some y → y.program ≠ p
  operation : ∀ p, used p → ¬ x.engaged p
  valid : ∀ p, used p → (x.entry p).state = .valid
  apart : x.session = none ∨ x.progOp = none
  image : x.Faithful

/-- Only the write in progress and the stage of the operation differ, and the write is faithful if it is another. -/
structure Follows (x y : Store) : Prop where
  work : y.work = x.work
  session : y.session = x.session
  program : y.progOp.map ProgOp.program = x.progOp.map ProgOp.program
  image : y.storeWrite = x.storeWrite ∨ y.Faithful

variable {x y z : Store} {used used' : ProgNo → Prop}

theorem Follows.refl (x : Store) : x.Follows x := ⟨rfl, rfl, rfl, .inl rfl⟩

theorem engaged_iff (p : ProgNo) : x.engaged p ↔ x.progOp.map ProgOp.program = some p :=
  Option.map_eq_some_iff.symm

theorem not_engaged_of_none (h : x.progOp = none) (p : ProgNo) : ¬ x.engaged p := by
  rw [engaged_iff, h]; simp

theorem Follows.engaged (h : x.Follows y) (p : ProgNo) : y.engaged p ↔ x.engaged p := by
  rw [engaged_iff, engaged_iff, h.program]

theorem Faithful.of_eq (hx : x.Faithful) (hw : y.storeWrite = x.storeWrite) (hwork : y.work = x.work)
    (he : ∀ p, x.engaged p → y.engaged p) : y.Faithful := by
  intro v hv p hp
  rw [hw] at hv
  rw [hx v hv p fun h => hp (he p h), entry, entry, hwork]

theorem Serves.mono (h : x.Serves used) (hused : ∀ p, used' p → used p) : x.Serves used' :=
  ⟨fun p hp => h.session p (hused p hp), fun p hp => h.operation p (hused p hp),
    fun p hp => h.valid p (hused p hp), h.apart, h.image⟩

theorem Serves.follows (h : x.Serves used) (hf : x.Follows y) : y.Serves used := by
  obtain ⟨hs, ho, hv, ha, hi⟩ := h
  refine ⟨fun p hp z hz => hs p hp z (hf.session ▸ hz), fun p hp he => ho p hp ((hf.engaged p).1 he),
    fun p hp => ?_, ?_, ?_⟩
  · rw [entry, hf.work]; exact hv p hp
  · refine ha.imp (fun h => hf.session.trans h) fun h => ?_
    have := hf.program
    rw [h] at this
    exact Option.map_eq_none_iff.1 this
  · rcases hf.image with hw | hi'
    · exact hi.of_eq hw hf.work fun p => (hf.engaged p).2
    · exact hi'

theorem faithful_of_none (h : imageEntries x.storeWrite = none) : x.Faithful := by
  intro v hv; rw [h] at hv; cases hv

end Store

theorem State.programsInv_iff (s : State) : s.ProgramsInv ↔ s.store.Serves s.flow.used :=
  ⟨fun h => ⟨h.session, h.operation, h.valid, h.apart, h.image⟩,
    fun h => ⟨h.session, h.operation, h.valid, h.apart, h.image⟩⟩

/-! ### The Store Controller's writes -/

section
variable {s : State}

/-- A directory write of an image whose entries are the working copy's but for the operation's program. -/
theorem State.startDirWrite_follows {d : Directory} (purpose : DirPurpose)
    (hd : ∀ p, ¬ s.store.engaged p → look d.entries p = s.store.entry p) :
    s.store.Follows (s.startDirWrite d purpose).store := by
  refine ⟨rfl, rfl, rfl, .inr fun v hv p hp => ?_⟩
  injection hv with hv
  subst hv
  exact hd p hp

theorem State.startBlockWrite_follows {op op' : ProgOp} (h : s.progOp = some op') (ho : op'.program = op.program)
    (blocks : List BlockNo) (n : Nat) : s.store.Follows (s.startBlockWrite op blocks n).store := by
  unfold State.startBlockWrite
  split
  · exact .refl _
  · refine ⟨rfl, rfl, ?_, .inr (Store.faithful_of_none rfl)⟩
    show some op.program = s.progOp.map ProgOp.program
    rw [h, Option.map_some, ho]

theorem Store.Follows.trans {x y z : Store} (h : x.Follows y) (h' : y.Follows z) : x.Follows z := by
  refine ⟨h'.work.trans h.work, h'.session.trans h.session, h'.program.trans h.program, ?_⟩
  rcases h'.image with hw | hi
  · rcases h.image with hw' | hi
    · exact .inl (hw.trans hw')
    · exact .inr (hi.of_eq hw h'.work fun p => (h'.engaged p).2)
  · exact .inr hi

/-- The stage of the operation changed. -/
theorem State.stage_follows {op op' : ProgOp} (h : s.progOp = some op) (ho : op'.program = op.program) :
    s.store.Follows ({ s with progOp := some op' } : State).store := by
  refine ⟨rfl, rfl, ?_, .inl rfl⟩
  show some op'.program = s.progOp.map ProgOp.program
  rw [h, Option.map_some, ho]

theorem State.store_engaged {op : ProgOp} (h : s.progOp = some op) : s.store.engaged op.program := ⟨op, h, rfl⟩

theorem look_put_of_not_engaged {op : ProgOp} (h : s.progOp = some op) (e : Entry) {p : ProgNo}
    (hp : ¬ s.store.engaged p) : look (put s.work.entries op.program e) p = s.store.entry p :=
  look_put_other _ _ fun he => hp (he ▸ State.store_engaged h)

theorem State.startOp_follows {op : ProgOp} (h : s.progOp = some op) : s.store.Follows (s.startOp op).store := by
  unfold State.startOp
  split
  · refine (State.stage_follows (op' := { op with stage := .eraseWrite }) h rfl).trans ?_
    refine State.startDirWrite_follows _ fun p hp => ?_
    exact look_put_of_not_engaged (s := { s with progOp := some { op with stage := .eraseWrite } }) rfl _ hp
  · dsimp only
    split
    · exact .refl _
    · exact State.startBlockWrite_follows h rfl _ _

theorem State.startNext_follows : s.store.Follows s.startNext.store := by
  unfold State.startNext
  split
  · split
    · rename_i op hop
      split
      · split
        · exact State.startDirWrite_follows _ fun _ _ => rfl
        · exact State.startOp_follows hop
      · exact .refl _
    · split
      · exact State.startDirWrite_follows _ fun _ _ => rfl
      · exact .refl _
  · exact .refl _

/-- A block read back with no difference, and the Store Controller IDLE. -/
def State.blockStored (s : State) (p : ProgNo) (steps : List PackedStep) (position : Nat) (b : BlockNo) : State :=
  { s with nv := { s.nv with blocks := put s.nv.blocks b (blockOf p steps position) }, storeWrite := .idle }

theorem State.blockWritten_eq (op : ProgOp) (steps : List PackedStep) (check : BitVec 16) (blocks : List BlockNo)
    (position : Nat) (b : BlockNo) : s.blockWritten op steps check blocks position b =
      if position + 1 < blocks.length then
        (s.blockStored op.program steps position b).startBlockWrite op blocks (position + 1)
      else
        { s.blockStored op.program steps position b with
          progOp := some { op with stage := .commitPoint } }.startDirWrite
          (s.bladeImage (commitImage s.work op.program steps check blocks)) .operation := rfl

theorem State.blockWritten_follows {op : ProgOp} (h : s.progOp = some op) (steps : List PackedStep)
    (check : BitVec 16) (blocks : List BlockNo) (position : Nat) (b : BlockNo) :
    s.store.Follows (s.blockWritten op steps check blocks position b).store := by
  have hidle : s.store.Follows (s.blockStored op.program steps position b).store :=
    ⟨rfl, rfl, rfl, .inr (Store.faithful_of_none rfl)⟩
  have hop : (s.blockStored op.program steps position b).progOp = some op := h
  rw [State.blockWritten_eq]
  split
  · exact hidle.trans (State.startBlockWrite_follows hop rfl _ _)
  · refine (hidle.trans (State.stage_follows (op' := { op with stage := .commitPoint }) hop rfl)).trans ?_
    refine State.startDirWrite_follows _ fun p hp => ?_
    exact look_put_other _ _ fun he => hp ⟨_, rfl, he⟩

theorem State.blockFailed_follows {op : ProgOp} (h : s.progOp = some op) (b : BlockNo) :
    s.store.Follows (s.blockFailed op b).store := by
  have hidle : s.store.Follows ({ s with storeWrite := .idle } : State).store :=
    ⟨rfl, rfl, rfl, .inr (Store.faithful_of_none rfl)⟩
  refine (hidle.trans (State.stage_follows (op' := { op with stage := .markBad }) h rfl)).trans ?_
  exact State.startDirWrite_follows _ fun _ _ => rfl

theorem State.blockWriteEnd_follows (isMatch : Bool) : s.store.Follows (s.blockWriteEnd isMatch).store := by
  unfold State.blockWriteEnd
  split
  · rename_i b op hw hop
    split
    · split
      · exact State.blockWritten_follows hop _ _ _ _ b
      · exact State.blockFailed_follows hop b
    · exact .refl _
  · exact .refl _

/-- The operation ended, with no directory write in progress. -/
theorem State.opEnd_serves {used : ProgNo → Prop} (h : s.store.Serves used)
    (hw : imageEntries s.storeWrite = none) (ev : Event) : (s.opEnd ev).store.Serves used := by
  have hnone : (({ s with progOp := none } : State).raise ev).store.Serves used := by
    rw [State.raise_store]
    exact ⟨h.session, fun p _ => Store.not_engaged_of_none rfl p, h.valid, .inr rfl, Store.faithful_of_none hw⟩
  exact hnone.follows State.startNext_follows

theorem State.opWriteEnd_serves {used : ProgNo → Prop} (h : s.store.Serves used)
    (hw : imageEntries s.storeWrite = none) {op : ProgOp} (hop : s.progOp = some op) (completed : Bool)
    (old : Entry) : (s.opWriteEnd op completed old).store.Serves used := by
  unfold State.opWriteEnd
  split
  · split
    · exact State.opEnd_serves h hw _
    · split
      · exact State.opEnd_serves h hw _
      · refine h.follows ((State.stage_follows (op' := { op with stage := .releaseOld old.blocks }) hop rfl).trans ?_)
        exact State.startDirWrite_follows _ fun _ _ => rfl
  · exact State.opEnd_serves h hw _
  · exact State.opEnd_serves h hw _
  · exact State.opEnd_serves h hw _
  · exact h
  · exact h

theorem State.dirWriteFollow_serves {used : ProgNo → Prop} (h : s.store.Serves used)
    (hw : imageEntries s.storeWrite = none) (purpose : DirPurpose) (completed : Bool) (before : Directory) :
    (s.dirWriteFollow purpose completed before).store.Serves used := by
  unfold State.dirWriteFollow
  split
  · exact h
  · refine Store.Serves.follows ?_ State.startNext_follows
    split
    · exact h
    · rw [State.raise_store]; exact h
  · split
    · exact h
    · rename_i op hop
      exact State.opWriteEnd_serves h hw hop _ _

theorem State.dirWriteEnd_serves {used : ProgNo → Prop} (h : s.store.Serves used) (isMatch : Bool) :
    (s.dirWriteEnd isMatch).store.Serves used := by
  unfold State.dirWriteEnd
  split
  · rename_i target generation image purpose second hw
    have hentry (p : ProgNo) (hp : ¬ s.store.engaged p) : look image.entries p = s.store.entry p :=
      h.image image.entries (by show imageEntries s.storeWrite = _; rw [hw]; rfl) p hp
    split
    · refine State.dirWriteFollow_serves ?_ rfl _ _ _
      refine ⟨h.session, h.operation, fun p hp => ?_, h.apart, Store.faithful_of_none rfl⟩
      have hv := h.valid p hp
      rw [← hentry p (h.operation p hp)] at hv
      exact hv
    · split
      · refine ⟨h.session, h.operation, h.valid, h.apart, fun v hv p hp => ?_⟩
        injection hv with hv
        subst hv
        exact hentry p hp
      · refine State.dirWriteFollow_serves ?_ rfl _ _ _
        exact ⟨h.session, h.operation, h.valid, h.apart, Store.faithful_of_none rfl⟩
  · exact h

/-! ### Commands -/

theorem State.bladeRise_follows : s.store.Follows s.bladeRise.store := by
  have htest (x : State) : x.bladeTest.store = x.store := by
    rw [State.bladeTest_frame]; rfl
  unfold State.bladeRise
  split
  · exact .refl _
  · dsimp only
    rw [htest]
    split
    · exact State.startNext_follows (s := { s with
        blade := { s.blade with counter := s.blade.counter + 1 }, bladeSave := true })
    · exact .refl _

theorem State.completeCut_follows {t : Tag} {p : Pile} {keep : Bool} {u : State}
    (h : s.completeCut t p keep = .ok u) : s.store.Follows u.store := by
  obtain ⟨_, distance, _, _, v, _, hv, rfl⟩ := State.completeCut_cases h
  have hstore : (v.putPile t (some (s.cutRecord p distance))).store = s.store := by
    rcases hv with ⟨_, hv⟩ | ⟨_, rfl⟩
    · obtain ⟨child, _, rfl⟩ := State.makeChild_cases hv; rfl
    · rfl
  rw [State.endJob_store, ← hstore]
  exact State.bladeRise_follows

theorem State.completeKnife_follows {t : Tag} {p : Pile} {u : State} (h : s.completeKnife t p = .ok u) :
    s.store.Follows u.store := by
  obtain ⟨j, _, ⟨_, h⟩ | ⟨_, rfl⟩ | ⟨_, rfl⟩ | ⟨_, rfl⟩⟩ := State.completeKnife_cases h
  · exact State.completeCut_follows h
  · exact .refl _
  · exact .refl _
  · have hstore := State.freeRecord_store (s := s) t accountDelivered
    exact Eq.subst (motive := s.store.Follows) hstore.symm (.refl _)

theorem JobEffect.follows {u : State} (h : JobEffect s u) : s.store.Follows u.store := by
  have same {u : State} (h : u.store = s.store) : s.store.Follows u.store := h ▸ .refl _
  cases h with
  | nothing => exact .refl _
  | begun _ => exact .refl _
  | waited _ hsel => exact same (State.select_frame hsel).store
  | issued _ hsel => exact same (State.select_frame hsel).store
  | liftDone value _ => exact same (State.completeLift_store _ _ value)
  | jogDone tag value _ => exact same (State.completeJog_store _ _ tag value)
  | knifeDone _ hk => exact State.completeKnife_follows hk
  | turnDone _ => exact .refl _
  | failed r _ _ => exact same (State.failJob_store _ _ r)
  | aborted _ _ => exact same (State.abortJob_store _ _)
  | expired st => exact same (State.expireJob_store st)

theorem DrainTested.store {u t : State} (h : DrainTested s u t) (hports : t.ports = u.ports)
    (hpins : t.pins = u.pins) : t.store = u.store := by
  rcases h.cases hports hpins with ⟨_, rfl⟩ | ⟨_, ht, _⟩
  · rfl
  · rw [ht]; rfl

theorem DrainPiece.follows {u : State} (h : DrainPiece s u) : s.store.Follows u.store := by
  cases h with
  | line h => rw [h.store]; exact .refl _
  | tested he hd hports hpins => rw [hd.store hports hpins]; exact he.follows
  | lowered st n => exact .refl _

/-- The checks that LOAD_BEGIN and PROG_ERASE share (R138, R144). -/
theorem State.storeBusy_none {p : ProgNo} (h : s.storeBusy p = none) :
    s.session = none ∧ s.progOp = none ∧ ¬ s.flow.used p := by
  unfold State.storeBusy at h
  split at h
  · cases h
  · rename_i hfree
    split at h
    · cases h
    · rename_i huse
      simp only [Bool.or_eq_true, not_or, Option.not_isSome_iff_eq_none] at hfree
      exact ⟨hfree.1, hfree.2, huse⟩

/-- A program operation handed over for a program that is not used. -/
theorem State.handed_serves {used : ProgNo → Prop} (h : s.store.Serves used) (hop : s.progOp = none) {op : ProgOp}
    (hfree : ¬ used op.program) (hs : s.session = none) :
    ({ s with progOp := some op } : State).store.Serves used := by
  refine ⟨h.session, fun p hp he => ?_, h.valid, .inl hs, fun v hv p _ => ?_⟩
  · obtain ⟨op', hop', rfl⟩ := he
    injection hop' with hop'
    exact hfree (hop' ▸ hp)
  · exact h.image v hv p (Store.not_engaged_of_none hop p)

theorem State.lineReset_serves {used : ProgNo → Prop} (h : s.store.Serves used) :
    s.lineReset.store.Serves s.lineReset.flow.used := by
  have hnone (p : ProgNo) : ¬ s.lineReset.flow.used p := by
    have : look s.lineReset.flow.useCounts p = 0 := look_replicate 0 p
    unfold Flow.used
    omega
  exact ⟨fun p hp => absurd hp (hnone p), fun p hp => absurd hp (hnone p), fun p hp => absurd hp (hnone p), .inl rfl,
    h.image.of_eq rfl rfl fun _ h => h⟩

/-- What the scan leaves of the Program Store: no session and no operation, and a write of the working copy if one. -/
theorem State.scanStart_serves {used : ProgNo → Prop} (hs : s.session = none) (hop : s.progOp = none)
    (hw : s.storeWrite = .idle) (hu : ∀ p, ¬ used p) : s.scanStart.store.Serves used := by
  have hbase (x : State) (hx : x.session = none) (hxop : x.progOp = none)
      (himage : ∀ v, imageEntries x.storeWrite = some v → v = x.work.entries) : x.store.Serves used :=
    ⟨fun p hp => absurd hp (hu p), fun p hp => absurd hp (hu p), fun p hp => absurd hp (hu p), .inl hx,
      fun v hv p _ => by rw [himage v hv]; rfl⟩
  unfold State.scanStart
  split
  · rw [State.raise_store]
    exact hbase _ hs hop fun v hv => by injection hv with hv; exact hv.symm
  · dsimp only
    rw [State.raiseAll_frame]
    split
    · refine hbase _ hs hop fun v hv => ?_
      have hv' : imageEntries s.storeWrite = some v := hv
      rw [hw] at hv'
      cases hv'
    · exact hbase _ hs hop fun v hv => by injection hv with hv; exact hv.symm

theorem State.hardwareReset_serves (haltInput : Bool) :
    (s.hardwareReset haltInput).store.Serves (s.hardwareReset haltInput).flow.used := by
  have hnone (p : ProgNo) : ¬ (s.hardwareReset haltInput).flow.used p := by
    have : look (s.hardwareReset haltInput).flow.useCounts p = 0 := by
      rw [State.hardwareReset_frame]; exact look_replicate 0 p
    unfold Flow.used
    omega
  unfold State.hardwareReset at hnone ⊢
  refine State.scanStart_serves ?_ ?_ ?_ hnone
  all_goals (cases haltInput <;> rfl)

end

/-! ### Every command -/

/-- The law with the accounts that it rests on. -/
def State.Programmed (s : State) : Prop := s.flow.Accounted ∧ s.store.Serves s.flow.used

theorem State.Programmed.follows {s t : State} (hs : s.Programmed) (hflow : ReflTransGen Flow.Step s.flow t.flow)
    (hstore : s.store.Follows t.store) : t.Programmed := by
  obtain ⟨ha, hused⟩ := Flow.Step.path_used hflow hs.1
  exact ⟨ha, (hs.2.mono hused).follows hstore⟩

/-- A change of the Program Store alone. -/
theorem State.Programmed.stored {s t : State} (hs : s.Programmed) (hflow : t.flow = s.flow)
    (hstore : s.store.Serves s.flow.used → t.store.Serves s.flow.used) : t.Programmed := by
  unfold State.Programmed
  rw [hflow]
  exact ⟨hs.1, hstore hs.2⟩

theorem DrainPiece.keepsPrograms {s t : State} (h : DrainPiece s t) (hs : s.Programmed) : t.Programmed :=
  hs.follows h.steps h.follows

theorem State.queuePallet_programmed {s : State} {p : ProgNo} (hs : s.Programmed) (hv : (s.entry p).state = .valid)
    (hl : s.loading p = false) (ho : s.operating p = false) (hroom : s.pallets.length < 4) :
    (s.queuePallet p).Programmed := by
  obtain ⟨ha, hserves⟩ := hs
  refine ⟨ha.queued s.draft p hroom, ?_⟩
  have hused (q : ProgNo) (hq : (s.queuePallet p).flow.used q) : s.flow.used q ∨ q = p :=
    Flow.used_of_addUse (f := { s.flow with
      pallets := s.pallets ++ [queuedPallet s.draft p s.nextSeq], seqCounter := s.nextSeq }) hq
  refine ⟨fun q hq x hx => ?_, fun q hq he => ?_, fun q hq => ?_, hserves.apart, hserves.image⟩
  · rcases hused q hq with hq | rfl
    · exact hserves.session q hq x hx
    · have hx' : s.session = some x := hx
      rw [State.loading, hx'] at hl
      simpa using hl
  · rcases hused q hq with hq | rfl
    · exact hserves.operation q hq he
    · obtain ⟨op, hop, rfl⟩ := he
      have hop' : s.progOp = some op := hop
      rw [State.operating, hop'] at ho
      simp at ho
  · rcases hused q hq with hq | rfl
    · exact hserves.valid q hq
    · exact hv

theorem PlainPiece.keepsPrograms {s t : State} (h : PlainPiece s t) (hs : s.Programmed) : t.Programmed := by
  have hfollows (hpath : ReflTransGen Flow.Step s.flow t.flow) (hstore : t.store = s.store) : t.Programmed :=
    hs.follows hpath (hstore ▸ .refl _)
  cases h with
  | line h => exact hs.stored h.flow fun hx => by rw [h.store]; exact hx
  | queued hv hl ho hroom => exact State.queuePallet_programmed hs hv hl ho hroom
  | lineReset => exact ⟨by rw [State.lineReset_flow]; exact .cleared _, State.lineReset_serves hs.2⟩
  | hardwareReset haltInput =>
    refine ⟨?_, State.hardwareReset_serves haltInput⟩
    rw [State.hardwareReset_frame]
    exact (State.volatileReset_flow (s := s) s.nv s.pending s.freeCtr) ▸ Flow.Accounted.cleared s.flow
  | @cancelled n q hq =>
    refine hfollows ?_ (State.finishTest_store n)
    rw [State.finishTest_flow]
    exact .single (.palletCancelled n)
  | released hp hres hhold ha =>
    exact hfollows (.single (State.releasePile_step hp hres hhold ha)) (State.releasePile_store ha)
  | bladeChanged =>
    exact hs.stored State.startNext_flow fun hx => hx.follows (State.startNext_follows (s := { s with
      blade := { counter := 0, warnLatch := false, overdueLatch := false }, bladeSave := true }))
  | @sessionOpened x hbusy =>
    obtain ⟨_, hop, hfree⟩ := State.storeBusy_none hbusy
    refine hs.stored rfl fun hx => ⟨fun p hp y hy => ?_, hx.operation, hx.valid, .inr hop, hx.image⟩
    injection hy with hy
    subst hy
    exact fun he => hfree (he ▸ hp)
  | @sessionFilled x y hsx hy =>
    refine hs.stored rfl fun hx => ⟨fun p hp z hz => ?_, hx.operation, hx.valid, ?_, hx.image⟩
    · injection hz with hz
      subst hz
      rw [hy]
      exact hx.session p hp x hsx
    · exact hx.apart.imp (fun h => by rw [show s.session = none from h] at hsx; cases hsx) id
  | sessionClosed =>
    exact hs.stored rfl fun hx => ⟨fun p hp z hz => (by cases hz), hx.operation, hx.valid, .inl rfl, hx.image⟩
  | @commitHanded x hsx =>
    refine hs.stored State.startNext_flow fun hx => Store.Serves.follows ?_ State.startNext_follows
    have hop : s.progOp = none := by
      rcases hx.apart with h | h
      · rw [show s.session = none from h] at hsx; cases hsx
      · exact h
    refine State.handed_serves (s := { s with session := none }) ?_ hop (fun hu => hx.session _ hu x hsx rfl) rfl
    exact ⟨fun p hp z hz => (by cases hz), hx.operation, hx.valid, .inl rfl, hx.image⟩
  | @eraseHanded p hbusy =>
    obtain ⟨hsession, hop, hfree⟩ := State.storeBusy_none hbusy
    exact hs.stored State.startNext_flow fun hx =>
      (State.handed_serves (op := { program := p, kind := .erase, stage := .pending }) hx hop hfree hsession).follows
        State.startNext_follows
  | haltReleased => exact hs.stored State.releaseHalt_flow fun hx => by rw [State.releaseHalt_store]; exact hx
  | scanFinished => exact hs.stored State.scanFinish_flow fun hx => by rw [State.scanFinish_store]; exact hx
  | blockWriteEnded isMatch =>
    exact hs.stored (State.blockWriteEnd_flow isMatch) fun hx => hx.follows (State.blockWriteEnd_follows isMatch)
  | dirWriteEnded isMatch =>
    exact hs.stored (State.dirWriteEnd_flow isMatch) fun hx => State.dirWriteEnd_serves hx isMatch
  | discarded p cause =>
    rw [State.discardFrame_frame]
    exact hs
  | retested =>
    rw [State.bladeRetest_frame]
    exact hs
  | haltAsserted =>
    rw [State.assertHalt_frame]
    exact hs
  | extended st => exact hs.stored (State.putCtx_flow rfl rfl rfl) id
  | wordRead st i => exact hs.stored (State.putCtx_flow rfl rfl rfl) id
  | droppedShown | snapped | eventTaken | started | configured | drafted => exact hs

theorem programs_kept {s t : State} (haccounts : s.AccountsInv) (hs : s.ProgramsInv) (h : step s = .next t) :
    t.ProgramsInv := by
  rw [State.accountsInv_iff] at haccounts
  rw [State.programsInv_iff] at hs ⊢
  exact (step_keeps (P := State.Programmed) (fun _ _ h => h) (fun _ _ hpiece hs => hpiece.keepsPrograms hs)
    (fun _ _ hpiece hs => hpiece.keepsPrograms hs) h ⟨haccounts, hs⟩).2

/-- Settles O15: accounts and sheets by the steps of the flow, programs by those and by the Program Store's pieces. -/
theorem accountsCountRecordsAndSheets : Obligations.AccountsCountRecordsAndSheets :=
  ⟨fun _ _ hs h => accounts_kept hs h, fun _ _ hp ha hs h => sheets_kept hp ha hs h,
    fun _ _ ha hs h => programs_kept ha hs h⟩

end Sys2Proof.Machine
end

section
/-! The faults (R8, R11, R15): where places and reservations are in order no record is missing, and a tag is free for
every kept offcut. -/

namespace Sys2Proof.Machine

open Relation (ReflTransGen)

variable {s : State} {f : Fault}

/-! ### What can fault -/

theorem withDrain_error {α : Type} {effect : State → Except Fault (State × α)} (h : withDrain effect s = .error f) :
    effect s = .error f := by
  unfold withDrain at h
  split at h
  · rename_i e he
    injection h with h
    rw [he, h]
  · split at h <;> cases h

theorem request_fault {p : Port} {code : BitVec 6} {tag : TagField} {action : State → Except Fault (State × Answer)}
    (h : request p code tag action s = .fault f) : action (s.acceptFrame p) = .error f := by
  unfold request at h
  dsimp only at h
  split at h
  · cases h
  · split at h
    · rename_i e he
      injection h with h
      rw [he, h]
    · cases h

theorem plainRequest_no_fault {p : Port} {code : BitVec 6} {tag : TagField} {action : State → State × Answer} :
    plainRequest p code tag action s = .fault f ↔ False :=
  ⟨fun h => (by cases request_fault h), False.elim⟩

theorem event_fault {r : Except Fault (State × Unit)} (h : event r = .fault f) : r = .error f := by
  unfold event at h
  split at h
  · injection h with h; rw [h]
  · cases h

theorem tickStation_no_fault (st : Station) : tickStation st s ≠ .error f := by
  intro h
  unfold tickStation at h
  dsimp only at h
  split at h
  · split at h
    · cases withDrain_error h
    · cases h
  · cases h

theorem tickStations_no_fault (l : List Station) : tickStations l s ≠ .error f := by
  induction l generalizing s with
  | nil => exact fun h => by cases h
  | cons st rest ih =>
    intro h
    rw [tickStations] at h
    split at h
    · rename_i e he
      exact tickStation_no_fault st he
    · exact ih h

theorem nextAction_error {st : Station} (h : nextAction st s = .error f) :
    Selects s st ∧ s.select st = .error f := by
  by_cases hbusy : (s.ctx st).busy = true
  · rw [nextAction_busy hbusy] at h; cases h
  rw [Bool.not_eq_true] at hbusy
  by_cases hline : Admits st s.line
  · by_cases hhalt : s.halt = true
    · rw [nextAction_halt hbusy hline hhalt] at h; cases h
    · rw [Bool.not_eq_true] at hhalt
      rw [nextAction_selects ⟨hbusy, hline, hhalt⟩] at h
      have h := withDrain_error h
      unfold serve at h
      split at h
      · rename_i e he
        injection h with h
        exact ⟨⟨hbusy, hline, hhalt⟩, h ▸ he⟩
      · cases h
      · cases h
  · rw [nextAction_notRunning hbusy hline] at h; cases h

/-- A NEXT that faults comes to its selection, a DONE that faults to its station's completion. -/
theorem exec_fault {c : Instr} (h : exec c s = .fault f) :
    (∃ st, Selects (s.acceptFrame st.port) st ∧ (s.acceptFrame st.port).select st = .error f) ∨
    ∃ st t tag value, ((s.acceptFrame st.port).ctx st).busy = true ∧ ((s.acceptFrame st.port).ctx st).tag = some t ∧
      complete st t tag value (s.acceptFrame st.port) = .error f := by
  cases c with
  | next st =>
    exact .inl ⟨st, nextAction_error (request_fault h)⟩
  | done st tag outcome value =>
    have h := request_fault h
    right
    unfold doneAction at h
    split at h
    · cases h
    · rename_i t hv
      obtain ⟨hb, ht⟩ := State.reportVerdict_eq_current hv
      split at h
      · exact ⟨st, t, tag, value.toNat, hb, ht, withDrain_error h⟩
      · cases withDrain_error h
      · cases h
  | abort st tag =>
    have h := request_fault h
    unfold abortAction at h
    split at h
    · cases h
    · cases withDrain_error h
  | lineStop tag =>
    have h := request_fault h
    unfold lineStopAction at h
    split at h
    · split at h
      · rename_i e he
        cases withDrain_error he
      · cases h
    · cases h
  | timebaseTick => exact absurd (event_fault h) (tickStations_no_fault _)
  | responseTimerExpiry st =>
    have h := event_fault h
    split at h
    · cases withDrain_error h
    · cases h
  | drainComplete => cases withDrain_error (event_fault h)
  | extend | snapshot | snapRead | jobRead | bladeChanged | lineStart | lineReset | configWrite | palletField
  | palletQueue | palletCancel | loadBegin | loadStep | loadEnd | loadAbort | progErase | release | eventRead
  | pileRead | configRead | palletRead | progRead | progInfo =>
    simp only [exec, execExtend, execSnapshot, execSnapRead, execJobRead, execBladeChanged, execLineStart,
      execLineReset, execConfigWrite, execPalletField, execPalletQueue, execPalletCancel, execLoadBegin, execLoadStep,
      execLoadEnd, execLoadAbort, execProgErase, execRelease, execEventRead, execPileRead, execConfigRead,
      execPalletRead, execProgRead, execProgInfo, readRequest, plainRequest_no_fault] at h
  | nop | status | badCommand | frameDiscarded => cases h
  | haltAsserted | haltReleased | hardwareReset | scanEnd | blockWriteDone | directoryWriteDone => cases h

/-! ### Missing records -/

theorem Flow.Placed.pile_of_queue {x : Flow} (hx : x.Placed) {k : Lane} {t : Tag} {rest : List Tag}
    (h : x.queue k = t :: rest) : x.pile t ≠ none := by
  obtain ⟨p, hp, _⟩ := Flow.pile_of_residence (hx.residence_of_queue h).1
  rw [hp]; exact Option.some_ne_none p

theorem Flow.Placed.pile_of_tag {x : Flow} (hx : x.Placed) {st : Station} {t : Tag} (h : x.tag st = some t) :
    x.pile t ≠ none := by
  obtain ⟨p, hp, _⟩ := Flow.pile_of_residence (hx.residence_of_tag h)
  rw [hp]; exact Option.some_ne_none p

theorem Flow.Placed.pile_of_knife {x : Flow} (hx : x.Placed) {t : Tag} (h : x.knifePile = some t)
    (hb : x.busy .knife = false) : x.pile t ≠ none := by
  obtain ⟨p, hp, _⟩ := Flow.pile_of_residence (hx.residence_of_knife h hb)
  rw [hp]; exact Option.some_ne_none p

theorem State.dispatch_error {t : Tag} {p : Pile} (h : s.dispatch t p = .error f) : f = .stepUnknown := by
  unfold State.dispatch at h
  split at h
  · injection h with h; exact h.symm
  · split at h
    · cases h
    · split at h
      · cases h
      · split at h <;> cases h
  · cases h
  · cases h
  · cases h

theorem State.knifeSearch_error (fuel : Nat) : ∀ {s : State}, s.flow.Placed → (s.ctx .knife).busy = false →
    State.knifeSearch fuel s = .error f → f = .stepUnknown := by
  induction fuel with
  | zero => intro s _ _ h; cases h
  | succ n ih =>
    intro s hs hb h
    rw [State.knifeSearch_succ] at h
    split at h
    · cases h
    · rename_i t s1 hc
      obtain ⟨hk, _⟩ := State.chosen_cases hc
      have hs1 : s1.flow.Placed := Flow.Step.path_keeps (fun _ _ hstep => hstep.keepsPlaces) (State.chosen_steps hc) hs
      have hb1 : (s1.ctx .knife).busy = false := by rw [State.chosen_frame hc]; exact hb
      split at h
      · rename_i hp
        exact absurd hp (hs1.pile_of_knife hk hb1)
      · rename_i p hp
        split at h
        · rename_i e he
          injection h with h
          exact h ▸ State.dispatch_error he
        · cases h
        · rename_i s2 hd
          have hheld : ∃ r, s2 = s1.dispatchHold t r := by
            rcases State.dispatch_cases hd with ⟨r, hd⟩ | ⟨_, _, _, hd⟩ | ⟨_, _, _, hd⟩
            · injection hd with hd; exact ⟨r, hd⟩
            · cases hd
            · cases hd
          obtain ⟨r, rfl⟩ := hheld
          refine ih ((State.held_step hb1 hk hp r).keepsPlaces hs1) ?_ h
          rw [State.dispatchHold_frame s1 t r]; exact hb1

/-- Where every pile is in its place a selection misses no record. -/
theorem State.select_error {st : Station} (hs : s.flow.Placed) (hb : (s.ctx st).busy = false)
    (h : s.select st = .error f) : f = .stepUnknown := by
  cases st with
  | lift => cases h
  | jog =>
    simp only [State.select, State.selectJog] at h
    split at h
    · cases h
    · rename_i t rest hq
      split at h
      · rename_i hp; exact absurd hp (hs.pile_of_queue (k := .jog) hq)
      · cases h
  | knife => exact State.knifeSearch_error _ hs hb h
  | turn =>
    simp only [State.select, State.selectTurn] at h
    split at h
    · cases h
    · rename_i t rest hq
      split at h
      · rename_i hp; exact absurd hp (hs.pile_of_queue (k := .turn) hq)
      · cases h

/-! ### Room for a kept offcut -/

/-- With fewer than 32 records in use a tag is free. -/
theorem State.nextTag_of_room (h : s.inUse < 32) : s.nextTag ≠ none := by
  intro hn
  have hall (t : Tag) : (s.pile t).isSome = true := by
    have hd := tagDistance_lt s.allocPtr t
    have hl : (tagOrder s.allocPtr).length = 32 := by simp [tagOrder]
    have ht : (tagOrder s.allocPtr)[tagDistance s.allocPtr t] = t :=
      tagDistance_inj s.allocPtr (tagOrder_get _ _ _)
    have hmem : t ∈ tagOrder s.allocPtr := ht ▸ List.getElem_mem _
    have := List.find?_eq_none.1 hn t hmem
    simpa [Option.isSome_iff_ne_none] using this
  have hfull : s.inUse = 32 := by
    unfold State.inUse State.tagsInUse
    rw [List.filter_eq_self.2 fun t _ => hall t]
    exact List.length_finRange
  omega

theorem State.completeCut_error {t : Tag} {p : Pile} {keep : Bool} (hroom : keep = true → s.inUse < 32)
    (h : s.completeCut t p keep = .error f) : f = .stepUnknown := by
  unfold State.completeCut at h
  split at h
  · dsimp only at h
    split at h
    · rename_i e he
      split at he
      · rename_i hk
        unfold State.makeChild at he
        split at he
        · rename_i hn; exact absurd hn (State.nextTag_of_room (hroom hk))
        · cases he
      · cases he
    · cases h
  · injection h with h; exact h.symm

/-- Where places and reservations are in order a completion finds its record, and a tag for what it keeps. -/
theorem complete_error {st : Station} {t : Tag} {tag : TagField} {value : Nat} (hs : s.flow.Placed)
    (hr : s.flow.Reserved) (hb : (s.ctx st).busy = true) (ht : (s.ctx st).tag = some t)
    (h : complete st t tag value s = .error f) : f = .stepUnknown := by
  unfold complete at h
  split at h
  · rename_i hp; exact absurd hp (hs.pile_of_tag ht)
  · rename_i p _
    cases st with
    | lift | jog | turn => cases h
    | knife =>
      dsimp only at h
      split at h
      · rename_i e he
        injection h with h
        subst h
        unfold State.completeKnife at he
        split at he
        · injection he with he; exact he.symm
        · rename_i j hj
          split at he
          · rename_i hkind
            refine State.completeCut_error (fun hk => ?_) he
            have hjob : (s.ctx .knife).job = .knife j := by
              unfold State.knifeJob at hj
              split at hj
              · rename_i hj'; injection hj with hj; rw [hj', hj]
              · cases hj
            have hkeeps : s.flow.keeps = true := by
              rw [State.flow_keeps_of_job hb hjob, KnifeJob.keeps, hkind, hk]; rfl
            have hrec := hr.records
            have hroom := hr.room
            rw [hkeeps] at hrec
            have hinUse : s.flow.inUse = s.inUse := rfl
            simp only [Bool.toNat_true] at hrec
            omega
          · cases he
          · cases he
          · cases he
      · cases h

/-- Settles O17: a fault of NEXT or DONE is an unknown step, the state before it in order. -/
theorem recordsAreAlwaysThere : Obligations.RecordsAreAlwaysThere := by
  intro s hplace hreserve
  rw [State.placeInv_iff] at hplace
  rw [State.reserveInv_iff] at hreserve
  have hunknown (f : Fault) (h : step s = .fault f) : f = .stepUnknown := by
    unfold step at h
    split at h
    · cases h
    · rename_i c rest _
      rcases exec_fault h with ⟨st, hsel, he⟩ | ⟨st, t, tag, value, hb, ht, he⟩
      · exact State.select_error (s := ({ s with pending := rest } : State).acceptFrame st.port) hplace hsel.1 he
      · exact complete_error (s := ({ s with pending := rest } : State).acceptFrame st.port) hplace hreserve hb ht he
  exact ⟨fun h => (by cases hunknown _ h), fun h => (by cases hunknown _ h)⟩

end Sys2Proof.Machine
end

section
/-! The state after reset (log entry 2). -/

namespace Sys2Proof.Machine

theorem State.reset_flow : State.reset.flow = State.reset.flow.clear :=
  State.volatileReset_flow (s := State.reset) NvMemory.formatted [] 0

theorem State.reset_port (p : Port) : State.reset.port p = PortUnit.reset := look_replicate _ _

theorem State.reset_placed : State.reset.flow.Placed := State.reset_flow ▸ Flow.Placed.cleared _

theorem State.reset_accounted : State.reset.flow.Accounted := State.reset_flow ▸ Flow.Accounted.cleared _

theorem State.reset_reserved : State.reset.flow.Reserved := by
  have h := Flow.Step.keepsReservations (.cleared (f := State.reset.flow)) State.reset_placed
    ⟨rfl, rfl, by decide, by decide⟩
  exact State.reset_flow ▸ h

theorem State.reset_serves : State.reset.store.Serves State.reset.flow.used := by
  have hnone (p : ProgNo) : ¬ State.reset.flow.used p := by
    have : look State.reset.flow.useCounts p = 0 := look_replicate 0 p
    unfold Flow.used
    omega
  exact ⟨fun p hp => absurd hp (hnone p), fun p hp => absurd hp (hnone p), fun p hp => absurd hp (hnone p), .inl rfl,
    Store.faithful_of_none rfl⟩

/-- Settles O16: the flow is empty, the Program Store formatted, the settings at their defaults. -/
theorem resetMeetsTheLaws : Obligations.ResetMeetsTheLaws := by
  refine ⟨fun p => ?_, ⟨by decide, by decide, by decide, by decide, by decide⟩, settingsOk_reset,
    (State.placeInv_iff _).2 State.reset_placed, (State.reserveInv_iff _).2 State.reset_reserved,
    (State.accountsInv_iff _).2 State.reset_accounted, fun q hq => (by cases hq),
    (State.programsInv_iff _).2 State.reset_serves, fun h => (by cases h.1)⟩
  rw [State.reset_port]
  exact ⟨by decide, by decide, by decide⟩

end Sys2Proof.Machine
end

section
/-! Frames and the commands they spell (section 11.2, section 11.4). -/

namespace Sys2Proof

/-! ### Fields of appended bits -/

theorem extract_append_above {a b k n : Nat} (x : BitVec a) (y : BitVec b) (h : b ≤ k) :
    (x ++ y).extractLsb' k n = x.extractLsb' (k - b) n := by
  ext i hi
  simp only [BitVec.getElem_extractLsb', BitVec.getLsbD_append]
  have h1 : ¬ k + i < b := by omega
  have h2 : k + i - b = k - b + i := by omega
  simp [h1, h2]

theorem extract_append_below {a b k n : Nat} (x : BitVec a) (y : BitVec b) (h : k + n ≤ b) :
    (x ++ y).extractLsb' k n = y.extractLsb' k n := by
  ext i hi
  simp only [BitVec.getElem_extractLsb', BitVec.getLsbD_append]
  have h1 : k + i < b := by omega
  simp [h1]

/-- A word cut in two and put together again. -/
theorem extract_append_extract {n a b : Nat} (x : BitVec n) (h : n = a + b) :
    x.extractLsb' b a ++ x.extractLsb' 0 b = x.cast h := by
  ext i hi
  simp only [BitVec.getElem_append, BitVec.getElem_extractLsb', BitVec.getElem_cast]
  split
  · rw [Nat.zero_add, BitVec.getLsbD_eq_getElem]
  · rename_i hb
    rw [Nat.add_sub_cancel' (by omega), BitVec.getLsbD_eq_getElem]

/-! ### Encoding and decoding -/

theorem stationOf_port (st : Station) : stationOf st.port = some st := by cases st <;> rfl

theorem port_of_stationOf {p : Port} {st : Station} (h : stationOf p = some st) : st.port = p := by
  cases p <;> simp only [stationOf, Option.some.injEq, reduceCtorEq] at h <;> subst h <;> rfl

theorem admits_station (st : Station) {code : BitVec 6} (h : 8 ≤ code.toNat) (h' : code.toNat ≤ 12) :
    admits st.port code = true := by
  cases st <;> simp [admits, Station.port, h, h']

/-- What a frame written from its fields comes to, where the port admits its code. -/
theorem decodeFrame_fields (p : Port) (code : BitVec 6) (tag : TagField) (arg : BitVec 28) :
    decodeFrame p true 48 (requestFrame code tag arg) = decodeRequest p (requestFrame code tag arg) ∧
      requestCode (requestFrame code tag arg) = code ∧ requestTag (requestFrame code tag arg) = tag ∧
      requestArg (requestFrame code tag arg) = arg :=
  ⟨decodeFrame_requestFrame p code tag arg, requestCode_requestFrame code tag arg,
    requestTag_requestFrame code tag arg, requestArg_requestFrame code tag arg⟩

/-- Settles O8: the frame's check is its own, and each field is read where it was written. -/
theorem decodeReadsWhatEncodeSpells : Obligations.DecodeReadsWhatEncodeSpells := by
  intro c p f hwf h
  cases c with
  | nop q | status q | snapshot q tag =>
    injection h with h; injection h with h1 h2; subst h1 h2
    obtain ⟨hf, hcode, htag, harg⟩ := decodeFrame_fields q _ _ _
    rw [hf, decodeRequest, hcode, htag]
    simp [admits]
  | snapRead q tag word | pileRead q tag word =>
    injection h with h; injection h with h1 h2; subst h1 h2
    obtain ⟨hf, hcode, htag, harg⟩ := decodeFrame_fields q _ _ _
    rw [hf, decodeRequest, hcode, htag, harg]
    simp (disch := decide) only [extract_append_below, BitVec.extractLsb'_eq_self]
    simp [admits]
  | next st | abort st tag | extend st tag =>
    injection h with h; injection h with h1 h2; subst h1 h2
    obtain ⟨hf, hcode, htag, harg⟩ := decodeFrame_fields st.port _ _ _
    rw [hf, decodeRequest, hcode, htag]
    simp [admits_station, stationOf_port]
  | done st tag outcome value | jobRead st tag word =>
    injection h with h; injection h with h1 h2; subst h1 h2
    obtain ⟨hf, hcode, htag, harg⟩ := decodeFrame_fields st.port _ _ _
    rw [hf, decodeRequest, hcode, htag, harg]
    simp (disch := decide) only [extract_append_below, extract_append_above, Nat.reduceSub,
      BitVec.extractLsb'_eq_self]
    simp [admits_station, stationOf_port]
  | bladeChanged q tag =>
    injection h with h; injection h with h1 h2; subst h1 h2
    obtain ⟨hf, hcode, htag, harg⟩ := decodeFrame_fields q.port 13 tag 0
    rw [hf, decodeRequest, hcode, htag, harg]
    cases q <;> rfl
  | lineStart | lineStop | lineReset | palletQueue | loadAbort | progErase | eventRead =>
    injection h with h; injection h with h1 h2; subst h1 h2
    obtain ⟨hf, hcode, htag, harg⟩ := decodeFrame_fields .plan _ _ _
    rw [hf, decodeRequest, hcode, htag]
    simp [admits]
  | configWrite | configRead | palletField | palletCancel | palletRead | loadBegin | loadEnd | progRead | progInfo
  | release =>
    injection h with h; injection h with h1 h2; subst h1 h2
    obtain ⟨hf, hcode, htag, harg⟩ := decodeFrame_fields .plan _ _ _
    rw [hf, decodeRequest, hcode, htag, harg]
    simp (disch := decide) only [extract_append_below, extract_append_above, Nat.reduceSub,
      BitVec.extractLsb'_eq_self]
    simp [admits]
  | loadStep top step =>
    injection h with h; injection h with h1 h2; subst h1 h2
    obtain ⟨hf, hcode, htag, harg⟩ := decodeFrame_fields .plan 26 (top ++ step.extractLsb' 28 4)
      (step.extractLsb' 0 28)
    rw [hf, decodeRequest, hcode, htag, harg]
    simp (disch := decide) only [extract_append_below, extract_append_above, Nat.reduceSub,
      BitVec.extractLsb'_eq_self, extract_append_extract]
    simp [admits]
  | badCommand q code tag =>
    injection h with h; injection h with h1 h2; subst h1 h2
    obtain ⟨hf, hcode, htag, _⟩ := decodeFrame_fields q code tag 0
    have hrefused : ¬ admits q code = true := by simpa [Instr.wellFormed] using hwf
    rw [hf, decodeRequest, hcode, htag, if_neg hrefused]
  | frameDiscarded | haltAsserted | haltReleased | hardwareReset | scanEnd | timebaseTick | responseTimerExpiry
  | blockWriteDone | directoryWriteDone | drainComplete => cases h

/-! ### The check (R161) -/

theorem crc8_eq_foldl (body : BitVec 40) : crc8 body =
    ((List.range 40).map fun i => body.getLsbD (39 - i)).foldl
      (fun (c : BitVec 8) b => if c.msb = b then c <<< 1 else (c <<< 1) ^^^ 0x2F#8) 0xC3#8 := by
  rw [List.foldl_map, crc8]
  refine List.foldl_ext _ _ _ fun c i hi => ?_
  rw [Machine.crc8Bit_eq, BitVec.getMsbD]
  simp [List.mem_range.1 hi]

/-! ### Every frame is a command -/

/-- From code 16 on every admitted code is the PLAN port's (R164). -/
theorem plan_of_admits {p : Port} {code : BitVec 6} (h : admits p code = true) (h16 : 16 ≤ code.toNat) :
    p = .plan := by
  by_contra hp
  simp only [admits, hp, Bool.or_eq_true, Bool.and_eq_true, decide_eq_true_eq, beq_iff_eq, bne_iff_ne, ne_eq,
    false_and, or_false] at h
  omega

/-- The codes that a port admits are those that the table names (R164). -/
theorem codes_of_admits {p : Port} {code : BitVec 6} (h : admits p code = true) :
    code.toNat ≤ 4 ∨ ((∃ st, stationOf p = some st) ∧ 8 ≤ code.toNat ∧ code.toNat ≤ 12) ∨ code.toNat = 13 ∨
      (16 ≤ code.toNat ∧ code.toNat ≤ 33) := by
  simp only [admits, Bool.or_eq_true, Bool.and_eq_true, decide_eq_true_eq, beq_iff_eq, bne_iff_ne, ne_eq] at h
  have hst : p ≠ .plan → ∃ st, stationOf p = some st := by cases p <;> simp [stationOf]
  rcases h with ((h | ⟨⟨hp, h1⟩, h2⟩) | ⟨_, h⟩) | ⟨⟨_, h1⟩, h2⟩
  · exact .inl h
  · exact .inr (.inl ⟨hst hp, h1, h2⟩)
  · exact .inr (.inr (.inl h))
  · exact .inr (.inr (.inr ⟨h1, h2⟩))

/-- The request that an accepted frame comes to is of its port and its code, and well-formed. -/
theorem decodeRequest_spec (p : Port) (f : BitVec 48) :
    (decodeRequest p f).wellFormed = true ∧
      ∃ tag, Machine.requestOf (decodeRequest p f) = some (p, requestCode f, tag) := by
  have hcode {n : Nat} (h : (requestCode f).toNat = n) (hn : n < 64) : requestCode f = BitVec.ofNat 6 n :=
    BitVec.eq_of_toNat_eq (by simp [h]; omega)
  unfold decodeRequest
  dsimp only
  split
  · rename_i hadm
    split
    case h_1 | h_2 | h_3 | h_4 | h_5 => rename_i hc; exact ⟨rfl, _, by rw [hcode hc (by decide)]; rfl⟩
    case h_6 | h_7 | h_8 | h_9 | h_10 =>
      rename_i st hc hst
      exact ⟨rfl, _, by rw [hcode hc (by decide), ← port_of_stationOf hst]; rfl⟩
    case h_11 =>
      rename_i st hc hst
      have hp : p = .knife := by
        rw [admits, hc] at hadm
        cases p <;> simp [stationOf] at hadm hst ⊢
      subst hp
      exact ⟨rfl, _, by rw [hcode hc (by decide)]; rfl⟩
    case h_12 =>
      rename_i hc hst
      have hp : p = .plan := by cases p <;> simp [stationOf] at hst ⊢
      subst hp
      exact ⟨rfl, _, by rw [hcode hc (by decide)]; rfl⟩
    case h_13 | h_14 | h_15 | h_16 | h_17 | h_18 | h_19 | h_20 | h_21 | h_22 | h_23 | h_24 | h_25 | h_26 | h_27 | h_28
      | h_29 | h_30 =>
      rename_i hc
      have hp : p = .plan := plan_of_admits hadm (by omega)
      subst hp
      exact ⟨rfl, _, by rw [hcode hc (by decide)]; rfl⟩
    case h_31 =>
      rename_i h8 h9 h10 h11 h12 h13 h13'
      simp only [imp_false] at *
      exfalso
      rcases codes_of_admits hadm with h | ⟨⟨st, hst⟩, h1, h2⟩ | h | ⟨h1, h2⟩
      · omega
      · have h8 : (requestCode f).toNat ≠ 8 := fun h => h8 st h hst
        have h9 : (requestCode f).toNat ≠ 9 := fun h => h9 st h hst
        have h10 : (requestCode f).toNat ≠ 10 := fun h => h10 st h hst
        have h11 : (requestCode f).toNat ≠ 11 := fun h => h11 st h hst
        have h12 : (requestCode f).toNat ≠ 12 := fun h => h12 st h hst
        omega
      · cases hst : stationOf p with
        | none => exact h13' h hst
        | some st => exact h13 st h hst
      · omega
  · rename_i hadm
    refine ⟨by simpa [Instr.wellFormed] using hadm, _, rfl⟩

/-- The causes for which a frame is discarded are its gap, its count of edges and its check (R161). -/
theorem decodeFrame_discarded_iff (p : Port) (gapOk : Bool) (edges : Nat) (f : BitVec 48) :
    (∃ cause, decodeFrame p gapOk edges f = .frameDiscarded p cause) ↔
      (edges ≠ 48 ∨ checkMatches f = false ∨ gapOk = false) := by
  have hrequest (cause : DiscardCause) : decodeRequest p f ≠ .frameDiscarded p cause := by
    obtain ⟨_, tag, h⟩ := decodeRequest_spec p f
    intro hd
    rw [hd] at h
    cases h
  cases gapOk with
  | false => exact ⟨fun _ => .inr (.inr rfl), fun _ => ⟨.shortGap, rfl⟩⟩
  | true =>
    by_cases he : edges = 48
    · subst he
      cases hc : checkMatches f with
      | false => exact ⟨fun _ => .inr (.inl rfl), fun _ => ⟨.badCheck, by simp [decodeFrame, hc]⟩⟩
      | true =>
        have hd : decodeFrame p true 48 f = decodeRequest p f := by simp [decodeFrame, hc]
        rw [hd]
        exact ⟨fun ⟨cause, h⟩ => absurd h (hrequest cause), fun h => by simp at h⟩
    · exact ⟨fun _ => .inl he, fun _ => ⟨.wrongCount, by simp [decodeFrame, he]⟩⟩

/-- A frame is discarded on its port, or comes to the request that its fields spell. -/
theorem decodeFrame_cases (p : Port) (gapOk : Bool) (edges : Nat) (f : BitVec 48) :
    (∃ cause, decodeFrame p gapOk edges f = .frameDiscarded p cause) ∨
      decodeFrame p gapOk edges f = decodeRequest p f := by
  unfold decodeFrame
  split
  · exact .inl ⟨_, rfl⟩
  · split
    · exact .inl ⟨_, rfl⟩
    · split
      · exact .inl ⟨_, rfl⟩
      · exact .inr rfl

/-- Settles O9: the frame judged cause by cause, its request by `decodeRequest_spec`. -/
theorem framesAreJudgedByCountCheckAndGap : Obligations.FramesAreJudgedByCountCheckAndGap := by
  refine ⟨crc8_eq_foldl, fun p gapOk edges f => ⟨?_, ?_, ?_⟩⟩
  · rw [decodeFrame_discarded_iff]
    simp [checkMatches, frameBody]
  · rcases decodeFrame_cases p gapOk edges f with ⟨cause, h⟩ | h
    · rw [h]; rfl
    · rw [h]; exact (decodeRequest_spec p f).1
  · intro q code tag h
    rcases decodeFrame_cases p gapOk edges f with ⟨cause, hd⟩ | hd
    · rw [hd] at h; cases h
    · obtain ⟨_, tag', hreq⟩ := decodeRequest_spec p f
      rw [hd, hreq] at h
      injection h with h
      injection h with h1 h2
      injection h2 with h2 _
      exact ⟨h1.symm, h2.symm⟩

end Sys2Proof
end

section
/-! Discarded frames, and the answers in every line state and in STARTING (R161 to R164). -/

namespace Sys2Proof.Machine

variable {s : State}

/-- A request answered at once, with no action, leaves all but the port units and the output lines. -/
theorem reply_accepted (s : State) (p : Port) (code : BitVec 6) (a : Answer) :
    OnlyPorts s ((s.acceptFrame p).reply p code a) ∧
      Answered s ((s.acceptFrame p).reply p code a) p (replyCode code) a.result a.tag a.data :=
  ⟨rfl, State.reply_answered s (s.acceptFrame p) p code a rfl⟩

/-- Settles O6: both are answered with no action. -/
theorem nopAndBadCommandInEveryLineState : Obligations.NopAndBadCommandInEveryLineState := fun s p =>
  ⟨⟨_, rfl, reply_accepted s p 0 { result := .ok, tag := 0, data := 0 }⟩,
    fun code tag => ⟨_, rfl, reply_accepted s p code { result := .badCommand, tag := tag, data := 0 }⟩⟩

/-- In STARTING a request is answered NOT_READY (R164). -/
theorem request_notReady {p : Port} {code c : BitVec 6} {tag : TagField}
    {f : State → Except Fault (State × Answer)} (h : s.line = .starting) (hc : replyCode code = c) :
    ∃ t, request p code tag f s = .next t ∧ OnlyPorts s t ∧ Answered s t p c .notReady tag 0 := by
  subst hc
  exact ⟨_, request_starting h, reply_accepted s p code { result := .notReady, tag := tag, data := 0 }⟩

theorem plainRequest_notReady {p : Port} {code c : BitVec 6} {tag : TagField} {f : State → State × Answer}
    (h : s.line = .starting) (hc : replyCode code = c) :
    ∃ t, plainRequest p code tag f s = .next t ∧ OnlyPorts s t ∧ Answered s t p c .notReady tag 0 :=
  request_notReady h hc

/-- Settles O7: each request but NOP and STATUS is taken by `request`. -/
theorem startingAnswersNotReady : Obligations.StartingAnswersNotReady := by
  intro c s p code tag hs hreq hadm h2 hwf
  cases c with
  | nop | status =>
    cases hreq
    exact absurd h2 (by decide)
  | badCommand =>
    cases hreq
    rw [Instr.wellFormed, hadm] at hwf
    cases hwf
  | frameDiscarded | haltAsserted | haltReleased | hardwareReset | scanEnd | timebaseTick | responseTimerExpiry
  | blockWriteDone | directoryWriteDone | drainComplete => cases hreq
  | next | done | abort | lineStop =>
    cases hreq
    exact request_notReady hs rfl
  | extend | jobRead | bladeChanged | lineStart | lineReset | configWrite | palletField | palletQueue | palletCancel
  | loadBegin | loadStep | loadEnd | loadAbort | progErase | release | eventRead | snapshot | snapRead | configRead
  | palletRead | progRead | progInfo | pileRead =>
    cases hreq
    simp only [exec, execExtend, execSnapshot, execSnapRead, execJobRead, execBladeChanged, execLineStart,
      execLineReset, execConfigWrite, execPalletField, execPalletQueue, execPalletCancel, execLoadBegin, execLoadStep,
      execLoadEnd, execLoadAbort, execProgErase, execRelease, execEventRead, execPileRead, execConfigRead,
      execPalletRead, execProgRead, execProgInfo, readRequest]
    exact plainRequest_notReady hs rfl

/-- What a discarded frame does: its port unit, and PORT_NOISY where NOISY becomes set (R161 to R163). -/
theorem State.discardFrame_eq (s : State) (p : Port) (cause : DiscardCause) :
    s.discardFrame p cause =
      (if 64 ≤ min 255 ((s.port p).level + 8) ∧ (s.port p).noisy = false then s.raise (.portNoisy p) else s).putPort p
        { s.port p with
          slot := none
          sdo := some (if cause = .shortGap then noReply else slotFrame (s.port p).slot)
          level := min 255 ((s.port p).level + 8)
          noisy := noisyAt (min 255 ((s.port p).level + 8)) (s.port p).noisy } := by
  unfold State.discardFrame
  dsimp only
  by_cases h : 64 ≤ min 255 ((s.port p).level + 8) ∧ (s.port p).noisy = false
  · rw [if_pos h, if_pos (by simpa using h), State.raise_fields, State.raise_fields]
    rfl
  · rw [if_neg h, if_neg (by simpa using h)]
    rfl

/-- Settles O5: the port's unit written, and PORT_NOISY raised where NOISY becomes set. -/
theorem discardedFramesTouchTheirPortOnly : Obligations.DiscardedFramesTouchTheirPortOnly := by
  intro p cause s
  have hports : (if 64 ≤ min 255 ((s.port p).level + 8) ∧ (s.port p).noisy = false then s.raise (.portNoisy p)
      else s).ports = s.ports := by
    split
    · exact State.raise_ports s _
    · rfl
  refine ⟨_, rfl, ?_, fun q hq => ?_, ?_⟩
  · rw [State.discardFrame_eq]; rfl
  · rw [State.discardFrame_eq]
    refine (State.putPort_other _ p q _ hq).trans ?_
    rw [State.port, hports]; rfl
  · rw [State.discardFrame_eq]
    exact State.putPort_port _ p _

end Sys2Proof.Machine
end

section
/-! The selections of the lift, the jogger and the turner (R86 to R88, R94, R95, R126, R127). -/

namespace Sys2Proof.Machine

variable {s : State} {st : Station}

/-- A selection that finds a job issues it (R61). -/
theorem next_issues {u : State} {tag : Tag} {j : Job} (h : Selects s st)
    (hsel : s.select st = .ok (u, some (tag, j))) :
    ∃ t, exec (.next st) s = .next t ∧
      OnlyPorts (u.putCtx st (issuedContext (u.ctx st) tag j (s.preset st))) t ∧
      Answered s t st.port 8 .job (tagField tag) (jobWord j 0) := by
  obtain ⟨_, _, _, _, hserved⟩ := nextIsAnsweredInOrder st s
  exact (hserved h).2 u tag j hsel

/-- A selection that finds nothing is answered WAIT (R60). -/
theorem next_waits {u : State} (h : Selects s st) (hsel : s.select st = .ok (u, none)) :
    ∃ t, exec (.next st) s = .next t ∧ DrainTested s u t ∧ Answered s t st.port 8 .wait 0 0 := by
  obtain ⟨_, _, _, _, hserved⟩ := nextIsAnsweredInOrder st s
  exact (hserved h).1 u hsel

/-! ### The lift -/

theorem State.liftAdmits_iff (s : State) :
    s.liftAdmits = true ↔ s.settings.childReserve < s.freeRecords ∧ s.freshCount < s.settings.infeed := by
  simp [State.liftAdmits]

theorem State.liftSource_isSome (s : State) : s.liftSource.isSome = true ↔ ∃ q ∈ s.pallets, 0 < q.remaining := by
  simp [State.liftSource]

/-- Without a source, a spare record or room in the infeed window the lift finds nothing (R86, R88). -/
theorem State.selectLift_none
    (h : ¬ ((∃ q ∈ s.pallets, 0 < q.remaining) ∧ s.settings.childReserve < s.freeRecords ∧
      s.freshCount < s.settings.infeed)) : s.selectLift = (s, none) := by
  rw [← s.liftSource_isSome, ← s.liftAdmits_iff] at h
  unfold State.selectLift
  split
  · next q t hq _ => rw [if_neg fun hadmit => h ⟨by rw [hq]; rfl, hadmit⟩]
  · rfl

/-- A lift as R39 sizes it, under the tag of R8 (R87). -/
theorem State.selectLift_some {q : Pallet} {tag : Tag} (hq : s.liftSource = some q) (hadmit : s.liftAdmits = true)
    (htag : NextFree s tag) :
    s.selectLift =
      (((s.modifyPallet q.seq (accountLifted (liftSize q.remaining (nMax s.settings.hmax q.caliper)))).allocate tag
        (liftedPile q (liftSize q.remaining (nMax s.settings.hmax q.caliper)))).addUse q.program,
      some (tag, .lift (liftSize q.remaining (nMax s.settings.hmax q.caliper))
        (expectedHeight (liftSize q.remaining (nMax s.settings.hmax q.caliper)) q.caliper) q.seq
        (liftAfter q.liftsIssued) q.cls)) := by
  simp only [State.selectLift, hq, State.nextTag_of_nextFree htag, hadmit, if_true]

/-- The extents of a lift by its gauge edge (R1). -/
theorem liftedPile_eq (q : Pallet) (n : Nat) :
    liftedPile q n =
      { residency := .lifting, pallet := q.seq, liftNumber := liftAfter q.liftsIssued, parent := none
        program := q.program, cursor := 0, cls := q.cls, sheets := n, height := 0
        depth := if q.gauge = .n ∨ q.gauge = .s then q.extentNS else q.extentEW
        width := if q.gauge = .n ∨ q.gauge = .s then q.extentEW else q.extentNS
        gauge := q.gauge, face := q.face, started := false, attempt := 0, pendingTurn := none
        caliperDev := false, limitedSeen := false, hold := none } := by
  simp only [liftedPile, Bool.or_eq_true, decide_eq_true_eq]

/-- Settles O20: the lift's selection in its two cases; in RUN no drain test stops the line. -/
theorem liftIsSizedAndIssued : Obligations.LiftIsSizedAndIssued := by
  intro s hrun hidle hhalt
  have hsel : Selects s .lift := ⟨hidle, .inl hrun, hhalt⟩
  refine ⟨fun q tag hq hreserve hinfeed hfree => ?job, fun hnone => ?wait⟩
  case job =>
    have hlift := State.selectLift_some hq (s.liftAdmits_iff.2 ⟨hreserve, hinfeed⟩) hfree
    obtain ⟨t, hexec, honly, hanswer⟩ := next_issues hsel (congrArg Except.ok hlift)
    rw [liftedPile_eq] at honly
    exact ⟨t, hexec, hanswer, honly⟩
  case wait =>
    obtain ⟨t, hexec, hdrain, hanswer⟩ := next_waits hsel (congrArg Except.ok (State.selectLift_none hnone))
    refine ⟨t, hexec, hdrain.1 ?_, hanswer⟩
    rintro ⟨hdraining, _⟩
    exact absurd (hrun.symm.trans hdraining) (by decide)

/-! ### The jogger and the turner -/

theorem State.selectJog_cons {tag : Tag} {rest : List Tag} {p : Pile} (hq : s.jogQueue = tag :: rest)
    (hp : s.pile tag = some p) :
    s.select .jog = .ok ({ s with jogQueue := rest }.putPile tag (some { p with residency := .jogging }),
      some (tag, s.jogJobOf p)) := by
  simp only [State.select, State.selectJog, hq, hp]

theorem State.selectTurn_cons {tag : Tag} {rest : List Tag} {p : Pile} (hq : s.turnQueue = tag :: rest)
    (hp : s.pile tag = some p) :
    s.select .turn = .ok ({ s with turnQueue := rest }.putPile tag (some { p with residency := .turning }),
      some (tag, turnJobOf p)) := by
  simp only [State.select, State.selectTurn, hq, hp]

theorem State.selectJog_nil (h : s.jogQueue = []) : s.select .jog = .ok (s, none) := by
  simp only [State.select, State.selectJog, h]

theorem State.selectTurn_nil (h : s.turnQueue = []) : s.select .turn = .ok (s, none) := by
  simp only [State.select, State.selectTurn, h]

/-- Settles O21: the head of the queue is issued; an empty queue is answered WAIT. -/
theorem joggerAndTurnerTakeTheHead : Obligations.JoggerAndTurnerTakeTheHead := by
  intro s tag rest p _
  refine ⟨fun hsel hq hp => ?jog, fun hsel hq hp => ?turn, fun hsel hq => next_waits hsel (State.selectJog_nil hq),
    fun hsel hq => next_waits hsel (State.selectTurn_nil hq)⟩
  case jog =>
    obtain ⟨t, hexec, honly, hanswer⟩ := next_issues hsel (State.selectJog_cons hq hp)
    exact ⟨t, hexec, hanswer, honly⟩
  case turn =>
    obtain ⟨t, hexec, honly, hanswer⟩ := next_issues hsel (State.selectTurn_cons hq hp)
    exact ⟨t, hexec, hanswer, honly⟩

end Sys2Proof.Machine
end

section
/-! The knife's selection (R105 to R112): the arbiter's choice, the holds on its way and the jobs it issues. -/

namespace Sys2Proof.Machine

variable {s : State} {tag : Tag} {p : Pile}

/-! ### One round of the search -/

theorem State.select_knife (s : State) : s.select .knife = State.knifeSearch (s.knifeReach + 1) s := rfl

/-- With a pile under the knife the search goes on with it. -/
theorem State.chosen_of_knifePile (h : s.knifePile = some tag) : s.chosen = some (tag, s) := by
  simp only [State.chosen, h]

theorem State.chosen_of_none (h : s.knifePile = none) : s.chosen = s.arbiter := by
  simp only [State.chosen, h]

/-- A search whose choice is placed under the knife goes on as one that finds it there (R105). -/
theorem State.select_placed {u : State} (hc : s.chosen = some (tag, u)) (hu : u.knifePile = some tag)
    (hreach : u.knifeReach = s.knifeReach) : s.select .knife = u.select .knife := by
  rw [State.select_knife, State.select_knife, hreach, State.knifeSearch_succ, State.knifeSearch_succ, hc,
    State.chosen_of_knifePile hu]

/-- A dispatch that holds the knife pile goes on without it (R108). -/
theorem State.select_held {u : State} (hk : s.knifePile = some tag) (hp : s.pile tag = some p)
    (hd : s.dispatch tag p = .ok (.held u)) (hreach : s.knifeReach = u.knifeReach + 1) :
    s.select .knife = u.select .knife := by
  rw [State.select_knife, State.select_knife, hreach, State.knifeSearch_succ, State.chosen_of_knifePile hk]
  simp only [hp, hd]

/-- A hold taken in dispatch (R108). -/
theorem State.dispatchHold_eq (hp : s.pile tag = some p) (r : HoldReason) :
    s.dispatchHold tag r =
      State.raise { s with
        piles := put s.piles tag
          (some { p with residency := .held, hold := some { reason := r, station := .knife } })
        knifePile := none } (.held tag r .knife) := by
  rw [State.dispatchHold, State.holdPile, State.modifyPile_some _ _ _ hp, State.raise_eq, State.raise_eq]
  rfl

/-- A hold takes the knife pile off the search's sources. -/
theorem State.dispatchHold_reach (hk : s.knifePile = some tag) (r : HoldReason) :
    s.knifeReach = (s.dispatchHold tag r).knifeReach + 1 := by
  simp only [State.knifeReach, State.dispatchHold, State.holdPile, State.raise_returnLane, State.raise_returnStack,
    State.raise_knifeQueue, State.modifyPile_returnLane, State.modifyPile_returnStack, State.modifyPile_knifeQueue,
    hk, Option.toList, List.length_cons, List.length_nil]
  omega

/-- A dispatch that issues a job ends the search. -/
theorem State.select_dispatched {u : State} {t : Tag} {j : Job} (hk : s.knifePile = some tag)
    (hp : s.pile tag = some p) (hd : s.dispatch tag p = .ok (.job u t j)) :
    s.select .knife = .ok (u, some (t, j)) := by
  rw [State.select_knife, State.knifeSearch_succ, State.chosen_of_knifePile hk]
  simp only [hp, hd]

/-! ### Dispatch by the step -/

section
variable {distance entry : Nat} {keep : Bool}

/-- A CUT at the gauge beyond the pile's depth (R58). -/
theorem State.dispatch_beyond (hstep : s.stepAt p = some (.cut p.gauge distance keep entry))
    (h : p.depth ≤ distance) : s.dispatch tag p = .ok (.held (s.dispatchHold tag .cutBeyond)) := by
  simp only [State.dispatch, hstep, turnFor_gauge]
  rw [if_pos (Nat.not_lt.2 h)]

/-- A KEEP cut with no record or no slot for its offcut (R108). -/
theorem State.dispatch_noRoom (hstep : s.stepAt p = some (.cut p.gauge distance keep entry))
    (h : distance < p.depth) (hkeep : keep = true) (hroom : s.freeRecords < 1 ∨ s.freeSlots < 1) :
    s.dispatch tag p = .ok (.held (s.dispatchHold tag .noRoom)) := by
  simp only [State.dispatch, hstep, turnFor_gauge]
  rw [if_neg (not_not.2 h), if_pos (by simpa [hkeep] using hroom)]

/-- A CUT that is made (R108). -/
theorem State.dispatch_cut (hstep : s.stepAt p = some (.cut p.gauge distance keep entry))
    (h : distance < p.depth) (hroom : keep = true → 1 ≤ s.freeRecords ∧ 1 ≤ s.freeSlots) :
    s.dispatch tag p = .ok (.job (s.cutIssue tag p (s.cutJobOf p distance keep)) tag
      (.knife (s.cutJobOf p distance keep))) := by
  have hfree : ¬ ((keep && (decide (s.freeRecords < 1) || decide (s.freeSlots < 1))) = true) := by
    simp only [Bool.and_eq_true, Bool.or_eq_true, decide_eq_true_eq]
    rintro ⟨hkeep, hnone⟩
    obtain ⟨hrec, hslot⟩ := hroom hkeep
    omega
  simp only [State.dispatch, hstep, turnFor_gauge]
  rw [if_neg (not_not.2 h), if_neg hfree]

/-- A CUT whose edge is not at the gauge asks for its turn (R107). -/
theorem State.dispatch_turn {edge : Edge} {turn : Turn} (hstep : s.stepAt p = some (.cut edge distance keep entry))
    (hturn : turnFor p.gauge p.face edge = some turn) :
    s.dispatch tag p =
      .ok (.job (s.putPile tag (some { p with residency := .knifeJob, pendingTurn := some turn })) tag
        (plainKnifeJob (.transferTurn turn) p)) := by
  simp only [State.dispatch, hstep, hturn]

end

/-- Settles O22: each clause is one round of the search; the search's fuel falls by one where a hold takes a pile
off its sources. -/
theorem knifeSelectionServesAndHolds : Obligations.KnifeSelectionServesAndHolds := by
  refine ⟨fun s p => rfl, fun w => ⟨fun edge hk he => ?cut, fun hk => ?flip, fun hk => ?jog, fun hk => ?fin,
    fun hk => ?unknown⟩, fun s tag rest hk => ⟨fun hl => ?lane, fun hl hs => ?stack, fun hl hs hq => ?queue,
    fun hl hs hq => ?nothing⟩, fun s tag p distance entry keep hk hp hstep => ⟨fun hd => ?beyond,
    fun hd hkeep hroom => ?room⟩⟩
  case cut =>
    simp only [decodeStep, stepKind_eq, hk, stepDistance_eq, stepKeep_eq, stepEntry_eq, stepEdge_eq w he]
  case flip => simp only [decodeStep, stepKind_eq, hk]
  case jog => simp only [decodeStep, stepKind_eq, hk]
  case fin => simp only [decodeStep, stepKind_eq, hk]
  case unknown =>
    unfold decodeStep
    rw [stepKind_eq]
    split
    case h_5 => rfl
    all_goals omega
  case lane =>
    refine State.select_placed (tag := tag) ?_ rfl ?_
    · rw [State.chosen_of_none hk]
      simp only [State.arbiter, hl]
      rfl
    · simp only [State.knifeReach, hk, hl, Option.toList, List.length_cons, List.length_nil]
      omega
  case stack =>
    refine State.select_placed (tag := tag) ?_ rfl ?_
    · rw [State.chosen_of_none hk]
      simp only [State.arbiter, hl, hs]
      rfl
    · simp only [State.knifeReach, hk, hs, Option.toList, List.length_cons, List.length_nil]
      omega
  case queue =>
    refine State.select_placed (tag := tag) ?_ rfl ?_
    · rw [State.chosen_of_none hk]
      simp only [State.arbiter, hl, hs, hq]
      rfl
    · simp only [State.knifeReach, hk, hq, Option.toList, List.length_cons, List.length_nil]
      omega
  case nothing =>
    rw [State.select_knife, State.knifeSearch_succ, State.chosen_of_none hk]
    simp only [State.arbiter, hl, hs, hq]
  case beyond =>
    rw [State.select_held hk hp (State.dispatch_beyond hstep hd) (State.dispatchHold_reach hk _),
      State.dispatchHold_eq hp]
  case room =>
    rw [State.select_held hk hp (State.dispatch_noRoom hstep hd hkeep hroom) (State.dispatchHold_reach hk _),
      State.dispatchHold_eq hp]

/-! ### The jobs issued -/

theorem limitTarget_eq (t : Int) :
    limitTarget t = if t < 2000 then 2000 else if 132000 < t then 132000 else t.toNat := by
  unfold limitTarget
  split
  · omega
  · split <;> omega

theorem limitForce_eq (f : Nat) : limitForce f = if f < 40 then 40 else if 1023 < f then 1023 else f := by
  unfold limitForce
  split
  · omega
  · split <;> omega

/-- The issue of a CUT job in its parts (R15, R53). -/
theorem State.cutIssue_eq (s : State) (t : Tag) (p : Pile) (j : KnifeJob) (c : Context) :
    (s.cutIssue t p j).putCtx .knife c =
      let s1 : State :=
        { s with
          piles := put s.piles t
            (some { p with residency := .knifeJob, limitedSeen := p.limitedSeen || j.limited })
          reservedRecords := if j.keep then 1 else s.reservedRecords
          reservedSlots := if j.keep then 1 else s.reservedSlots
          contexts := put s.contexts Station.knife.ix c }
      if j.limited then s1.raise (.targetLimited t p.cursor) else s1 := by
  unfold State.cutIssue
  cases j.keep <;> cases j.limited <;> simp only [Bool.false_eq_true, if_true, if_false, State.raise_eq] <;> rfl

theorem State.cutIssue_ctx (s : State) (t : Tag) (p : Pile) (j : KnifeJob) (st : Station) :
    (s.cutIssue t p j).ctx st = s.ctx st := by
  rw [State.cutIssue_frame]
  rfl

/-- The setpoints and flags of a CUT job spelled out (R51 to R56). -/
theorem State.cutJobOf_eq (s : State) (p : Pile) (distance : Nat) (keep : Bool) :
    let c := s.stock p.cls
    let target : Int := (distance : Int) + ((s.settings.ocode : Int) - 128) * 2 +
      (((p.height * c.kd + 8192) / 16384 : Nat) : Int)
    let force := (clampForce (knotValue s.settings) p.height * c.force + 64) / 128
    s.cutJobOf p distance keep =
      { kind := .cut, keep := keep, limited := decide (target < 2000 ∨ 132000 < target)
        capped := decide (1023 < force), overdue := s.blade.overdueLatch
        target := if target < 2000 then 2000 else if 132000 < target then 132000 else target.toNat
        force := if force < 40 then 40 else if 1023 < force then 1023 else force
        step := p.cursor, program := p.program } := by
  intro c target force
  have hlimited : targetLimited target = decide (target < 2000 ∨ 132000 < target) := (Bool.decide_or _ _).symm
  rw [← limitTarget_eq, ← limitForce_eq, ← hlimited]
  rfl

/-- Settles O23: the dispatch of the CUT, its setpoints in their spelled-out form. -/
theorem cutJobsCarrySetpointsAndReserve : Obligations.CutJobsCarrySetpointsAndReserve := by
  intro s tag p distance entry keep _ hsel hk hp hstep hd hroom
  obtain ⟨t, hexec, honly, hanswer⟩ :=
    next_issues hsel (State.select_dispatched hk hp (State.dispatch_cut hstep hd hroom))
  rw [State.cutIssue_ctx, State.cutIssue_eq, State.cutJobOf_eq] at honly
  rw [State.cutJobOf_eq] at hanswer
  exact ⟨t, hexec, honly, hanswer⟩

theorem turnFor_of_ne {g edge : Edge} {f : Face} (h : edge ≠ g) :
    turnFor g f edge =
      some (if edge = layEdge g f then .cw else if edge = rightEdge g f then .ccw else .half) := by
  rw [turnFor, if_neg h]
  split
  · rfl
  · split <;> rfl

/-- Settles O24: the dispatch of each other step; its job carries no setpoint. -/
theorem otherStepsTransferOrDeliver : Obligations.OtherStepsTransferOrDeliver := by
  intro s tag p kind pending _ hsel hk hp hstep
  have hd : s.dispatch tag p =
      .ok (.job (s.putPile tag (some { p with residency := .knifeJob, pendingTurn := pending })) tag
        (plainKnifeJob kind p)) := by
    rcases hstep with ⟨edge, distance, keep, entry, turn, hstep, hne, rfl, rfl, rfl⟩ | ⟨hstep, rfl, rfl⟩ |
      ⟨hstep, rfl, rfl⟩ | ⟨hstep, rfl, rfl⟩
    · exact State.dispatch_turn hstep (turnFor_of_ne hne)
    all_goals simp only [State.dispatch, hstep]
  obtain ⟨t, hexec, honly, hanswer⟩ := next_issues hsel (State.select_dispatched hk hp hd)
  have hword : jobWord (plainKnifeJob kind p) 0 = dataOf (knifeKindCode kind + turnCode (knifeTurn kind) * 8) := by
    simp [jobWord, plainKnifeJob]
  exact ⟨t, hexec, honly, hword ▸ hanswer⟩

end Sys2Proof.Machine
end

section
/-! A request whose action does the same whatever the port units hold. -/

namespace Sys2Proof.Machine

/-- Such a request does it to the state as it stood, its port unit apart. -/
theorem plainRequest_does {s : State} {p : Port} {code c : BitVec 6} {nr tag : TagField} {action : State → State × Answer}
    {f : State → State} {r : Result} {d : Data} (hup : s.Up) (hf : Dresses f s)
    (ha : action (s.acceptFrame p) = (f (s.acceptFrame p), { result := r, tag := tag, data := d }))
    (hc : replyCode code = c) :
    ∃ t, plainRequest p code nr action s = .next t ∧ OnlyPorts (f s) t ∧ Answered s t p c r tag d := by
  have hlines : f (s.acceptFrame p) = (f s).withLines (s.acceptFrame p).ports s.pins := hf.withLines _ _
  exact plainRequest_answers hup ha (by rw [hlines]; rfl) (by rw [hlines]; rfl) hc

/-- Such a request that is refused changes nothing. -/
theorem plainRequest_refuses {s : State} {p : Port} {code c : BitVec 6} {nr tag : TagField}
    {action : State → State × Answer} {r : Result} {d : Data} (hup : s.Up)
    (ha : action (s.acceptFrame p) = (s.acceptFrame p, { result := r, tag := tag, data := d }))
    (hc : replyCode code = c) :
    ∃ t, plainRequest p code nr action s = .next t ∧ OnlyPorts s t ∧ Answered s t p c r tag d :=
  plainRequest_does (f := id) hup (Dresses.quiet fun _ => rfl) ha hc

end Sys2Proof.Machine
end

section
/-! The Pallet Table's accounts (R9, R80 to R83): one record changed, the finish test, a record freed, a pallet
cancelled. -/

namespace Sys2Proof.Machine

variable {s : State} {n m : Nat} {q : Pallet}

/-! ### The record of a number -/

/-- A change that keeps sequence numbers leaves each record under its number. -/
theorem State.palletOf_modifyPallet {f : Pallet → Pallet} (hseq : ∀ x, (f x).seq = x.seq) (m : Nat) :
    (s.modifyPallet n f).palletOf m = (s.palletOf m).map fun x => if x.seq = n then f x else x := by
  have hcomp : ∀ x : Pallet, (if x.seq = n then f x else x).seq = x.seq := by
    intro x
    split
    · exact hseq x
    · rfl
  simp only [State.palletOf, State.modifyPallet, List.find?_map, Function.comp_def, hcomp]

theorem State.palletOf_seq (h : s.palletOf n = some q) : q.seq = n := by
  have h := List.find?_some h
  simpa using h

theorem State.palletOf_modified {f : Pallet → Pallet} (hseq : ∀ x, (f x).seq = x.seq) (h : s.palletOf n = some q) :
    (s.modifyPallet n f).palletOf n = some (f q) := by
  simp [State.palletOf_modifyPallet hseq, h, State.palletOf_seq h]

theorem State.palletOf_modified_other {f : Pallet → Pallet} (hseq : ∀ x, (f x).seq = x.seq) (hm : m ≠ n) :
    (s.modifyPallet n f).palletOf m = s.palletOf m := by
  rw [State.palletOf_modifyPallet hseq]
  cases h : s.palletOf m with
  | none => rfl
  | some q => simp [State.palletOf_seq h, hm]

/-- Taking a number out of a table leaves no record of it. -/
theorem find?_seq_removed (l : List Pallet) (n : Nat) :
    ((l.filter fun x => x.seq ≠ n).find? fun x => x.seq = n) = none := by
  simp [List.find?_eq_none]

theorem find?_seq_kept (l : List Pallet) (hm : m ≠ n) :
    ((l.filter fun x => x.seq ≠ n).find? fun x => x.seq = m) = l.find? fun x => x.seq = m := by
  rw [List.find?_filter]
  congr 1
  funext x
  by_cases hx : x.seq = m <;> simp [hx, hm]

/-! ### The finish test (R83) -/

theorem palletFinished_iff (q : Pallet) : palletFinished q = true ↔ q.remaining = 0 ∧ q.live = 0 := by
  simp [palletFinished]

theorem State.finishTest_unfinished (h : s.palletOf n = some q) (hf : ¬ (q.remaining = 0 ∧ q.live = 0)) :
    s.finishTest n = s := by
  simp only [State.finishTest, h]
  rw [if_neg (mt (palletFinished_iff q).1 hf)]

theorem State.finishTest_finished (h : s.palletOf n = some q) (hf : q.remaining = 0 ∧ q.live = 0) :
    s.finishTest n =
      { s.raise (.palletDone n) with
        pallets := s.pallets.filter fun x => x.seq ≠ n
        lastReport := some q
        useCounts := put s.useCounts q.program (s.useCount q.program - 1) } := by
  simp only [State.finishTest, h]
  rw [if_pos ((palletFinished_iff q).2 hf), State.raise_fields, State.raise_fields]
  rfl

/-- The finish test is about one number. -/
theorem State.finishTest_other (hm : m ≠ n) : (s.finishTest n).palletOf m = s.palletOf m := by
  cases h : s.palletOf n with
  | none => simp only [State.finishTest, h]
  | some q =>
    by_cases hf : q.remaining = 0 ∧ q.live = 0
    · rw [State.finishTest_finished h hf]
      exact find?_seq_kept _ hm
    · rw [State.finishTest_unfinished h hf]

theorem State.finishTest_pile (t : Tag) : (s.finishTest n).pile t = s.pile t := by
  rw [State.finishTest_frame]
  rfl

theorem State.finishTest_removed (h : s.palletOf n = some q) (hf : q.remaining = 0 ∧ q.live = 0) :
    (s.finishTest n).palletOf n = none := by
  rw [State.finishTest_finished h hf]
  exact find?_seq_removed _ n

/-! ### A record freed (R9) -/

/-- A record out of use, with its program's use count and its pallet's accounts, before the finish test. -/
def State.unrecorded (s : State) (tag : Tag) (p : Pile) (account : Nat → Pallet → Pallet) : State :=
  ((s.putPile tag none).dropUse p.program).modifyPallet p.pallet fun q =>
    account p.sheets { q with live := q.live - 1 }

theorem State.freeRecord_eq {tag : Tag} {p : Pile} (hp : s.pile tag = some p) (account : Nat → Pallet → Pallet) :
    s.freeRecord tag account = (s.unrecorded tag p account).finishTest p.pallet := by
  simp only [State.freeRecord, hp]
  rfl

/-- Settles O30: the record's accounts, then the finish test of its pallet. -/
theorem freeingARecordSettlesItsAccounts : Obligations.FreeingARecordSettlesItsAccounts := by
  intro s tag p q q1 account hp hq haccount
  have hseq : ∀ k x, (account k x).seq = x.seq ∧ (account k x).program = x.program := by
    rcases haccount with ⟨rfl, _⟩ | ⟨rfl, _⟩ | ⟨rfl, _⟩ <;> exact fun _ _ => ⟨rfl, rfl⟩
  have hq1 : q1 = account p.sheets { q with live := q.live - 1 } := by
    rcases haccount with ⟨rfl, h⟩ | ⟨rfl, h⟩ | ⟨rfl, h⟩ <;> exact h
  have hrecord : (s.unrecorded tag p account).palletOf p.pallet = some q1 := by
    rw [hq1]
    exact State.palletOf_modified (s := (s.putPile tag none).dropUse p.program) (fun x => (hseq _ _).1) hq
  intro t uses settled
  have ht : t = (s.unrecorded tag p account).finishTest p.pallet := State.freeRecord_eq hp account
  refine ⟨?_, fun u hu => ?_, fun n hn => ?_, fun hf => ?_, fun hf => ?_⟩
  · rw [ht, State.finishTest_pile]
    exact State.putPile_pile s tag none
  · rw [ht, State.finishTest_pile]
    exact State.putPile_pile_other s none (Ne.symm hu)
  · rw [ht, State.finishTest_other hn]
    exact State.palletOf_modified_other (s := (s.putPile tag none).dropUse p.program) (fun x => (hseq _ _).1) hn
  · rw [ht, State.finishTest_unfinished hrecord hf]
    exact ⟨hrecord, rfl⟩
  · refine ⟨by rw [ht]; exact State.finishTest_removed hrecord hf, ?_⟩
    have hprogram : q1.program = q.program := by rw [hq1]; exact (hseq _ _).2
    rw [ht, State.finishTest_finished hrecord hf, hprogram, State.raise_eq, State.raise_eq]
    rfl

/-! ### PALLET_CANCEL (R82) -/

theorem palletCancelAction_refused {seq : BitVec 8} (h : seq.toNat = 0 ∨ ∀ q ∈ s.pallets, q.seq ≠ seq.toNat)
    (tag : TagField) :
    palletCancelAction tag seq s = (s, { result := .badArg, tag := tag, data := 0 }) := by
  unfold palletCancelAction
  rcases h with h | h
  · rw [if_pos h]
  · have hnone : s.palletOf seq.toNat = none := List.find?_eq_none.2 fun q hq => by simpa using h q hq
    simp only [hnone, ite_self]

theorem palletCancelAction_some {seq : BitVec 8} (hseq : seq.toNat ≠ 0) (h : s.palletOf seq.toNat = some q)
    (tag : TagField) :
    palletCancelAction tag seq s = ((s.modifyPallet seq.toNat accountCancelled).finishTest seq.toNat,
      { result := .ok, tag := 0, data := dataOf q.remaining }) := by
  simp only [palletCancelAction, if_neg hseq, h]

/-- The cancelled pallet's accounts and finish test. -/
theorem State.cancelled_dresses (s : State) (n : Nat) :
    Dresses (fun x => (x.modifyPallet n accountCancelled).finishTest n) s :=
  (Dresses.quiet fun _ => rfl : Dresses (fun x => x.modifyPallet n accountCancelled) s).comp
    (State.finishTest_dresses _ n)

theorem OnlyPorts.palletOf {s t : State} (h : OnlyPorts s t) (n : Nat) : t.palletOf n = s.palletOf n := by
  rw [h]
  rfl

/-- Settles O46: the accounts of R82, then the finish test of the pallet named. -/
theorem palletCancelMovesTheRest : Obligations.PalletCancelMovesTheRest := by
  intro tag seq s hup
  refine ⟨fun h => plainRequest_refuses hup (palletCancelAction_refused (s := s.acceptFrame .plan) h tag) rfl, ?_⟩
  intro q hseq hq q1 moved
  have hmod : (s.modifyPallet seq.toNat accountCancelled).palletOf seq.toNat = some q1 :=
    State.palletOf_modified (fun _ => rfl) hq
  obtain ⟨t, hexec, honly, hanswer⟩ := plainRequest_does (code := 23) (nr := tag) hup (s.cancelled_dresses seq.toNat)
    (palletCancelAction_some (s := s.acceptFrame .plan) hseq hq tag) rfl
  refine ⟨t, hexec, hanswer, fun n hn => ?_, fun hlive => ?_, fun hlive => ?_⟩
  · rw [honly.palletOf, State.finishTest_other hn]
    exact State.palletOf_modified_other (fun _ => rfl) hn
  · rw [State.finishTest_unfinished hmod fun hf => hlive hf.2] at honly
    exact ⟨honly.palletOf _ |>.trans hmod, honly⟩
  · have hf : q1.remaining = 0 ∧ q1.live = 0 := ⟨rfl, hlive⟩
    refine ⟨(honly.palletOf _).trans (State.finishTest_removed hmod hf), ?_⟩
    rw [State.finishTest_finished hmod hf, State.raise_fields] at honly
    rw [State.raise_fields]
    exact honly

end Sys2Proof.Machine
end

section
/-! PALLET_FIELD and PALLET_QUEUE (R76 to R79). -/

namespace Sys2Proof.Machine

variable {s : State} {d d' : Draft} {field v : Nat}

/-! ### The Pallet Draft -/

/-- A Draft is another one but for a field, which holds a value. -/
def FieldSet (d d' : Draft) (field v : Nat) : Prop :=
  ∀ g, draftFieldValue d' g = if g = field then v else draftFieldValue d g

/-- The other fields are compared one by one. -/
theorem fieldSet_of (hv : draftFieldValue d' field = v)
    (ho : ∀ g, g < 8 → g ≠ field → draftFieldValue d' g = draftFieldValue d g := by
      intro g hg hne
      interval_cases g <;> first | rfl | exact absurd rfl hne) : FieldSet d d' field v := by
  intro g
  split
  · next hg => rw [hg, hv]
  · next hg =>
    by_cases h8 : g < 8
    · exact ho g h8 hg
    · obtain ⟨n, rfl⟩ : ∃ n, g = n + 8 := ⟨g - 8, by omega⟩
      rfl

/-- A number in the range of a field is written to it and to no other (R76, R77). -/
theorem draftWrite_some (h : DraftRange field v) : ∃ d', draftWrite d field v = some d' ∧ FieldSet d d' field v := by
  rcases h with ⟨rfl, h⟩ | ⟨rfl, h⟩ | ⟨rfl, h⟩ | ⟨rfl, h⟩ | ⟨rfl | rfl, h⟩ | ⟨rfl, h⟩ | ⟨rfl, h⟩
  · by_cases h0 : v = 0
    · exact ⟨_, if_pos h0, fieldSet_of h0.symm⟩
    · have hv : v = progNum ⟨v - 1, by omega⟩ := by simp only [progNum]; omega
      refine ⟨{ d with program := some ⟨v - 1, by omega⟩ }, ?_, fieldSet_of hv.symm⟩
      simp only [draftWrite, if_neg h0, progOfNum_some hv, Option.map_some]
  · exact ⟨_, dif_pos (Nat.lt_succ_of_le h), fieldSet_of rfl⟩
  · exact ⟨_, if_pos h, fieldSet_of rfl⟩
  · exact ⟨_, if_pos h, fieldSet_of rfl⟩
  · exact ⟨_, if_pos h, fieldSet_of rfl⟩
  · exact ⟨_, if_pos h, fieldSet_of rfl⟩
  · obtain ⟨edge, hedge, hcode⟩ : ∃ edge, edgeOfNum v = some edge ∧ edgeCode edge = v := by
      interval_cases v <;> exact ⟨_, rfl, rfl⟩
    exact ⟨{ d with gauge := edge }, by simp only [draftWrite, hedge, Option.map_some], fieldSet_of hcode⟩
  · obtain ⟨face, hface, hcode⟩ : ∃ face, faceOfNum v = some face ∧ faceCode face = v := by
      interval_cases v <;> exact ⟨_, rfl, rfl⟩
    exact ⟨{ d with face := face }, by simp only [draftWrite, hface, Option.map_some], fieldSet_of hcode⟩

/-- Any other field or value is refused (R77). -/
theorem draftWrite_none (h : ¬ DraftRange field v) : draftWrite d field v = none := by
  unfold DraftRange at h
  match field with
  | 0 => rw [draftWrite, if_neg (by omega), progOfNum_none (by omega)]; rfl
  | 1 => exact dif_neg (by omega)
  | 2 | 3 | 4 | 5 => exact if_neg (by omega)
  | 6 =>
    obtain ⟨n, rfl⟩ : ∃ n, v = n + 4 := ⟨v - 4, by omega⟩
    rfl
  | 7 =>
    obtain ⟨n, rfl⟩ : ∃ n, v = n + 2 := ⟨v - 2, by omega⟩
    rfl
  | _ + 8 => rfl

theorem palletFieldAction_none {field : BitVec 4} {value : Data} (tag : TagField)
    (h : draftWrite s.draft field.toNat value.toNat = none) :
    palletFieldAction tag field value s = (s, { result := .badArg, tag := tag, data := 0 }) := by
  simp only [palletFieldAction, h]

theorem palletFieldAction_some {field : BitVec 4} {value : Data} (tag : TagField)
    (h : draftWrite s.draft field.toNat value.toNat = some d) :
    palletFieldAction tag field value s = ({ s with draft := d }, { result := .ok, tag := tag, data := value }) := by
  simp only [palletFieldAction, h]

/-- Settles O44: the write of the Draft in its two cases. -/
theorem palletFieldWritesOneField : Obligations.PalletFieldWritesOneField := by
  intro tag field value s hup
  refine ⟨fun h => ?refused, fun h => ?written⟩
  case refused =>
    have hnone : draftWrite s.draft field.toNat value.toNat = none := draftWrite_none h
    exact plainRequest_refuses hup (palletFieldAction_none (s := s.acceptFrame .plan) tag hnone) rfl
  case written =>
    obtain ⟨d, hd, hset⟩ := draftWrite_some (d := s.draft) h
    obtain ⟨t, hexec, honly, hanswer⟩ := plainRequest_does (code := 21) (nr := tag) (f := fun x => { x with draft := d })
      hup (Dresses.quiet fun _ => rfl) (palletFieldAction_some (s := s.acceptFrame .plan) tag hd) rfl
    exact ⟨t, d, hexec, honly, hanswer, hset⟩

/-! ### PALLET_QUEUE -/

theorem draftInRange_iff (d : Draft) :
    draftInRange d = true ↔ 1 ≤ d.sheets ∧ d.sheets ≤ 65535 ∧ 30 ≤ d.caliper ∧ d.caliper ≤ 600 ∧
      5000 ≤ d.extentNS ∧ d.extentNS ≤ 145000 ∧ 5000 ≤ d.extentEW ∧ d.extentEW ≤ 145000 := by
  simp only [draftInRange, Bool.and_eq_true, decide_eq_true_eq, and_assoc]

/-- A load session or a program operation is about the program (R78). -/
theorem State.engaged_iff (s : State) (p : ProgNo) :
    (s.loading p || s.operating p) = true ↔
      (∃ x, s.session = some x ∧ x.program = p) ∨ ∃ op, s.progOp = some op ∧ op.program = p := by
  rw [Bool.or_eq_true]
  refine or_congr ?_ ?_
  · unfold State.loading
    cases s.session <;> simp
  · unfold State.operating
    cases s.progOp <;> simp

section
variable {p : ProgNo}

/-- The checks of R78 that a Draft passes before the program's. -/
theorem palletQueueAction_badArg (tag : TagField) (h : s.draft.program = none ∨ ¬ draftInRange s.draft = true) :
    palletQueueAction tag s = (s, { result := .badArg, tag := tag, data := 0 }) := by
  unfold palletQueueAction
  split
  · rfl
  · next p hp =>
    have hrange : draftInRange s.draft = false := by simpa [hp] using h
    simp [hrange]

theorem palletQueueAction_invalid (tag : TagField) (hp : s.draft.program = some p) (hr : draftInRange s.draft = true)
    (hv : (s.entry p).state ≠ .valid) :
    palletQueueAction tag s = (s, { result := .invalid, tag := tag, data := 0 }) := by
  simp [palletQueueAction, hp, hr, hv]

theorem palletQueueAction_busy (tag : TagField) (hp : s.draft.program = some p) (hr : draftInRange s.draft = true)
    (hv : (s.entry p).state = .valid) (he : (s.loading p || s.operating p) = true) :
    palletQueueAction tag s = (s, { result := .busy, tag := tag, data := 0 }) := by
  simp only [palletQueueAction, hp, hr, hv, he, Bool.not_true, Bool.false_eq_true, ne_eq, not_true_eq_false, if_false,
    if_true]

theorem palletQueueAction_full (tag : TagField) (hp : s.draft.program = some p) (hr : draftInRange s.draft = true)
    (hv : (s.entry p).state = .valid) (he : ¬ (s.loading p || s.operating p) = true) (hf : 4 ≤ s.pallets.length) :
    palletQueueAction tag s = (s, { result := .full, tag := tag, data := 0 }) := by
  simp only [palletQueueAction, hp, hr, hv, he, hf, Bool.not_true, Bool.false_eq_true, ne_eq, not_true_eq_false,
    if_false, if_true]

theorem palletQueueAction_ok (tag : TagField) (hp : s.draft.program = some p) (hr : draftInRange s.draft = true)
    (hv : (s.entry p).state = .valid) (he : ¬ (s.loading p || s.operating p) = true) (hf : s.pallets.length < 4) :
    palletQueueAction tag s = (s.queuePallet p, { result := .ok, tag := 0, data := dataOf s.nextSeq }) := by
  simp only [palletQueueAction, hp, hr, hv, he, Nat.not_le.2 hf, Bool.not_true, Bool.false_eq_true, ne_eq,
    not_true_eq_false, if_false]

end

/-- Settles O45: the number of R79 is the first free one, and each check of R78 in its turn. -/
theorem palletQueueCreatesARecord : Obligations.PalletQueueCreatesARecord := by
  refine ⟨fun s hroom hcount => ?number, fun tag s hup => ⟨fun h => ?badArg, fun p hp hr => ?checked⟩⟩
  case number =>
    obtain ⟨⟨hlo, hhi⟩, hfree, hleast⟩ :=
      freeSeqFrom_free (taken := s.pallets.map Pallet.seq) (by rwa [List.length_map]) hcount
    have hmem : ∀ n, n ∉ s.pallets.map Pallet.seq ↔ ∀ q ∈ s.pallets, q.seq ≠ n := by simp
    exact ⟨hlo, hhi, (hmem _).1 hfree, fun n h1 h2 hn => hleast n h1 h2 ((hmem n).2 hn)⟩
  case badArg =>
    rw [← draftInRange_iff] at h
    exact plainRequest_refuses hup (palletQueueAction_badArg (s := s.acceptFrame .plan) tag h) rfl
  case checked =>
    replace hr := (draftInRange_iff s.draft).2 hr
    refine ⟨fun hv => plainRequest_refuses hup (palletQueueAction_invalid (s := s.acceptFrame .plan) tag hp hr hv) rfl,
      fun hv => ?_⟩
    simp only [← s.engaged_iff p]
    refine ⟨fun he => plainRequest_refuses hup
        (palletQueueAction_busy (s := s.acceptFrame .plan) tag hp hr hv he) rfl,
      fun he hf => plainRequest_refuses hup (palletQueueAction_full (s := s.acceptFrame .plan) tag hp hr hv he hf) rfl,
      fun he hf => ?_⟩
    obtain ⟨t, hexec, honly, hanswer⟩ := plainRequest_does (code := 22) (nr := tag) (f := fun x => x.queuePallet p) hup
      (Dresses.quiet fun _ => rfl) (palletQueueAction_ok (s := s.acceptFrame .plan) tag hp hr hv he hf) rfl
    exact ⟨t, hexec, hanswer, honly⟩

end Sys2Proof.Machine
end

section
/-! Reports off the job in flight, and ABORT (R64, R67). -/

namespace Sys2Proof.Machine

variable {s : State} {st : Station}

/-! ### The tag checks of R64 -/

theorem doneOutcome_isSome_iff (outcome : BitVec 2) :
    (doneOutcome outcome).isSome = true ↔ outcome = 1#2 ∨ outcome = 2#2 := by
  revert outcome
  decide

theorem State.reportVerdict_badArg {tag : TagField} {wf : Bool}
    (h : tag.toNat = 0 ∨ 32 < tag.toNat ∨ wf = false) : s.reportVerdict st tag wf = .answered .badArg := by
  unfold State.reportVerdict
  rcases tagOfNum_cases tag.toNat with ⟨t, ht, hsome⟩ | ⟨_, hnone⟩
  · have hlt := t.isLt
    have hwf : wf = false := by
      rw [ht, tagNum] at h
      rcases h with h | h | h
      · omega
      · omega
      · exact h
    simp only [hsome, hwf, Bool.not_false, if_true]
  · simp only [hnone]

/-- A tag that is not the job in flight (R64, checks 4 to 6). -/
theorem State.reportVerdict_stray {tag : TagField} {t : Tag} (ht : tag.toNat = tagNum t)
    (h : ¬ ((s.ctx st).busy = true ∧ (s.ctx st).tag = some t)) :
    s.reportVerdict st tag true =
      .answered (if (s.ctx st).lastExpired = some t then .late else if s.pile t = none then .unknownTag
        else .notYours) := by
  simp only [State.reportVerdict, tagOfNum_some ht, Bool.not_true, Bool.false_eq_true, if_false, Bool.and_eq_true,
    decide_eq_true_eq, if_neg h, Option.isNone_iff_eq_none]
  split
  · rfl
  · split <;> rfl

/-- The three reports, each with its code and whether it is well formed (R64). -/
def isReport (st : Station) (tag : TagField) (c : Instr) (code : BitVec 6) (wf : Bool) : Prop :=
  (∃ outcome value, c = .done st tag outcome value ∧ code = 9 ∧ wf = (doneOutcome outcome).isSome) ∨
    (c = .abort st tag ∧ code = 10 ∧ wf = true) ∨ (c = .extend st tag ∧ code = 11 ∧ wf = true)

/-- A report that the checks of R64 answer changes nothing. -/
theorem report_refused {c : Instr} {code : BitVec 6} {tag : TagField} {wf : Bool} {r : Result} (hup : s.Up)
    (hc : isReport st tag c code wf) (hv : s.reportVerdict st tag wf = .answered r) :
    ∃ t, exec c s = .next t ∧ OnlyPorts s t ∧ Answered s t st.port code r tag 0 := by
  have hv' : (s.acceptFrame st.port).reportVerdict st tag wf = .answered r := hv
  rcases hc with ⟨outcome, value, rfl, rfl, rfl⟩ | ⟨rfl, rfl, rfl⟩ | ⟨rfl, rfl, rfl⟩
  · refine request_answers (u := s.acceptFrame st.port) hup ?_ rfl rfl rfl
    simp only [doneAction, hv']
  · refine request_answers (u := s.acceptFrame st.port) hup ?_ rfl rfl rfl
    simp only [abortAction, hv']
  · have hextend : extendAction st tag (s.acceptFrame st.port) =
        (s.acceptFrame st.port, { result := r, tag := tag, data := 0 }) := by
      simp only [extendAction, hv']
    exact plainRequest_refuses hup hextend rfl

/-- Settles O25: the checks of R64 in order. -/
theorem strayReportsAreToldApart : Obligations.StrayReportsAreToldApart := by
  intro st c code tag known s hup hc
  obtain ⟨wf, hreport, hknown⟩ : ∃ wf, isReport st tag c code wf ∧ (wf = true ↔ known) := by
    rcases hc with ⟨outcome, value, rfl, rfl, hk⟩ | ⟨rfl, rfl, hk⟩ | ⟨rfl, rfl, hk⟩
    · exact ⟨_, .inl ⟨outcome, value, rfl, rfl, rfl⟩, (doneOutcome_isSome_iff outcome).trans hk.symm⟩
    · exact ⟨true, .inr (.inl ⟨rfl, rfl, rfl⟩), iff_of_true rfl hk⟩
    · exact ⟨true, .inr (.inr ⟨rfl, rfl, rfl⟩), iff_of_true rfl hk⟩
  refine ⟨fun h => report_refused hup hreport (State.reportVerdict_badArg ?_), fun t0 ht hk hstray => ?_⟩
  · rwa [← hknown, Bool.not_eq_true] at h
  · obtain rfl := hknown.2 hk
    have hv := State.reportVerdict_stray ht hstray
    refine ⟨fun hlate => report_refused hup hreport ?_, fun hlate hp => report_refused hup hreport ?_,
      fun hlate hp => report_refused hup hreport ?_⟩
    · rw [hv, if_pos hlate]
    · rw [hv, if_neg hlate, if_pos hp]
    · rw [hv, if_neg hlate, if_neg hp]

/-! ### ABORT -/

/-- ABORT of the job in flight undoes it, the drain test made after it (R67). -/
theorem abort_answers {tag : Tag} {p : Pile} (hup : s.Up) (h : InFlight s st tag p) :
    ∃ t, exec (.abort st (tagField tag)) s = .next t ∧ Answered s t st.port 10 .ok (tagField tag) 0 ∧
      DrainTested s (s.abortJob st tag) t := by
  obtain ⟨hbusy, htag, _⟩ := h
  have hverdict : (s.acceptFrame st.port).reportVerdict st (tagField tag) true = .current tag :=
    State.reportVerdict_current (s := s.acceptFrame st.port) hbusy htag
  have haction : abortAction st (tagField tag) (s.acceptFrame st.port) =
      withDrain (fun x => .ok (x.abortJob st tag, { result := .ok, tag := tagField tag, data := 0 }))
        (s.acceptFrame st.port) := by
    simp only [abortAction, hverdict]
  obtain ⟨t, hexec, hdrain, hanswer⟩ := drain_answers (code := 10) (nr := tagField tag) hup haction
    ((State.abortJob_dresses s st tag).settled _) rfl
  exact ⟨t, hexec, hanswer, hdrain⟩

/-- Settles O33: the undo of each station's job. -/
theorem abortUndoesTheJob : Obligations.AbortUndoesTheJob := by
  intro s tag p hup after
  have habort : ∀ {st u}, InFlight s st tag p → s.abortJob st tag = u.putCtx st (endedContext (s.ctx st)) →
      after st u := fun hfly heq => by
    obtain ⟨t, hexec, hanswer, hdrain⟩ := abort_answers hup hfly
    exact ⟨t, hexec, hanswer, heq ▸ hdrain⟩
  refine ⟨fun hfly => habort hfly ?lift, fun hfly => habort hfly ?jog, fun hfly => habort hfly ?knife,
    fun hfly => habort hfly ?turn⟩
  all_goals obtain ⟨_, _, hp⟩ := hfly
  case lift => rw [State.abortJob, State.endJob_eq, State.freeRecord_ctx]
  case jog => rw [State.abortJob, State.modifyPile_some _ _ _ hp]; rfl
  case knife =>
    rw [State.abortJob, State.dropKnifeTurn_pile s tag hp, State.modifyPile_some _ _ _ (State.putPile_pile _ _ _),
      State.putPile_putPile]
    rfl
  case turn => rw [State.abortJob, State.modifyPile_some _ _ _ hp]; rfl

end Sys2Proof.Machine
end

section
/-! The response timers (R71 to R74): a timer's expiry, and the tick as the lowering of the timers that stand above
their last count followed by the expiries of the others in station order. -/

namespace Sys2Proof.Machine

variable {s u : State} {st : Station}

/-! ### An expiry -/

/-- The expiry of a job's timer holds its pile with TIMEOUT (R72). -/
theorem State.expireJob_eq {tag : Tag} {p : Pile} (ht : (s.ctx st).tag = some tag) (hp : s.pile tag = some p) :
    s.expireJob st = heldOff s st tag p .timeout (some tag) := by
  simp only [State.expireJob, ht]
  rw [State.failJob_eq s st tag .timeout hp]
  simp only [heldOff, State.putCtx_ctx, State.putCtx_putCtx]

/-- A timer at its last count. -/
def Context.due (c : Context) : Bool := c.running && decide (c.remaining ≤ 1)

theorem execResponseTimerExpiry_due (hd : (s.ctx st).due = true) (hh : s.halt = false) :
    exec (.responseTimerExpiry st) s = event (expire st s) := by
  simp only [Context.due, Bool.and_eq_true, decide_eq_true_eq] at hd
  obtain ⟨hr, hc⟩ := hd
  simp [exec, execResponseTimerExpiry, hr, hc, hh]

theorem execResponseTimerExpiry_idle (h : (s.ctx st).running = false ∨ 1 < (s.ctx st).remaining ∨ s.halt = true) :
    exec (.responseTimerExpiry st) s = .next s.settle := by
  have hnot : ((s.ctx st).running && !s.halt && decide ((s.ctx st).remaining ≤ 1)) = false := by
    rcases h with h | h | h
    · simp [h]
    · simp [h]
    · simp [h]
  simp only [exec, execResponseTimerExpiry, hnot]
  rfl

/-! ### A station's share of a tick -/

/-- A running timer one count lower. -/
def Context.lowered (c : Context) : Context :=
  if c.running = true then { c with remaining := c.remaining - 1 } else c

/-- A timer after a tick, but for its expiry. -/
def Context.ticked (c : Context) : Context := if c.due then c else c.lowered

theorem Context.ticked_busy (c : Context) : c.ticked.busy = c.busy := by
  unfold Context.ticked Context.lowered
  split
  · rfl
  · split <;> rfl

theorem Context.ticked_of_due {c : Context} (h : c.due = true) : c.ticked = c := if_pos h

theorem Context.ticked_of_not_due {c : Context} (h : c.due = false) : c.ticked = c.lowered := by
  simp [Context.ticked, h]

/-- One station's timer ticked, its expiry apart. -/
def State.tickTimer (s : State) (st : Station) : State := s.putCtx st (s.ctx st).ticked

/-- Several stations' timers ticked, their expiries apart. -/
def State.tickTimers (s : State) (l : List Station) : State := l.foldl State.tickTimer s

theorem State.tickTimer_ctx_other {other : Station} (h : st ≠ other) : (s.tickTimer st).ctx other = s.ctx other :=
  State.putCtx_ctx_other s _ h

theorem State.putCtx_self (s : State) (st : Station) : s.putCtx st (s.ctx st) = s := by
  show { s with contexts := put s.contexts st.ix (look s.contexts st.ix) } = s
  rw [put_look]

theorem tickStation_halt (h : s.halt = true) : tickStation st s = .ok (s, ()) := by
  simp [tickStation, h]

theorem tickStation_due (hd : (s.ctx st).due = true) (hh : s.halt = false) : tickStation st s = expire st s := by
  simp only [Context.due, Bool.and_eq_true, decide_eq_true_eq] at hd
  obtain ⟨hr, hc⟩ := hd
  simp [tickStation, hr, hc, hh]

theorem tickStation_not_due (hd : (s.ctx st).due = false) (hh : s.halt = false) :
    tickStation st s = .ok (s.tickTimer st, ()) := by
  rw [State.tickTimer, Context.ticked_of_not_due hd, Context.lowered]
  unfold tickStation
  by_cases hr : (s.ctx st).running = true
  · have hc : ¬ (s.ctx st).remaining ≤ 1 := by simpa [Context.due, hr] using hd
    simp [hr, hh, hc]
  · simp only [hr, Bool.false_and, Bool.false_eq_true, if_false, State.putCtx_self]

/-! ### The tick -/

/-- The expiries of several stations, one after another. -/
def Expiring : List Station → State → State → Prop
  | [], s, u => u = s
  | st :: rest, s, u => ∃ t, expire st s = .ok (t, ()) ∧ Expiring rest t u

/-- What an expiry leaves: HALT, and the other stations' contexts. -/
theorem expire_keeps (h : expire st s = .ok (u, ())) :
    u.halt = s.halt ∧ ∀ other, st ≠ other → u.ctx other = s.ctx other := by
  obtain ⟨t, ht, hhalt, _, hctx⟩ := expire_ok s st
  obtain rfl : t = u := by
    rw [ht] at h
    injection h with h
    injection h
  exact ⟨hhalt, hctx⟩

/-- An expiry and the ticks of other stations' timers do not meet. -/
theorem expire_tickTimers (l : List Station) : ∀ {s u : State}, st ∉ l → expire st s = .ok (u, ()) →
    expire st (s.tickTimers l) = .ok (u.tickTimers l, ()) := by
  induction l with
  | nil => exact fun _ h => h
  | cons x l ih =>
    intro s u hx h
    rw [List.mem_cons, not_or] at hx
    obtain ⟨hne, hl⟩ := hx
    refine ih (s := s.tickTimer x) (u := u.tickTimer x) hl ?_
    have hctx := (expire_keeps h).2 x hne
    rw [State.tickTimer, State.tickTimer, hctx]
    exact expire_putCtx s _ (Ne.symm hne) (Context.ticked_busy _) h

theorem filter_due_congr {l : List Station} (h : ∀ x ∈ l, u.ctx x = s.ctx x) :
    (l.filter fun x => (u.ctx x).due) = l.filter fun x => (s.ctx x).due :=
  List.filter_congr fun x hx => by rw [h x hx]

/-- Stations' shares of a tick one after another: every timer ticked, then those that were due expire (R71, R72). -/
theorem tickStations_spec (l : List Station) : ∀ {s : State}, l.Nodup → s.halt = false →
    ∃ t, tickStations l s = .ok (t, ()) ∧ Expiring (l.filter fun x => (s.ctx x).due) (s.tickTimers l) t := by
  induction l with
  | nil => exact fun _ _ => ⟨_, rfl, rfl⟩
  | cons x l ih =>
    intro s hl hh
    obtain ⟨hx, hl⟩ := List.nodup_cons.1 hl
    have hother : ∀ y ∈ l, x ≠ y := fun y hy h => hx (h ▸ hy)
    cases hd : (s.ctx x).due with
    | false =>
      obtain ⟨t, ht, hexp⟩ := ih (s := s.tickTimer x) hl hh
      refine ⟨t, by rw [tickStations, tickStation_not_due hd hh]; exact ht, ?_⟩
      rw [filter_due_congr fun y hy => State.tickTimer_ctx_other (hother y hy)] at hexp
      rw [List.filter_cons_of_neg (by simp [hd])]
      exact hexp
    | true =>
      obtain ⟨v, hv, _⟩ := expire_ok s x
      obtain ⟨hhalt, hctx⟩ := expire_keeps hv
      obtain ⟨t, ht, hexp⟩ := ih (s := v) hl (hhalt.trans hh)
      refine ⟨t, by rw [tickStations, tickStation_due hd hh, hv]; exact ht, ?_⟩
      rw [filter_due_congr fun y hy => hctx y (hother y hy)] at hexp
      have hticked : s.tickTimer x = s := by
        rw [State.tickTimer, Context.ticked_of_due hd, State.putCtx_self]
      simp only [List.filter_cons, hd, if_true]
      refine ⟨v.tickTimers l, ?_, hexp⟩
      rw [State.tickTimers, List.foldl_cons, hticked]
      exact expire_tickTimers l hx hv

theorem tickStations_halt (l : List Station) (h : s.halt = true) : tickStations l s = .ok (s, ()) := by
  induction l with
  | nil => rfl
  | cons x l ih => rw [tickStations, tickStation_halt h]; exact ih

/-! ### All four stations -/

theorem exists_station_ix : ∀ i : Fin 4, ∃ st : Station, st.ix = i
  | 0 => ⟨.lift, rfl⟩
  | 1 => ⟨.jog, rfl⟩
  | 2 => ⟨.knife, rfl⟩
  | 3 => ⟨.turn, rfl⟩

/-- Contexts are given station by station. -/
theorem contexts_ext {v w : Vector Context 4} (h : ∀ st : Station, look v st.ix = look w st.ix) : v = w := by
  refine Vector.ext fun k hk => ?_
  obtain ⟨st, hst⟩ := exists_station_ix ⟨k, hk⟩
  have hk := h st
  rwa [hst] at hk

def allStations : List Station := [.lift, .jog, .knife, .turn]

theorem State.tickTimers_ctx (l : List Station) : ∀ {s : State}, l.Nodup → ∀ st,
    (s.tickTimers l).ctx st = if st ∈ l then (s.ctx st).ticked else s.ctx st := by
  induction l with
  | nil => exact fun _ _ => rfl
  | cons x l ih =>
    intro s hl st
    obtain ⟨hx, hl⟩ := List.nodup_cons.1 hl
    rw [State.tickTimers, List.foldl_cons]
    refine (ih hl st).trans ?_
    by_cases hst : x = st
    · subst hst
      rw [if_neg hx, if_pos List.mem_cons_self]
      exact State.putCtx_ctx s x _
    · rw [State.tickTimer_ctx_other hst]
      simp [List.mem_cons, Ne.symm hst]

theorem State.tickTimers_frame (l : List Station) : ∀ s : State,
    s.tickTimers l = { s with contexts := (s.tickTimers l).contexts } := by
  induction l with
  | nil => exact fun _ => rfl
  | cons x l ih => exact fun s => ih (s.tickTimer x)

/-- The tick of all four timers, their expiries apart. -/
theorem State.tickTimers_all (s : State) :
    s.tickTimers allStations = { s with contexts := s.contexts.map Context.ticked } := by
  rw [State.tickTimers_frame]
  congr 1
  refine contexts_ext fun st => ?_
  have hmem : st ∈ allStations := by cases st <;> decide
  exact (State.tickTimers_ctx allStations (by decide) st).trans (by rw [if_pos hmem, look_map]; rfl)

/-- What a tick comes to while HALT is released. -/
theorem execTimebaseTick_spec (hh : s.halt = false) :
    ∃ t, exec .timebaseTick s = .next t.settle ∧
      Expiring (allStations.filter fun x => (s.ctx x).due)
        { s with contexts := s.contexts.map Context.ticked } t := by
  obtain ⟨t, ht, hexp⟩ := tickStations_spec allStations (s := s) (by decide) hh
  rw [State.tickTimers_all] at hexp
  exact ⟨t, by rw [exec, execTimebaseTick]; exact congrArg event ht, hexp⟩

/-! ### Expiries taken as commands -/

/-- An expiry reads no output line. -/
theorem expire_withPins (h : expire st s = .ok (u, ())) (pn : Pins) :
    expire st { s with pins := pn } = .ok ({ u with pins := pn }, ()) := by
  have hjob : ∀ x : State, State.expireJob { x with pins := pn } st = { x.expireJob st with pins := pn } := fun x => by
    have hports : (x.expireJob st).ports = x.ports := congrArg Panel.ports (State.expireJob_panel st)
    have hlines := (State.expireJob_dresses x st).withLines x.ports pn
    rw [← hports] at hlines
    exact (congrArg (fun v => State.expireJob (x.withLines v pn) st) hports).symm.trans hlines
  have hraise : ∀ (x : State) (ev : Event), State.raise { x with pins := pn } ev = { x.raise ev with pins := pn } :=
    fun x ev => by rw [State.raise_fields, State.raise_fields x]
  have hdrained : ∀ x : State, State.drained { x with pins := pn } = x.drained := fun _ => rfl
  simp only [expire, withDrain, hjob, hraise, hdrained] at h ⊢
  split at h
  · next hd =>
    rw [if_pos hd]
    injection h with h
    injection h with h _
    subst h
    rfl
  · next hd =>
    rw [if_neg hd]
    injection h with h
    injection h with h _
    subst h
    rfl

/-- The expiries of a tick are those of RESPONSE_TIMER_EXPIRY, one after another. -/
theorem Expiring.inTurn (l : List Station) : ∀ {s u : State}, l.Nodup → s.halt = false →
    (∀ x ∈ l, (s.ctx x).due = true) → Expiring l s u → ∀ pn : Pins,
    ∃ v, ExpireInTurn l { s with pins := pn } v ∧ v = { u with pins := v.pins } := by
  induction l with
  | nil =>
    intro s u _ _ _ h pn
    obtain rfl := h
    exact ⟨_, rfl, rfl⟩
  | cons x l ih =>
    intro s u hl hh hdue h pn
    obtain ⟨hx, hl⟩ := List.nodup_cons.1 hl
    obtain ⟨t, ht, hrest⟩ := h
    obtain ⟨hhalt, hctx⟩ := expire_keeps ht
    have hdue' : ∀ y ∈ l, (t.ctx y).due = true := fun y hy => by
      rw [hctx y fun h => hx (h ▸ hy)]
      exact hdue y (List.mem_cons_of_mem x hy)
    obtain ⟨v, hv, heq⟩ := ih hl (hhalt.trans hh) hdue' hrest (State.settle { t with pins := pn }).pins
    refine ⟨v, ⟨_, ?_, hv⟩, heq⟩
    have hexec := execResponseTimerExpiry_due (s := { s with pins := pn }) (st := x) (hdue x List.mem_cons_self) hh
    rw [hexec, expire_withPins ht pn]
    rfl

/-- Settles O36: an expiry's effect, and the tick in its four cases. -/
theorem timersCountDownAndExpire : Obligations.TimersCountDownAndExpire := by
  refine ⟨fun st s => ⟨fun tag p hr hc hh ht hp => ?expiry, fun h => ⟨_, execResponseTimerExpiry_idle h, rfl⟩⟩,
    fun s => ?tick⟩
  case expiry =>
    obtain ⟨t, hexec, hdrain, hports⟩ := drain_event ((State.expireJob_dresses s st).settled ())
    rw [State.expireJob_eq ht hp] at hdrain
    have hdue : (s.ctx st).due = true := by simp [Context.due, hr, hc]
    exact ⟨t, (execResponseTimerExpiry_due hdue hh).trans hexec, hports, hdrain⟩
  case tick =>
    intro lowered due
    have hdue : ∀ st, due st ↔ (s.ctx st).due = true := fun st => by simp [due, Context.due]
    have hnot : ∀ st, ¬ due st → (s.ctx st).due = false := fun st h => by simpa [hdue] using h
    refine ⟨fun hh => ?halt, fun hh hnone => ?none, fun st hh hst hone => ?one, fun hh => ?several⟩
    case halt =>
      refine ⟨s.settle, ?_, rfl⟩
      rw [exec, execTimebaseTick, tickStations_halt _ hh]
      rfl
    case none =>
      obtain ⟨t, hexec, hexp⟩ := execTimebaseTick_spec hh
      have hfilter : (allStations.filter fun x => (s.ctx x).due) = [] :=
        List.filter_eq_nil_iff.2 fun x _ => by simp [hnot x (hnone x)]
      rw [hfilter] at hexp
      obtain rfl := hexp
      refine ⟨_, hexec, ?_⟩
      have hmap : s.contexts.map Context.ticked = s.contexts.map lowered := contexts_ext fun x => by
        rw [look_map, look_map]
        exact Context.ticked_of_not_due (hnot x (hnone x))
      rw [hmap]
      rfl
    case one =>
      obtain ⟨t, hexec, hexp⟩ := execTimebaseTick_spec hh
      have hfilter : (allStations.filter fun x => (s.ctx x).due) = [st] := by
        have hothers : ∀ x, x ≠ st → (s.ctx x).due = false := fun x hx => hnot x (hone x hx)
        have hthis := (hdue st).1 hst
        cases st <;> simp [allStations, hthis, hothers]
      rw [hfilter] at hexp
      obtain ⟨v, hv, rfl⟩ := hexp
      refine ⟨_, hexec, ?_⟩
      have hmap : s.contexts.map Context.ticked = put (s.contexts.map lowered) st.ix (s.ctx st) :=
        contexts_ext fun x => by
          rw [look_map]
          by_cases hx : st = x
          · subst hx
            rw [look_put_same]
            exact Context.ticked_of_due ((hdue st).1 hst)
          · rw [look_put_other _ _ (Station.ix_ne hx), look_map]
            exact Context.ticked_of_not_due (hnot x (hone x (Ne.symm hx)))
      rw [hmap] at hv
      have hctx : (State.ctx { s with contexts := put (s.contexts.map lowered) st.ix (s.ctx st) } st).due = true := by
        rw [State.ctx, look_put_same]
        exact (hdue st).1 hst
      rw [execResponseTimerExpiry_due hctx hh, hv]
      rfl
    case several =>
      intro expired
      obtain ⟨t, hexec, hexp⟩ := execTimebaseTick_spec hh
      have hdues : ∀ x ∈ allStations.filter fun x => (s.ctx x).due,
          (State.ctx { s with contexts := s.contexts.map Context.ticked } x).due = true := fun x hx => by
        have hx := (List.mem_filter.1 hx).2
        rw [State.ctx, look_map]
        exact (Context.ticked_of_due hx).symm ▸ hx
      obtain ⟨v, hv, heq⟩ := Expiring.inTurn (s := { s with contexts := s.contexts.map Context.ticked })
        _ (List.Nodup.filter _ (show allStations.Nodup by decide)) hh hdues hexp s.pins
      exact ⟨_, v, hexec, by rw [heq]; rfl, hv⟩

end Sys2Proof.Machine
end

section
/-! HALT, the line states and LINE_RESET (R74, R150 to R156). -/

namespace Sys2Proof.Machine

variable {s : State}

/-! ### HALT -/

/-- A context whose timer, if it runs, is loaded again (R74). -/
def State.reloaded (s : State) (st : Station) : Context :=
  if (s.ctx st).running = true then { s.ctx st with remaining := s.preset st } else s.ctx st

theorem State.reloadRunning_eq (s : State) (st : Station) : s.reloadRunning st = s.putCtx st (s.reloaded st) := by
  unfold State.reloadRunning State.reloaded
  split
  · next hr => rw [State.loadTimer, ← hr]
  · exact (State.putCtx_self s st).symm

/-- The reload of one station's timer is not seen by another's. -/
theorem State.reloaded_putCtx (c : Context) {st other : Station} (h : st ≠ other) :
    (s.putCtx st c).reloaded other = s.reloaded other := by
  simp only [State.reloaded, State.putCtx_ctx_other s c h]
  rfl

theorem contexts_put (v : Vector Context 4) (a b c d : Context) :
    put (put (put (put v Station.lift.ix a) Station.jog.ix b) Station.knife.ix c) Station.turn.ix d =
      #v[a, b, c, d] := by
  refine contexts_ext fun st => ?_
  cases st <;> simp [look_put, Station.ix] <;> rfl

/-- The release of HALT reloads each running timer (R74, R156). -/
theorem State.releaseHalt_eq (h : s.halt = true) :
    s.releaseHalt =
      { State.raise { s with halt := false } .haltOff with
        contexts := #v[s.reloaded .lift, s.reloaded .jog, s.reloaded .knife, s.reloaded .turn] } := by
  have hraised : ∀ st, (State.raise { s with halt := false } .haltOff).reloaded st = s.reloaded st := fun st => by
    rw [State.raise_fields]
    rfl
  simp only [State.releaseHalt, h, if_true]
  generalize State.raise { s with halt := false } .haltOff = x at hraised ⊢
  simp only [State.reloadRunning_eq]
  rw [State.reloaded_putCtx _ (by decide), State.reloaded_putCtx _ (by decide), State.reloaded_putCtx _ (by decide),
    State.reloaded_putCtx _ (by decide), State.reloaded_putCtx _ (by decide), State.reloaded_putCtx _ (by decide)]
  simp only [hraised]
  exact congrArg (fun v => { x with contexts := v }) (contexts_put _ _ _ _ _)

theorem State.assertHalt_of_released (h : s.halt = false) :
    s.assertHalt = State.raise { s with halt := true } .haltOn := if_neg (by simp [h])

theorem State.assertHalt_of_asserted (h : s.halt = true) : s.assertHalt = s := if_pos h

theorem State.releaseHalt_of_released (h : s.halt = false) : s.releaseHalt = s := if_neg (by simp [h])

theorem execHaltAsserted_eq {u : State} (h : s.assertHalt = u) : exec .haltAsserted s = .next u.settle := by
  rw [← h]
  rfl

theorem execHaltReleased_eq {u : State} (h : s.releaseHalt = u) : exec .haltReleased s = .next u.settle := by
  rw [← h]
  rfl

/-- Settles O37: the two changes of level, and the levels that do not change. -/
theorem haltFollowsItsInput : Obligations.HaltFollowsItsInput := fun _ =>
  ⟨fun h => ⟨⟨_, execHaltAsserted_eq (State.assertHalt_of_released h), rfl⟩,
      ⟨_, execHaltReleased_eq (State.releaseHalt_of_released h), rfl⟩⟩,
    fun h => ⟨⟨_, execHaltReleased_eq (State.releaseHalt_eq h), rfl⟩,
      ⟨_, execHaltAsserted_eq (State.assertHalt_of_asserted h), rfl⟩⟩⟩

/-! ### LINE_START, LINE_STOP and the drain -/

theorem State.draining_settled (s : State) :
    Settled (fun x => .ok ({ x with line := .draining }, ())) s { s with line := .draining } () :=
  Dresses.settled (f := fun x => { x with line := .draining }) (Dresses.quiet fun _ => rfl) ()

/-- The line state after a drain test. -/
theorem DrainTested.line {u t : State} (h : DrainTested s u t) (hu : u.line = .draining) :
    (t.line = .stopped ∧ Drained u) ∨ (t.line = .draining ∧ ¬ Drained u) := by
  by_cases hd : Drained u
  · refine .inl ⟨?_, hd⟩
    rw [(h.2 ⟨hu, hd⟩).1]
  · refine .inr ⟨?_, hd⟩
    rw [h.1 fun hn => hd hn.2]
    exact hu

/-- LINE_STOP in RUN: DRAINING, and the drain test in the same event (R152). -/
theorem lineStop_answers (hrun : s.line = .run) (tag : TagField) :
    ∃ t, exec (.lineStop tag) s = .next t ∧ DrainTested s { s with line := .draining } t ∧
      Answered s t .plan 17 .ok tag (dataOf (lineCode t.line)) := by
  have hup : s.Up := fun h => absurd (hrun.symm.trans h) (by decide)
  obtain ⟨hr, evs, ha⟩ := State.draining_settled (s.acceptFrame .plan)
  obtain ⟨v, hv, hdrain, hports, _⟩ := withDrain_spec ha
  rw [Settled.after hr ha] at hdrain
  have haction : lineStopAction tag (s.acceptFrame .plan) =
      .ok (v, { result := .ok, tag := tag, data := dataOf (lineCode v.line) }) := by
    have hline : (s.acceptFrame .plan).line = .run := hrun
    simp only [lineStopAction, hline, if_true, State.drainBegin, hv]
  exact ⟨_, request_ok hup haction,
    DrainTested.withLines (s := s) (u := { s with line := .draining }) (t := v) _ _ (v.reply .plan 17 _).ports _ _
      (v.reply .plan 17 _).pins hdrain,
    State.reply_answered s v .plan 17 _ hports⟩

/-- Settles O38: each request by the line state that it finds, and the drain test taken by itself. -/
theorem lineStatesFollowTheirRequests : Obligations.LineStatesFollowTheirRequests := by
  intro s tag
  refine ⟨fun hup => ?start, fun hrun => ?stop, fun hup hrun => ?refused, ?drain⟩
  case start =>
    exact plainRequest_does (f := fun x => { x with line := .run }) (code := 16) (nr := tag)
      (action := lineStartAction tag) hup (Dresses.quiet fun _ => rfl) rfl rfl
  case stop =>
    obtain ⟨t, hexec, hdrain, hanswer⟩ := lineStop_answers hrun tag
    refine ⟨t, hexec, hdrain, ?_, ?_⟩
    · rcases hdrain.line rfl with ⟨hline, _⟩ | ⟨hline, _⟩ <;> rw [hline] at hanswer ⊢ <;> exact hanswer
    · rcases hdrain.line rfl with ⟨hline, hd⟩ | ⟨hline, hd⟩
      · exact iff_of_true hline hd
      · exact iff_of_false (by rw [hline]; decide) hd
  case refused =>
    have haction : lineStopAction tag (s.acceptFrame .plan) =
        .ok (s.acceptFrame .plan, { result := .notRunning, tag := tag, data := 0 }) := if_neg hrun
    exact request_answers hup haction rfl rfl rfl
  case drain => exact drain_event ((Dresses.quiet (f := id) fun _ => rfl : Dresses id s).settled ())

/-! ### LINE_RESET -/

theorem State.lineReset_port (s : State) (p : Port) :
    s.lineReset.port p = { s.port p with restarted := true, snapPtr := 0 } := by
  rw [State.port, State.lineReset, look_map]
  rfl

/-- Settles O39: LINE_RESET's own clearing, and its reply formed on the cleared port unit. -/
theorem lineResetClearsTheLine : Obligations.LineResetClearsTheLine := by
  intro s tag hup
  have hport := State.lineReset_port (s.acceptFrame .plan) .plan
  refine ⟨_, plainRequest_ok (p := .plan) (code := 18) (tag := tag)
    (f := fun x => (x.lineReset, { result := .ok, tag := 0, data := 0 })) hup, rfl, ?_, fun q hq => ?_⟩
  · have hunit := State.respond_unit s (s.acceptFrame .plan).lineReset .plan 18 true true 0
      { result := .ok, tag := 0, data := 0 } hport
    rw [State.reply, hport]
    exact hunit
  · refine (State.respond_other _ _ _ _ _ _ hq).trans ?_
    rw [State.lineReset_port, State.acceptFrame_other _ _ _ hq]

end Sys2Proof.Machine
end

section
/-! The Blade Monitor's latches (R121, R122, R124). -/

namespace Sys2Proof.Machine

variable {s : State}

/-- The state with another Blade Monitor. -/
def State.withBlade (s : State) (b : Blade) : State := { s with blade := b }

/-- Events are raised whatever the Blade Monitor holds. -/
theorem State.raise_withBlade (s : State) (b : Blade) (ev : Event) :
    (s.withBlade b).raise ev = (s.raise ev).withBlade b := by
  rw [State.raise_fields, State.raise_fields s]
  rfl

/-- BLADE_WARN is raised where its latch is newly set. -/
def State.warned (s : State) (b : Blade) : State :=
  if decide (s.settings.warn ≤ b.counter) && !b.warnLatch then s.raise .bladeWarn else s

/-- BLADE_OVERDUE is raised where its latch is newly set. -/
def State.overdueRaised (s : State) (b : Blade) : State :=
  if decide (s.settings.limit ≤ b.counter) && !b.overdueLatch then s.raise .bladeOverdue else s

theorem State.warned_settings (s : State) (b : Blade) : (s.warned b).settings = s.settings := by
  unfold State.warned
  split
  · exact State.raise_settings s _
  · rfl

theorem State.overdueRaised_warned (s : State) (b : Blade) :
    (s.warned b).overdueRaised b =
      if decide (s.settings.limit ≤ b.counter) && !b.overdueLatch then (s.warned b).raise .bladeOverdue
      else s.warned b := by
  rw [State.overdueRaised, State.warned_settings]

theorem State.warnTest_withBlade (s : State) (b : Blade) :
    (s.withBlade b).warnTest =
      (s.warned b).withBlade { b with warnLatch := b.warnLatch || decide (s.settings.warn ≤ b.counter) } := by
  show (if decide (s.settings.warn ≤ b.counter) && !b.warnLatch then
    (s.withBlade { b with warnLatch := true }).raise .bladeWarn else s.withBlade b) = _
  unfold State.warned
  split
  · next h =>
    obtain ⟨hw, _⟩ := Bool.and_eq_true_iff.1 h
    rw [State.raise_withBlade, hw, Bool.or_true]
  · next h =>
    have hlatch : (b.warnLatch || decide (s.settings.warn ≤ b.counter)) = b.warnLatch := by
      revert h
      cases b.warnLatch <;> simp
    rw [hlatch]

theorem State.overdueTest_withBlade (s : State) (b : Blade) :
    (s.withBlade b).overdueTest =
      (s.overdueRaised b).withBlade
        { b with overdueLatch := b.overdueLatch || decide (s.settings.limit ≤ b.counter) } := by
  show (if decide (s.settings.limit ≤ b.counter) && !b.overdueLatch then
    (s.withBlade { b with overdueLatch := true }).raise .bladeOverdue else s.withBlade b) = _
  unfold State.overdueRaised
  split
  · next h =>
    obtain ⟨hw, _⟩ := Bool.and_eq_true_iff.1 h
    rw [State.raise_withBlade, hw, Bool.or_true]
  · next h =>
    have hlatch : (b.overdueLatch || decide (s.settings.limit ≤ b.counter)) = b.overdueLatch := by
      revert h
      cases b.overdueLatch <;> simp
    rw [hlatch]

/-- The test of both latches (R122). -/
theorem State.bladeTest_withBlade (s : State) (b : Blade) :
    (s.withBlade b).bladeTest =
      ((s.warned b).overdueRaised b).withBlade
        { b with
          warnLatch := b.warnLatch || decide (s.settings.warn ≤ b.counter)
          overdueLatch := b.overdueLatch || decide (s.settings.limit ≤ b.counter) } := by
  rw [State.bladeTest_eq, State.warnTest_withBlade, State.overdueTest_withBlade, State.warned_settings]
  rfl

/-- The re-test after a threshold is written: each latch stands exactly where its threshold is reached (R122). -/
theorem State.bladeRetest_eq (s : State) :
    s.bladeRetest =
      ((s.warned s.blade).overdueRaised s.blade).withBlade
        { s.blade with
          warnLatch := decide (s.settings.warn ≤ s.blade.counter)
          overdueLatch := decide (s.settings.limit ≤ s.blade.counter) } := by
  have hnew : ∀ a b : Bool, (b && !(a && b)) = (b && !a) := by decide
  have hkept : ∀ a b : Bool, (a && b || b) = b := by decide
  refine (State.bladeTest_withBlade s _).trans ?_
  simp only [State.warned, State.overdueRaised, hnew, hkept]
  split <;> simp only [State.raise_settings, hnew]

/-- Settles O54: the rise with its save and the latch test, and BLADE_CHANGED. -/
theorem bladeIsCountedAndChanged : Obligations.BladeIsCountedAndChanged := by
  intro s
  refine ⟨fun h => if_pos h, fun h => ?rise, fun hup p tag => ?changed⟩
  case rise =>
    intro n warned overdue s1 s2 s3 s4
    have hrise : s.bladeRise = s2.bladeTest := by
      rw [State.bladeRise, if_neg (Nat.not_le.2 h)]
      rfl
    have hs2 : s2.settings = s.settings ∧ s2.blade = { s.blade with counter := n } := by
      by_cases hn : n % 256 = 0
      · have : s2 = State.startNext { s1 with bladeSave := true } := if_pos hn
        rw [this, State.startNext_frame]
        exact ⟨rfl, rfl⟩
      · have : s2 = s1 := if_neg hn
        rw [this]
        exact ⟨rfl, rfl⟩
    obtain ⟨hsettings, hblade⟩ := hs2
    have hs3 : s2.warned s2.blade = s3 := by rw [State.warned, hsettings, hblade]
    have htest := State.bladeTest_withBlade s2 s2.blade
    rw [State.overdueRaised_warned, hs3, hsettings, hblade] at htest
    exact hrise.trans ((congrArg (fun b => (s2.withBlade b).bladeTest) hblade).trans htest)
  case changed =>
    have hdress : Dresses State.changeBlade s := Dresses.quiet fun o => State.startNext_dress { s with
      blade := { counter := 0, warnLatch := false, overdueLatch := false }, bladeSave := true } o
    obtain ⟨t, hexec, honly, hanswer⟩ := plainRequest_does (p := p.port) (code := 13) (nr := tag)
      (action := fun x => (x.changeBlade, { result := .ok, tag := 0, data := dataOf x.blade.counter })) hup hdress rfl rfl
    exact ⟨t, hexec, hanswer, honly⟩

end Sys2Proof.Machine
end

section
/-! CONFIG_WRITE (R122, R157 to R159). -/

namespace Sys2Proof.Machine

variable {s : State}

/-! ### The codes of the settings -/

def classSettingCode : ClassSetting → Nat
  | .kd => 0
  | .force => 1
  | .jogBase => 2
  | .amplitude => 3
  | .air => 4
  | .thr => 5
  | .lim => 6
  | .tol => 7

theorem classSettingOf_code (k : ClassSetting) : classSettingOf (classSettingCode k) = some k := by
  cases k <;> rfl

theorem classSettingCode_of {n : Nat} {k : ClassSetting} (h : classSettingOf n = some k) : n = classSettingCode k := by
  unfold classSettingOf at h
  split at h <;> cases h <;> rfl

/-- The table, index and setting number of a setting (section 11.4). -/
def settingCodes : SettingRef → Nat × Nat × Nat
  | .stock c k => (1, c.val, classSettingCode k)
  | .knot k => (2, k.val, 0)
  | .hmax => (3, 0, 0)
  | .ocode => (3, 0, 1)
  | .preset .lift => (4, 0, 0)
  | .preset .jog => (4, 1, 0)
  | .preset .knife => (4, 2, 0)
  | .preset .turn => (4, 3, 0)
  | .infeed => (5, 0, 0)
  | .childReserve => (5, 0, 1)
  | .warn => (6, 0, 0)
  | .limit => (6, 0, 1)

section
variable {table : TagField} {index setting : BitVec 4} {r : SettingRef}

theorem settingCodes_of_ref (h : settingRef table index setting = some r) :
    (table.toNat, index.toNat, setting.toNat) = settingCodes r := by
  unfold settingRef at h
  split at h
  case h_1 ht =>
    obtain ⟨k, hk, rfl⟩ := Option.map_eq_some_iff.1 h
    rw [ht, classSettingCode_of hk]
    rfl
  case h_2 ht hs =>
    split at h
    · injection h with h
      subst h
      rw [ht, hs]
      rfl
    · cases h
  case h_13 => cases h
  all_goals
    next ht hi hs =>
      injection h with h
      subst h
      rw [ht, hi, hs]
      rfl

theorem settingRef_of_codes (h : (table.toNat, index.toNat, setting.toNat) = settingCodes r) :
    settingRef table index setting = some r := by
  cases r with
  | stock c k =>
    simp only [settingCodes, Prod.mk.injEq] at h
    obtain ⟨ht, hi, hs⟩ := h
    simp only [settingRef, ht, hi, hs, classSettingOf_code, Option.map_some]
  | knot k =>
    simp only [settingCodes, Prod.mk.injEq] at h
    obtain ⟨ht, hi, hs⟩ := h
    simp only [settingRef, ht, hi, hs, k.isLt, dif_pos]
  | preset st =>
    cases st <;> simp only [settingCodes, Prod.mk.injEq] at h
    all_goals
      obtain ⟨ht, hi, hs⟩ := h
      simp only [settingRef, ht, hi, hs]
  | hmax | ocode | infeed | childReserve | warn | limit =>
    simp only [settingCodes, Prod.mk.injEq] at h
    obtain ⟨ht, hi, hs⟩ := h
    simp only [settingRef, ht, hi, hs]

theorem settingRef_iff : settingRef table index setting = some r ↔
    (table.toNat, index.toNat, setting.toNat) = settingCodes r :=
  ⟨settingCodes_of_ref, settingRef_of_codes⟩

end

/-! ### The checks of R158 -/

theorem settingWritable_iff (r : SettingRef) : settingWritable r = true ↔ r ≠ .knot 0 ∧ r ≠ .knot 8 := by
  cases r with
  | knot k =>
    simp only [settingWritable, Bool.and_eq_true, decide_eq_true_eq, ne_eq, SettingRef.knot.injEq, Fin.ext_iff]
    have := k.isLt
    show _ ↔ ¬ k.val = 0 ∧ ¬ k.val = 8
    omega
  | stock | hmax | ocode | preset | infeed | childReserve | warn | limit => simp [settingWritable]

theorem settingOfBlade_iff (r : SettingRef) : settingOfBlade r = true ↔ r = .warn ∨ r = .limit := by
  cases r <;> simp [settingOfBlade]

/-- The constraints of R159 on a value, setting by setting. -/
def Fits (cfg : Settings) (r : SettingRef) (v : Nat) : Prop :=
  (∀ c, r = .stock c .thr → v ≤ (look cfg.classes c).lim) ∧
    (∀ c, r = .stock c .lim → (look cfg.classes c).thr ≤ v) ∧
    (∀ k, r = .knot k → knotValue cfg (k.val - 1) ≤ v ∧ v ≤ knotValue cfg (k.val + 1)) ∧
    (r = .warn → v ≤ cfg.limit) ∧ (r = .limit → cfg.warn ≤ v)

theorem settingFits_iff (cfg : Settings) (r : SettingRef) (v : Nat) : settingFits cfg r v = true ↔ Fits cfg r v := by
  cases r with
  | stock c k => cases k <;> simp [settingFits, Fits]
  | knot | hmax | ocode | preset | infeed | childReserve | warn | limit => simp [settingFits, Fits]

/-- RUN and DRAINING let no setting be written but the blade's (R158 check 3). -/
def Locked (line : LineState) (r : SettingRef) : Prop :=
  (line = .run ∨ line = .draining) ∧ settingOfBlade r = false

/-- A setting written, with the re-test of a blade threshold (R122). -/
def State.configured (s : State) (r : SettingRef) (v : Nat) : State :=
  if settingOfBlade r then State.bladeRetest { s with settings := settingWrite s.settings r v }
  else { s with settings := settingWrite s.settings r v }

theorem State.configured_dresses (s : State) (r : SettingRef) (v : Nat) : Dresses (fun x => x.configured r v) s := by
  have hwrite : Dresses (fun x => { x with settings := settingWrite x.settings r v }) s := Dresses.quiet fun _ => rfl
  cases hb : settingOfBlade r with
  | true =>
    obtain ⟨evs, key⟩ := hwrite.comp (State.bladeRetest_dresses _)
    exact ⟨evs, fun o => by simpa only [State.configured, hb, if_true] using key o⟩
  | false => exact Dresses.quiet fun o => by simp only [State.configured, hb]; rfl

section
variable {table : TagField} {index setting : BitVec 4} {value : Data} {r : SettingRef}

/-- F0 and F8 cannot be written (R158 check 2). -/
theorem configWriteAction_fixed (href : settingRef table index setting = some r) (hw : settingWritable r = false) :
    configWriteAction table index setting value s = (s, { result := .badArg, tag := table, data := 0 }) := by
  simp only [configWriteAction, href, hw, Bool.not_false, if_true]

theorem configWriteAction_locked (href : settingRef table index setting = some r) (hw : settingWritable r = true)
    (hl : Locked s.line r) :
    configWriteAction table index setting value s = (s, { result := .lineRunning, tag := table, data := 0 }) := by
  obtain ⟨hline, hb⟩ := hl
  have hcheck : ((decide (s.line = .run) || decide (s.line = .draining)) && !settingOfBlade r) = true := by
    simpa [hb] using hline
  simp only [configWriteAction, href, hw, hcheck, Bool.not_true, Bool.false_eq_true, if_false, if_true]

/-- A setting that the line state lets be written is checked by its range and its neighbours (R158). -/
theorem configWriteAction_open (href : settingRef table index setting = some r) (hw : settingWritable r = true)
    (hl : ¬ Locked s.line r) :
    configWriteAction table index setting value s =
      if decide (value.toNat < (settingRange r).1) || decide ((settingRange r).2 < value.toNat) then
        (s, { result := .badArg, tag := table, data := 0 })
      else if !settingFits s.settings r value.toNat then (s, { result := .badArg, tag := table, data := 0 })
      else (s.configured r value.toNat, { result := .ok, tag := table, data := value }) := by
  have hcheck : ((decide (s.line = .run) || decide (s.line = .draining)) && !settingOfBlade r) = false := by
    rw [Bool.eq_false_iff]
    simpa [Locked] using hl
  simp only [configWriteAction, href, hw, hcheck, Bool.not_true, Bool.false_eq_true, if_false, dataOf,
    BitVec.ofNat_toNat, BitVec.setWidth_eq]
  rfl

theorem configWriteAction_range (href : settingRef table index setting = some r) (hw : settingWritable r = true)
    (hl : ¬ Locked s.line r) (hr : value.toNat < (settingRange r).1 ∨ (settingRange r).2 < value.toNat) :
    configWriteAction table index setting value s = (s, { result := .badArg, tag := table, data := 0 }) := by
  rw [configWriteAction_open href hw hl, if_pos (by simpa using hr)]

theorem configWriteAction_unfit (href : settingRef table index setting = some r) (hw : settingWritable r = true)
    (hl : ¬ Locked s.line r) (hlo : (settingRange r).1 ≤ value.toNat) (hhi : value.toNat ≤ (settingRange r).2)
    (hf : ¬ Fits s.settings r value.toNat) :
    configWriteAction table index setting value s = (s, { result := .badArg, tag := table, data := 0 }) := by
  rw [configWriteAction_open href hw hl, if_neg (by simp [hlo, hhi]), if_pos]
  rwa [← settingFits_iff, Bool.not_eq_true, ← Bool.not_eq_true'] at hf

theorem configWriteAction_ok (href : settingRef table index setting = some r) (hw : settingWritable r = true)
    (hl : ¬ Locked s.line r) (hlo : (settingRange r).1 ≤ value.toNat) (hhi : value.toNat ≤ (settingRange r).2)
    (hf : Fits s.settings r value.toNat) :
    configWriteAction table index setting value s =
      (s.configured r value.toNat, { result := .ok, tag := table, data := value }) := by
  rw [configWriteAction_open href hw hl, if_neg (by simp [hlo, hhi]), if_neg]
  rw [(settingFits_iff _ _ _).2 hf]
  decide

theorem configWriteAction_none (href : settingRef table index setting = none) (s : State) :
    configWriteAction table index setting value s = (s, { result := .badArg, tag := table, data := 0 }) := by
  simp only [configWriteAction, href]

end

/-- Settles O40: the codes and ranges, and the checks of R158 in order. -/
theorem configWriteChecksAndWrites : Obligations.ConfigWriteChecksAndWrites := by
  refine ⟨fun table index setting r => ?codes, fun r => ?ranges, fun cfg r x v h0 h8 => ?written,
    fun table index setting value s hup => ⟨fun href => ?none, fun r href => ?some⟩⟩
  case codes =>
    rw [settingRef_iff]
    cases r with
    | stock c k => cases k <;> rfl
    | preset st => cases st <;> rfl
    | knot | hmax | ocode | infeed | childReserve | warn | limit => rfl
  case ranges =>
    cases r with
    | stock c k => cases k <;> simp [settingRange, classRange, settingValue, Settings.reset, classValue, StockClass.reset]
    | preset st => cases st <;> rfl
    | knot k => revert k; decide
    | hmax | ocode | infeed | childReserve | warn | limit => rfl
  case written => exact settingValue_settingWrite cfg x v ((settingWritable_iff r).2 ⟨h0, h8⟩)
  case none => exact plainRequest_refuses hup (configWriteAction_none href (s.acceptFrame .plan)) rfl
  case some =>
    refine ⟨fun h => ?fixed, fun h0 h8 => ?checked⟩
    case fixed =>
      have hw : settingWritable r = false := by
        rcases h with rfl | rfl <;> rfl
      exact plainRequest_refuses hup (configWriteAction_fixed (s := s.acceptFrame .plan) href hw) rfl
    case checked =>
      have hw := (settingWritable_iff r).2 ⟨h0, h8⟩
      refine ⟨fun hrun hwarn hlimit => ?locked, fun hopen => ?unlocked⟩
      case locked =>
        have hb : settingOfBlade r = false := by
          rw [Bool.eq_false_iff, ne_eq, settingOfBlade_iff]
          exact not_or.2 ⟨hwarn, hlimit⟩
        exact plainRequest_refuses hup (configWriteAction_locked (s := s.acceptFrame .plan) href hw ⟨hrun, hb⟩) rfl
      case unlocked =>
        have hl : ¬ Locked s.line r := by
          rintro ⟨hrun, hb⟩
          rcases hopen with hopen | hblade
          · exact hopen hrun
          · rw [(settingOfBlade_iff r).2 hblade] at hb
            cases hb
        refine ⟨fun hr => plainRequest_refuses hup
            (configWriteAction_range (s := s.acceptFrame .plan) href hw hl hr) rfl,
          fun hlo hhi => ⟨fun hf => plainRequest_refuses hup
            (configWriteAction_unfit (s := s.acceptFrame .plan) href hw hl hlo hhi hf) rfl, fun hf => ?fits⟩⟩
        case fits =>
          obtain ⟨t, hexec, honly, hanswer⟩ := plainRequest_does (code := 19) (nr := table) hup
            (s.configured_dresses r value.toNat)
            (configWriteAction_ok (s := s.acceptFrame .plan) href hw hl hlo hhi hf) rfl
          refine ⟨t, hexec, hanswer, ?_⟩
          simp only [← settingOfBlade_iff]
          rw [State.configured] at honly
          split at honly
          · next hb =>
            rw [if_pos hb]
            rw [State.bladeRetest_eq, State.overdueRaised_warned] at honly
            exact honly
          · next hb =>
            rw [if_neg hb]
            exact honly

end Sys2Proof.Machine
end

section
/-! RELEASE (R18, R19). -/

namespace Sys2Proof.Machine

variable {s : State} {tag : TagField} {action : BitVec 4}

/-! ### The action codes -/

theorem releaseAction_retry : releaseAction action = some .retry ↔ action = 1#4 := by
  revert action
  decide

theorem releaseAction_skip : releaseAction action = some .skip ↔ action = 2#4 := by
  revert action
  decide

theorem releaseAction_returnLift : releaseAction action = some .returnLift ↔ action = 3#4 := by
  revert action
  decide

theorem releaseAction_scrap : releaseAction action = some .scrap ↔ action = 4#4 := by
  revert action
  decide

theorem releaseAllowed_retry (st : Station) : releaseAllowed st .retry = true ↔ st ≠ .lift := by cases st <;> decide

theorem releaseAllowed_skip (st : Station) : releaseAllowed st .skip = true ↔ st = .knife := by cases st <;> decide

theorem releaseAllowed_returnLift (st : Station) : releaseAllowed st .returnLift = true ↔ st = .lift := by
  cases st <;> decide

theorem releaseAllowed_scrap (st : Station) : releaseAllowed st .scrap = true := by cases st <;> rfl

/-! ### The checks of R18 -/

/-- The checks on an action once the pile is known to be held (R18, checks 4 to 6). -/
def State.actionCheck (s : State) (t : Tag) (p : Pile) (st : Station) (a : ReleaseAction) :
    Except Result (Tag × Pile × Station × ReleaseAction) :=
  if !releaseAllowed st a then .error .badArg
  else if a = .skip && s.stepAt p = some .fin then .error .badArg
  else if (a = .retry || a = .skip) && (s.line = .config || s.line = .stopped) then .error .notRunning
  else .ok (t, p, st, a)

section
variable {t0 : Tag} {p : Pile} {h : Hold} {a : ReleaseAction}

theorem State.releaseCheck_held (ht : tag.toNat = tagNum t0) (hp : s.pile t0 = some p) (hr : p.residency = .held)
    (hh : p.hold = some h) (ha : releaseAction action = some a) :
    s.releaseCheck tag action = s.actionCheck t0 p h.station a := by
  simp only [State.releaseCheck, tagOfNum_some ht, hp, hr, hh, ha]
  rfl

theorem State.releaseCheck_unknown (ht : tag.toNat = tagNum t0) (hp : s.pile t0 = some p) (hr : p.residency = .held)
    (hh : p.hold = some h) (ha : releaseAction action = none) : s.releaseCheck tag action = .error .badArg := by
  simp only [State.releaseCheck, tagOfNum_some ht, hp, hr, hh, ha]

theorem State.releaseCheck_noTag (ht : tag.toNat = 0 ∨ 32 < tag.toNat) :
    s.releaseCheck tag action = .error .badArg := by
  simp only [State.releaseCheck, tagOfNum_none ht]

theorem State.releaseCheck_notHeld (ht : tag.toNat = tagNum t0)
    (hp : ∀ p, s.pile t0 = some p → p.residency ≠ .held) : s.releaseCheck tag action = .error .badArg := by
  simp only [State.releaseCheck, tagOfNum_some ht]
  split
  · rfl
  · next p hpile =>
    split
    · next hr _ _ => exact absurd hr (hp p hpile)
    · rfl

theorem State.actionCheck_forbidden (ha : releaseAllowed h.station a = false) :
    s.actionCheck t0 p h.station a = .error .badArg := by
  simp [State.actionCheck, ha]

/-- A SKIP of the last step (R18, check 5). -/
theorem State.actionCheck_fin (ha : releaseAllowed h.station .skip = true) (hfin : s.stepAt p = some .fin) :
    s.actionCheck t0 p h.station .skip = .error .badArg := by
  simp [State.actionCheck, ha, hfin]

/-- A pile goes back into the flow in no CONFIG and no STOPPED (R18, check 6). -/
theorem State.actionCheck_stopped (ha : releaseAllowed h.station a = true) (hback : a = .retry ∨ a = .skip)
    (hfin : a = .skip → s.stepAt p ≠ some .fin) (hline : s.line = .config ∨ s.line = .stopped) :
    s.actionCheck t0 p h.station a = .error .notRunning := by
  have hfin' : (decide (a = .skip) && decide (s.stepAt p = some .fin)) = false := by
    by_cases hs : a = .skip
    · simp [hfin hs]
    · simp [hs]
  have hlast : ((decide (a = .retry) || decide (a = .skip)) &&
      (decide (s.line = .config) || decide (s.line = .stopped))) = true := by simp [hback, hline]
  simp only [State.actionCheck, ha, hfin', hlast, Bool.not_true, Bool.false_eq_true, if_false, if_true]

theorem State.actionCheck_ok (ha : releaseAllowed h.station a = true) (hfin : a = .skip → s.stepAt p ≠ some .fin)
    (hline : a = .retry ∨ a = .skip → ¬ (s.line = .config ∨ s.line = .stopped)) :
    s.actionCheck t0 p h.station a = .ok (t0, p, h.station, a) := by
  have hfin' : (decide (a = .skip) && decide (s.stepAt p = some .fin)) = false := by
    by_cases hs : a = .skip
    · simp [hfin hs]
    · simp [hs]
  have hlast : ((decide (a = .retry) || decide (a = .skip)) &&
      (decide (s.line = .config) || decide (s.line = .stopped))) = false := by
    rw [Bool.eq_false_iff]
    simpa [not_or] using hline
  simp only [State.actionCheck, ha, hfin', hlast, Bool.not_true, Bool.false_eq_true, if_false]

end

/-! ### What RELEASE comes to -/

theorem release_refused {r : Result} (hup : s.Up) (h : s.releaseCheck tag action = .error r) :
    ∃ t, exec (.release tag action) s = .next t ∧ OnlyPorts s t ∧ Answered s t .plan 32 r tag 0 := by
  have haction : releaseRequest tag action (s.acceptFrame .plan) =
      (s.acceptFrame .plan, { result := r, tag := tag, data := 0 }) := by
    have h' : (s.acceptFrame .plan).releaseCheck tag action = .error r := h
    simp only [releaseRequest, h']
  exact plainRequest_refuses hup haction rfl

theorem State.releasePile_dresses (s : State) (t : Tag) (p : Pile) (st : Station) (a : ReleaseAction) :
    Dresses (fun x => x.releasePile t p st a) s := by
  cases a with
  | scrap => exact State.freeRecord_dresses s t accountScrapped
  | returnLift => exact State.freeRecord_dresses s t accountReturned
  | skip => exact Dresses.quiet fun _ => rfl
  | retry => cases st <;> exact Dresses.quiet fun _ => rfl

theorem release_leads {t0 : Tag} {p : Pile} {st : Station} {a : ReleaseAction} (hup : s.Up)
    (h : s.releaseCheck tag action = .ok (t0, p, st, a)) :
    ∃ t, exec (.release tag action) s = .next t ∧ OnlyPorts (s.releasePile t0 p st a) t ∧
      Answered s t .plan 32 .ok tag 0 := by
  have haction : releaseRequest tag action (s.acceptFrame .plan) =
      ((s.acceptFrame .plan).releasePile t0 p st a, { result := .ok, tag := tag, data := 0 }) := by
    have h' : (s.acceptFrame .plan).releaseCheck tag action = .ok (t0, p, st, a) := h
    simp only [releaseRequest, h']
  exact plainRequest_does hup (s.releasePile_dresses t0 p st a) haction rfl

/-- Settles O53: the checks of R18 in order, and each action at each station. -/
theorem releasePutsBackOrFrees : Obligations.ReleasePutsBackOrFrees := by
  intro tag action s hup command refused leads
  refine ⟨fun h => release_refused hup (State.releaseCheck_noTag h), fun t0 ht =>
    ⟨fun hp => release_refused hup (State.releaseCheck_notHeld ht hp), ?_⟩⟩
  intro p h hp hr hh retry skip back scrap stopped
  have hcheck : ∀ {a}, releaseAction action = some a → s.releaseCheck tag action = s.actionCheck t0 p h.station a :=
    State.releaseCheck_held ht hp hr hh
  have hretry : retry → releaseAction action = some .retry ∧ releaseAllowed h.station .retry = true :=
    fun h => ⟨releaseAction_retry.2 h.1, (releaseAllowed_retry _).2 h.2⟩
  have hskip : skip → releaseAction action = some .skip ∧ releaseAllowed h.station .skip = true :=
    fun h => ⟨releaseAction_skip.2 h.1, (releaseAllowed_skip _).2 h.2⟩
  have hleads : ∀ {a}, releaseAction action = some a → releaseAllowed h.station a = true →
      (a = .skip → s.stepAt p ≠ some .fin) → (a = .retry ∨ a = .skip → ¬ stopped) →
      leads (s.releasePile t0 p h.station a) := fun ha hallowed hfin hline =>
    release_leads hup ((hcheck ha).trans (State.actionCheck_ok hallowed hfin hline))
  refine ⟨fun hnone => release_refused hup ?forbidden, fun hs hfin => release_refused hup ?fin,
    fun hrt hstop => release_refused hup ?retryStopped, fun hs hfin hstop => release_refused hup ?skipStopped,
    fun hsc => ?scrap, fun hb => ?back, fun hrt hgo => ?retry, fun hs hfin hgo => ?skip⟩
  case forbidden =>
    cases ha : releaseAction action with
    | none => exact State.releaseCheck_unknown ht hp hr hh ha
    | some a =>
      refine (hcheck ha).trans (State.actionCheck_forbidden ?_)
      rw [Bool.eq_false_iff]
      intro hallowed
      refine hnone ?_
      cases a with
      | retry => exact .inl ⟨releaseAction_retry.1 ha, (releaseAllowed_retry _).1 hallowed⟩
      | skip => exact .inr (.inl ⟨releaseAction_skip.1 ha, (releaseAllowed_skip _).1 hallowed⟩)
      | returnLift =>
        exact .inr (.inr (.inl ⟨releaseAction_returnLift.1 ha, (releaseAllowed_returnLift _).1 hallowed⟩))
      | scrap => exact .inr (.inr (.inr (releaseAction_scrap.1 ha)))
  case fin => exact (hcheck (hskip hs).1).trans (State.actionCheck_fin (hskip hs).2 hfin)
  case retryStopped =>
    exact (hcheck (hretry hrt).1).trans
      (State.actionCheck_stopped (hretry hrt).2 (.inl rfl) (fun h => by cases h) hstop)
  case skipStopped =>
    exact (hcheck (hskip hs).1).trans (State.actionCheck_stopped (hskip hs).2 (.inr rfl) (fun _ => hfin) hstop)
  case scrap =>
    exact hleads (releaseAction_scrap.2 hsc) (releaseAllowed_scrap _) (fun h => by cases h) (by simp)
  case back =>
    exact hleads (releaseAction_returnLift.2 hb.1) ((releaseAllowed_returnLift _).2 hb.2) (fun h => by cases h)
      (by simp)
  case retry =>
    have hdone := hleads (hretry hrt).1 (hretry hrt).2 (fun h => by cases h) fun _ => hgo
    exact ⟨fun hst => by rwa [hst] at hdone, fun hst => by rwa [hst] at hdone, fun hst => by rwa [hst] at hdone⟩
  case skip => exact hleads (hskip hs).1 (hskip hs).2 (fun _ => hfin) fun _ => hgo

end Sys2Proof.Machine
end

section
/-! Loading and erasing programs (R33, R34, R136, R138 to R141, R144). -/

namespace Sys2Proof.Machine

variable {s : State} {p : ProgNo}

/-! ### The checks that LOAD_BEGIN and PROG_ERASE share -/

theorem State.storeBusy_busy (h : s.session ≠ none ∨ s.progOp ≠ none) : s.storeBusy p = some .busy := by
  refine if_pos ?_
  simpa [Option.isSome_iff_ne_none] using h

theorem State.storeBusy_inUse (hx : s.session = none) (hop : s.progOp = none) (hu : 0 < s.useCount p) :
    s.storeBusy p = some .inUse := by
  simp [State.storeBusy, hx, hop, hu]

theorem State.storeBusy_free (hx : s.session = none) (hop : s.progOp = none) (hu : s.useCount p = 0) :
    s.storeBusy p = none := by
  simp [State.storeBusy, hx, hop, hu]

/-! ### LOAD_BEGIN -/

section
variable {tag : TagField} {count : BitVec 8}

theorem loadBeginAction_badArg (h : tag.toNat = 0 ∨ 48 < tag.toNat ∨ count.toNat = 0) :
    loadBeginAction tag count s = (s, { result := .badArg, tag := tag, data := 0 }) := by
  by_cases hp : tag.toNat = 0 ∨ 48 < tag.toNat
  · simp only [loadBeginAction, progOfNum_none hp]
  · have hc : count.toNat = 0 := by omega
    unfold loadBeginAction
    split
    · rfl
    · exact if_pos hc

theorem loadBeginAction_busy {r : Result} (hp : tag.toNat = progNum p) (hc : count.toNat ≠ 0)
    (hb : s.storeBusy p = some r) :
    loadBeginAction tag count s = (s, { result := r, tag := tag, data := 0 }) := by
  simp only [loadBeginAction, progOfNum_some hp, if_neg hc, hb]

theorem loadBeginAction_full (hp : tag.toNat = progNum p) (hc : count.toNat ≠ 0) (hb : s.storeBusy p = none)
    (hf : (freeBlocks s.work).length < blocksFor count.toNat) :
    loadBeginAction tag count s = (s, { result := .full, tag := tag, data := 0 }) := by
  simp only [loadBeginAction, progOfNum_some hp, if_neg hc, hb, if_pos hf]

/-- A session opened with an empty buffer. -/
def openedSession (p : ProgNo) (count : Nat) : Session :=
  { program := p, count := count, buffer := List.replicate count 0, pointer := 0 }

theorem loadBeginAction_ok (hp : tag.toNat = progNum p) (hc : count.toNat ≠ 0) (hb : s.storeBusy p = none)
    (hf : blocksFor count.toNat ≤ (freeBlocks s.work).length) :
    loadBeginAction tag count s =
      ({ s with session := some (openedSession p count.toNat) },
        { result := .ok, tag := tag, data := dataOf (blocksFor count.toNat) }) := by
  simp only [loadBeginAction, progOfNum_some hp, if_neg hc, hb, if_neg (Nat.not_lt.2 hf)]
  rfl

end

/-! ### LOAD_STEP and LOAD_ABORT -/

section
variable {top : BitVec 2} {step : PackedStep}

theorem loadStepAction_badArg (h : s.session = none ∨ ∃ x, s.session = some x ∧ x.pointer = x.count) :
    loadStepAction top step s = (s, { result := .badArg, tag := loadStepTag top step, data := 0 }) := by
  rcases h with h | ⟨x, h, hx⟩
  · simp only [loadStepAction, h]
  · simp only [loadStepAction, h, if_pos hx]

/-- A session with a step written at its pointer (R139). -/
def filledSession (x : Session) (step : PackedStep) : Session :=
  { x with buffer := x.buffer.set x.pointer step, pointer := x.pointer + 1 }

theorem loadStepAction_ok {x : Session} (h : s.session = some x) (hx : x.pointer ≠ x.count) :
    loadStepAction top step s =
      ({ s with session := some (filledSession x step) },
        { result := .ok, tag := progField x.program, data := dataOf (x.pointer + 1) }) := by
  simp only [loadStepAction, h, if_neg hx]
  rfl

end

theorem loadAbortAction_none (h : s.session = none) :
    loadAbortAction s = (s, { result := .ok, tag := 0, data := 0 }) := by
  simp only [loadAbortAction, h]

theorem loadAbortAction_some {x : Session} (h : s.session = some x) :
    loadAbortAction s =
      ({ s with session := none }, { result := .ok, tag := progField x.program, data := 0 }) := by
  simp only [loadAbortAction, h]

/-- Settles O47: the checks of R138 in order, and the three requests' effects on the session. -/
theorem loadSessionsOpenFillAndClose : Obligations.LoadSessionsOpenFillAndClose := by
  intro tag count s hup refused needed
  refine ⟨fun h => plainRequest_refuses hup (loadBeginAction_badArg (s := s.acceptFrame .plan) h) rfl,
    fun p hp hc => ⟨fun h => plainRequest_refuses hup
      (loadBeginAction_busy (s := s.acceptFrame .plan) hp hc (State.storeBusy_busy h)) rfl, fun hx hop => ?begun⟩,
    fun top step => ⟨fun h => plainRequest_refuses hup (loadStepAction_badArg (s := s.acceptFrame .plan) h) rfl,
      fun x hx hfill => ?filled⟩,
    fun h => plainRequest_refuses hup (loadAbortAction_none (s := s.acceptFrame .plan) h) rfl, fun x hx => ?aborted⟩
  case begun =>
    have hfree : s.useCount p = 0 → s.storeBusy p = none := State.storeBusy_free hx hop
    refine ⟨fun hu => plainRequest_refuses hup
        (loadBeginAction_busy (s := s.acceptFrame .plan) hp hc (State.storeBusy_inUse hx hop hu)) rfl,
      fun hu hf => plainRequest_refuses hup
        (loadBeginAction_full (s := s.acceptFrame .plan) hp hc (hfree hu) hf) rfl, fun hu hf => ?_⟩
    obtain ⟨t, hexec, honly, hanswer⟩ := plainRequest_does (code := 25) (nr := tag)
      (f := fun x => { x with session := some (openedSession p count.toNat) }) hup (Dresses.quiet fun _ => rfl)
      (loadBeginAction_ok (s := s.acceptFrame .plan) hp hc (hfree hu) hf) rfl
    exact ⟨t, hexec, hanswer, honly⟩
  case filled =>
    exact plainRequest_does (code := 26) (nr := loadStepTag top step)
      (f := fun u => { u with session := some (filledSession x step) }) hup (Dresses.quiet fun _ => rfl)
      (loadStepAction_ok (s := s.acceptFrame .plan) hx hfill) rfl
  case aborted =>
    exact plainRequest_does (code := 28) (nr := tag) (f := fun u => { u with session := none }) hup
      (Dresses.quiet fun _ => rfl) (loadAbortAction_some (s := s.acceptFrame .plan) hx) rfl

/-! ### PROG_ERASE -/

theorem State.startNext_dresses (f : State → State) (hf : ∀ o, f (s.dress o) = (f s).dress o) :
    Dresses (fun x => (f x).startNext) s :=
  Dresses.quiet fun o => by rw [hf, State.startNext_dress]

section
variable {tag : TagField}

theorem progEraseAction_badArg (h : tag.toNat = 0 ∨ 48 < tag.toNat) :
    progEraseAction tag s = (s, { result := .badArg, tag := tag, data := 0 }) := by
  simp only [progEraseAction, progOfNum_none h]

theorem progEraseAction_busy {r : Result} (hp : tag.toNat = progNum p) (hb : s.storeBusy p = some r) :
    progEraseAction tag s = (s, { result := r, tag := tag, data := 0 }) := by
  simp only [progEraseAction, progOfNum_some hp, hb]

theorem progEraseAction_ok (hp : tag.toNat = progNum p) (hb : s.storeBusy p = none) :
    progEraseAction tag s =
      (State.startNext { s with progOp := some { program := p, kind := .erase, stage := .pending } },
        { result := .ok, tag := tag, data := 0 }) := by
  simp only [progEraseAction, progOfNum_some hp, hb]

end

/-- Settles O49: checks 1 to 4 of R138, and the pending erase. -/
theorem progEraseHandsOver : Obligations.ProgEraseHandsOver := by
  intro tag s hup refused
  refine ⟨fun h => plainRequest_refuses hup (progEraseAction_badArg (s := s.acceptFrame .plan) h) rfl, fun p hp =>
    ⟨fun h => plainRequest_refuses hup
      (progEraseAction_busy (s := s.acceptFrame .plan) hp (State.storeBusy_busy h)) rfl, fun hx hop =>
    ⟨fun hu => plainRequest_refuses hup
      (progEraseAction_busy (s := s.acceptFrame .plan) hp (State.storeBusy_inUse hx hop hu)) rfl, fun hu => ?_⟩⟩⟩
  have hdress : Dresses (fun x => State.startNext
      { x with progOp := some { program := p, kind := .erase, stage := .pending } }) s :=
    State.startNext_dresses (fun x => { x with progOp := some { program := p, kind := .erase, stage := .pending } })
      fun _ => rfl
  obtain ⟨t, hexec, honly, hanswer⟩ := plainRequest_does (code := 29) (nr := tag) hup hdress
    (progEraseAction_ok (s := s.acceptFrame .plan) hp (State.storeBusy_free hx hop hu)) rfl
  exact ⟨t, hexec, hanswer, honly⟩

/-! ### Steps and the program check -/

/-- R33 on the fields of a step as numbers. -/
theorem stepValid_iff (c i : Nat) (w : PackedStep) :
    stepValid c i w = true ↔
      ((w.toNat / 2 ^ 29 = 1 ∧ 2000 ≤ w.toNat / 2 ^ 8 % 2 ^ 18 ∧ w.toNat / 2 ^ 8 % 2 ^ 18 ≤ 132000 ∧
          (w.toNat / 2 ^ 26 % 2 = 0 → w.toNat % 2 ^ 8 = 0) ∧
          (w.toNat / 2 ^ 26 % 2 = 1 → i < w.toNat % 2 ^ 8 ∧ w.toNat % 2 ^ 8 < c)) ∨
        (2 ≤ w.toNat / 2 ^ 29 ∧ w.toNat / 2 ^ 29 ≤ 4 ∧ w.toNat % 2 ^ 29 = 0)) ∧
      (i + 1 = c → w.toNat / 2 ^ 29 = 4) := by
  have hkeep : w.toNat / 2 ^ 26 % 2 = 0 ∨ w.toNat / 2 ^ 26 % 2 = 1 := Nat.mod_two_eq_zero_or_one _
  simp only [stepValid, stepKind_eq, stepKeep_eq, stepDistance_eq, stepEntry_eq, Bool.and_eq_true, Bool.or_eq_true,
    decide_eq_true_eq, bne_iff_ne, ne_eq]
  by_cases hkind : w.toNat / 2 ^ 29 = 1
  · rw [if_pos hkind]
    generalize w.toNat / 2 ^ 29 = kind at *
    generalize w.toNat / 2 ^ 26 % 2 = keep at *
    generalize w.toNat / 2 ^ 8 % 2 ^ 18 = distance at *
    generalize w.toNat % 2 ^ 8 = entry at *
    subst hkind
    rcases hkeep with rfl | rfl <;> simp [and_assoc]
  · rw [if_neg hkind, beq_iff_eq, stepRest_zero]
    omega

theorem programCheck_eq_foldl (steps : List PackedStep) :
    programCheck steps =
      (steps.flatMap fun w => (List.range 32).map fun i => w.getLsbD (31 - i)).foldl
        (fun (c : BitVec 16) b => if c.msb = b then c <<< 1 else (c <<< 1) ^^^ 0x1021#16) 0xFFFF#16 := by
  rw [List.foldl_flatMap, programCheck]
  congr 1
  funext c w
  rw [List.foldl_map, crc16Step]
  refine List.foldl_ext _ _ _ fun c i hi => ?_
  rw [crc16Bit_eq, BitVec.getMsbD]
  simp [List.mem_range.1 hi]

/-! ### The first step that fails -/

theorem firstInvalidFrom_none {c : Nat} {l : List PackedStep} : ∀ {i : Nat},
    (∀ k v, l[k]? = some v → stepValid c (i + k) v = true) → firstInvalidFrom c i l = none := by
  induction l with
  | nil => exact fun _ => rfl
  | cons w ws ih =>
    intro i h
    have hw : stepValid c i w = true := h 0 w rfl
    rw [firstInvalidFrom, if_pos hw]
    refine ih fun k v hk => ?_
    rw [Nat.add_right_comm]
    exact h (k + 1) v hk

/-- The lowest failing index is reported (R34). -/
theorem firstInvalidFrom_some {c : Nat} {l : List PackedStep} : ∀ {i j : Nat} {w : PackedStep}, l[j]? = some w →
    stepValid c (i + j) w = false → (∀ k v, k < j → l[k]? = some v → stepValid c (i + k) v = true) →
    firstInvalidFrom c i l = some (i + j) := by
  induction l with
  | nil => exact fun h => by cases h
  | cons x xs ih =>
    intro i j w hj hbad hgood
    cases j with
    | zero =>
      injection hj with hj
      subst hj
      rw [firstInvalidFrom, if_neg (by rw [Nat.add_zero] at hbad; rw [hbad]; decide)]
      rfl
    | succ j =>
      have hx : stepValid c i x = true := hgood 0 x (Nat.succ_pos j) rfl
      rw [firstInvalidFrom, if_pos hx, Nat.add_comm j 1, ← Nat.add_assoc]
      refine ih hj (by rwa [Nat.add_assoc, Nat.add_comm 1 j]) fun k v hk hv => ?_
      rw [Nat.add_assoc, Nat.add_comm 1 k]
      exact hgood (k + 1) v (Nat.succ_lt_succ hk) hv

/-! ### LOAD_END -/

section
variable {tag : TagField} {mode : BitVec 4} {check : BitVec 16} {x : Session}

theorem loadEndAction_badArg (h : s.session = none ∨ 1 < mode.toNat) :
    loadEndAction tag mode check s = (s, { result := .badArg, tag := tag, data := 0 }) := by
  unfold loadEndAction
  split
  · rfl
  · next x hx =>
    have hm : 1 < mode.toNat := by simpa [hx] using h
    exact if_pos hm

theorem loadEndAction_missing (hx : s.session = some x) (hm : mode.toNat ≤ 1) (hp : x.pointer < x.count) :
    loadEndAction tag mode check s =
      (s, { result := .invalid, tag := tag, data := 1#2 ++ 0#2 ++ BitVec.ofNat 16 x.pointer }) := by
  simp only [loadEndAction, hx, if_neg (Nat.not_lt.2 hm), if_pos hp]
  rfl

theorem loadEndAction_step {i : Nat} (hx : s.session = some x) (hm : mode.toNat ≤ 1) (hp : x.count ≤ x.pointer)
    (hi : firstInvalid x.buffer = some i) :
    loadEndAction tag mode check s =
      ({ s with session := none },
        { result := .invalid, tag := tag, data := 2#2 ++ 0#2 ++ BitVec.ofNat 16 i }) := by
  simp only [loadEndAction, hx, if_neg (Nat.not_lt.2 hm), if_neg (Nat.not_lt.2 hp), hi]
  rfl

theorem loadEndAction_check (hx : s.session = some x) (hm : mode.toNat = 1) (hp : x.count ≤ x.pointer)
    (hi : firstInvalid x.buffer = none) (hc : programCheck x.buffer ≠ check) :
    loadEndAction tag mode check s =
      ({ s with session := none },
        { result := .invalid, tag := tag, data := 3#2 ++ 0#2 ++ programCheck x.buffer }) := by
  have hfail : (decide (mode.toNat = 1) && programCheck x.buffer != check) = true := by simp [hm, hc]
  simp only [loadEndAction, hx, if_neg (Nat.not_lt.2 hm.le), if_neg (Nat.not_lt.2 hp), hi, hfail, if_true]
  rfl

theorem loadEndAction_ok (hx : s.session = some x) (hm : mode.toNat ≤ 1) (hp : x.count ≤ x.pointer)
    (hi : firstInvalid x.buffer = none) (hc : mode.toNat = 0 ∨ programCheck x.buffer = check) :
    loadEndAction tag mode check s =
      (s.handCommit x,
        { result := .ok, tag := progField x.program, data := (programCheck x.buffer).setWidth 20 }) := by
  have hpass : (decide (mode.toNat = 1) && programCheck x.buffer != check) = false := by
    rcases hc with hc | hc <;> simp [hc]
  simp only [loadEndAction, hx, if_neg (Nat.not_lt.2 hm), if_neg (Nat.not_lt.2 hp), hi, hpass]
  rfl

end

/-- Settles O48: the two checks spelled out, and the checks of R140 in order. -/
theorem loadEndChecksAndHandsOver : Obligations.LoadEndChecksAndHandsOver := by
  refine ⟨stepValid_iff, programCheck_eq_foldl, fun tag mode check s hup => ⟨fun h => plainRequest_refuses hup
    (loadEndAction_badArg (s := s.acceptFrame .plan) h) rfl, fun x hx hm => ⟨fun hp => plainRequest_refuses hup
    (loadEndAction_missing (s := s.acceptFrame .plan) hx hm hp) rfl, fun hp => ⟨fun i w hi hbad hgood => ?step,
    fun hgood => ⟨fun hc => ?check, fun hc => ?ok⟩⟩⟩⟩⟩
  case step =>
    have hfirst : firstInvalid x.buffer = some i := by
      have := firstInvalidFrom_some (c := x.buffer.length) (i := 0) hi (by rwa [Nat.zero_add]) fun k v hk hv => by
        rw [Nat.zero_add]
        exact hgood k v hk hv
      rwa [Nat.zero_add] at this
    exact plainRequest_does (code := 27) (nr := tag) (f := fun u => { u with session := none }) hup
      (Dresses.quiet fun _ => rfl) (loadEndAction_step (s := s.acceptFrame .plan) hx hm hp hfirst) rfl
  all_goals
    have hfirst : firstInvalid x.buffer = none := firstInvalidFrom_none fun k v hk => by
      rw [Nat.zero_add]
      exact hgood k v hk
  case check =>
    obtain ⟨rfl, hc⟩ := hc
    exact plainRequest_does (code := 27) (nr := tag) (f := fun u => { u with session := none }) hup
      (Dresses.quiet fun _ => rfl) (loadEndAction_check (s := s.acceptFrame .plan) hx rfl hp hfirst hc) rfl
  case ok =>
    have hmode : mode.toNat = 0 ∨ programCheck x.buffer = check := hc.imp_left fun h => by rw [h]; rfl
    exact plainRequest_does (code := 27) (nr := tag) (f := fun u => u.handCommit x) hup
      (State.startNext_dresses (fun u => { u with
        session := none
        progOp := some { program := x.program, kind := .commit x.buffer (programCheck x.buffer)
                         stage := .pending } }) fun _ => rfl)
      (loadEndAction_ok (s := s.acceptFrame .plan) hx hm hp hfirst hmode) rfl

end Sys2Proof.Machine
end

section
/-! The reading requests (R21, R85, R148, R149, R160) and the places of the fields they read (section 11.4). -/

namespace Sys2Proof.Machine

variable {s : State} {tag : TagField}

/-! ### The words -/

theorem pileWords (x : Pile) : (List.range 8).map (pileWord x) =
    [dataOf (residencyCode x.residency + edgeCode x.gauge * 16 + faceCode x.face * 64 +
        (match x.hold with
          | none => 0
          | some h => reasonCode h.reason * 128 + h.station.ix.val * 1024)),
      dataOf (x.liftNumber + x.pallet * 4096),
      dataOf ((match x.parent with
          | none => 0
          | some u => tagNum u) + progNum x.program * 64 + x.cls.val * 4096),
      dataOf (x.cursor + x.started.toNat * 256 + x.caliperDev.toNat * 512 + x.limitedSeen.toNat * 1024 +
        x.attempt * 2048 + turnCode x.pendingTurn * 8192),
      dataOf x.sheets, dataOf x.height, dataOf x.depth, dataOf x.width] := by
  have h0 : pileWord x 0 = dataOf (residencyCode x.residency + edgeCode x.gauge * 16 + faceCode x.face * 64 +
      (match x.hold with
        | none => 0
        | some h => reasonCode h.reason * 128 + h.station.ix.val * 1024)) := by
    rw [pileWord]
    cases x.hold with
    | none => rfl
    | some h => exact congrArg dataOf (Nat.add_assoc _ _ _)
  have h2 : pileWord x 2 = dataOf ((match x.parent with
      | none => 0
      | some u => tagNum u) + progNum x.program * 64 + x.cls.val * 4096) := by
    rw [pileWord]
    cases x.parent <;> rfl
  show [pileWord x 0, pileWord x 1, pileWord x 2, pileWord x 3, pileWord x 4, pileWord x 5, pileWord x 6,
    pileWord x 7] = _
  rw [h0, h2]
  rfl

theorem draftWords (d : Draft) : (List.range 12).map (draftWord d) =
    [dataOf ((match d.program with
          | none => 0
          | some p => progNum p) * 256 + d.cls.val * 16384),
      dataOf d.sheets, 0, 0, 0, 0, 0, 0, dataOf d.caliper, dataOf d.extentNS, dataOf d.extentEW,
      dataOf (edgeCode d.gauge + faceCode d.face * 4)] := by
  have h0 : draftWord d 0 = dataOf ((match d.program with
      | none => 0
      | some p => progNum p) * 256 + d.cls.val * 16384) := by
    rw [draftWord]
    cases d.program <;> rfl
  show draftWord d 0 :: _ = _
  rw [h0]
  rfl

/-- Item 0 of PROG_INFO (R149). -/
theorem State.progItem_zero (s : State) (p : ProgNo) :
    s.progItem p 0 = dataOf (entryStateCode (s.entry p).state + (s.entry p).count * 4 +
      (match s.progOp with
        | none => 0
        | some op => if op.program = p then 1024 else 0) +
      (match s.session with
        | none => 0
        | some x => if x.program = p then 2048 else 0)) := by
  have hop : (s.operating p).toNat * 2 ^ 10 = (match s.progOp with
      | none => 0
      | some op => if op.program = p then 1024 else 0) := by
    unfold State.operating
    cases s.progOp with
    | none => exact Nat.zero_mul _
    | some op => by_cases h : op.program = p <;> simp [h]
  have hload : (s.loading p).toNat * 2 ^ 11 = (match s.session with
      | none => 0
      | some x => if x.program = p then 2048 else 0) := by
    unfold State.loading
    cases s.session with
    | none => exact Nat.zero_mul _
    | some x => by_cases h : x.program = p <;> simp [h]
  rw [← hop, ← hload]
  rfl

theorem State.sessionItem_eq (s : State) (p : ProgNo) :
    s.sessionItem p = (match s.session with
      | none => 0
      | some x => if x.program = p then dataOf (x.pointer + x.count * 256) else 0) := by
  unfold State.sessionItem
  cases s.session <;> rfl

/-- A step is read from its place in the block that the list names for its index (R134). -/
theorem entryStep_listed {nv : NvMemory} {p : ProgNo} {entry : Entry} {i : Nat} {b : BlockNo} {w : PackedStep}
    (hb : entry.blocks[i / 48]? = some b) (hw : (look nv.blocks b).steps[i % 48]? = some w) :
    entryStep nv p entry i = w := by
  simp only [entryStep, hb, blockStep, hw, Option.getD_some]

/-! ### The answers -/

/-- Some request is answered so and changes nothing. -/
def Reads (s : State) (c : Instr) (p : Port) (code : BitVec 6) (r : Result) (echo : TagField) (data : Data) : Prop :=
  ∃ t, exec c s = .next t ∧ OnlyPorts s t ∧ Answered s t p code r echo data

section
variable {word : BitVec 4}

theorem pileRead_reads (hup : s.Up) (p : Port) {a : Answer} (h : s.pileReadAnswer tag word = a) :
    Reads s (.pileRead p tag word) p 4 a.result a.tag a.data :=
  readRequest_answers (f := fun x => x.pileReadAnswer tag word) hup h rfl

theorem State.pileReadAnswer_badArg (h : tag.toNat = 0 ∨ 32 < tag.toNat ∨ 7 < word.toNat) :
    s.pileReadAnswer tag word = { result := .badArg, tag := tag, data := 0 } := by
  unfold State.pileReadAnswer
  rcases tagOfNum_cases tag.toNat with ⟨t, ht, hsome⟩ | ⟨_, hnone⟩
  · have hlt := t.isLt
    have hw : 7 < word.toNat := by rw [ht, tagNum] at h; omega
    simp only [hsome, if_pos hw]
  · simp only [hnone]

theorem State.pileReadAnswer_unknown {t0 : Tag} (ht : tag.toNat = tagNum t0) (hw : word.toNat ≤ 7)
    (hp : s.pile t0 = none) : s.pileReadAnswer tag word = { result := .unknownTag, tag := tag, data := 0 } := by
  simp only [State.pileReadAnswer, tagOfNum_some ht, if_neg (Nat.not_lt.2 hw), hp]

theorem State.pileReadAnswer_ok {t0 : Tag} {x : Pile} (ht : tag.toNat = tagNum t0) (hw : word.toNat ≤ 7)
    (hp : s.pile t0 = some x) :
    s.pileReadAnswer tag word = { result := .ok, tag := tag, data := pileWord x word.toNat } := by
  simp only [State.pileReadAnswer, tagOfNum_some ht, if_neg (Nat.not_lt.2 hw), hp]

end

section
variable {source word : BitVec 4}

theorem palletRead_reads (hup : s.Up) {a : Answer} (h : s.palletReadAnswer tag source word = a) :
    Reads s (.palletRead tag source word) .plan 24 a.result a.tag a.data :=
  readRequest_answers (f := fun x => x.palletReadAnswer tag source word) hup h rfl

theorem State.palletReadAnswer_badArg (h : 5 < source.toNat ∨ 11 < word.toNat) :
    s.palletReadAnswer tag source word = { result := .badArg, tag := tag, data := 0 } :=
  if_pos (by simpa using h)

theorem State.palletReadAnswer_ok {d : Data} (hs : source.toNat ≤ 5) (hw : word.toNat ≤ 11)
    (hd : s.palletSourceWord source.toNat word.toNat = d) :
    s.palletReadAnswer tag source word = { result := .ok, tag := 0, data := d } := by
  rw [← hd]
  exact if_neg (by simp [hs, hw])

/-- Sources 1 to 4 are the places of the Pallet Table (R85). -/
theorem State.palletSourceWord_place {k w : Nat} (h1 : 1 ≤ k) (h4 : k ≤ 4) :
    s.palletSourceWord k w = palletWordOf s.pallets[k - 1]? w := by
  interval_cases k <;> rfl

end

section
variable {index setting : BitVec 4}

theorem configRead_reads (hup : s.Up) {a : Answer} (h : s.configReadAnswer tag index setting = a) :
    Reads s (.configRead tag index setting) .plan 20 a.result a.tag a.data :=
  readRequest_answers (f := fun x => x.configReadAnswer tag index setting) hup h rfl

theorem State.configReadAnswer_none (h : settingRef tag index setting = none) :
    s.configReadAnswer tag index setting = { result := .badArg, tag := tag, data := 0 } := by
  simp only [State.configReadAnswer, h]

theorem State.configReadAnswer_some {r : SettingRef} (h : settingRef tag index setting = some r) :
    s.configReadAnswer tag index setting =
      { result := .ok, tag := tag, data := dataOf (settingValue s.settings r) } := by
  simp only [State.configReadAnswer, h]

end

section
variable {half item : BitVec 4} {index : BitVec 8} {p : ProgNo}

theorem progRead_reads (hup : s.Up) {a : Answer} (h : s.progReadAnswer tag half index = a) :
    Reads s (.progRead tag half index) .plan 30 a.result a.tag a.data :=
  readRequest_answers (f := fun x => x.progReadAnswer tag half index) hup h rfl

theorem progInfo_reads (hup : s.Up) {a : Answer} (h : s.progInfoAnswer tag item = a) :
    Reads s (.progInfo tag item) .plan 31 a.result a.tag a.data :=
  readRequest_answers (f := fun x => x.progInfoAnswer tag item) hup h rfl

theorem State.progReadAnswer_badArg (h : (tag.toNat = 0 ∨ 48 < tag.toNat) ∨ 1 < half.toNat) :
    s.progReadAnswer tag half index = { result := .badArg, tag := tag, data := 0 } := by
  unfold State.progReadAnswer
  split
  · rfl
  · next p hp =>
    have hh : 1 < half.toNat := h.resolve_left fun h => by rw [progOfNum_none h] at hp; cases hp
    exact if_pos hh

theorem State.progReadAnswer_empty (hp : tag.toNat = progNum p) (hh : half.toNat ≤ 1)
    (he : (s.entry p).state = .empty) :
    s.progReadAnswer tag half index = { result := .invalid, tag := tag, data := 0 } := by
  simp only [State.progReadAnswer, progOfNum_some hp, if_neg (Nat.not_lt.2 hh), if_pos he]

theorem State.progReadAnswer_beyond (hp : tag.toNat = progNum p) (hh : half.toNat ≤ 1)
    (he : (s.entry p).state ≠ .empty) (hc : (s.entry p).count ≤ index.toNat) :
    s.progReadAnswer tag half index = { result := .badArg, tag := tag, data := 0 } := by
  simp only [State.progReadAnswer, progOfNum_some hp, if_neg (Nat.not_lt.2 hh), if_neg he, if_pos hc]

theorem stepHalf_eq (w : PackedStep) (half : BitVec 4) :
    stepHalf w half.toNat =
      if half = 1#4 then (w.extractLsb' 16 16).setWidth 20 else (w.extractLsb' 0 16).setWidth 20 := by
  have hone : half.toNat = 1 ↔ half = 1#4 := by rw [BitVec.toNat_eq]; rfl
  simp only [stepHalf, hone]

theorem State.progReadAnswer_ok (hp : tag.toNat = progNum p) (hh : half.toNat ≤ 1)
    (he : (s.entry p).state ≠ .empty) (hc : index.toNat < (s.entry p).count) :
    s.progReadAnswer tag half index =
      { result := .ok, tag := tag, data := if half = 1#4 then
          ((s.packedStep p index.toNat).extractLsb' 16 16).setWidth 20
        else ((s.packedStep p index.toNat).extractLsb' 0 16).setWidth 20 } := by
  rw [← stepHalf_eq]
  simp only [State.progReadAnswer, progOfNum_some hp, if_neg (Nat.not_lt.2 hh), if_neg he, if_neg (Nat.not_le.2 hc)]

theorem State.progInfoAnswer_badArg (h : (tag.toNat = 0 ∨ 48 < tag.toNat) ∨ 5 < item.toNat) :
    s.progInfoAnswer tag item = { result := .badArg, tag := tag, data := 0 } := by
  unfold State.progInfoAnswer
  split
  · rfl
  · next p hp =>
    have hi : 5 < item.toNat := h.resolve_left fun h => by rw [progOfNum_none h] at hp; cases hp
    exact if_pos hi

theorem State.progInfoAnswer_ok (hp : tag.toNat = progNum p) (hi : item.toNat ≤ 5) :
    s.progInfoAnswer tag item = { result := .ok, tag := tag, data := s.progItem p item.toNat } := by
  simp only [State.progInfoAnswer, progOfNum_some hp, if_neg (Nat.not_lt.2 hi)]

end

/-- Settles O41: the places of the fields, and each request's answer by its checks. -/
theorem readsAnswerAndChangeNothing : Obligations.ReadsAnswerAndChangeNothing := by
  refine ⟨by decide, pileWords, fun q => ⟨rfl, fun w => ⟨rfl, rfl⟩⟩, draftWords, fun s p => ?items,
    fun s tag hup => ?requests⟩
  case items =>
    refine ⟨?_, fun i b w => entryStep_listed⟩
    show [s.progItem p 0, _, _, s.sessionItem p, _, _] = _
    rw [State.progItem_zero, State.sessionItem_eq]
    rfl
  case requests =>
    refine ⟨fun p word => ⟨fun h => pileRead_reads hup p (State.pileReadAnswer_badArg h), fun t0 ht hw =>
        ⟨fun hp => pileRead_reads hup p (State.pileReadAnswer_unknown ht hw hp),
          fun x hx => pileRead_reads hup p (State.pileReadAnswer_ok ht hw hx)⟩⟩,
      fun source word => ⟨fun h => palletRead_reads hup (State.palletReadAnswer_badArg h), fun hw =>
        ⟨fun h0 => ?draft, fun h1 h4 => ?place, fun h5 => ?last⟩⟩,
      fun index setting => ⟨fun h => configRead_reads hup (State.configReadAnswer_none h),
        fun r h => configRead_reads hup (State.configReadAnswer_some h)⟩,
      fun half index item => ⟨fun h => ⟨progRead_reads hup (State.progReadAnswer_badArg (.inl h)),
          progInfo_reads hup (State.progInfoAnswer_badArg (.inl h))⟩,
        fun h => progRead_reads hup (State.progReadAnswer_badArg (.inr h)),
        fun h => progInfo_reads hup (State.progInfoAnswer_badArg (.inr h)), fun p hp =>
        ⟨fun hh he => progRead_reads hup (State.progReadAnswer_empty hp hh he),
          fun hh he hc => progRead_reads hup (State.progReadAnswer_beyond hp hh he hc),
          fun hh he hc => progRead_reads hup (State.progReadAnswer_ok hp hh he hc),
          fun hi => progInfo_reads hup (State.progInfoAnswer_ok hp hi)⟩⟩⟩
    case draft => exact palletRead_reads hup (State.palletReadAnswer_ok (by omega) hw (by rw [h0]; rfl))
    case place =>
      exact palletRead_reads hup (State.palletReadAnswer_ok (by omega) hw (State.palletSourceWord_place h1 h4))
    case last => exact palletRead_reads hup (State.palletReadAnswer_ok (by omega) hw (by rw [h5]; rfl))

end Sys2Proof.Machine
end

section
/-! The Store Controller (R135, R142 to R145): how it starts a write, and what each write's end leads to. -/

namespace Sys2Proof.Machine

variable {s : State} {op : ProgOp}

/-! ### The start of a write -/

/-- One write at a time (R145). -/
theorem State.startNext_waits (h : s.storeWrite ≠ .idle ∨ s.scan ≠ .off ∨ ∃ op, s.progOp = some op ∧ op.stage ≠ .pending) :
    s.startNext = s := by
  unfold State.startNext
  split
  · next hidle =>
    obtain ⟨hw, hs⟩ : s.storeWrite = .idle ∧ s.scan = .off := by simpa using hidle
    obtain ⟨op, hop, hstage⟩ := (h.resolve_left (not_not.2 hw)).resolve_left (not_not.2 hs)
    simp only [hop, if_neg hstage]
  · rfl

section
variable (hw : s.storeWrite = .idle) (hs : s.scan = .off)
include hw hs

/-- A pending blade save goes first (R145). -/
theorem State.startNext_save (hop : ∀ op, s.progOp = some op → op.stage = .pending) (hb : s.bladeSave = true) :
    s.startNext = s.startDirWrite (s.bladeImage s.work) .bladeSave := by
  simp only [State.startNext, hw, hs, hb, decide_true, Bool.and_self, if_true]
  split
  · next op h => rw [if_pos (hop op h)]
  · rfl

theorem State.startNext_op (hop : s.progOp = some op) (hstage : op.stage = .pending) (hb : s.bladeSave = false) :
    s.startNext = s.startOp op := by
  simp [State.startNext, hw, hs, hb, hop, hstage]

theorem State.startNext_none (hop : s.progOp = none) (hb : s.bladeSave = false) : s.startNext = s := by
  simp [State.startNext, hw, hs, hb, hop]

end

theorem State.startOp_erase (hk : op.kind = .erase) :
    s.startOp op = State.startDirWrite { s with progOp := some { op with stage := .eraseWrite } }
      (s.bladeImage (eraseImage s.work op.program)) .operation := by
  simp only [State.startOp, hk]

theorem State.startOp_commit {steps : List PackedStep} {check : BitVec 16} (hk : op.kind = .commit steps check)
    (hfree : blocksFor steps.length ≤ (freeBlocks s.work).length) :
    s.startOp op = s.startBlockWrite op ((freeBlocks s.work).take (blocksFor steps.length)) 0 := by
  have hlen : ((freeBlocks s.work).take (blocksFor steps.length)).length = blocksFor steps.length := by
    rw [List.length_take, Nat.min_eq_left hfree]
  simp only [State.startOp, hk, hlen, lt_irrefl, if_false]

theorem blocksFor_pos {steps : List PackedStep} (h : steps ≠ []) : 0 < blocksFor steps.length := by
  have hpos : 0 < steps.length := List.length_pos_of_ne_nil h
  show 0 < (steps.length + 47) / 48
  omega

/-- Settles O50: the controller's choice, the directory write, and the start of a block write. -/
theorem storeControllerStartsOneWriteAtATime : Obligations.StoreControllerStartsOneWriteAtATime := by
  intro s dirWrite carrying
  have hdir : ∀ op image purpose, State.startDirWrite { s with progOp := op } image purpose =
      dirWrite { s with progOp := op } image purpose := fun _ _ _ => rfl
  refine ⟨hdir s.progOp,
    fun op blocks position b hb => State.startBlockWrite_started s op blocks position hb, State.startNext_waits,
    fun hw hs hop => ⟨fun hb => (State.startNext_save hw hs hop hb).trans (hdir s.progOp _ _), fun hb =>
      ⟨fun hnone => State.startNext_none hw hs hnone hb, fun op h hk => ?erase, fun op steps check h hk => ?commit⟩⟩⟩
  case erase =>
    rw [State.startNext_op hw hs h (hop op h) hb, State.startOp_erase hk]
    exact hdir _ _ _
  case commit =>
    intro free blocks hsteps hfree
    have hne : 0 < blocks.length := by
      have hpos := blocksFor_pos hsteps
      rw [List.length_take]
      exact lt_min hpos (hpos.trans_le hfree)
    refine ⟨blocks[0], List.getElem?_eq_getElem hne, ?_⟩
    rw [State.startNext_op hw hs h (hop op h) hb, State.startOp_commit hk hfree]
    exact State.startBlockWrite_started s op _ 0 (List.getElem?_eq_getElem hne)

/-! ### The end of a block write -/

section
variable {b : BlockNo} {steps : List PackedStep} {check : BitVec 16} {blocks : List BlockNo} {position : Nat}

theorem State.blockWriteEnd_eq (hw : s.storeWrite = .block b) (hop : s.progOp = some op)
    (hk : op.kind = .commit steps check) (hstage : op.stage = .blockWrites blocks position) (isMatch : Bool) :
    s.blockWriteEnd isMatch =
      if isMatch then s.blockWritten op steps check blocks position b else s.blockFailed op b := by
  simp only [State.blockWriteEnd, hw, hop, hk, hstage]

/-- With no block write in progress its end is no event. -/
theorem State.blockWriteEnd_none (h : ∀ b, s.storeWrite ≠ .block b) (isMatch : Bool) : s.blockWriteEnd isMatch = s := by
  unfold State.blockWriteEnd
  split
  · next b _ hw _ => exact absurd hw (h b)
  · rfl

end

theorem execBlockWriteDone_eq {u : State} {isMatch : Bool} (h : s.blockWriteEnd isMatch = u) :
    exec (.blockWriteDone isMatch) s = .next u.settle := by
  rw [← h]
  rfl

/-- Settles O51: the next block, the commit point or the BAD mark. -/
theorem blockWritesLeadToTheCommitPoint : Obligations.BlockWritesLeadToTheCommitPoint := by
  refine fun s => ⟨fun op b steps check blocks position hw hop hk hstage => ?_,
    fun matched h => ⟨_, execBlockWriteDone_eq (State.blockWriteEnd_none h matched), rfl⟩⟩
  intro content written
  have hend := State.blockWriteEnd_eq hw hop hk hstage
  refine ⟨fun hnext => ?next, fun hlast => ?last, ⟨_, execBlockWriteDone_eq (hend false), rfl⟩⟩
  case next =>
    have hwritten := hend true
    rw [if_pos rfl, State.blockWritten_eq, if_pos hnext] at hwritten
    exact ⟨_, _, _, execBlockWriteDone_eq hwritten, rfl, List.getElem?_eq_getElem hnext,
      State.startBlockWrite_started _ op blocks _ (List.getElem?_eq_getElem hnext)⟩
  case last =>
    have hwritten := hend true
    rw [if_pos rfl, State.blockWritten_eq, if_neg (Nat.not_lt.2 hlast)] at hwritten
    exact ⟨_, execBlockWriteDone_eq hwritten, rfl⟩

/-! ### The end of a directory write -/

section
variable {target : CopyId} {generation : Nat} {image : Directory} {purpose : DirPurpose} {second : Bool}

/-- The state in which a directory write has taken effect (R135). -/
def State.dirWritten (s : State) (target : CopyId) (generation : Nat) (image : Directory) : State :=
  { s with
    nv := nvPutCopy s.nv target { checkOk := true, generation := generation, dir := image }
    latest := some target, work := image, storeWrite := .idle }

/-- The state in which a directory write is abandoned. -/
def State.dirAbandoned (s : State) : State := { s with storeWrite := .idle }

theorem State.dirWriteEnd_matched (hw : s.storeWrite = .directory target generation image purpose second) :
    s.dirWriteEnd true = (s.dirWritten target generation image).dirWriteFollow purpose true s.work := by
  simp only [State.dirWriteEnd, hw]
  rfl

theorem State.dirWriteEnd_first (hw : s.storeWrite = .directory target generation image purpose false) :
    s.dirWriteEnd false = { s with storeWrite := .directory target generation image purpose true } := by
  simp only [State.dirWriteEnd, hw]
  rfl

theorem State.dirWriteEnd_second (hw : s.storeWrite = .directory target generation image purpose true) :
    s.dirWriteEnd false = s.dirAbandoned.dirWriteFollow purpose false s.work := by
  simp only [State.dirWriteEnd, hw]
  rfl

theorem execDirectoryWriteDone_eq {u : State} {isMatch : Bool} (h : s.dirWriteEnd isMatch = u) :
    exec (.directoryWriteDone isMatch) s = .next u.settle := by
  rw [← h]
  rfl

/-- A directory write of a program operation leads on by the operation's stage. -/
theorem State.dirWriteFollow_operation (hop : s.progOp = some op) (completed : Bool) (before : Directory) :
    s.dirWriteFollow .operation completed before =
      s.opWriteEnd op completed (look before.entries op.program) := by
  simp only [State.dirWriteFollow, hop]

end

section
variable {old : Entry} {completed : Bool}

theorem State.opWriteEnd_commitNew (hst : op.stage = .commitPoint) (hold : old.state = .empty) :
    s.opWriteEnd op true old = s.opEnd (.storeDone op.program false) := by
  simp [State.opWriteEnd, hst, hold]

/-- A program that replaces an old version releases its blocks (R142 stage 3). -/
theorem State.opWriteEnd_commitOver (hst : op.stage = .commitPoint) (hold : old.state ≠ .empty) :
    s.opWriteEnd op true old =
      State.startDirWrite { s with progOp := some { op with stage := .releaseOld old.blocks } }
        (s.bladeImage (releaseImage s.work old.blocks)) .operation := by
  simp [State.opWriteEnd, hst, hold]

theorem State.opWriteEnd_commitFailed (hst : op.stage = .commitPoint) :
    s.opWriteEnd op false old = s.opEnd (.storeFailed (some op.program)) := by
  simp [State.opWriteEnd, hst]

theorem State.opWriteEnd_release {blocks : List BlockNo} (hst : op.stage = .releaseOld blocks) :
    s.opWriteEnd op completed old = s.opEnd (.storeDone op.program false) := by
  simp only [State.opWriteEnd, hst]

theorem State.opWriteEnd_markBad (hst : op.stage = .markBad) :
    s.opWriteEnd op completed old = s.opEnd (.storeFailed (some op.program)) := by
  simp only [State.opWriteEnd, hst]

theorem State.opWriteEnd_erase (hst : op.stage = .eraseWrite) :
    s.opWriteEnd op completed old =
      s.opEnd (if completed then .storeDone op.program true else .storeFailed (some op.program)) := by
  simp only [State.opWriteEnd, hst]

end

/-- Settles O52: the three ends of a directory write, then what it served. -/
theorem directoryWritesTakeEffectOrDoNot : Obligations.DirectoryWritesTakeEffectOrDoNot := by
  intro s target generation image purpose second hw leads done abandoned finished
  have hlead : ∀ {isMatch u}, s.dirWriteEnd isMatch = u → leads isMatch u := fun h =>
    ⟨_, execDirectoryWriteDone_eq h, rfl⟩
  have hdone : s.dirWriteEnd true = done.dirWriteFollow purpose true s.work := State.dirWriteEnd_matched hw
  have hgone : second = true → s.dirWriteEnd false = abandoned.dirWriteFollow purpose false s.work := fun h =>
    State.dirWriteEnd_second (h ▸ hw)
  refine ⟨fun h => hlead (State.dirWriteEnd_first (h ▸ hw)), fun hp => ?scan, fun hp => ?save, fun op hp hop => ?op⟩
  case scan =>
    subst hp
    exact ⟨hlead hdone, fun h => hlead (hgone h)⟩
  case save =>
    subst hp
    exact ⟨hlead hdone, fun h => hlead (hgone h)⟩
  case op =>
    subst hp
    have hd : s.dirWriteEnd true = done.opWriteEnd op true (look s.work.entries op.program) :=
      hdone.trans (State.dirWriteFollow_operation (s := done) hop true s.work)
    have hg : second = true →
        s.dirWriteEnd false = abandoned.opWriteEnd op false (look s.work.entries op.program) := fun h =>
      (hgone h).trans (State.dirWriteFollow_operation (s := abandoned) hop false s.work)
    refine ⟨fun hst => ⟨fun hold => ?_, fun hold => ?_, fun h => ?_⟩, fun blocks hst => ⟨?_, fun h => ?_⟩,
      fun hst => ⟨?_, fun h => ?_⟩, fun hst => ⟨?_, fun h => ?_⟩⟩
    · exact hlead (hd.trans (State.opWriteEnd_commitNew hst hold))
    · exact hlead (hd.trans (State.opWriteEnd_commitOver hst hold))
    · exact hlead ((hg h).trans (State.opWriteEnd_commitFailed hst))
    · exact hlead (hd.trans (State.opWriteEnd_release hst))
    · exact hlead ((hg h).trans (State.opWriteEnd_release hst))
    · exact hlead (hd.trans (State.opWriteEnd_markBad hst))
    · exact hlead ((hg h).trans (State.opWriteEnd_markBad hst))
    · exact hlead (hd.trans (State.opWriteEnd_erase hst))
    · exact hlead ((hg h).trans (State.opWriteEnd_erase hst))

end Sys2Proof.Machine
end

section
/-! The start-up scan (R147): how it judges programs and blocks, which copy it takes, where it begins and ends. -/

namespace Sys2Proof.Machine

variable {s : State} {nv : NvMemory} {d : Directory}

/-! ### What the scan finds -/

/-- A VALID entry's faults: its block list, its number of blocks, its check (R147 step 2). -/
theorem entryDamaged_iff (p : ProgNo) (entry : Entry) :
    entryDamaged nv d p entry = true ↔
      (∃ b ∈ entry.blocks, look d.blocks b ≠ .used) ∨
        (∃ i b, entry.blocks[i]? = some b ∧ (look nv.blocks b).header ≠ some (progNum p, i)) ∨
        entry.blocks.length ≠ blocksFor entry.count ∨ programCheck (storedSteps nv p entry) ≠ entry.check := by
  simp only [entryDamaged, Bool.or_eq_true, listDamaged_iff, bne_iff_ne, Nat.zero_add, or_assoc]

theorem mem_damagedPrograms (p : ProgNo) :
    p ∈ damagedPrograms nv d ↔
      (look d.entries p).state = .valid ∧ entryDamaged nv d p (look d.entries p) = true := by
  simp [damagedPrograms, allPrograms]

theorem damagedPrograms_sorted (nv : NvMemory) (d : Directory) : (damagedPrograms nv d).Pairwise (fun p q => p < q) :=
  (List.pairwise_lt_finRange 48).filter _

theorem mem_strayBlocks (b : BlockNo) :
    b ∈ strayBlocks d ↔ look d.blocks b = .used ∧
      ∀ p, (look d.entries p).state ≠ .empty → b ∉ (look d.entries p).blocks := by
  simp [strayBlocks, allBlocks, allPrograms]

/-! ### Where the scan begins -/

/-- The state in which the start-up scan begins: every volatile item at its reset value, and an asserted HALT input
taken as an assertion (R156). -/
def State.scanned (s : State) (haltInput : Bool) : State :=
  { State.volatileReset s.nv s.pending s.freeCtr with
    halt := haltInput, events := if haltInput then [.haltOn] else [] }

theorem State.hardwareReset_eq (s : State) (haltInput : Bool) :
    s.hardwareReset haltInput = (s.scanned haltInput).scanStart := by
  cases haltInput <;> rfl

theorem State.scanned_events_length (s : State) (haltInput : Bool) : (s.scanned haltInput).events.length ≤ 1 := by
  cases haltInput <;> simp [State.scanned]

theorem execHardwareReset_eq {haltInput : Bool} {u : State} (h : (s.scanned haltInput).scanStart = u) :
    exec (.hardwareReset haltInput) s = .next u.settle := by
  rw [← h, ← State.hardwareReset_eq]
  rfl

/-- With neither copy valid the store is formatted. -/
theorem State.scanStart_formats (h : latestCopy s.nv = none) (hroom : s.events.length < 32) :
    s.scanStart = { s with
      nv := { s.nv with copyA := { s.nv.copyA with checkOk := false } }
      work := Directory.formatted, latest := none
      storeWrite := .directory .a 1 Directory.formatted .scan false, bladeSave := false, scan := .writing
      events := s.events ++ [.storeFormatted] } := by
  simp only [State.scanStart, h]
  exact if_pos hroom

/-- A copy in order is taken as it stands, and nothing is written. -/
theorem State.scanStart_clean {i : CopyId} (h : latestCopy s.nv = some i)
    (hdamaged : damagedPrograms s.nv (nvCopy s.nv i).dir = [])
    (hstray : strayBlocks (markDamaged (nvCopy s.nv i).dir []) = []) :
    s.scanStart = { s with work := (nvCopy s.nv i).dir, latest := some i, scan := .ending } := by
  simp only [State.scanStart, h, hdamaged, hstray, freeStrays]
  rfl

/-- The copy of the other name, to which the scan's result goes (R135). -/
theorem writeTarget_some (i : CopyId) : writeTarget (some i) = if i = .a then CopyId.b else CopyId.a := by
  cases i <;> rfl

/-- Damaged programs are marked with their events, stray blocks freed, and the result written. -/
theorem State.scanStart_writes {i : CopyId} (h : latestCopy s.nv = some i) (hroom : s.events.length ≤ 32)
    (hfound : damagedPrograms s.nv (nvCopy s.nv i).dir ≠ [] ∨
      strayBlocks (markDamaged (nvCopy s.nv i).dir (damagedPrograms s.nv (nvCopy s.nv i).dir)) ≠ []) :
    let damaged := damagedPrograms s.nv (nvCopy s.nv i).dir
    let result := freeStrays (markDamaged (nvCopy s.nv i).dir damaged)
    let target := if i = .a then CopyId.b else CopyId.a
    let generation := (nvCopy s.nv i).generation
    s.scanStart = { s with
      nv := nvPutCopy s.nv target { nvCopy s.nv target with checkOk := false }
      work := result, latest := some i
      storeWrite := .directory target (if 65535 ≤ generation then 1 else generation + 1) result .scan false
      bladeSave := false, scan := .writing
      events := (s.events ++ damaged.map Event.programDamaged).take 32
      dropped := s.dropped || decide (32 < s.events.length + damaged.length) } := by
  have hdirty : ¬ ((damagedPrograms s.nv (nvCopy s.nv i).dir).isEmpty &&
      (strayBlocks (markDamaged (nvCopy s.nv i).dir (damagedPrograms s.nv (nvCopy s.nv i).dir))).isEmpty) = true := by
    simpa [Decidable.imp_iff_not_or] using hfound
  intro damaged result target generation
  have htarget : writeTarget (some i) = target := writeTarget_some i
  have hraised := State.raiseAll_eq (damaged.map Event.programDamaged) { s with work := result, latest := some i } hroom
  rw [List.length_map] at hraised
  simp only [State.scanStart, h, if_neg hdirty]
  rw [hraised, State.startDirWrite]
  simp only [htarget]
  rfl

theorem latestCopy_of_neither (ha : copyValid nv.copyA = false) (hb : copyValid nv.copyB = false) :
    latestCopy nv = none := by
  simp [latestCopy, ha, hb]

/-- Settles O55: what the scan finds, then the state each of its three beginnings leaves. -/
theorem hardwareResetBeginsTheScan : Obligations.HardwareResetBeginsTheScan := by
  refine ⟨fun nv d => ⟨fun p => ?_, damagedPrograms_sorted nv d, markDamaged_look d, fun ps => rfl, mem_strayBlocks,
    markBlocks_look d.blocks, fun p entry i b w hb hw => entryStep_listed hb hw⟩, ?_⟩
  · exact (mem_damagedPrograms p).trans (and_congr_right fun _ => entryDamaged_iff p _)
  intro haltInput s opened fresh leads
  have hlead : ∀ {u v : State}, (s.scanned haltInput).scanStart = u → u.settle = { v with pins := u.settle.pins } →
      leads v := fun h hv => ⟨_, execHardwareReset_eq h, hv⟩
  have hlength : opened.length ≤ 1 := State.scanned_events_length s haltInput
  refine ⟨fun ha hb => ?formats, fun i hi => ⟨fun hdamaged hstray => ?clean, fun hfound => ?writes⟩⟩
  case formats =>
    exact hlead (State.scanStart_formats (latestCopy_of_neither ha hb) (hlength.trans_lt (by decide))) rfl
  case clean =>
    exact hlead (State.scanStart_clean hi hdamaged (hdamaged ▸ hstray)) rfl
  case writes =>
    exact hlead (State.scanStart_writes hi (hlength.trans (by decide)) hfound) rfl

/-! ### The latest copy, and the scan's end -/

/-- An entry is in range by its state: an EMPTY one holds nothing, any other a count and up to six blocks. -/
theorem entryInRange_iff (entry : Entry) :
    entryInRange entry = true ↔
      (entry.state = .empty → entry.count = 0 ∧ entry.check = 0 ∧ entry.blocks = []) ∧
        (entry.state ≠ .empty → 1 ≤ entry.count ∧ entry.count ≤ 255 ∧ entry.blocks.length ≤ 6) := by
  unfold entryInRange
  cases entry.state <;> simp [and_assoc]

theorem copyValid_iff (c : DirCopy) :
    copyValid c = true ↔ c.checkOk = true ∧ 1 ≤ c.generation ∧ c.generation ≤ 65535 ∧ c.dir.savedBlade ≤ 999999 ∧
      ∀ p, entryInRange (look c.dir.entries p) = true := by
  simp [copyValid, allPrograms, and_assoc]

theorem generationFollows_iff (later earlier : Nat) :
    generationFollows later earlier = true ↔ later = earlier + 1 ∨ (earlier = 65535 ∧ later = 1) := by
  simp [generationFollows]

/-- Of two valid copies the one whose generation follows the other's, else the higher one, else copy A. -/
theorem latestCopy_of_both (ha : copyValid nv.copyA = true) (hb : copyValid nv.copyB = true) :
    latestCopy nv =
      if generationFollows nv.copyA.generation nv.copyB.generation then some .a
      else if generationFollows nv.copyB.generation nv.copyA.generation then some .b
      else if nv.copyA.generation < nv.copyB.generation then some .b else some .a := by
  simp only [latestCopy, ha, hb, if_true]

/-- Two generations do not each follow the other. -/
theorem generationFollows_asymm {a b : Nat} (h : generationFollows a b = true) : ¬ generationFollows b a = true := by
  rw [generationFollows_iff] at h ⊢
  omega

theorem execScanEnd_eq {u : State} (h : s.scanFinish = u) : exec .scanEnd s = .next u.settle := by
  rw [← h]
  rfl

/-- Settles O56: copy validity, the choice of the copy, and the end of the scan. -/
theorem scanChoosesTheLatestCopyAndEnds : Obligations.ScanChoosesTheLatestCopyAndEnds := by
  refine ⟨fun c => ?valid, fun nv => ⟨?onlyA, ?onlyB, latestCopy_of_neither, fun ha hb => ?both⟩,
    fun s => ⟨fun hl he => ?ends, fun h => ?waits⟩⟩
  case valid => simp only [copyValid_iff, entryInRange_iff]
  case onlyA => exact fun ha hb => by simp [latestCopy, ha, hb]
  case onlyB => exact fun ha hb => by simp [latestCopy, ha, hb]
  case both =>
    rw [latestCopy_of_both ha hb]
    refine ⟨fun h => if_pos ((generationFollows_iff _ _).2 h), fun h => ?_, fun h1 h2 => ?_⟩
    · have hb := (generationFollows_iff _ _).2 h
      rw [if_neg (generationFollows_asymm hb), if_pos hb]
    · rw [if_neg (mt (generationFollows_iff _ _).1 h1), if_neg (mt (generationFollows_iff _ _).1 h2)]
  case ends =>
    exact ⟨_, execScanEnd_eq (if_pos (by simp [hl, he])), rfl⟩
  case waits =>
    exact ⟨_, execScanEnd_eq (if_neg (by simpa [Decidable.imp_iff_not_or] using h)), rfl⟩

end Sys2Proof.Machine
end

section
/-! The reply to an accepted request (R162, R163, R165): its layout in the frame, and its place among the port units. -/

namespace Sys2Proof.Machine

variable {s u : State}

/-! ### The layout of a reply (section 11.2) -/

/-- The bits of a reply above its check. -/
def replyBody (r : Reply) : BitVec 40 :=
  r.code ++ r.tag ++ resultCode r.result ++
    (BitVec.ofBool r.restarted ++ BitVec.ofBool r.noisy ++ BitVec.ofBool r.ready ++ BitVec.ofBool r.halt) ++ r.data

/-- A field of a reply lies in its body, 8 bits down. -/
theorem slotFrame_field (r : Reply) {k n : Nat} (h : 8 ≤ k) :
    (slotFrame (some r)).extractLsb' k n = (replyBody r).extractLsb' (k - 8) n :=
  extract_append_above _ _ h

theorem slotFrame_bit (r : Reply) {k : Nat} (h : 8 ≤ k) :
    (slotFrame (some r)).getLsbD k = (replyBody r).getLsbD (k - 8) := by
  show (replyBody r ++ crc8 (replyBody r)).getLsbD k = _
  rw [BitVec.getLsbD_append, if_neg (by omega)]

/-- Bits 47..32 and 27..8: code, tag, result and data. -/
theorem replyBody_fields (r : Reply) :
    (replyBody r).extractLsb' 34 6 = r.code ∧ (replyBody r).extractLsb' 28 6 = r.tag ∧
      (replyBody r).extractLsb' 24 4 = resultCode r.result ∧ (replyBody r).extractLsb' 0 20 = r.data := by
  unfold replyBody
  simp (disch := decide) only [extract_append_above, extract_append_below]
  simp

/-- Bits 31..28: the four flags. -/
theorem replyBody_flags (r : Reply) :
    (replyBody r).getLsbD 23 = r.restarted ∧ (replyBody r).getLsbD 22 = r.noisy ∧
      (replyBody r).getLsbD 21 = r.ready ∧ (replyBody r).getLsbD 20 = r.halt := by
  simp only [replyBody, BitVec.getLsbD_append]
  simp

theorem slotFrame_layout (r : Reply) :
    let f := slotFrame (some r)
    f.extractLsb' 42 6 = r.code ∧ f.extractLsb' 36 6 = r.tag ∧ f.extractLsb' 32 4 = resultCode r.result ∧
      f.getLsbD 31 = r.restarted ∧ f.getLsbD 30 = r.noisy ∧ f.getLsbD 29 = r.ready ∧ f.getLsbD 28 = r.halt ∧
      f.extractLsb' 8 20 = r.data ∧ f.extractLsb' 0 8 = crc8 (f.extractLsb' 8 40) := by
  obtain ⟨hcode, htag, hresult, hdata⟩ := replyBody_fields r
  obtain ⟨hrestarted, hnoisy, hready, hhalt⟩ := replyBody_flags r
  have hcheck : (slotFrame (some r)).extractLsb' 0 8 = crc8 ((slotFrame (some r)).extractLsb' 8 40) := by
    show (withCheck (replyBody r)).extractLsb' 0 8 = crc8 (frameBody (withCheck (replyBody r)))
    rw [checkField_withCheck, frameBody_withCheck]
  exact ⟨(slotFrame_field r (by decide)).trans hcode, (slotFrame_field r (by decide)).trans htag,
    (slotFrame_field r (by decide)).trans hresult, (slotFrame_bit r (by decide)).trans hrestarted,
    (slotFrame_bit r (by decide)).trans hnoisy, (slotFrame_bit r (by decide)).trans hready,
    (slotFrame_bit r (by decide)).trans hhalt, (slotFrame_field r (by decide)).trans hdata, hcheck⟩

/-! ### The frame's own part of a request -/

/-- What frames change of a port unit; its RESTARTED flag and read pointer are apart from it. -/
def PortUnit.link (x : PortUnit) : Option Reply × Option (BitVec 48) × Nat × Bool := (x.slot, x.sdo, x.level, x.noisy)

/-- No port's reply slot, latest frame, level or NOISY differs. -/
def KeepsLinks (s u : State) : Prop := ∀ q, (u.port q).link = (s.port q).link

theorem KeepsLinks.of_ports (h : u.ports = s.ports) : KeepsLinks s u := fun q => by rw [State.port, h]; rfl

/-- A port's unit written with its link kept. -/
theorem KeepsLinks.putPort {p : Port} {x : PortUnit} (h : x.link = (s.port p).link) : KeepsLinks s (s.putPort p x) := by
  intro q
  by_cases hq : q = p
  · subst hq; rw [State.putPort_port, h]
  · rw [State.putPort_other _ _ _ _ hq]

/-- From `s` to `t` the port took one accepted request of this code: its reply waits with the flags as they stand,
the level is one lower, and the other ports keep their links. -/
def Served (s t : State) (p : Port) (code : BitVec 6) : Prop :=
  (∃ rep, (t.port p).slot = some rep ∧ rep.code = (if code = 63#6 then 62#6 else code) ∧
    rep.noisy = (t.port p).noisy ∧ rep.halt = t.halt ∧
    rep.ready = (match stationOf p with
      | some st => look t.pins.rdy st.ix
      | none => t.pins.attn) ∧
    rep.restarted = (if code = 1#6 then (s.port p).restarted else (t.port p).restarted)) ∧
  (t.port p).sdo = some (slotFrame (s.port p).slot) ∧
  (t.port p).level = (s.port p).level - 1 ∧
  (t.port p).noisy = noisyAt ((s.port p).level - 1) (s.port p).noisy ∧
  (∀ q, q ≠ p → (t.port q).slot = (s.port q).slot ∧ (t.port q).sdo = (s.port q).sdo ∧
    (t.port q).level = (s.port q).level ∧ (t.port q).noisy = (s.port q).noisy)

/-- The output lines of a settled state show the ready condition of each port. -/
theorem State.settle_shows (s : State) (p : Port) :
    (match stationOf p with
      | some st => look s.settle.pins.rdy st.ix
      | none => s.settle.pins.attn) = s.portReady p := by
  cases p <;> rfl

/-- The reply formed where the action kept every link. -/
theorem State.respond_served {p : Port} {code : BitVec 6} {restarted : Bool} {a : Answer}
    (h : KeepsLinks (s.acceptFrame p) u)
    (hr : restarted = if code = 1#6 then (s.port p).restarted else (u.port p).restarted) :
    Served s (u.respond p code restarted a) p code := by
  have hport := State.respond_port u p code restarted a
  have hlink := h p
  rw [State.acceptFrame_port] at hlink
  simp only [PortUnit.link, Prod.mk.injEq] at hlink
  obtain ⟨_, hsdo, hlevel, hnoisy⟩ := hlink
  rw [Served, hport]
  refine ⟨⟨_, rfl, rfl, rfl, rfl, ?ready, hr⟩, hsdo, hlevel, hnoisy, fun q hq => ?other⟩
  case ready => exact ((State.settle_shows _ p).trans (State.portReady_withLines u _ u.pins p)).symm
  case other =>
    have hlink := h q
    rw [State.acceptFrame_other _ _ _ hq] at hlink
    simp only [PortUnit.link, Prod.mk.injEq] at hlink
    rwa [State.respond_other _ _ _ _ _ _ hq]

theorem request_served {p : Port} {code : BitVec 6} {tag : TagField} {f : State → Except Fault (State × Answer)}
    {t : State} (hcode : code ≠ 1#6) (hf : ∀ x y a, x.Up → f x = .ok (y, a) → KeepsLinks x y)
    (h : request p code tag f s = .next t) : Served s t p code := by
  rcases request_cases h with ⟨_, rfl⟩ | ⟨hup, u, a, hu, rfl⟩
  · exact State.respond_served (.of_ports rfl) (if_neg hcode).symm
  · exact State.respond_served (hf _ _ _ hup hu) (if_neg hcode).symm

theorem plainRequest_served {p : Port} {code : BitVec 6} {tag : TagField} {f : State → State × Answer} {t : State}
    (hcode : code ≠ 1#6) (hf : ∀ x, KeepsLinks x (f x).1) (h : plainRequest p code tag f s = .next t) :
    Served s t p code :=
  request_served hcode (fun x y a _ hx => by
    injection hx with hx
    have := hf x
    rwa [hx] at this) h

theorem readRequest_served {p : Port} {code : BitVec 6} {tag : TagField} {f : State → Answer} {t : State}
    (hcode : code ≠ 1#6) (h : readRequest p code tag f s = .next t) : Served s t p code :=
  plainRequest_served hcode (fun _ => .of_ports rfl) h

/-! ### What the actions do to the port units -/

/-- An effect with its drain test touches no port unit. -/
theorem withDrain_ports {α : Type} {effect : State → Except Fault (State × α)} {a : α}
    (hs : ∀ v, effect s = .ok (v, a) → Settled effect s v a) (h : withDrain effect s = .ok (u, a)) :
    u.ports = s.ports := by
  obtain ⟨v, hv, _, hports, _⟩ := withDrain_cases hs h
  obtain ⟨_, evs, ha⟩ := hs v hv
  rw [hports, ← Settled.after hv ha]
  exact Outside.pushAll_ports s.outside evs

theorem withDrain_dresses_ports {α : Type} {f : State → State} {b a : α} (hf : Dresses f s)
    (h : withDrain (fun s => .ok (f s, b)) s = .ok (u, a)) : u.ports = s.ports :=
  withDrain_ports (fun v hv => by
    injection hv with hv; injection hv with h1 h2; subst h1 h2
    exact hf.settled _) h

theorem nextAction_ports {st : Station} {a : Answer} (h : nextAction st s = .ok (u, a)) : u.ports = s.ports := by
  have kept {b : Answer} (hx : (.ok (s, b) : Except Fault (State × Answer)) = .ok (u, a)) : u.ports = s.ports := by
    injection hx with hx; injection hx with hx _; rw [hx]
  cases hbusy : (s.ctx st).busy with
  | true => exact kept (nextAction_busy hbusy ▸ h)
  | false =>
    by_cases hline : Admits st s.line
    · cases hhalt : s.halt with
      | true => exact kept (nextAction_halt hbusy hline hhalt ▸ h)
      | false => exact withDrain_ports (fun _ => serve_settled) (nextAction_selects ⟨hbusy, hline, hhalt⟩ ▸ h)
    · exact kept (nextAction_notRunning hbusy hline ▸ h)

theorem doneAction_ports {st : Station} {tag : TagField} {outcome : BitVec 2} {value : Data} {a : Answer}
    (h : doneAction st tag outcome value s = .ok (u, a)) : u.ports = s.ports := by
  unfold doneAction at h
  split at h
  · injection h with h; injection h with h _; rw [h]
  · next t _ =>
    split at h
    · exact withDrain_ports (fun v hv => complete_settled s st t tag value.toNat hv) h
    · exact withDrain_dresses_ports (State.failJob_dresses s st t .machine) h
    · injection h with h; injection h with h _; rw [h]

theorem abortAction_ports {st : Station} {tag : TagField} {a : Answer} (h : abortAction st tag s = .ok (u, a)) :
    u.ports = s.ports := by
  unfold abortAction at h
  split at h
  · injection h with h; injection h with h _; rw [h]
  · next t _ => exact withDrain_dresses_ports (State.abortJob_dresses s st t) h

theorem lineStopAction_ports {tag : TagField} {a : Answer} (h : lineStopAction tag s = .ok (u, a)) :
    u.ports = s.ports := by
  unfold lineStopAction at h
  split at h
  · split at h
    · cases h
    · next v hv =>
      injection h with h; injection h with h _; subst h
      exact withDrain_dresses_ports (f := fun s => { s with line := .draining }) (Dresses.quiet fun _ => rfl) hv
  · injection h with h; injection h with h _; rw [h]

section
variable (s : State)

theorem extendAction_ports (st : Station) (tag : TagField) : (extendAction st tag s).1.ports = s.ports := by
  unfold extendAction
  split <;> rfl

theorem jobReadAction_ports (st : Station) (tag : TagField) (word : BitVec 4) :
    (jobReadAction st tag word s).1.ports = s.ports := by
  unfold jobReadAction
  dsimp only
  split <;> rfl

theorem configWriteAction_ports (table : TagField) (index setting : BitVec 4) (value : Data) :
    (configWriteAction table index setting value s).1.ports = s.ports := by
  unfold configWriteAction
  dsimp only
  split
  · rfl
  · iterate 4 (split; · rfl)
    dsimp only
    split
    · rw [State.bladeRetest_frame]
    · rfl

theorem palletFieldAction_ports (tag : TagField) (field : BitVec 4) (value : Data) :
    (palletFieldAction tag field value s).1.ports = s.ports := by
  unfold palletFieldAction
  split <;> rfl

theorem palletQueueAction_ports (tag : TagField) : (palletQueueAction tag s).1.ports = s.ports := by
  unfold palletQueueAction
  dsimp only
  split
  · rfl
  · iterate 4 (split; · rfl)
    rfl

theorem palletCancelAction_ports (tag : TagField) (seq : BitVec 8) :
    (palletCancelAction tag seq s).1.ports = s.ports := by
  unfold palletCancelAction
  dsimp only
  split
  · rfl
  · split
    · rfl
    · exact congrArg Panel.ports (State.finishTest_panel _)

theorem loadBeginAction_ports (program : TagField) (count : BitVec 8) :
    (loadBeginAction program count s).1.ports = s.ports := by
  unfold loadBeginAction
  dsimp only
  iterate 4 (split; · rfl)
  rfl

theorem loadStepAction_ports (top : BitVec 2) (step : PackedStep) :
    (loadStepAction top step s).1.ports = s.ports := by
  unfold loadStepAction
  dsimp only
  iterate 2 (split; · rfl)
  rfl

theorem loadEndAction_ports (tag : TagField) (mode : BitVec 4) (check : BitVec 16) :
    (loadEndAction tag mode check s).1.ports = s.ports := by
  unfold loadEndAction
  dsimp only
  iterate 5 (split; · rfl)
  exact congrArg Panel.ports State.startNext_panel

theorem loadAbortAction_ports : (loadAbortAction s).1.ports = s.ports := by
  unfold loadAbortAction
  split <;> rfl

theorem progEraseAction_ports (program : TagField) : (progEraseAction program s).1.ports = s.ports := by
  unfold progEraseAction
  dsimp only
  iterate 2 (split; · rfl)
  exact congrArg Panel.ports State.startNext_panel

theorem releaseRequest_ports (tag : TagField) (action : BitVec 4) :
    (releaseRequest tag action s).1.ports = s.ports := by
  unfold releaseRequest
  split
  · rfl
  · next t p st a hcheck =>
    obtain ⟨_, _, hold, _, rfl, hallowed⟩ := State.releaseCheck_ok hcheck
    exact congrArg Panel.ports (State.releasePile_panel hallowed)

theorem eventReadAction_ports : (eventReadAction s).1.ports = s.ports := by
  unfold eventReadAction
  split <;> rfl

/-! ### The actions that write their port's RESTARTED flag or read pointer -/

theorem snapReadAction_links (p : Port) (tag : TagField) (word : BitVec 5) :
    KeepsLinks s (snapReadAction p tag word s).1 := by
  unfold snapReadAction
  split
  · exact .of_ports rfl
  · exact .putPort rfl

theorem State.snapshot_links (p : Port) : KeepsLinks s (s.snapshot p) :=
  KeepsLinks.putPort (p := p) (x := { s.port p with snapPtr := 0 }) rfl

theorem State.statusClear_links (p : Port) : KeepsLinks s (s.statusClear p) := fun q => by
  rw [State.port, State.statusClear_ports]
  exact KeepsLinks.putPort (p := p) (x := { s.port p with restarted := false }) rfl q

theorem State.lineReset_links : KeepsLinks s s.lineReset := fun q => by rw [State.lineReset_port]; rfl

end

/-- Settles O4: each action keeps every link, and STATUS shows RESTARTED as it stood. -/
theorem acceptedRequestsFormReplies : Obligations.AcceptedRequestsFormReplies := by
  refine ⟨⟨rfl, rfl, slotFrame_layout⟩, fun c s t p code tag hreq h => ?_⟩
  show Served s t p code
  cases c with
  | nop | badCommand =>
    cases hreq
    injection h with h; subst h
    exact State.respond_served (.of_ports rfl) (by rw [State.acceptFrame_port]; simp)
  | status =>
    cases hreq
    injection h with h; subst h
    exact State.respond_served (State.statusClear_links _ p) (by rw [State.acceptFrame_port]; rfl)
  | snapshot => cases hreq; exact plainRequest_served (f := fun x => (x.snapshot p, _)) (by decide) (fun x => State.snapshot_links x p) h
  | snapRead => cases hreq; exact plainRequest_served (by decide) (fun x => snapReadAction_links x _ _ _) h
  | pileRead _ _ word =>
    cases hreq; exact readRequest_served (f := fun x => x.pileReadAnswer tag word) (by decide) h
  | configRead _ index setting =>
    cases hreq; exact readRequest_served (f := fun x => x.configReadAnswer tag index setting) (by decide) h
  | palletRead _ source word =>
    cases hreq; exact readRequest_served (f := fun x => x.palletReadAnswer tag source word) (by decide) h
  | progRead _ half index =>
    cases hreq; exact readRequest_served (f := fun x => x.progReadAnswer tag half index) (by decide) h
  | progInfo _ item => cases hreq; exact readRequest_served (f := fun x => x.progInfoAnswer tag item) (by decide) h
  | next => cases hreq; exact request_served (by decide) (fun _ _ _ _ hx => .of_ports (nextAction_ports hx)) h
  | done => cases hreq; exact request_served (by decide) (fun _ _ _ _ hx => .of_ports (doneAction_ports hx)) h
  | abort => cases hreq; exact request_served (by decide) (fun _ _ _ _ hx => .of_ports (abortAction_ports hx)) h
  | lineStop => cases hreq; exact request_served (by decide) (fun _ _ _ _ hx => .of_ports (lineStopAction_ports hx)) h
  | extend => cases hreq; exact plainRequest_served (by decide) (fun x => .of_ports (extendAction_ports x _ _)) h
  | jobRead => cases hreq; exact plainRequest_served (by decide) (fun x => .of_ports (jobReadAction_ports x _ _ _)) h
  | bladeChanged =>
    cases hreq
    exact plainRequest_served (f := fun x => (x.changeBlade, _)) (by decide)
      (fun x => .of_ports (congrArg Panel.ports State.startNext_panel)) h
  | lineStart =>
    cases hreq; exact plainRequest_served (f := lineStartAction tag) (by decide) (fun _ => .of_ports rfl) h
  | lineReset =>
    cases hreq; exact plainRequest_served (f := fun x => (x.lineReset, _)) (by decide) State.lineReset_links h
  | configWrite =>
    cases hreq; exact plainRequest_served (by decide) (fun x => .of_ports (configWriteAction_ports x _ _ _ _)) h
  | palletField =>
    cases hreq; exact plainRequest_served (by decide) (fun x => .of_ports (palletFieldAction_ports x _ _ _)) h
  | palletQueue => cases hreq; exact plainRequest_served (by decide) (fun x => .of_ports (palletQueueAction_ports x _)) h
  | palletCancel =>
    cases hreq; exact plainRequest_served (by decide) (fun x => .of_ports (palletCancelAction_ports x _ _)) h
  | loadBegin => cases hreq; exact plainRequest_served (by decide) (fun x => .of_ports (loadBeginAction_ports x _ _)) h
  | loadStep => cases hreq; exact plainRequest_served (by decide) (fun x => .of_ports (loadStepAction_ports x _ _)) h
  | loadEnd => cases hreq; exact plainRequest_served (by decide) (fun x => .of_ports (loadEndAction_ports x _ _ _)) h
  | loadAbort => cases hreq; exact plainRequest_served (by decide) (fun x => .of_ports (loadAbortAction_ports x)) h
  | progErase => cases hreq; exact plainRequest_served (by decide) (fun x => .of_ports (progEraseAction_ports x _)) h
  | release => cases hreq; exact plainRequest_served (by decide) (fun x => .of_ports (releaseRequest_ports x _ _)) h
  | eventRead => cases hreq; exact plainRequest_served (by decide) (fun x => .of_ports (eventReadAction_ports x)) h
  | frameDiscarded | haltAsserted | haltReleased | hardwareReset | scanEnd | timebaseTick | responseTimerExpiry
  | blockWriteDone | directoryWriteDone | drainComplete => cases hreq

end Sys2Proof.Machine
end

section
/-! The output lines (R63, R167): every command ends by setting them from their conditions, and the condition of RDY
is that a NEXT would be answered JOB. -/

namespace Sys2Proof.Machine

variable {s t : State} {st : Station}

/-! ### Every command ends with its output lines shown -/

theorem request_settles {p : Port} {code : BitVec 6} {tag : TagField} {f : State → Except Fault (State × Answer)}
    (h : request p code tag f s = .next t) : ∃ x : State, t = x.settle := by
  rcases request_cases h with ⟨_, rfl⟩ | ⟨_, u, a, _, rfl⟩
  · exact ⟨_, rfl⟩
  · exact ⟨_, rfl⟩

theorem event_settles {r : Except Fault (State × Unit)} (h : event r = .next t) : ∃ x : State, t = x.settle := by
  obtain ⟨u, _, _, rfl⟩ := event_cases h
  exact ⟨u, rfl⟩

theorem exec_settles {c : Instr} (h : exec c s = .next t) : ∃ x : State, t = x.settle := by
  cases c with
  | nop | badCommand | status | frameDiscarded => injection h with h; exact ⟨_, h.symm⟩
  | next | done | abort | lineStop => exact request_settles h
  | extend | jobRead | bladeChanged | lineStart | lineReset | configWrite | palletField | palletQueue | palletCancel
  | loadBegin | loadStep | loadEnd | loadAbort | progErase | release | eventRead | snapshot | snapRead | configRead
  | palletRead | progRead | progInfo | pileRead =>
    simp only [exec, execExtend, execSnapshot, execSnapRead, execJobRead, execBladeChanged, execLineStart,
      execLineReset, execConfigWrite, execPalletField, execPalletQueue, execPalletCancel, execLoadBegin, execLoadStep,
      execLoadEnd, execLoadAbort, execProgErase, execRelease, execEventRead, execPileRead, execConfigRead,
      execPalletRead, execProgRead, execProgInfo, readRequest, plainRequest] at h
    exact request_settles h
  | haltAsserted | haltReleased | hardwareReset | scanEnd | timebaseTick | responseTimerExpiry | blockWriteDone
  | directoryWriteDone | drainComplete =>
    simp only [exec, execHaltAsserted, execHaltReleased, execHardwareReset, execScanEnd, execTimebaseTick,
      execResponseTimerExpiry, execBlockWriteDone, execDirectoryWriteDone, execDrainComplete] at h
    exact event_settles h

/-! ### The ready condition -/

theorem State.ready_iff (s : State) (st : Station) : s.ready st = true ↔ Selects s st ∧ s.finds st = true := by
  simp [State.ready, Selects, State.lineAdmits_iff, and_assoc]

theorem State.attention_iff (s : State) : s.attention = true ↔ s.events ≠ [] ∧ s.line ≠ .starting := by
  simp [State.attention]

/-- RDY of a settled state shows its ready condition, which reads no output line. -/
theorem State.settle_rdy (s : State) (st : Station) : look s.settle.pins.rdy st.ix = s.settle.ready st := by
  refine Eq.trans ?_ (State.ready_withLines s s.ports s.settle.pins st).symm
  cases st <;> rfl

/-- A selection that finds its record missing stops the machine, so no next state comes of it. -/
theorem next_of_select_error {f : Fault} (hsel : Selects s st) (h : s.select st = .error f) :
    exec (.next st) s ≠ .next t := by
  intro hnext
  have haccept : (s.acceptFrame st.port).select st = .error f :=
    (State.select_withLines s (s.acceptFrame st.port).ports s.pins st).trans (by rw [h]; rfl)
  have hfault : nextAction st (s.acceptFrame st.port) = .error f := by
    rw [nextAction_selects (s := s.acceptFrame st.port) hsel]
    simp [withDrain, serve, haccept]
  rcases request_cases hnext with ⟨hstarting, _⟩ | ⟨_, u, a, hu, _⟩
  · exact Admits.up hsel.2.1 hstarting
  · rw [hfault] at hu; cases hu

theorem Answered.slot {p : Port} {code : BitVec 6} {r : Result} {tag : TagField} {d : Data}
    (h : Answered s t p code r tag d) : ∃ rep, (t.port p).slot = some rep ∧ rep.result = r := by
  obtain ⟨hunit, _⟩ := h
  exact ⟨_, by rw [hunit]; rfl, rfl⟩

/-- A search finds a job exactly where NEXT is answered JOB. -/
theorem finds_iff_next_job (hsel : Selects s st) :
    s.finds st = true ↔
      ∃ u rep, exec (.next st) s = .next u ∧ (u.port st.port).slot = some rep ∧ rep.result = .job := by
  rcases h : s.select st with f | ⟨v, _ | ⟨tag, j⟩⟩
  · have hfinds : s.finds st = false := by simp [State.finds, h]
    exact iff_of_false (by simp [hfinds]) fun ⟨u, _, hexec, _⟩ => next_of_select_error hsel h hexec
  · have hfinds : s.finds st = false := by simp [State.finds, h]
    obtain ⟨u, hexec, _, hanswer⟩ := next_waits hsel h
    obtain ⟨rep, hslot, hwait⟩ := hanswer.slot
    refine iff_of_false (by simp [hfinds]) fun ⟨u', rep', hexec', hslot', hjob⟩ => ?_
    obtain rfl : u = u' := by injection hexec.symm.trans hexec'
    obtain rfl : rep = rep' := by injection hslot.symm.trans hslot'
    rw [hwait] at hjob
    cases hjob
  · obtain ⟨u, hexec, _, hanswer⟩ := next_issues hsel h
    obtain ⟨rep, hslot, hjob⟩ := hanswer.slot
    exact iff_of_true (by simp [State.finds, h]) ⟨u, rep, hexec, hslot, hjob⟩

/-- Settles O3: the lines show the settled state's conditions. -/
theorem outputLinesShowTheirConditions : Obligations.OutputLinesShowTheirConditions := by
  intro c s t h
  obtain ⟨x, rfl⟩ := exec_settles h
  refine ⟨fun st => ?_, x.attention_iff⟩
  rw [State.settle_rdy, State.ready_iff]
  exact and_congr_right finds_iff_next_job

end Sys2Proof.Machine
end
